-- ==== Sys2Proof/Word.lean ====
section
/-!
DEFINITION. The word types of the T412: a byte of a frame, a 16-bit register or item value, and the
32-bit word of the uptime counter, the statistics counters and the image sequence number.
-/

namespace Sys2Proof

/-- One byte of a frame (R167). -/
abbrev Byte := BitVec 8

/-- A 16-bit register value, item value, generation or check value. -/
abbrev Word := BitVec 16

/-- A 32-bit quantity: uptime (0.5), a counter (R165), a sequence number (R149). -/
abbrev DWord := BitVec 32

/-- A value of the uptime counter in milliseconds, modulo 2^32 (0.5 Time). -/
abbrev Uptime := DWord

/-- One of the four field lines, numbered 0 to 3 (4.1). -/
abbrev LineNo := Fin 4

end Sys2Proof
end

