-- ==== Sys2Proof/Syntax.lean ====
section
/-!
DEFINITION. The commands of the T412: one constructor for each row of spec/opcode_table.json, the
steps the part takes. Each is one whole event at the host link, at a field line, at a timer, at the
image store or at a pin.

A host frame reaches the part byte by byte (R112), so the command of a frame's arrival carries the
byte that completes the frame, its second check byte: the frame's fields are the bytes the framer
holds. A frame's row is the event only of a byte that completes a frame of that row; the same byte
under another row is no event of that row and changes nothing (log entry 4).

A field frame reaches the part whole: its command carries every byte after the sync byte.
-/

namespace Sys2Proof

inductive Instr where
  /-- A byte outside 4–250 arrives as the length byte (R112). -/
  | hostBadLength (byte : Byte)
  /-- The framer's gap timer expires (R113). -/
  | hostGapTimerExpiry
  /-- A second check byte completes a frame that fails a test of R114. -/
  | hostFrameRejected (byte : Byte)
  /-- A second check byte completes a FETCH frame that passes R114. -/
  | fetch (byte : Byte)
  /-- … a STORE frame. -/
  | store (byte : Byte)
  /-- … a STORE_SET frame. -/
  | storeSet (byte : Byte)
  /-- … a CANCEL frame. -/
  | cancel (byte : Byte)
  /-- … a MGMT frame with an empty body or an unknown operation code. -/
  | mgmtBadOperation (byte : Byte)
  /-- … a MGMT frame of the operation named, here and below. -/
  | sessionOpen (byte : Byte)
  | sessionClose (byte : Byte)
  | stageCopyActive (byte : Byte)
  | stageClear (byte : Byte)
  | stagePutMap (byte : Byte)
  | stageDeleteMap (byte : Byte)
  | stagePutScan (byte : Byte)
  | stageDeleteScan (byte : Byte)
  | stagePutLine (byte : Byte)
  | stagePutBridge (byte : Byte)
  | validate (byte : Byte)
  | activate (byte : Byte)
  /-- The drain timer of an ACTIVATE expires (R146). -/
  | drainTimerExpiry
  | commit (byte : Byte)
  /-- The write of a COMMIT ends. `fault`: the store reported a fault. `cells`: the cells of the
  target slot that hold another value than the one written, none for a sound write (R152, R153). -/
  | commitWriteEnd (fault : Bool) (cells : List Host.Cell)
  /-- The verify of a COMMIT ends (R153). -/
  | commitVerifyResult
  /-- RESTART, other than one whose argument is COLD. -/
  | restartWarm (byte : Byte)
  /-- RESTART, other than one whose argument is WARM. -/
  | restartCold (byte : Byte)
  | stationReset (byte : Byte)
  /-- STATS, other than one whose clear byte is 1. -/
  | statsRead (byte : Byte)
  /-- STATS, other than one whose clear byte is 0. -/
  | statsClear (byte : Byte)
  | status (byte : Byte)
  | readActive (byte : Byte)
  | readStage (byte : Byte)
  | stationList (byte : Byte)
  | scanInfo (byte : Byte)
  /-- The session idle timer expires (R130). -/
  | idleTimerExpiry
  /-- The transmitter begins the head frame (R120). -/
  | transmitStart
  /-- The last byte of the head frame has been sent (R120). -/
  | transmitEnd
  /-- A line's guard time expires (R65, R66). -/
  | guardTimeExpiry (line : LineNo)
  /-- The last byte of an attempt's frame has been sent (R69). -/
  | fieldTransmissionEnd (line : LineNo)
  /-- A frame begins to arrive on a field line: its sync byte is heard (R65, R70). -/
  | fieldReceptionStart (line : LineNo)
  /-- A frame completes on a field line; `bytes` are its length byte, its counted bytes and its two
  check bytes (R70, R71). -/
  | fieldFrameReceived (line : LineNo) (bytes : List Byte)
  /-- A frame is abandoned on a field line for a bad length or a byte gap over 10 ms (R70). -/
  | fieldGapAbandon (line : LineNo)
  /-- A line's reply timer expires (R73). -/
  | replyTimerExpiry (line : LineNo)
  /-- A line's busy backoff expires (R75). -/
  | busyBackoffExpiry (line : LineNo)
  /-- The due timer of a scan place expires (R95). -/
  | scanDueExpiry (place : Nat)
  /-- The probe timer of a station record expires (R87). -/
  | probeTimerExpiry (line : LineNo) (station : Nat)
  /-- The RESET pin falls low (R155). -/
  | resetPinEvent
  /-- The RESET pin is released (R155, R156). -/
  | resetPinRelease
  /-- Power is applied (R156). -/
  | powerOn
  /-- Start-up ends (R158). -/
  | enterRunning
  /-- A byte arrives that neither completes a host frame nor is a bad length (R112). -/
  | hostByteReceived (byte : Byte)
  /-- The supply fails (R154). -/
  | powerLoss
deriving DecidableEq, Repr

end Sys2Proof
end

