-- ==== Sys2Proof/WellFormed.lean ====
section
/-!
DEFINITION. Which commands spell an event the part can meet at all, judged by the command's operands
alone. Whether a well-formed command is an event in a given state is the machine's to say.
-/

namespace Sys2Proof

/-- A length byte inside 4–250 (R112, R167). -/
def goodLength (byte : Byte) : Bool := decide (4 ≤ byte.toNat) && decide (byte.toNat ≤ 250)

/-- The bytes after the sync byte of a complete frame: a length byte in 4–250, as many counted bytes
as it says, and two check bytes (R167). -/
def completeFrameBytes (bytes : List Byte) : Bool :=
  match bytes with
  | [] => false
  | len :: rest => goodLength len && decide (rest.length = len.toNat + 2)

/-- A cell that a COMMIT's write reaches: bytes 1 to 7109 of a slot (R171). -/
def writtenCell (c : Host.Cell) : Bool := decide (1 ≤ c.1) && decide (c.1 ≤ 7109)

/-- The command's operands lie in their ranges: a bad length is outside 4–250, a field frame is
complete, the cells of a COMMIT's write lie in bytes 1–7109, a scan place is 0–63, and a station is
1–126. Every other command has operands of every value. -/
def Instr.wellFormed : Instr → Bool
  | .hostBadLength b => !goodLength b
  | .fieldFrameReceived _ bytes => completeFrameBytes bytes
  | .commitWriteEnd _ cells => cells.all writtenCell
  | .scanDueExpiry place => decide (place < 64)
  | .probeTimerExpiry _ station => decide (1 ≤ station) && decide (station ≤ 126)
  | .hostGapTimerExpiry => true
  | .hostFrameRejected _ => true
  | .fetch _ => true
  | .store _ => true
  | .storeSet _ => true
  | .cancel _ => true
  | .mgmtBadOperation _ => true
  | .sessionOpen _ => true
  | .sessionClose _ => true
  | .stageCopyActive _ => true
  | .stageClear _ => true
  | .stagePutMap _ => true
  | .stageDeleteMap _ => true
  | .stagePutScan _ => true
  | .stageDeleteScan _ => true
  | .stagePutLine _ => true
  | .stagePutBridge _ => true
  | .validate _ => true
  | .activate _ => true
  | .drainTimerExpiry => true
  | .commit _ => true
  | .commitVerifyResult => true
  | .restartWarm _ => true
  | .restartCold _ => true
  | .stationReset _ => true
  | .statsRead _ => true
  | .statsClear _ => true
  | .status _ => true
  | .readActive _ => true
  | .readStage _ => true
  | .stationList _ => true
  | .scanInfo _ => true
  | .idleTimerExpiry => true
  | .transmitStart => true
  | .transmitEnd => true
  | .guardTimeExpiry _ => true
  | .fieldTransmissionEnd _ => true
  | .fieldReceptionStart _ => true
  | .fieldGapAbandon _ => true
  | .replyTimerExpiry _ => true
  | .busyBackoffExpiry _ => true
  | .resetPinEvent => true
  | .resetPinRelease => true
  | .powerOn => true
  | .enterRunning => true
  | .hostByteReceived _ => true
  | .powerLoss => true

end Sys2Proof
end

