-- ==== Sys2Proof/Decode.lean ====
section
/-!
DEFINITION. Reading a command from the bits of an opcode-table row. No row of
spec/opcode_table.json gives bits (every row's list of fields is empty and none has fixed bits), so
no word spells a command. Host frames are read by the framer and the frame rules
(Machine/Operands.lean), not here.
-/

namespace Sys2Proof

/-- The command a word spells by the table's bits: none, since the table gives no row any bits. -/
def decodeTableWord (nbits w : Nat) : Option Instr :=
  match nbits, w with
  | _, _ => none

end Sys2Proof
end

