-- ==== Sys2Proof/Machine/Bytes.lean ====
section
/-!
DEFINITION. Byte order (0.5: the more significant byte first), the check value and the frame layout
(R167).
-/

namespace Sys2Proof.Machine

/-- The more significant byte of a 16-bit field. -/
def highByte (w : Word) : Byte := w.extractLsb' 8 8

/-- The less significant byte of a 16-bit field. -/
def lowByte (w : Word) : Byte := w.extractLsb' 0 8

/-- A 16-bit field from its two bytes, the more significant first. -/
def wordOf (high low : Byte) : Word := high ++ low

/-- A 32-bit field from its two halves, the more significant first. -/
def dwordOf (high low : Word) : DWord := high ++ low

/-- The more significant half of a 32-bit field. -/
def highWord (d : DWord) : Word := d.extractLsb' 16 16

/-- The less significant half of a 32-bit field. -/
def lowWord (d : DWord) : Word := d.extractLsb' 0 16

/-- A 16-bit field as sent. -/
def bytes16 (w : Word) : List Byte := [highByte w, lowByte w]

/-- A 32-bit field as sent. -/
def bytes32 (d : DWord) : List Byte := bytes16 (highWord d) ++ bytes16 (lowWord d)

/-- A number in a one-byte field. -/
def nat1 (n : Nat) : Byte := BitVec.ofNat 8 n

/-- A number in a two-byte field. -/
def nat2 (n : Nat) : List Byte := bytes16 (BitVec.ofNat 16 n)

/-- A number in a four-byte field. -/
def nat4 (n : Nat) : List Byte := bytes32 (BitVec.ofNat 32 n)

/-- The unsigned number of a two-byte field. -/
def natOf2 (high low : Byte) : Nat := (wordOf high low).toNat

/-- The unsigned number of a four-byte field. -/
def natOf4 (b3 b2 b1 b0 : Byte) : Nat := (dwordOf (wordOf b3 b2) (wordOf b1 b0)).toNat

/-- 16-bit values as sent, two bytes each. -/
def wordBytes (ws : List Word) : List Byte := ws.flatMap bytes16

/-- The 16-bit values of a run of bytes, two bytes each; an odd last byte gives none. -/
def wordsOf : List Byte → List Word
  | high :: low :: rest => wordOf high low :: wordsOf rest
  | _ => []

/-- One data bit into the check register (R167): shift left by one place, and combine with 1021h when
the bit shifted out differs from the data bit. -/
def checkBit (r : Word) (bit : Bool) : Word :=
  if r.msb != bit then (r <<< 1) ^^^ 0x1021#16 else r <<< 1

/-- One byte into the check register, most significant bit first (R167). -/
def checkByte (r : Word) (b : Byte) : Word :=
  [7, 6, 5, 4, 3, 2, 1, 0].foldl (fun r i => checkBit r (b.getLsbD i)) r

/-- The check over a run of bytes: the register starts at FFFFh (R167). -/
def checkOf (bytes : List Byte) : Word := bytes.foldl checkByte 0xFFFF#16

/-- The sync byte (R167). -/
def syncByte : Byte := 0xC3#8

/-- The bridge's field address (0.5). -/
def bridgeFieldAddress : Byte := 127#8

/-- Frame kinds (R167). -/
inductive FrameKind where
  | fetch | store | storeSet | cancel | mgmt | reply | ack | mreply
deriving DecidableEq, Repr, Inhabited

/-- The kind byte (R167). -/
def FrameKind.code : FrameKind → Byte
  | .fetch => 0x21#8
  | .store => 0x22#8
  | .storeSet => 0x23#8
  | .cancel => 0x28#8
  | .mgmt => 0x30#8
  | .reply => 0x41#8
  | .ack => 0x48#8
  | .mreply => 0x50#8

/-- The length byte and the counted bytes of a frame (R167), over which the check is computed. -/
def countedBytes (dest source kind tag : Byte) (body : List Byte) : List Byte :=
  nat1 (body.length + 4) :: dest :: source :: kind :: tag :: body

/-- A whole frame as sent (R167). -/
def wireFrame (dest source : Byte) (kind : FrameKind) (tag : Byte) (body : List Byte) : List Byte :=
  syncByte :: (countedBytes dest source kind.code tag body
    ++ bytes16 (checkOf (countedBytes dest source kind.code tag body)))

end Sys2Proof.Machine
end

