-- ==== Sys2Proof/Machine/Collections.lean ====
section
/-!
DEFINITION. The two container shapes of the state: four like things, one per field line, and a
finite map from numbers kept as a list of (key, value) pairs with the keys strictly rising, so that
equal maps are equal data.
-/

namespace Sys2Proof.Machine

/-- One value for each of the four field lines. -/
structure Four (α : Type) where
  l0 : α
  l1 : α
  l2 : α
  l3 : α
deriving DecidableEq, Repr, Inhabited

/-- The value of one line. -/
def Four.get {α : Type} (v : Four α) (i : LineNo) : α :=
  match i with
  | 0 => v.l0
  | 1 => v.l1
  | 2 => v.l2
  | 3 => v.l3

/-- The same four values but for one line's. -/
def Four.set {α : Type} (v : Four α) (i : LineNo) (a : α) : Four α :=
  match i with
  | 0 => { v with l0 := a }
  | 1 => { v with l1 := a }
  | 2 => { v with l2 := a }
  | 3 => { v with l3 := a }

/-- The same value on every line. -/
def Four.fill {α : Type} (a : α) : Four α := ⟨a, a, a, a⟩

/-- Every line's value, built from the line's number. -/
def Four.build {α : Type} (f : LineNo → α) : Four α := ⟨f 0, f 1, f 2, f 3⟩

/-- The four values, line 0 first. -/
def Four.toList {α : Type} (v : Four α) : List α := [v.l0, v.l1, v.l2, v.l3]

/-- The four line numbers in ascending order. -/
def allLines : List LineNo := [0, 1, 2, 3]

/-- A finite map from numbers, as (key, value) pairs with rising keys (`sparseWf`). -/
abbrev Sparse (α : Type) := List (Nat × α)

/-- The value listed under a key. -/
def Sparse.get {α : Type} : Sparse α → Nat → Option α
  | [], _ => none
  | (j, a) :: m, k => if j = k then some a else Sparse.get m k

/-- Lists `a` under `k`, replacing what was there and keeping the keys in order. -/
def Sparse.put {α : Type} (k : Nat) (a : α) : Sparse α → Sparse α
  | [] => [(k, a)]
  | (j, b) :: m =>
    if k < j then (k, a) :: (j, b) :: m
    else if k = j then (k, a) :: m
    else (j, b) :: Sparse.put k a m

/-- Unlists a key. -/
def Sparse.del {α : Type} (k : Nat) (m : Sparse α) : Sparse α := m.filter (fun e => e.1 != k)

/-- Changes the value listed under a key, and nothing where none is listed. -/
def Sparse.modify {α : Type} (k : Nat) (f : α → α) : Sparse α → Sparse α
  | [] => []
  | (j, a) :: m => if j = k then (j, f a) :: m else (j, a) :: Sparse.modify k f m

/-- Changes every listed value. -/
def Sparse.mapVals {α β : Type} (f : Nat → α → β) (m : Sparse α) : Sparse β :=
  m.map (fun e => (e.1, f e.1 e.2))

/-- The keys are strictly rising and each lies below `bound`. -/
def sparseWf {α : Type} (bound : Nat) (m : Sparse α) : Bool :=
  decide ((m.map Prod.fst).Pairwise (· < ·)) && m.all (fun e => decide (e.1 < bound))

/-- What a cell of an addressed store reads as, `d` where the address is unlisted. -/
def Sparse.read {α : Type} (d : α) (m : Sparse α) (k : Nat) : α := (m.get k).getD d

/-- Writes one cell of an addressed store; writing what an unlisted address reads as unlists it. -/
def Sparse.write {α : Type} [DecidableEq α] (d : α) (k : Nat) (a : α) (m : Sparse α) : Sparse α :=
  if a = d then m.del k else m.put k a

/-- Writes consecutive cells in ascending order from an address. -/
def Sparse.writeFrom {α : Type} [DecidableEq α] (d : α) : Nat → List α → Sparse α → Sparse α
  | _, [], m => m
  | k, a :: as, m => Sparse.writeFrom d (k + 1) as (m.write d k a)

/-- Reads `n` consecutive cells in ascending order from an address. -/
def Sparse.readFrom {α : Type} (d : α) (m : Sparse α) : Nat → Nat → List α
  | _, 0 => []
  | k, n + 1 => m.read d k :: Sparse.readFrom d m (k + 1) n

/-- The canonical form of an addressed store of `size` cells: keys strictly rising and below `size`,
and no entry equal to what an unlisted address reads as. -/
def storeWf {α : Type} [DecidableEq α] (size : Nat) (d : α) (m : Sparse α) : Bool :=
  sparseWf size m && m.all (fun e => decide (e.2 ≠ d))

end Sys2Proof.Machine
end

