-- ==== Sys2Proof/Machine/Records.lean ====
section
/-!
DEFINITION. The records of the configuration tables (R4 to R7, R62, R93, R122, R169), as data.
-/

namespace Sys2Proof.Machine

/-- Remote type of a map entry (1.2). -/
inductive RemoteType where
  | u8 | s8 | u16 | s16 | u32 | s32 | f32
deriving DecidableEq, Repr, Inhabited

/-- Which half of a 32-bit element the lower-numbered register holds (R16). -/
inductive WordOrder where
  | highFirst | lowFirst
deriving DecidableEq, Repr, Inhabited

/-- Access of a map entry (R3). -/
inductive Access where
  | ro | rw | wo
deriving DecidableEq, Repr, Inhabited

/-- Read policy of a map entry (R36, R110). -/
inductive Policy where
  | live | mirror | mirrorFallback
deriving DecidableEq, Repr, Inhabited

/-- Mirror binding of a map entry: a scan place and a register offset (R5). -/
structure Binding where
  scan : Nat
  offset : Nat
deriving DecidableEq, Repr, Inhabited

/-- Scale of a map entry (R6). -/
structure Scale where
  multiplier : Nat
  divisor : Nat
  offset : Int
deriving DecidableEq, Repr, Inhabited

/-- A map entry (1.2). -/
structure MapEntry where
  base : Nat
  length : Nat
  type : RemoteType
  line : LineNo
  station : Nat
  remote : Nat
  order : WordOrder
  access : Access
  policy : Policy
  binding : Option Binding
  maxAge : Option Nat
  scale : Option Scale
deriving DecidableEq, Repr, Inhabited

/-- A scan entry (R93). -/
structure ScanEntry where
  line : LineNo
  station : Nat
  remote : Nat
  count : Nat
  period : Nat
  mirrorBase : Nat
deriving DecidableEq, Repr, Inhabited

/-- Bit rates; 230400 is for the host link alone (R62, R122). -/
inductive BitRate where
  | b9600 | b19200 | b38400 | b57600 | b115200 | b230400
deriving DecidableEq, Repr, Inhabited

/-- Parities (R62, R122). -/
inductive Parity where
  | none | even | odd
deriving DecidableEq, Repr, Inhabited

/-- A line settings record (R62). -/
structure LineSettings where
  enabled : Bool
  bitRate : BitRate
  parity : Parity
  replyTimeout : Nat
  retryLimit : Nat
  guardTime : Nat
  offlineThreshold : Nat
  probeInterval : Nat
  probeRegister : Nat
  busyBackoff : Nat
deriving DecidableEq, Repr, Inhabited

/-- The bridge settings record (R122). -/
structure BridgeSettings where
  address : Byte
  bitRate : BitRate
  parity : Parity
deriving DecidableEq, Repr, Inhabited

/-- The active tables: map table in position order (R7), scan places by index (R93), line settings
(R62), bridge settings (R122). -/
structure Tables where
  map : List MapEntry
  scan : Sparse ScanEntry
  lines : Four LineSettings
  bridge : BridgeSettings
deriving DecidableEq, Repr, Inhabited

/-- The staging area (R131): map places 0 to 255 and scan places 0 to 63, a place that is not listed
being unused, the four line records, the bridge record, and the validation mark (R132). -/
structure Staging where
  map : Sparse MapEntry
  scan : Sparse ScanEntry
  lines : Four LineSettings
  bridge : BridgeSettings
  mark : Bool
deriving DecidableEq, Repr, Inhabited

end Sys2Proof.Machine
end

