-- ==== Sys2Proof/Machine/Defaults.lean ====
section
/-!
DEFINITION. The default settings and the empty configuration (R62, R122, R157).
-/

namespace Sys2Proof.Machine

/-- The default line settings of R62. -/
def defaultLine : LineSettings where
  enabled := true
  bitRate := .b19200
  parity := .even
  replyTimeout := 200
  retryLimit := 2
  guardTime := 5
  offlineThreshold := 3
  probeInterval := 2000
  probeRegister := 0
  busyBackoff := 50

/-- The default bridge settings of R122: host address 100, 115200 bit/s, even parity. -/
def defaultBridge : BridgeSettings where
  address := 100#8
  bitRate := .b115200
  parity := .even

/-- The empty configuration of R157. -/
def emptyTables : Tables where
  map := []
  scan := []
  lines := Four.fill defaultLine
  bridge := defaultBridge

end Sys2Proof.Machine
end

