-- ==== Sys2Proof/Machine/State.lean ====
section
/-!
DEFINITION. The state of the T412 as plain data: every register, queue, table, buffer, counter,
timer and pin the spec names, and the queue of waiting commands.

A timer is held as the uptime value at which it expires, absent while it is stopped. A thing that is
FREE, unused or absent in the spec is not listed (`Sparse`) or `none`.
-/

namespace Sys2Proof.Machine

/-! ## The outcomes that stop -/

/-- Why the machine stops with a fault. There is no such reason: the spec calls no behaviour of the
part undefined, and every command has an effect in every state. Safe: no run is cut short. -/
inductive Fault where
deriving DecidableEq, Repr

/-- Why a command has no meaning. -/
inductive Refusal where
  /-- Raised by `exec` for a command the model gives no meaning yet; no arm raises it now. Safe: the
  run stops and nothing can be proved past it. -/
  | notModelled (mnemonic : String)
deriving DecidableEq, Repr

/-! ## Frames and replies -/

/-- Status codes of a REPLY, an ACK or an MREPLY (R168). -/
inductive Status where
  | ok | noMap | hole | access | splitPair | range | badCount | tooFragmented | legShortage | full
  | duplicateTag | reconfig | timeout | lineError | remoteNoRegister | remoteRefused | remoteBusy
  | stationOffline | noData | cancelled | notFound | tooLate | notOwner | sessionHeld | mgmtBusy
  | notValidated | invalid | drainTimeout | nvFault | badOperation | badArgument
deriving DecidableEq, Repr, Inhabited

/-- The non-OK status a field station may return (R168). -/
inductive RemoteCode where
  | noRegister | refused | busy
deriving DecidableEq, Repr, Inhabited

/-- The detail block of a non-OK REPLY (R35, R54, R168). `line = none` is FFh. -/
structure Detail where
  item : Nat
  line : Option LineNo
  station : Nat
  remote : Option RemoteCode
  attempts : Nat
  uncertain : Bool
deriving DecidableEq, Repr, Inhabited

/-- A REPLY's fields (R35, R54). -/
structure Reply where
  status : Status
  stale : Bool
  clamped : Bool
  uncertain : Bool
  transferred : Nat
  detail : Option Detail
  values : List Word
deriving DecidableEq, Repr, Inhabited

/-- What a frame of the transmit queue carries: a REPLY (R54), an ACK (R58) or an MREPLY (R124). -/
inductive Payload where
  | reply (r : Reply)
  | ack (status : Status)
  | mreply (operation : Byte) (status : Status) (results : List Byte)
deriving DecidableEq, Repr, Inhabited

/-- Which operation a closing MREPLY ends (R117, R120). -/
inductive ClosingKind where
  | swap | drainTimeout | commit | restartWarm | restartCold
deriving DecidableEq, Repr, Inhabited

/-- The class of a frame of the transmit queue (R117). -/
inductive FrameClass where
  | slotReply (slot : Nat)
  | closing (kind : ClosingKind)
  | prompt
deriving DecidableEq, Repr, Inhabited

/-- A frame of the transmit queue; its source byte and check are fixed when its transmission begins
(R120). -/
structure TxFrame where
  cls : FrameClass
  dest : Byte
  tag : Byte
  payload : Payload
deriving DecidableEq, Repr, Inhabited

/-! ## Host link -/

/-- State of the receive framer with the bytes it keeps (R112): in BODY the length and the kept
bytes, in CHECK also the first check byte once it is kept. -/
inductive FramerState where
  | hunt
  | header
  | body (length : Byte) (kept : List Byte)
  | check (length : Byte) (kept : List Byte) (first : Option Byte)
deriving DecidableEq, Repr, Inhabited

/-- The receive framer with its gap timer (R112, R113). -/
structure Framer where
  state : FramerState
  gap : Option Uptime
deriving DecidableEq, Repr, Inhabited

/-- Host counters (R123). -/
structure HostCounters where
  framesGood : DWord
  checkErrors : DWord
  framingErrors : DWord
  notForUs : DWord
  unknownKind : DWord
  refusalsSent : DWord
  repliesDropped : DWord
deriving DecidableEq, Repr, Inhabited

/-! ## Requests and legs -/

/-- Kinds of data request (R22). -/
inductive RequestKind where
  | fetch | store | storeSet
deriving DecidableEq, Repr, Inhabited

/-- States of a slot that holds a request; a FREE slot is not listed (R24). -/
inductive SlotPhase where
  | active | replying
deriving DecidableEq, Repr, Inhabited

/-- The first-failure record (R25, R44): the failure's request position, its status, and the detail
block it gives. -/
structure Failure where
  position : Nat
  status : Status
  detail : Detail
deriving DecidableEq, Repr, Inhabited

/-- The fields of a request slot (R25). `items` are the items of a STORE_SET's pairs; `buffer` lists
the cells of the value buffer that hold a value. -/
structure Request where
  phase : SlotPhase
  source : Byte
  tag : Byte
  kind : RequestKind
  first : Nat
  count : Nat
  items : List Nat
  legs : List Nat
  buffer : Sparse Word
  stale : Bool
  clamped : Bool
  failure : Option Failure
  cancelRequested : Bool
  nextRelease : Nat
deriving DecidableEq, Repr, Inhabited

/-- States of a leg record (R42). CANCELLED is no state of a held record: a leg that becomes
CANCELLED returns to the pool at that moment. -/
inductive LegState where
  | held | queued | inFlight | done | failed
deriving DecidableEq, Repr, Inhabited

/-- Direction of a leg (R41). -/
inductive Direction where
  | fetch | store
deriving DecidableEq, Repr, Inhabited

/-- A held leg record (R41). `values` are a store leg's remote values, and the register values a
fetch leg took when it ended DONE (R43). -/
structure Leg where
  state : LegState
  owner : Nat
  line : LineNo
  station : Nat
  first : Nat
  count : Nat
  direction : Direction
  values : List Word
  position : Nat
  mapPosition : Nat
  attempts : Nat
  status : Option Status
  remote : Option RemoteCode
  tag : Option Byte
  uncertain : Bool
deriving DecidableEq, Repr, Inhabited

/-! ## Field lines -/

/-- The current work of a line (R64): a leg record, a scan place, or a probe of a station with the
tag of its attempt (R68). `discard` marks a probe whose record a swap removed (R77, R81). -/
inductive Work where
  | leg (record : Nat)
  | scan (place : Nat)
  | probe (station : Nat) (tag : Option Byte) (discard : Bool)
deriving DecidableEq, Repr, Inhabited

/-- The state of a line engine with its timer (R65). GUARD's timer is absent while a reception holds
the guard time back. SENDING holds the bytes on the wire (R68, R167) and the reply timeout the
attempt began with (R77). -/
inductive LinePhase where
  | idle
  | guard (expiry : Option Uptime)
  | sending (frame : List Byte) (replyTimeout : Nat)
  | awaiting (expiry : Uptime)
  | backoff (expiry : Uptime)
deriving DecidableEq, Repr, Inhabited

/-- The kind of a line's previous take (R67). -/
inductive Take where
  | none | demand | scan | probe
deriving DecidableEq, Repr, Inhabited

/-- The bit rate and parity a line's transmitter and receiver use (R62, R77). -/
structure WireSettings where
  bitRate : BitRate
  parity : Parity
deriving DecidableEq, Repr, Inhabited

/-- Line counters (R79). -/
structure LineCounters where
  legsServed : DWord
  attempts : DWord
  timeouts : DWord
  formatErrors : DWord
  remoteFaults : DWord
  busyAnswers : DWord
  strays : DWord
  probes : DWord
deriving DecidableEq, Repr, Inhabited

/-- A line engine (R64 to R79): its state, current work, whether a frame is being received, its
demand queue (leg records), scan queue (scan places) and probe list (stations), its field tag
counter, streak count, previous take, wire settings in use, and counters; and, the model's own, the uptime at which
it took its current work in the event of that work's joining (log entry 25). -/
structure Line where
  phase : LinePhase
  current : Option Work
  receiving : Bool
  demand : List Nat
  scans : List Nat
  probes : List Nat
  nextTag : Byte
  streak : Nat
  previous : Take
  wire : WireSettings
  counters : LineCounters
  joined : Option Uptime
deriving DecidableEq, Repr, Inhabited

/-! ## Stations, scans, mirror -/

/-- Health of a station (R80). -/
inductive Health where
  | unknown | online | suspect | offline
deriving DecidableEq, Repr, Inhabited

/-- Probe stage of a station record; WAITING carries the next probe time (R80). -/
inductive ProbeStage where
  | none
  | waiting (next : Uptime)
  | listed
  | probing
deriving DecidableEq, Repr, Inhabited

/-- A station record (R80). -/
structure StationRecord where
  station : Nat
  health : Health
  failures : Nat
  probe : ProbeStage
deriving DecidableEq, Repr, Inhabited

/-- State of a scan entry (R94): WAITING, QUEUED, or IN_FLIGHT with the attempts and the tag of the current
fetch. `finishing` is WAITING too, as an entry starts at a drain's end by its timer (R101), while its line still
makes attempts of the fetch that the drain left in flight: their count and tag (log entry 14). -/
inductive ScanState where
  | waiting
  | queued
  | inFlight (attempts : Nat) (tag : Option Byte)
  | finishing (attempts : Nat) (tag : Option Byte)
deriving DecidableEq, Repr, Inhabited

/-- The runtime record of a used scan place (R94). -/
structure ScanRun where
  state : ScanState
  nextDue : Uptime
  fetchesDone : DWord
  failures : DWord
  overruns : DWord
  skips : DWord
deriving DecidableEq, Repr, Inhabited

/-- A mirror cell (R103). -/
structure MirrorCell where
  raw : Word
  valid : Bool
  stamp : Uptime
deriving DecidableEq, Repr, Inhabited

/-! ## Management and image store -/

/-- The open configuration session (R127): owner, idle timeout in seconds, idle timer. -/
structure Session where
  owner : Byte
  timeout : Nat
  expiry : Option Uptime
deriving DecidableEq, Repr, Inhabited

/-- The two image slots (R149). -/
inductive SlotId where
  | a | b
deriving DecidableEq, Repr, Inhabited

/-- A COMMIT in progress (R151, R152): target slot, new sequence number, generation, the content of
bytes 1 to 7109, whether the write has ended, and whether the store reported a fault. -/
structure CommitJob where
  target : SlotId
  sequence : DWord
  generation : Word
  content : List Byte
  written : Bool
  fault : Bool
deriving DecidableEq, Repr, Inhabited

/-- The pending operation (R125), with the station and tag its closing MREPLY goes to; an ACTIVATE
with its drain timer, a COMMIT with its job. -/
inductive PendingOp where
  | none
  | activate (dest tag : Byte) (drain : Uptime)
  | commit (dest tag : Byte) (job : CommitJob)
deriving DecidableEq, Repr, Inhabited

/-- The view of a valid image slot (R149). -/
structure SlotView where
  sequence : DWord
  generation : Word
deriving DecidableEq, Repr, Inhabited

/-- The image store (R149, R171): the bytes of each slot as cells (an unlisted address reads 00h)
and the view of each slot, absent for an invalid one. -/
structure ImageStore where
  slotA : Sparse Byte
  slotB : Sparse Byte
  viewA : Option SlotView
  viewB : Option SlotView
deriving DecidableEq, Repr, Inhabited

/-- The bridge state (R140). -/
inductive BridgeState where
  | starting | running | draining
deriving DecidableEq, Repr, Inhabited

/-! ## The state -/

/-- The whole machine. INVENTORY.md's '## State' lists every field with the rule that names it. -/
structure State where
  /-- Power is applied (R154, R156). -/
  supply : Bool
  /-- The RESET pin is at its low level (R155). -/
  resetLow : Bool
  /-- Bridge state (R140). -/
  bridge : BridgeState
  /-- Uptime counter (0.5). -/
  uptime : Uptime
  /-- Receive framer (R112). -/
  framer : Framer
  /-- The bridge settings the host link works under (R122). -/
  link : BridgeSettings
  /-- Transmit queue, head first (R117). -/
  txQueue : List TxFrame
  /-- The bytes of the frame being transmitted on the host link (R120). -/
  sending : Option (List Byte)
  /-- Host counters (R123). -/
  hostCounters : HostCounters
  /-- Request table, slots 0 to 7 (R24). -/
  slots : Sparse Request
  /-- Leg pool, records 0 to 63 (R28). -/
  legs : Sparse Leg
  /-- Active tables (R7, R62, R93, R122). -/
  active : Tables
  /-- Generation (R143). -/
  generation : Word
  /-- Field line engines (R62 to R79). -/
  lines : Four Line
  /-- Station table, per line in ascending station order (R80). -/
  stations : Four (List StationRecord)
  /-- Runtime records of the used scan places (R94). -/
  scans : Sparse ScanRun
  /-- Mirror cells (R103); an unlisted cell holds 0000h, invalid, stamp 0. -/
  mirror : Sparse MirrorCell
  /-- Configuration session, absent when NONE (R127). -/
  session : Option Session
  /-- Staging area (R131). -/
  staging : Staging
  /-- Pending operation (R125). -/
  operation : PendingOp
  /-- Image store (R149). -/
  store : ImageStore
  /-- Committed generation, absent when none (R150). -/
  committed : Option Word
  /-- The model's own: how many free values have been drawn (log entry 7). -/
  freeCount : Nat
  /-- The model's own: the commands that wait, first in first out. -/
  pending : List Instr
deriving DecidableEq, Repr, Inhabited

/-! ## Reset -/

/-- Host counters after a cold start (R123). -/
def HostCounters.zero : HostCounters := ⟨0, 0, 0, 0, 0, 0, 0⟩

/-- Line counters after a cold start (R79). -/
def LineCounters.zero : LineCounters := ⟨0, 0, 0, 0, 0, 0, 0, 0⟩

/-- A line engine on entry to RUNNING (R78, R158) under a bit rate and a parity. -/
def Line.fresh (bitRate : BitRate) (parity : Parity) : Line where
  phase := .idle
  current := none
  receiving := false
  demand := []
  scans := []
  probes := []
  nextTag := 0
  streak := 0
  previous := .none
  wire := ⟨bitRate, parity⟩
  counters := .zero
  joined := none

/-- The machine on entry to RUNNING after the cold start of a part whose two image slots are invalid,
as it leaves the factory (R149, R157, R158): the empty configuration, generation 0, committed
generation none, and every block at its value after a cold start. Uptime 0 and the bytes of the
image slots are choices (log entries 2 and 3). -/
def State.reset : State where
  supply := true
  resetLow := false
  bridge := .running
  uptime := 0
  framer := ⟨.hunt, none⟩
  link := ⟨100#8, .b115200, .even⟩
  txQueue := []
  sending := none
  hostCounters := .zero
  slots := []
  legs := []
  active := emptyTables
  generation := 0
  lines := Four.fill (Line.fresh .b19200 .even)
  stations := Four.fill []
  scans := []
  mirror := []
  session := none
  staging := ⟨[], [], emptyTables.lines, emptyTables.bridge, true⟩
  operation := .none
  store := ⟨[], [], none, none⟩
  committed := none
  freeCount := 0
  pending := []

end Sys2Proof.Machine
end

