-- ==== Sys2Proof/Machine/Flags.lean ====
section
/-!
DEFINITION. Status codes, flag bytes and payload bodies of the frames the bridge sends (R168, R170),
and the saturating counters (R165).
-/

namespace Sys2Proof.Machine

/-- A counter raised by 1; it saturates at FFFFFFFFh (R165). -/
def satInc (c : DWord) : DWord := if c = 0xFFFFFFFF#32 then c else c + 1#32

/-- The status byte (R168). -/
def Status.code : Status → Byte
  | .ok => 0x00#8
  | .noMap => 0x01#8
  | .hole => 0x02#8
  | .access => 0x03#8
  | .splitPair => 0x04#8
  | .range => 0x05#8
  | .badCount => 0x06#8
  | .tooFragmented => 0x07#8
  | .legShortage => 0x08#8
  | .full => 0x09#8
  | .duplicateTag => 0x0A#8
  | .reconfig => 0x0B#8
  | .timeout => 0x10#8
  | .lineError => 0x11#8
  | .remoteNoRegister => 0x12#8
  | .remoteRefused => 0x13#8
  | .remoteBusy => 0x14#8
  | .stationOffline => 0x15#8
  | .noData => 0x16#8
  | .cancelled => 0x17#8
  | .notFound => 0x20#8
  | .tooLate => 0x21#8
  | .notOwner => 0x30#8
  | .sessionHeld => 0x31#8
  | .mgmtBusy => 0x32#8
  | .notValidated => 0x33#8
  | .invalid => 0x34#8
  | .drainTimeout => 0x35#8
  | .nvFault => 0x36#8
  | .badOperation => 0x37#8
  | .badArgument => 0x38#8

/-- The remote code byte; 00h means none (R168). -/
def remoteByte : Option RemoteCode → Byte
  | none => 0x00#8
  | some .noRegister => 0x01#8
  | some .refused => 0x02#8
  | some .busy => 0x03#8

/-- The leg status that a remote code gives (R43). -/
def RemoteCode.status : RemoteCode → Status
  | .noRegister => .remoteNoRegister
  | .refused => .remoteRefused
  | .busy => .remoteBusy

/-- The flags byte of a REPLY: STALE bit 0, CLAMPED bit 1, UNCERTAIN bit 2 (R168). -/
def replyFlags (stale clamped uncertain : Bool) : Byte :=
  nat1 ((if stale then 1 else 0) + (if clamped then 2 else 0) + (if uncertain then 4 else 0))

/-- The leg flags byte of a detail block: UNCERTAIN in bit 2 (R168). -/
def legFlags (uncertain : Bool) : Byte := if uncertain then 0x04#8 else 0x00#8

/-- The line byte of a detail block; FFh for none (R168). -/
def lineByte : Option LineNo → Byte
  | none => 0xFF#8
  | some l => nat1 l.val

/-- A yes-or-no byte (R169, R170). -/
def flagByte (b : Bool) : Byte := if b then 0x01#8 else 0x00#8

/-- The 7 bytes of a detail block (R168). -/
def detailBytes (d : Detail) : List Byte :=
  nat2 d.item ++ [lineByte d.line, nat1 d.station, remoteByte d.remote, nat1 d.attempts,
    legFlags d.uncertain]

/-- The detail block of a REPLY that has one, and no byte otherwise (R168). -/
def detailBlock : Option Detail → List Byte
  | none => []
  | some d => detailBytes d

/-- The body of a REPLY (R168). -/
def replyBody (r : Reply) : List Byte :=
  [r.status.code, replyFlags r.stale r.clamped r.uncertain, nat1 r.transferred]
    ++ detailBlock r.detail ++ wordBytes r.values

/-- The kind of the frame that carries a payload. -/
def Payload.kind : Payload → FrameKind
  | .reply _ => .reply
  | .ack _ => .ack
  | .mreply _ _ _ => .mreply

/-- The body of a frame of the transmit queue (R168, R170). -/
def Payload.body : Payload → List Byte
  | .reply r => replyBody r
  | .ack st => [st.code]
  | .mreply op st results => op :: st.code :: results

/-- The bytes of a frame of the transmit queue, sent under a source address (R120, R167). -/
def TxFrame.bytes (source : Byte) (f : TxFrame) : List Byte :=
  wireFrame f.dest source f.payload.kind f.tag f.payload.body

/-- The state byte of SCAN_INFO (R170). -/
def ScanState.code : ScanState → Byte
  | .waiting => 0
  | .queued => 1
  | .inFlight _ _ => 2
  | .finishing _ _ => 0

/-- The state and stage byte of a STATION_LIST record (R170). -/
def stationByte (r : StationRecord) : Byte :=
  let state : Nat := match r.health with
    | .unknown => 0
    | .online => 1
    | .suspect => 2
    | .offline => 3
  let stage : Nat := match r.probe with
    | .none => 0
    | .waiting _ => 1
    | .listed => 2
    | .probing => 3
  nat1 (16 * state + stage)

/-- A record of a STATION_LIST answer (R170). -/
def stationBytes (r : StationRecord) : List Byte :=
  [nat1 r.station, stationByte r, nat1 r.failures] ++
    (match r.probe with
     | .waiting next => bytes32 next
     | _ => [0, 0, 0, 0])

/-- The counters of the host group in the order of 11.2. -/
def HostCounters.bytes (c : HostCounters) : List Byte :=
  [c.framesGood, c.checkErrors, c.framingErrors, c.notForUs, c.unknownKind, c.refusalsSent,
    c.repliesDropped].flatMap bytes32

/-- The counters of a line group in the order of 11.2. -/
def LineCounters.bytes (c : LineCounters) : List Byte :=
  [c.legsServed, c.attempts, c.timeouts, c.formatErrors, c.remoteFaults, c.busyAnswers, c.strays,
    c.probes].flatMap bytes32

/-- The counters of a scan group in the order of 11.2. -/
def ScanRun.counterBytes (r : ScanRun) : List Byte :=
  [r.fetchesDone, r.failures, r.overruns, r.skips].flatMap bytes32

end Sys2Proof.Machine
end

