-- ==== Sys2Proof/Config.lean ====
section
/-!
DEFINITION. What the spec leaves open as a value. Each constant here has no body: nothing can be
proved about its value, so a claim that mentions it holds whatever the value is.
-/

namespace Sys2Proof.Config

open Sys2Proof.Machine

/-- How many bytes of a COMMIT's write had reached the slot when a reset or power loss cut it off
(R154 says only 'whatever part of the write it received'). The argument is the free-value counter. -/
opaque bytesWritten : Nat → Nat

/-- The value of a FETCH reply for an item whose buffer cell holds no value. R49 shows that no run
reaches it; the argument is the item's position in the request. -/
opaque unfilledCell : Nat → Word

/-- The map entry that start-up takes from a 25-byte area of a valid image slot whose bytes are no
encoding of R169. The spec gives such an image no meaning; no COMMIT writes one. -/
opaque foreignMapEntry : List Byte → MapEntry

/-- The scan entry taken from a used 9-byte area of a valid image slot that is no encoding of R169. -/
opaque foreignScanEntry : List Byte → ScanEntry

/-- The line settings taken from a 14-byte area of a valid image slot that is no encoding of a line record: a
code outside its list, bit rate code 5 among them, which R169 gives to the bridge only. -/
opaque foreignLine : List Byte → LineSettings

/-- The bridge settings taken from the 3-byte area of a valid image slot that is no encoding of R169. -/
opaque foreignBridge : List Byte → BridgeSettings

end Sys2Proof.Config
end

