-- ==== Sys2Proof/Machine/Codec.lean ====
section
/-!
DEFINITION. The record encodings of R169, the ranges of the puts (R134, R135), and the layout of an
image slot (R171).
-/

namespace Sys2Proof.Machine

/-! ## Codes of enumerated fields (R169) -/

def RemoteType.code : RemoteType → Byte
  | .u8 => 0 | .s8 => 1 | .u16 => 2 | .s16 => 3 | .u32 => 4 | .s32 => 5 | .f32 => 6

def RemoteType.ofCode (b : Byte) : Option RemoteType :=
  match b.toNat with
  | 0 => some .u8 | 1 => some .s8 | 2 => some .u16 | 3 => some .s16 | 4 => some .u32
  | 5 => some .s32 | 6 => some .f32 | _ => none

def WordOrder.code : WordOrder → Byte
  | .highFirst => 0 | .lowFirst => 1

def WordOrder.ofCode (b : Byte) : Option WordOrder :=
  match b.toNat with
  | 0 => some .highFirst | 1 => some .lowFirst | _ => none

def Access.code : Access → Byte
  | .ro => 0 | .rw => 1 | .wo => 2

def Access.ofCode (b : Byte) : Option Access :=
  match b.toNat with
  | 0 => some .ro | 1 => some .rw | 2 => some .wo | _ => none

def Policy.code : Policy → Byte
  | .live => 0 | .mirror => 1 | .mirrorFallback => 2

def Policy.ofCode (b : Byte) : Option Policy :=
  match b.toNat with
  | 0 => some .live | 1 => some .mirror | 2 => some .mirrorFallback | _ => none

def BitRate.code : BitRate → Byte
  | .b9600 => 0 | .b19200 => 1 | .b38400 => 2 | .b57600 => 3 | .b115200 => 4 | .b230400 => 5

def BitRate.ofCode (b : Byte) : Option BitRate :=
  match b.toNat with
  | 0 => some .b9600 | 1 => some .b19200 | 2 => some .b38400 | 3 => some .b57600
  | 4 => some .b115200 | 5 => some .b230400 | _ => none

def Parity.code : Parity → Byte
  | .none => 0 | .even => 1 | .odd => 2

def Parity.ofCode (b : Byte) : Option Parity :=
  match b.toNat with
  | 0 => some .none | 1 => some .even | 2 => some .odd | _ => none

/-- A yes-or-no byte. -/
def boolOfByte (b : Byte) : Option Bool :=
  match b.toNat with
  | 0 => some false | 1 => some true | _ => none

/-- A line byte. -/
def lineOf (b : Byte) : Option LineNo := if h : b.toNat < 4 then some ⟨b.toNat, h⟩ else none

/-! ## Map entry (R169) -/

/-- The presence byte: bit 0 binding, bit 1 maximum age, bit 2 scale. -/
def MapEntry.presence (e : MapEntry) : Byte :=
  nat1 ((if e.binding.isSome then 1 else 0) + (if e.maxAge.isSome then 2 else 0)
    + (if e.scale.isSome then 4 else 0))

/-- The binding's two bytes, 0 when absent. -/
def bindingBytes : Option Binding → List Byte
  | none => [0, 0]
  | some b => [nat1 b.scan, nat1 b.offset]

/-- The maximum age's four bytes, 0 when absent. -/
def maxAgeBytes : Option Nat → List Byte
  | none => [0, 0, 0, 0]
  | some a => nat4 a

/-- The scale's six bytes, 0 when absent; the offset is in two's complement. -/
def scaleBytes : Option Scale → List Byte
  | none => [0, 0, 0, 0, 0, 0]
  | some s => nat2 s.multiplier ++ nat2 s.divisor ++ bytes16 (BitVec.ofInt 16 s.offset)

/-- The 25 bytes of a map entry. -/
def encodeMapEntry (e : MapEntry) : List Byte :=
  nat2 e.base ++ nat2 e.length
    ++ [e.type.code, nat1 e.line.val, nat1 e.station]
    ++ nat2 e.remote
    ++ [e.order.code, e.access.code, e.policy.code, e.presence]
    ++ bindingBytes e.binding ++ maxAgeBytes e.maxAge ++ scaleBytes e.scale

/-- The map entry that 25 bytes encode: none when a code is outside its list or the presence byte has
an undefined bit set. The fields of an absent part are ignored. -/
def decodeMapEntry (bytes : List Byte) : Option MapEntry :=
  match bytes with
  | [b1, b0, l1, l0, ty, ln, st, r1, r0, wo, ac, po, pr, bs, bo, a3, a2, a1, a0, m1, m0, d1, d0,
      o1, o0] =>
    match RemoteType.ofCode ty, lineOf ln, WordOrder.ofCode wo, Access.ofCode ac,
        Policy.ofCode po with
    | some type, some line, some order, some access, some policy =>
      if pr.toNat < 8 then
        some
          { base := natOf2 b1 b0
            length := natOf2 l1 l0
            type := type
            line := line
            station := st.toNat
            remote := natOf2 r1 r0
            order := order
            access := access
            policy := policy
            binding := if pr.getLsbD 0 then some ⟨bs.toNat, bo.toNat⟩ else none
            maxAge := if pr.getLsbD 1 then some (natOf4 a3 a2 a1 a0) else none
            scale := if pr.getLsbD 2 then
                some ⟨natOf2 m1 m0, natOf2 d1 d0, (wordOf o1 o0).toInt⟩ else none }
      else none
    | _, _, _, _, _ => none
  | _ => none

/-- The ranges of a binding, a maximum age and a scale that are present (1.2). -/
def bindingInRange : Option Binding → Bool
  | none => true
  | some b => decide (b.scan ≤ 63) && decide (b.offset ≤ 59)

def maxAgeInRange : Option Nat → Bool
  | none => true
  | some a => decide (1 ≤ a) && decide (a ≤ 600000)

def scaleInRange : Option Scale → Bool
  | none => true
  | some s => decide (1 ≤ s.multiplier) && decide (s.multiplier ≤ 1000) && decide (1 ≤ s.divisor)
      && decide (s.divisor ≤ 1000) && decide (-32768 ≤ s.offset) && decide (s.offset ≤ 32767)

/-- The ranges of STAGE_PUT_MAP (R134, 1.2). The virtual base and the remote base are two-byte
fields, and a length of at least 1 keeps them below 65536. -/
def MapEntry.inRange (e : MapEntry) : Bool :=
  decide (1 ≤ e.length) && decide (e.length ≤ 4096) && decide (e.base + e.length ≤ 65536)
    && decide (e.station ≤ 126) && decide (e.remote + e.length ≤ 65536)
    && bindingInRange e.binding && maxAgeInRange e.maxAge && scaleInRange e.scale

/-! ## Scan entry (R169) -/

/-- The 9 bytes of a scan entry. -/
def encodeScanEntry (e : ScanEntry) : List Byte :=
  [nat1 e.line.val, nat1 e.station] ++ nat2 e.remote ++ [nat1 e.count] ++ nat2 e.period
    ++ nat2 e.mirrorBase

/-- The scan entry that 9 bytes encode. -/
def decodeScanEntry (bytes : List Byte) : Option ScanEntry :=
  match bytes with
  | [ln, st, r1, r0, ct, p1, p0, m1, m0] =>
    match lineOf ln with
    | some line => some ⟨line, st.toNat, natOf2 r1 r0, ct.toNat, natOf2 p1 p0, natOf2 m1 m0⟩
    | none => none
  | _ => none

/-- The ranges of STAGE_PUT_SCAN (R135, R93). -/
def ScanEntry.inRange (e : ScanEntry) : Bool :=
  decide (1 ≤ e.station) && decide (e.station ≤ 126) && decide (1 ≤ e.count)
    && decide (e.count ≤ 60) && decide (e.remote + e.count ≤ 65536) && decide (20 ≤ e.period)
    && decide (e.period ≤ 60000) && decide (e.mirrorBase + e.count ≤ 2048)

/-! ## Line and bridge settings (R169) -/

/-- The 14 bytes of a line settings record. -/
def encodeLine (r : LineSettings) : List Byte :=
  [nat1 (if r.enabled then 1 else 0), r.bitRate.code, r.parity.code] ++ nat2 r.replyTimeout
    ++ [nat1 r.retryLimit, nat1 r.guardTime, nat1 r.offlineThreshold] ++ nat2 r.probeInterval
    ++ nat2 r.probeRegister ++ nat2 r.busyBackoff

/-- The line settings that 14 bytes encode. -/
def decodeLine (bytes : List Byte) : Option LineSettings :=
  match bytes with
  | [en, br, pa, t1, t0, rl, gt, ot, i1, i0, p1, p0, b1, b0] =>
    match boolOfByte en, BitRate.ofCode br, Parity.ofCode pa with
    | some enabled, some bitRate, some parity =>
      some
        { enabled := enabled
          bitRate := bitRate
          parity := parity
          replyTimeout := natOf2 t1 t0
          retryLimit := rl.toNat
          guardTime := gt.toNat
          offlineThreshold := ot.toNat
          probeInterval := natOf2 i1 i0
          probeRegister := natOf2 p1 p0
          busyBackoff := natOf2 b1 b0 }
    | _, _, _ => none
  | _ => none

/-- The ranges of STAGE_PUT_LINE (R62, R135); 230400 bit/s is for the bridge only (R169). -/
def LineSettings.inRange (r : LineSettings) : Bool :=
  decide (r.bitRate ≠ .b230400) && decide (10 ≤ r.replyTimeout) && decide (r.replyTimeout ≤ 2000)
    && decide (r.retryLimit ≤ 5) && decide (1 ≤ r.guardTime) && decide (r.guardTime ≤ 50)
    && decide (1 ≤ r.offlineThreshold) && decide (r.offlineThreshold ≤ 15)
    && decide (100 ≤ r.probeInterval) && decide (r.probeInterval ≤ 60000)
    && decide (r.probeRegister ≤ 65535) && decide (10 ≤ r.busyBackoff)
    && decide (r.busyBackoff ≤ 1000)

/-- The 3 bytes of the bridge settings record. -/
def encodeBridge (r : BridgeSettings) : List Byte := [r.address, r.bitRate.code, r.parity.code]

/-- The bridge settings that 3 bytes encode. -/
def decodeBridge (bytes : List Byte) : Option BridgeSettings :=
  match bytes with
  | [ad, br, pa] =>
    match BitRate.ofCode br, Parity.ofCode pa with
    | some bitRate, some parity => some ⟨ad, bitRate, parity⟩
    | _, _ => none
  | _ => none

/-- A host station address, 1–126 (0.5). -/
def hostAddress (b : Byte) : Bool := decide (1 ≤ b.toNat) && decide (b.toNat ≤ 126)

/-- The ranges of STAGE_PUT_BRIDGE (R122, R135). -/
def BridgeSettings.inRange (r : BridgeSettings) : Bool := hostAddress r.address

/-! ## Image slot (R171) -/

/-- The completion mark of a complete slot. -/
def completeMark : Byte := 0xA5#8

/-- The size of a slot in bytes. -/
def slotSize : Nat := 7110

/-- The 10 bytes of a scan place: used flag and entry, the entry 0 when unused. -/
def scanPlaceBytes (m : Sparse ScanEntry) (place : Nat) : List Byte :=
  match m.get place with
  | some e => 0x01#8 :: encodeScanEntry e
  | none => List.replicate 10 0

/-- Bytes 7 to 7107 of a slot: the map entry count, 256 map areas, 64 scan places, four line records
and the bridge record. -/
def tableBytes (t : Tables) : List Byte :=
  nat2 t.map.length ++ (t.map.take 256).flatMap encodeMapEntry
    ++ List.replicate (25 * (256 - t.map.length)) 0
    ++ (List.range 64).flatMap (scanPlaceBytes t.scan)
    ++ t.lines.toList.flatMap encodeLine ++ encodeBridge t.bridge

/-- Bytes 1 to 7109 of a slot: sequence number, generation, tables, and the check value over bytes 0
to 7107 with byte 0 taken as A5h. -/
def imageBytes (sequence : DWord) (generation : Word) (t : Tables) : List Byte :=
  let body := bytes32 sequence ++ bytes16 generation ++ tableBytes t
  body ++ bytes16 (checkOf (completeMark :: body))

/-- A map entry read from a 25-byte area of a valid image: the values its bytes hold, in the ranges of the puts
or not; a free value where a code is outside its list or an undefined presence bit is set (DESIGN CHOICE: log
entry 19). -/
def loadMapEntry (area : List Byte) : MapEntry :=
  (decodeMapEntry area).getD (Config.foreignMapEntry area)

/-- The map entries of `n` consecutive areas. -/
def loadMap : Nat → List Byte → List MapEntry
  | 0, _ => []
  | n + 1, bytes => loadMapEntry (bytes.take 25) :: loadMap n (bytes.drop 25)

/-- The scan places of consecutive 10-byte areas of a valid image, from a place number; a place whose used byte
is not 01h is unused, and a used place whose line byte names no line holds a free value (DESIGN CHOICE: log
entry 19). -/
def loadScan : Nat → Nat → List Byte → Sparse ScanEntry
  | 0, _, _ => []
  | n + 1, place, bytes =>
    match bytes.take 10 with
    | used :: area =>
      if used = 0x01#8 then
        (place, (decodeScanEntry area).getD (Config.foreignScanEntry area))
          :: loadScan n (place + 1) (bytes.drop 10)
      else loadScan n (place + 1) (bytes.drop 10)
    | [] => loadScan n (place + 1) (bytes.drop 10)

/-- A line record read from its 14-byte area of a valid image. R169 refuses a put of a line record with bit rate
code 5, which is the bridge's alone, and does not say what start-up takes from an image that holds one: the whole
record is a free value there, as for a code outside its list; any other values are those the bytes hold, in
the ranges of the puts or not (DESIGN CHOICE: log entry 19). -/
def loadLine (area : List Byte) : LineSettings :=
  ((decodeLine area).filter (fun r => decide (r.bitRate ≠ .b230400))).getD (Config.foreignLine area)

/-- The tables of bytes 7 to 7107 of a slot (R157, R171). A map entry count above 256 counts as 256, and areas
beyond the count are not read; a bridge record with a code outside its list is a free value (DESIGN CHOICE: log
entry 19). -/
def loadTables (bytes : List Byte) : Tables :=
  let count := natOf2 (bytes.getD 0 0) (bytes.getD 1 0)
  let maps := bytes.drop 2
  let places := maps.drop 6400
  let records := places.drop 640
  { map := loadMap (min count 256) maps
    scan := loadScan 64 0 places
    lines := Four.build (fun l => loadLine ((records.drop (14 * l.val)).take 14))
    bridge := (decodeBridge ((records.drop 56).take 3)).getD
      (Config.foreignBridge ((records.drop 56).take 3)) }

/-- A slot passes the test of R149: the completion mark holds A5h and the check agrees (R171). -/
def slotValid (slot : Sparse Byte) : Bool :=
  decide (slot.read 0 0 = completeMark) &&
    decide (bytes16 (checkOf (completeMark :: slot.readFrom 0 1 7107)) = slot.readFrom 0 7108 2)

/-- The view of a slot, from bytes 1–6 of a valid one (R149, R171). -/
def slotView (slot : Sparse Byte) : Option SlotView :=
  if slotValid slot then
    some ⟨dwordOf (wordOf (slot.read 0 1) (slot.read 0 2)) (wordOf (slot.read 0 3) (slot.read 0 4)),
      wordOf (slot.read 0 5) (slot.read 0 6)⟩
  else none

end Sys2Proof.Machine
end

