-- ==== Sys2Proof/Machine/Operands.lean ====
section
/-!
DEFINITION. The operand forms: the fields of host frames and field frames (R112, R114, R167), the
bodies of data requests (R22, R23), the operations and arguments of MGMT frames (R126, R170), and the
fields of a station's REPLY (R168).
-/

namespace Sys2Proof.Machine

/-! ## Frames -/

/-- A complete frame as received: its fields and whether its check agrees. -/
structure Frame where
  dest : Byte
  source : Byte
  kind : Byte
  tag : Byte
  body : List Byte
  checkGood : Bool
deriving DecidableEq, Repr, Inhabited

/-- The frame of a length byte, counted bytes and two check bytes; none when fewer than the four
header bytes are there. -/
def frameOf (length : Byte) (counted : List Byte) (check : List Byte) : Option Frame :=
  match counted with
  | dest :: source :: kind :: tag :: body =>
    some ⟨dest, source, kind, tag, body, decide (bytes16 (checkOf (length :: counted)) = check)⟩
  | _ => none

/-- What a byte is to the framer (R112): kept or discarded in the ordinary course, a bad length, or
the byte that completes a frame. -/
inductive ByteEvent where
  | plain
  | badLength
  | completes (f : Frame)
deriving DecidableEq, Repr, Inhabited

/-- What a byte is to a framer in a state (R112). -/
def byteEvent (framer : FramerState) (byte : Byte) : ByteEvent :=
  match framer with
  | .header => if goodLength byte then .plain else .badLength
  | .check length kept (some first) =>
    match frameOf length kept [first, byte] with
    | some f => .completes f
    | none => .plain
  | _ => .plain

/-- The verdict on a complete host frame (R114). -/
inductive Verdict where
  | checkError
  | notForUs
  | unknownKind
  | accepted (kind : FrameKind)
deriving DecidableEq, Repr, Inhabited

/-- The kinds the host link accepts (R114). -/
def hostKind (kind : Byte) : Option FrameKind :=
  if kind = FrameKind.fetch.code then some .fetch
  else if kind = FrameKind.store.code then some .store
  else if kind = FrameKind.storeSet.code then some .storeSet
  else if kind = FrameKind.cancel.code then some .cancel
  else if kind = FrameKind.mgmt.code then some .mgmt
  else none

/-- The tests of R114, in order, under the bridge's host address. -/
def judgeFrame (address : Byte) (f : Frame) : Verdict :=
  if !f.checkGood then .checkError
  else if f.dest ≠ address then .notForUs
  else if !hostAddress f.source || decide (f.source = address) then .notForUs
  else
    match hostKind f.kind with
    | none => .unknownKind
    | some k => .accepted k

/-- The frame of the bytes after the sync byte: length byte, counted bytes, two check bytes. -/
def fieldFrameOf (bytes : List Byte) : Option Frame :=
  if completeFrameBytes bytes then
    match bytes with
    | [] => none
    | length :: rest =>
      frameOf length (rest.take length.toNat) (rest.drop length.toNat)
  else none

/-! ## Data requests -/

/-- The named fields of a data request (R22). `items` are a STORE_SET's items in pair order; `values`
are the host values of a STORE in item order or of a STORE_SET in pair order. -/
structure DataFields where
  first : Nat
  count : Nat
  items : List Nat
  values : List Word
deriving DecidableEq, Repr, Inhabited

/-- The pairs of a STORE_SET body, four bytes each. -/
def pairsOf : List Byte → List (Nat × Word)
  | i1 :: i0 :: v1 :: v0 :: rest => (natOf2 i1 i0, wordOf v1 v0) :: pairsOf rest
  | _ => []

/-- A run of items within its limits (R1, R22). -/
def runValid (first count : Nat) : Bool :=
  decide (1 ≤ count) && decide (count ≤ 118) && decide (first + count ≤ 65536)

/-- The fields of a data request's body, or none where the count check fails (R23). -/
def dataFields (kind : RequestKind) (body : List Byte) : Option DataFields :=
  match kind, body with
  | .fetch, [f1, f0, n] =>
    if runValid (natOf2 f1 f0) n.toNat then some ⟨natOf2 f1 f0, n.toNat, [], []⟩ else none
  | .store, f1 :: f0 :: n :: rest =>
    if runValid (natOf2 f1 f0) n.toNat && decide (rest.length = 2 * n.toNat) then
      some ⟨natOf2 f1 f0, n.toNat, [], wordsOf rest⟩
    else none
  | .storeSet, n :: rest =>
    if decide (1 ≤ n.toNat) && decide (n.toNat ≤ 60) && decide (rest.length = 4 * n.toNat) then
      some ⟨((pairsOf rest).map Prod.fst).headD 0, n.toNat, (pairsOf rest).map Prod.fst,
        (pairsOf rest).map Prod.snd⟩
    else none
  | _, _ => none

/-- The lead item of a request: the first item field, or the first pair's item; 0 when the body is
too short to hold it (R30). -/
def leadItem (kind : RequestKind) (body : List Byte) : Nat :=
  match kind, body with
  | .storeSet, _ :: i1 :: i0 :: _ => natOf2 i1 i0
  | .storeSet, _ => 0
  | _, f1 :: f0 :: _ => natOf2 f1 f0
  | _, _ => 0

/-! ## Management operations -/

/-- The management operations (R170). -/
inductive MgmtOp where
  | sessionOpen | sessionClose | stageCopyActive | stageClear | stagePutMap | stageDeleteMap
  | stagePutScan | stageDeleteScan | stagePutLine | stagePutBridge | validate | activate | commit
  | restart | stationReset | stats | status | readActive | readStage | stationList | scanInfo
deriving DecidableEq, Repr, Inhabited

/-- The operation that a code names (R170). -/
def mgmtOpOfCode (code : Byte) : Option MgmtOp :=
  match code.toNat with
  | 0x01 => some .sessionOpen
  | 0x02 => some .sessionClose
  | 0x03 => some .stageCopyActive
  | 0x04 => some .stageClear
  | 0x05 => some .stagePutMap
  | 0x06 => some .stageDeleteMap
  | 0x07 => some .stagePutScan
  | 0x08 => some .stageDeleteScan
  | 0x09 => some .stagePutLine
  | 0x0A => some .stagePutBridge
  | 0x0B => some .validate
  | 0x0C => some .activate
  | 0x0D => some .commit
  | 0x0E => some .restart
  | 0x0F => some .stationReset
  | 0x10 => some .stats
  | 0x11 => some .status
  | 0x12 => some .readActive
  | 0x13 => some .readStage
  | 0x14 => some .stationList
  | 0x15 => some .scanInfo
  | _ => none

/-- The operation of a MGMT body: none for an empty body or an unknown code (R124). -/
def mgmtOp (body : List Byte) : Option MgmtOp :=
  match body with
  | [] => none
  | code :: _ => mgmtOpOfCode code

/-- The code an MREPLY echoes: 00h for an empty body (R124). -/
def mgmtCode (body : List Byte) : Byte := body.headD 0

/-- The argument bytes of a MGMT body (R124). -/
def mgmtArgs (body : List Byte) : List Byte := body.drop 1

/-- No arguments. -/
def noArgs (args : List Byte) : Option Unit := if args = [] then some () else none

/-- One place index below a bound (R134, R135, R166). -/
def placeArg (bound : Nat) (args : List Byte) : Option Nat :=
  match args with
  | [p] => if p.toNat < bound then some p.toNat else none
  | _ => none

/-- SESSION_OPEN's idle timeout in seconds: 5–600, or 0 for 60 (R128). -/
def sessionOpenArg (args : List Byte) : Option Nat :=
  match args with
  | [t1, t0] =>
    let t := natOf2 t1 t0
    if t = 0 then some 60
    else if 5 ≤ t ∧ t ≤ 600 then some t
    else none
  | _ => none

/-- STAGE_PUT_MAP's place and entry (R134). -/
def putMapArgs (args : List Byte) : Option (Nat × MapEntry) :=
  match args with
  | p :: record =>
    match decodeMapEntry record with
    | some e => if e.inRange then some (p.toNat, e) else none
    | none => none
  | [] => none

/-- STAGE_PUT_SCAN's place and entry (R135). -/
def putScanArgs (args : List Byte) : Option (Nat × ScanEntry) :=
  match args with
  | p :: record =>
    match decodeScanEntry record with
    | some e => if p.toNat < 64 ∧ e.inRange then some (p.toNat, e) else none
    | none => none
  | [] => none

/-- STAGE_PUT_LINE's line and record (R135). -/
def putLineArgs (args : List Byte) : Option (LineNo × LineSettings) :=
  match args with
  | l :: record =>
    match lineOf l, decodeLine record with
    | some line, some r => if r.inRange then some (line, r) else none
    | _, _ => none
  | [] => none

/-- STAGE_PUT_BRIDGE's record (R135). -/
def putBridgeArgs (args : List Byte) : Option BridgeSettings :=
  match decodeBridge args with
  | some r => if r.inRange then some r else none
  | none => none

/-- ACTIVATE's drain timeout, 100–60000 ms (R139). -/
def activateArg (args : List Byte) : Option Nat :=
  match args with
  | [t1, t0] => if 100 ≤ natOf2 t1 t0 ∧ natOf2 t1 t0 ≤ 60000 then some (natOf2 t1 t0) else none
  | _ => none

/-- RESTART's kind: true for COLD, false for WARM (R159, R170). -/
def restartArg (args : List Byte) : Option Bool :=
  match args with
  | [k] => boolOfByte k
  | _ => none

/-- One line number (R91). -/
def lineArg (args : List Byte) : Option LineNo :=
  match args with
  | [l] => lineOf l
  | _ => none

/-- STATION_RESET's line and station 1–126 (R89). -/
def stationArgs (args : List Byte) : Option (LineNo × Nat) :=
  match args with
  | [l, st] =>
    match lineOf l with
    | some line => if 1 ≤ st.toNat ∧ st.toNat ≤ 126 then some (line, st.toNat) else none
    | none => none
  | _ => none

/-- A counter group (11.2). -/
inductive StatsGroup where
  | host
  | line (l : LineNo)
  | scan (place : Nat)
deriving DecidableEq, Repr, Inhabited

/-- The group a selector and an index name (R163). -/
def statsGroup (group index : Byte) : Option StatsGroup :=
  match group.toNat with
  | 0 => if index = 0 then some .host else none
  | 1 => (lineOf index).map .line
  | 2 => if index.toNat < 64 then some (.scan index.toNat) else none
  | _ => none

/-- STATS's clear option: none when the argument bytes are not three or the clear byte is neither 0
nor 1, the case that is answered before check 1 (R126). -/
def statsClearOption (args : List Byte) : Option Bool :=
  match args with
  | [_, _, clear] => boolOfByte clear
  | _ => none

/-- A record that READ_ACTIVE or READ_STAGE selects (R138); the index is not yet held against the
table's size. -/
inductive TableSelect where
  | map (index : Nat)
  | scan (index : Nat)
  | line (l : LineNo)
  | bridge
deriving DecidableEq, Repr, Inhabited

/-- The record that a table selector and an index name (R138, R170). -/
def tableSelect (args : List Byte) : Option TableSelect :=
  match args with
  | [table, index] =>
    match table.toNat with
    | 0 => some (.map index.toNat)
    | 1 => if index.toNat < 64 then some (.scan index.toNat) else none
    | 2 => (lineOf index).map .line
    | 3 => if index = 0 then some .bridge else none
    | _ => none
  | _ => none

/-! ## Station replies -/

/-- The result of an attempt (R72, R73). -/
inductive AttemptResult where
  | success (values : List Word)
  | remoteFault (code : RemoteCode)
  | busy
  | lineError
  | timeout
deriving DecidableEq, Repr, Inhabited

/-- The judgement of an accepted reply to work of a direction and register count (R72). A body without
status, flags and count does not fit the layout of R168 and is LINE_ERROR. What follows the count is not
looked at under a remote code (R72). DESIGN CHOICE (log entry 11): this holds also where those bytes are no
whole number of values. -/
def judgeReply (direction : Direction) (count : Nat) (body : List Byte) : AttemptResult :=
  match body with
  | status :: _ :: n :: values =>
    match status.toNat with
    | 0 =>
      if n.toNat = count then
        match direction with
        | .fetch => if values.length = 2 * count then .success (wordsOf values) else .lineError
        | .store => if values = [] then .success [] else .lineError
      else .lineError
    | 1 => .remoteFault .noRegister
    | 2 => .remoteFault .refused
    | 3 => .busy
    | _ => .lineError
  | _ => .lineError

end Sys2Proof.Machine
end

