-- ==== Sys2Proof/Machine/Ops.lean ====
section
/-!
DEFINITION. The named operations over the state that the families share: time, the transmit queue,
the leg pool and the request table, field lines, station records and mirror cells.
-/

namespace Sys2Proof.Machine

/-! ## Time -/

/-- The uptime `ms` milliseconds after another, modulo 2^32 (0.5). -/
def after (now : Uptime) (ms : Nat) : Uptime := now + BitVec.ofNat 32 ms

/-- The uptime has reached an expiry: their difference modulo 2^32 lies below 2^31 (log entry 6). -/
def reached (now expiry : Uptime) : Bool := decide ((now - expiry).toNat < 2147483648)

/-- A timer that runs and whose expiry the uptime has reached. -/
def expired (now : Uptime) : Option Uptime → Bool
  | none => false
  | some expiry => reached now expiry

/-- Power is applied and the RESET pin is high. -/
def State.powered (s : State) : Bool := s.supply && !s.resetLow

/-- The part serves traffic: RUNNING or DRAINING (R140), powered and not held in reset. -/
def State.serving (s : State) : Bool := s.powered && decide (s.bridge ≠ .starting)

/-- One millisecond of the time base; it stands still while the part is held in reset or without
power (R155, R156). -/
def State.tick (s : State) : State := if s.powered then { s with uptime := s.uptime + 1#32 } else s

/-! ## Host counters and the transmit queue -/

/-- Changes the host counters. -/
def State.countHost (s : State) (f : HostCounters → HostCounters) : State :=
  { s with hostCounters := f s.hostCounters }

/-- A frame of the prompt class (R117). -/
def TxFrame.isPrompt (f : TxFrame) : Bool := decide (f.cls = .prompt)

/-- A closing MREPLY (R117). -/
def TxFrame.isClosing (f : TxFrame) : Bool :=
  match f.cls with
  | .closing _ => true
  | _ => false

/-- The number of prompt frames in the queue (R117). -/
def promptCount (q : List TxFrame) : Nat := q.countP TxFrame.isPrompt

/-- The closing MREPLY place holds a frame (R119). -/
def closingHeld (q : List TxFrame) : Bool := q.any TxFrame.isClosing

/-- A frame joins the queue at the tail (R117). -/
def State.enqueue (s : State) (f : TxFrame) : State := { s with txQueue := s.txQueue ++ [f] }

/-- A prompt frame joins, or is dropped and counted when seven are in the queue (R118). -/
def State.pushPrompt (s : State) (dest tag : Byte) (p : Payload) : State :=
  if promptCount s.txQueue < 7 then s.enqueue ⟨.prompt, dest, tag, p⟩
  else s.countHost (fun c => { c with repliesDropped := satInc c.repliesDropped })

/-- A refusal: a prompt frame that is counted in refusals sent when it joins (R35, R118). -/
def State.pushRefusal (s : State) (dest tag : Byte) (r : Reply) : State :=
  if promptCount s.txQueue < 7 then
    (s.enqueue ⟨.prompt, dest, tag, .reply r⟩).countHost
      (fun c => { c with refusalsSent := satInc c.refusalsSent })
  else s.pushPrompt dest tag (.reply r)

/-- A closing MREPLY joins (R119). -/
def State.pushClosing (s : State) (kind : ClosingKind) (dest tag : Byte) (p : Payload) : State :=
  s.enqueue ⟨.closing kind, dest, tag, p⟩

/-! ## Leg pool and request table -/

/-- The free leg records in ascending order (R28). -/
def State.freeRecords (s : State) : List Nat :=
  (List.range 64).filter (fun r => (s.legs.get r).isNone)

/-- The lowest-numbered FREE slot (R24). -/
def State.freeSlot (s : State) : Option Nat :=
  (List.range 8).find? (fun k => (s.slots.get k).isNone)

/-- A slot that is not FREE and holds a (source, tag), with its request (R26, R58). -/
def State.slotOf (s : State) (source tag : Byte) : Option (Nat × Request) :=
  s.slots.find? (fun e => decide (e.2.source = source) && decide (e.2.tag = tag))

/-- The number of slots in a phase (R24). -/
def State.slotsIn (s : State) (p : SlotPhase) : Nat :=
  s.slots.countP (fun e => decide (e.2.phase = p))

/-- Replaces the request of a slot. -/
def State.putSlot (s : State) (k : Nat) (r : Request) : State := { s with slots := s.slots.put k r }

/-- Changes the request of a slot that is not FREE. -/
def State.modSlot (s : State) (k : Nat) (f : Request → Request) : State :=
  { s with slots := s.slots.modify k f }

/-- Fills or replaces a leg record. -/
def State.putLeg (s : State) (r : Nat) (g : Leg) : State := { s with legs := s.legs.put r g }

/-- Changes a held leg record. -/
def State.modLeg (s : State) (r : Nat) (f : Leg → Leg) : State :=
  { s with legs := s.legs.modify r f }

/-- A leg record returns to the pool (R28). -/
def State.freeLeg (s : State) (r : Nat) : State := { s with legs := s.legs.del r }

/-- A slot goes FREE and every record in its leg list returns to the pool (R57). -/
def State.releaseSlot (s : State) (k : Nat) : State :=
  match s.slots.get k with
  | none => s
  | some r => { s with
      slots := s.slots.del k
      legs := s.legs.filter (fun e => !r.legs.contains e.1) }

/-! ## Field lines -/

/-- Changes one line engine. -/
def State.modLine (s : State) (l : LineNo) (f : Line → Line) : State :=
  { s with lines := s.lines.set l (f (s.lines.get l)) }

/-- The line settings in force on a line (R62). -/
def State.settings (s : State) (l : LineNo) : LineSettings := s.active.lines.get l

/-- Changes the counters of a line. -/
def State.countLine (s : State) (l : LineNo) (f : LineCounters → LineCounters) : State :=
  s.modLine l (fun n => { n with counters := f n.counters })

/-- The wire settings of a line settings record. -/
def LineSettings.wire (r : LineSettings) : WireSettings := ⟨r.bitRate, r.parity⟩

/-- The line enters GUARD with its guard time run from now (R65). -/
def State.enterGuard (s : State) (l : LineNo) : State :=
  s.modLine l (fun n => { n with phase := .guard (some (after s.uptime (s.settings l).guardTime)) })

/-! ## Station records -/

/-- The record of a station on a line (R80). -/
def State.record (s : State) (l : LineNo) (station : Nat) : Option StationRecord :=
  (s.stations.get l).find? (fun r => decide (r.station = station))

/-- The station's record is OFFLINE. Station 0 has no record and is never OFFLINE (R39, R51). -/
def State.offline (s : State) (l : LineNo) (station : Nat) : Bool :=
  match s.record l station with
  | some r => decide (r.health = .offline)
  | none => false

/-- Changes the record of a station on a line. -/
def State.modRecord (s : State) (l : LineNo) (station : Nat)
    (f : StationRecord → StationRecord) : State :=
  let records := (s.stations.get l).map (fun r => if r.station = station then f r else r)
  { s with stations := s.stations.set l records }

/-! ## Scan entries -/

/-- Changes the runtime record of a used scan place. -/
def State.modScan (s : State) (place : Nat) (f : ScanRun → ScanRun) : State :=
  { s with scans := s.scans.modify place f }

/-- A scan entry whose fetch is in flight on its line (R94, R101, R141). -/
def ScanRun.flying (r : ScanRun) : Bool :=
  match r.state with
  | .inFlight _ _ => true
  | .finishing _ _ => true
  | _ => false

/-! ## Mirror cells -/

/-- A mirror cell after a cold start: 0000h, invalid, stamp 0 (R103). -/
def blankCell : MirrorCell := ⟨0#16, false, 0#32⟩

/-- The number of mirror cells (R103). -/
def mirrorSize : Nat := 2048

/-- A mirror cell. -/
def State.cell (s : State) (k : Nat) : MirrorCell := s.mirror.read blankCell k

/-- Consecutive cells take raw values, become valid and are stamped with now (R99, R105, R106). -/
def State.writeCells (s : State) (k : Nat) (values : List Word) : State :=
  { s with mirror := s.mirror.writeFrom blankCell k (values.map (fun w => ⟨w, true, s.uptime⟩)) }

/-- `n` consecutive cells are marked invalid and keep their raw values and stamps (R85, R107). -/
def invalidateRun : Nat → Nat → Sparse MirrorCell → Sparse MirrorCell
  | _, 0, m => m
  | k, n + 1, m =>
    invalidateRun (k + 1) n (m.write blankCell k { m.read blankCell k with valid := false })

/-- `n` consecutive cells are marked invalid (R85, R107). -/
def State.invalidateCells (s : State) (k n : Nat) : State :=
  { s with mirror := invalidateRun k n s.mirror }

/-- Every cell is marked invalid and keeps its raw value and stamp (R109). -/
def State.invalidateMirror (s : State) : State :=
  let cells := s.mirror.mapVals (fun _ c => { c with valid := false })
  { s with mirror := cells.filter (fun e => decide (e.2 ≠ blankCell)) }

/-- The age of a cell: now minus its stamp, modulo 2^32 (R104). -/
def MirrorCell.age (c : MirrorCell) (now : Uptime) : Nat := (now - c.stamp).toNat

/-- A cell is fresh for a maximum age: valid, and its age does not exceed it (R36, R104). -/
def MirrorCell.fresh (c : MirrorCell) (now : Uptime) (maxAge : Nat) : Bool :=
  c.valid && decide (c.age now ≤ maxAge)

/-- A cell is stale for a maximum age: valid, and its age exceeds it (R36, R104). -/
def MirrorCell.stale (c : MirrorCell) (now : Uptime) (maxAge : Nat) : Bool :=
  c.valid && decide (maxAge < c.age now)

/-- The cell that item virtual base + `k` of a bound entry corresponds to (R5); none without a binding
to a used scan place. -/
def State.boundCell (s : State) (e : MapEntry) (k : Nat) : Option Nat :=
  match e.binding with
  | none => none
  | some b => (s.active.scan.get b.scan).map (fun c => c.mirrorBase + b.offset + k)

end Sys2Proof.Machine
end

