-- ==== Sys2Proof/Machine/Framing.lean ====
section
/-!
DEFINITION. The receive framer (R112 to R116): byte events, the gap timer, the judgement of complete
frames, and the dispatch of those that pass.
-/

namespace Sys2Proof.Machine

/-- The gap timer started or restarted now: it runs for 10 ms (R113). -/
def State.gapFrom (s : State) (f : FramerState) : State :=
  { s with framer := ⟨f, some (after s.uptime 10)⟩ }

/-- The framer returns to HUNT and its gap timer stops (R112). -/
def State.hunt (s : State) : State := { s with framer := ⟨.hunt, none⟩ }

/-- The framer abandons a frame: it is counted as a framing error (R112, R113, R116). -/
def State.abandonFrame (s : State) : State :=
  s.hunt.countHost (fun c => { c with framingErrors := satInc c.framingErrors })

/-- What a byte is to the part; nothing while the receiver does not run (R116, R155). -/
def State.byteEvent (s : State) (byte : Byte) : Option ByteEvent :=
  if s.serving then some (Machine.byteEvent s.framer.state byte) else none

/-- The framer takes a byte in the ordinary course (R112). -/
def State.keepByte (s : State) (byte : Byte) : State :=
  match s.framer.state with
  | .hunt => if byte = syncByte then s.gapFrom .header else s
  | .header => s.gapFrom (.body byte [])
  | .body length kept =>
    if length.toNat ≤ kept.length + 1 then s.gapFrom (.check length (kept ++ [byte]) none)
    else s.gapFrom (.body length (kept ++ [byte]))
  | .check length kept none => s.gapFrom (.check length kept (some byte))
  | .check _ _ (some _) => s

/-- The complete frame that a byte makes, with the verdict of R114. -/
def State.arrival (s : State) (byte : Byte) : Option (Frame × Verdict) :=
  match s.byteEvent byte with
  | some (.completes f) => some (f, judgeFrame s.link.address f)
  | _ => none

/-- The accepted frame that a byte makes, with its kind (R115). -/
def State.dispatched (s : State) (byte : Byte) : Option (Frame × FrameKind) :=
  match s.arrival byte with
  | some (f, .accepted kind) => some (f, kind)
  | _ => none

/-- A frame is dispatched: it is counted in frames good and the framer is in HUNT (R112, R115). -/
def State.frameTaken (s : State) : State :=
  s.hunt.countHost (fun c => { c with framesGood := satInc c.framesGood })

/-- A data or CANCEL frame of a kind arrives and its block acts. A byte that completes no such frame is
no event of that row (log entry 4). -/
def onKind (kind : FrameKind) (act : Frame → State → State) (byte : Byte) (s : State) : State :=
  match s.dispatched byte with
  | some (f, k) => if k = kind then act f s.frameTaken else s
  | none => s

/-- A MGMT frame of which `select` holds arrives and the management unit acts (R115, R124). -/
def onMgmt (select : Frame → Bool) (act : Frame → State → State) (byte : Byte) (s : State) : State :=
  onKind .mgmt (fun f t => if select f then act f t else s) byte s

/-- HOST_BYTE_RECEIVED (R112). -/
def execHostByteReceived (byte : Byte) (s : State) : Host.Outcome State Fault Refusal :=
  match s.byteEvent byte with
  | some .plain => .next (s.keepByte byte)
  | _ => .next s

/-- HOST_BAD_LENGTH (R112). -/
def execHostBadLength (byte : Byte) (s : State) : Host.Outcome State Fault Refusal :=
  match s.byteEvent byte with
  | some .badLength => .next s.abandonFrame
  | _ => .next s

/-- HOST_GAP_TIMER_EXPIRY (R113). -/
def execHostGapTimerExpiry (s : State) : Host.Outcome State Fault Refusal :=
  if s.serving && decide (s.framer.state ≠ .hunt) && expired s.uptime s.framer.gap then
    .next s.abandonFrame
  else .next s

/-- The counter that a rejected frame raises (R114, R123). -/
def countVerdict (v : Verdict) (c : HostCounters) : HostCounters :=
  match v with
  | .checkError => { c with checkErrors := satInc c.checkErrors }
  | .notForUs => { c with notForUs := satInc c.notForUs }
  | .unknownKind => { c with unknownKind := satInc c.unknownKind }
  | .accepted _ => c

/-- HOST_FRAME_REJECTED (R114). -/
def execHostFrameRejected (byte : Byte) (s : State) : Host.Outcome State Fault Refusal :=
  match s.arrival byte with
  | some (_, .accepted _) => .next s
  | some (_, v) => .next (s.hunt.countHost (countVerdict v))
  | none => .next s

end Sys2Proof.Machine
end

