-- ==== Sys2Proof/Machine/LineWork.lean ====
section
/-!
DEFINITION. How a line engine takes work and begins attempts (R64 to R68), shared by every event that
brings work to a line or ends a guard time; and how it gives work back to an event that falls together with
the joining of that work (R61, R90, R97, R147).
-/

namespace Sys2Proof.Machine

/-- What the arbiter takes. -/
inductive Choice where
  | probe (station : Nat)
  | demand (record : Nat)
  | scan (place : Nat)
deriving DecidableEq, Repr, Inhabited

/-- Order 1 of R66: the head of the probe list, when the previous take was not a probe. -/
def probeFirst (n : Line) : Option Choice :=
  if n.previous ≠ .probe then n.probes.head?.map .probe else none

/-- Order 2 of R66: the head of the demand queue, when the scan queue is empty or the streak count is
below 4. -/
def demandNext (n : Line) : Option Choice :=
  if n.scans = [] ∨ n.streak < 4 then n.demand.head?.map .demand else none

/-- The arbiter (R66): the first of the four orders that applies. -/
def arbiter (n : Line) : Option Choice :=
  (((probeFirst n).or (demandNext n)).or (n.scans.head?.map .scan)).or (n.probes.head?.map .probe)

/-- The frame of a leg's attempt (R68). -/
def legFrame (g : Leg) (tag : Byte) : List Byte :=
  match g.direction with
  | .fetch => wireFrame (nat1 g.station) bridgeFieldAddress .fetch tag
      (nat2 g.first ++ [nat1 g.count])
  | .store => wireFrame (nat1 g.station) bridgeFieldAddress .store tag
      (nat2 g.first ++ [nat1 g.count] ++ wordBytes g.values)

/-- The frame of a scan fetch's attempt (R68). -/
def scanFrame (e : ScanEntry) (tag : Byte) : List Byte :=
  wireFrame (nat1 e.station) bridgeFieldAddress .fetch tag (nat2 e.remote ++ [nat1 e.count])

/-- The frame of a probe: a FETCH of one register at the line's probe register (R68, R87). -/
def probeFrame (r : LineSettings) (station : Nat) (tag : Byte) : List Byte :=
  wireFrame (nat1 station) bridgeFieldAddress .fetch tag (nat2 r.probeRegister ++ [nat1 1])

/-- The frame of an attempt for a piece of work. -/
def State.workFrame (s : State) (l : LineNo) (w : Work) (tag : Byte) : List Byte :=
  match w with
  | .leg r => ((s.legs.get r).map (fun g => legFrame g tag)).getD []
  | .scan i => ((s.active.scan.get i).map (fun e => scanFrame e tag)).getD []
  | .probe station _ _ => probeFrame (s.settings l) station tag

/-- The work's own record of an attempt: its attempts count is raised by 1 and its field tag is the
one drawn (R68). -/
def State.noteAttempt (s : State) (l : LineNo) (w : Work) (tag : Byte) : State :=
  match w with
  | .leg r => s.modLeg r (fun g => { g with attempts := g.attempts + 1, tag := some tag })
  | .scan i => s.modScan i (fun c => { c with state :=
      match c.state with
      | .inFlight n _ => .inFlight (n + 1) (some tag)
      | .finishing n _ => .finishing (n + 1) (some tag)
      | other => other })
  | .probe station _ discard =>
    s.modLine l (fun n => { n with current := some (.probe station (some tag) discard) })

/-- A piece of work is a scan fetch. -/
def Work.isScan : Work → Bool
  | .scan _ => true
  | _ => false

/-- A piece of work is a probe. -/
def Work.isProbe : Work → Bool
  | .probe _ _ _ => true
  | _ => false

/-- The line's side of the beginning of an attempt (R68): the tag counter advances, the attempt is
counted, and the line enters SENDING under its settings. -/
def beginSending (r : LineSettings) (frame : List Byte) (isProbe : Bool) (n : Line) : Line :=
  { n with
    phase := .sending frame r.replyTimeout
    receiving := false
    nextTag := n.nextTag + 1#8
    wire := r.wire
    counters := { n.counters with
      attempts := satInc n.counters.attempts
      probes := if isProbe then satInc n.counters.probes else n.counters.probes }
    joined := none }

/-- An attempt of the current work begins (R68). -/
def State.startAttempt (s : State) (l : LineNo) (w : Work) : State :=
  let tag := (s.lines.get l).nextTag
  (s.noteAttempt l w tag).modLine l
    (beginSending (s.settings l) (s.workFrame l w tag) w.isProbe)

/-- A taken leg leaves its demand queue and becomes IN_FLIGHT; the streak count is raised, up to 4
(R66, R67). -/
def State.takeDemand (s : State) (l : LineNo) (r : Nat) : State :=
  (s.modLine l (fun n => { n with
    demand := n.demand.tail
    streak := min 4 (n.streak + 1)
    previous := .demand
    current := some (.leg r) })).modLeg r (fun g => { g with state := .inFlight })

/-- A taken scan entry leaves its scan queue and becomes IN_FLIGHT with attempts 0; the streak count
is set to 0 (R66, R98). -/
def State.takeScan (s : State) (l : LineNo) (i : Nat) : State :=
  (s.modLine l (fun n => { n with
    scans := n.scans.tail
    streak := 0
    previous := .scan
    current := some (.scan i) })).modScan i (fun c => { c with state := .inFlight 0 none })

/-- A taken station leaves the probe list and its probe stage becomes PROBING (R66, R87). -/
def State.takeProbe (s : State) (l : LineNo) (station : Nat) : State :=
  (s.modLine l (fun n => { n with
    probes := n.probes.tail
    previous := .probe
    current := some (.probe station none false) })).modRecord l station
      (fun r => { r with probe := .probing })

/-- The line takes work by its arbiter and begins its first attempt; with nothing to take it is IDLE
(R66). -/
def State.take (s : State) (l : LineNo) : State :=
  match arbiter (s.lines.get l) with
  | some (.probe station) => (s.takeProbe l station).startAttempt l (.probe station none false)
  | some (.demand r) => (s.takeDemand l r).startAttempt l (.leg r)
  | some (.scan i) => (s.takeScan l i).startAttempt l (.scan i)
  | none => s.modLine l (fun n => { n with phase := .idle })

/-- Work has joined a collection of the line: an IDLE line takes at once (R66), and keeps the uptime. A disabled
line never transmits (R63). -/
def State.kick (s : State) (l : LineNo) : State :=
  if (s.settings l).enabled && decide ((s.lines.get l).phase = .idle) then
    (s.take l).modLine l (fun n => { n with joined := n.current.map (fun _ => s.uptime) })
  else s

/-! ## Events that fall together with the joining of work (R61, R90, R97, R147) -/

/-- The work that an IDLE line has taken in the event of its joining, at this uptime, with its first frame
still being sent. DESIGN CHOICE (log entry 25): an event at this same uptime falls together with that
joining. -/
def Line.justTaken (n : Line) (now : Uptime) : Option Work :=
  match n.phase, n.current, n.joined with
  | .sending _ _, some w, some taken => if taken = now then some w else none
  | _, _, _ => none

/-- The line gives back the work it has just taken: it is IDLE, and the work stands at the head of its
collection. What the take and the beginning of the attempt have counted stays: no rule lowers a counter or
takes a tag back (R67, R68, R79, R165). -/
def Line.untaken (w : Work) (n : Line) : Line :=
  { n with
    phase := .idle
    current := none
    demand := match w with
      | .leg i => i :: n.demand
      | _ => n.demand
    scans := match w with
      | .scan i => i :: n.scans
      | _ => n.scans
    probes := match w with
      | .probe station _ _ => station :: n.probes
      | _ => n.probes
    joined := none }

/-- The work's own record when the line gives it back: QUEUED or LISTED, with no attempt made. -/
def State.giveBack (s : State) (l : LineNo) (w : Work) : State :=
  match w with
  | .leg i => s.modLeg i (fun g => { g with state := .queued, attempts := 0, tag := none })
  | .scan i => s.modScan i (fun c => { c with state := .queued })
  | .probe station _ _ => s.modRecord l station (fun r => { r with probe := .listed })

/-- The line gives back the work that it has just taken, if there is such work. -/
def State.untake (s : State) (l : LineNo) : State :=
  match (s.lines.get l).justTaken s.uptime with
  | none => s
  | some w => (s.modLine l (Line.untaken w)).giveBack l w

/-- The line has just taken work of which `p` holds. -/
def State.justTook (s : State) (p : LineNo → Work → Bool) (l : LineNo) : Bool :=
  ((s.lines.get l).justTaken s.uptime).any (p l)

/-- The lines that have just taken work of which `p` holds. -/
def State.joining (s : State) (p : LineNo → Work → Bool) : List LineNo := allLines.filter (s.justTook p)

/-- Those lines have given the work back. -/
def State.withdrawn (s : State) (p : LineNo → Work → Bool) : State := (s.joining p).foldl State.untake s

/-- An event that takes work out of a collection, when it falls together with the joining of that work, finds
it there (R61, R90, R97, R147): the lines that have just taken work of which `p` holds give it back, the event
is taken, and each such line, IDLE again, takes what else has joined it (R66). -/
def State.together (s : State) (p : LineNo → Work → Bool) (event : State → State) : State :=
  (s.joining p).foldl State.kick (event (s.withdrawn p))

/-- A leg record joins the tail of its line's demand queue (R64). -/
def State.joinDemand (s : State) (l : LineNo) (r : Nat) : State :=
  s.modLine l (fun n => { n with demand := n.demand ++ [r] })

end Sys2Proof.Machine
end

