-- ==== Sys2Proof/Machine/Swap.lean ====
section
/-!
DEFINITION. The drain test and the swap of an ACTIVATE (R141 to R145), with the copy and compaction of
the tables (R8, R133), the rebuild of the station table (R81), and the change of line settings (R77).
-/

namespace Sys2Proof.Machine

/-! ## Session timer and pending operation -/

/-- The session's idle timer starts afresh with its full timeout (R130). -/
def State.startIdleTimer (s : State) : State :=
  match s.session with
  | none => s
  | some n =>
    { s with session := some { n with expiry := some (after s.uptime (n.timeout * 1000)) } }

/-- The session's idle timer is stopped (R130). -/
def State.stopIdleTimer (s : State) : State :=
  match s.session with
  | none => s
  | some n => { s with session := some { n with expiry := none } }

/-- The pending operation becomes none and the owner's idle timer starts afresh (R125, R130). -/
def State.endOperation (s : State) : State := { s with operation := .none }.startIdleTimer

/-! ## Tables and staging -/

/-- The entries of a table at consecutive places from a number. -/
def placesFrom {α : Type} : Nat → List α → Sparse α
  | _, [] => []
  | p, a :: as => (p, a) :: placesFrom (p + 1) as

/-- A staging area that is a copy of tables, with the mark set (R133). -/
def copyOf (t : Tables) : Staging := ⟨placesFrom 0 t.map, t.scan, t.lines, t.bridge, true⟩

/-- The tables a staging area installs: the map array compacted, the rest as staged (R8, R93). -/
def Staging.tables (g : Staging) : Tables := ⟨g.map.map Prod.snd, g.scan, g.lines, g.bridge⟩

/-- A station is named on a line by a map entry or a scan entry of the tables (R81). -/
def Tables.names (t : Tables) (l : LineNo) (station : Nat) : Bool :=
  t.map.any (fun e => decide (e.line = l) && decide (e.station = station))
    || t.scan.any (fun e => decide (e.2.line = l) && decide (e.2.station = station))

/-- The stations 1–126 named on a line, in ascending order (R80, R81). -/
def Tables.stationsOn (t : Tables) (l : LineNo) : List Nat :=
  (List.range 127).filter (fun n => decide (1 ≤ n) && t.names l n)

/-- A station record as built: UNKNOWN, failures 0, probe stage NONE (R81). -/
def freshRecord (station : Nat) : StationRecord := ⟨station, .unknown, 0, .none⟩

/-- The records of a line built for the tables, with none carried over (R81). -/
def Tables.freshRecords (t : Tables) (l : LineNo) : List StationRecord :=
  (t.stationsOn l).map freshRecord

/-- The records of a line rebuilt at a swap: a pair that had a record keeps it whole (R81). -/
def Tables.carriedRecords (t : Tables) (l : LineNo) (old : List StationRecord) :
    List StationRecord :=
  (t.stationsOn l).map
    (fun n => (old.find? (fun r => decide (r.station = n))).getD (freshRecord n))

/-- The runtime record of a used scan place at a start of its due timer: WAITING, next due now plus
the period, with counters carried over or 0 (R94, R96). -/
def startedRun (now : Uptime) (e : ScanEntry) (old : Option ScanRun) : ScanRun :=
  match old with
  | none => ⟨.waiting, after now e.period, 0, 0, 0, 0⟩
  | some r => { r with state := .waiting, nextDue := after now e.period }

/-- The runtime records of a scan list whose due timers start afresh, counters carried over by index
(R94, R96). -/
def startedRuns (now : Uptime) (scan : Sparse ScanEntry) (old : Sparse ScanRun) : Sparse ScanRun :=
  scan.mapVals (fun i e => startedRun now e (old.get i))

/-! ## The lines at a swap -/

/-- A station keeps its record over a swap: it had one and the new tables name it (R81). -/
def keepsRecord (t : Tables) (l : LineNo) (old : List StationRecord) (station : Nat) : Bool :=
  old.any (fun r => decide (r.station = station)) && (t.stationsOn l).contains station

/-- A probe in progress whose record the swap removes has its result discarded (R77). -/
def Work.swapped (keeps : Nat → Bool) : Work → Work
  | .probe station tag discard => .probe station tag (discard || !keeps station)
  | w => w

/-- An attempt is in progress on the line (R77). -/
def LinePhase.attempting : LinePhase → Bool
  | .sending _ _ => true
  | .awaiting _ => true
  | _ => false

/-- One line engine at a swap (R77). A disabled line abandons its probe and is IDLE. An attempt in
progress finishes under the wire settings it began with; otherwise the new ones apply at once, and a
frame partly received under another rate or parity is abandoned uncounted, which runs GUARD's guard
time again (R65, R70). -/
def swapLine (now : Uptime) (r : LineSettings) (keeps : Nat → Bool) (n : Line) : Line :=
  let probes := n.probes.filter keeps
  if !r.enabled then
    { n with phase := .idle, current := none, receiving := false, wire := r.wire, probes := probes }
  else if n.phase.attempting then
    { n with current := n.current.map (Work.swapped keeps), probes := probes }
  else if n.receiving && decide (n.wire ≠ r.wire) then
    { n with
      phase :=
        match n.phase with
        | .guard _ => .guard (some (after now r.guardTime))
        | other => other
      receiving := false
      wire := r.wire
      probes := probes }
  else { n with wire := r.wire, probes := probes }

/-! ## The swap -/

/-- The results of the closing MREPLY of a swap (R145): generation, map entries, used scan places. -/
def swapResults (generation : Word) (t : Tables) : List Byte :=
  bytes16 generation ++ nat2 t.map.length ++ [nat1 t.scan.length]

/-- Steps 2 to 10 of the swap (R142): tables, generation, mirror, stations, scan entries, state. -/
def State.installTables (s : State) (t : Tables) : State :=
  { s with
    active := t
    generation := s.generation + 1#16
    lines := Four.build (fun l =>
      swapLine s.uptime (t.lines.get l) (keepsRecord t l (s.stations.get l)) (s.lines.get l))
    stations := Four.build (fun l => t.carriedRecords l (s.stations.get l))
    scans := startedRuns s.uptime t.scan s.scans
    bridge := .running }.invalidateMirror

/-- The swap (R142): the staged tables become active, and the closing MREPLY joins the queue. -/
def State.swapTables (s : State) (dest tag : Byte) : State :=
  let s1 := s.installTables s.staging.tables
  (s1.pushClosing .swap dest tag
    (.mreply 0x0C#8 .ok (swapResults s1.generation s1.active))).endOperation

/-- The work is a probe of a station whose record the tables do not keep (R81). -/
def State.losesRecord (s : State) (t : Tables) (l : LineNo) : Work → Bool
  | .probe station _ _ => !keepsRecord t l (s.stations.get l) station
  | _ => false

/-- The swap (R142). A station whose probe timer's expiry falls together with a swap that removes its record,
and comes first, is LISTED and leaves the list with the record (R90). -/
def State.swap (s : State) (dest tag : Byte) : State :=
  s.together (s.losesRecord s.staging.tables) (fun t => t.swapTables dest tag)

/-- The drain is complete: no slot is ACTIVE and no scan fetch is in flight (R141). -/
def State.drained (s : State) : Bool :=
  s.slots.all (fun e => decide (e.2.phase ≠ .active)) && s.scans.all (fun e => !e.2.flying)

/-- The drain test (R141): while DRAINING, the swap is made when the drain is complete. -/
def State.drainTest (s : State) : State :=
  match s.operation with
  | .activate dest tag _ =>
    if s.bridge = .draining ∧ s.drained then s.swap dest tag else s
  | _ => s

end Sys2Proof.Machine
end

