-- ==== Sys2Proof/Machine/Management.lean ====
section
/-!
DEFINITION. The management unit: the checks of every operation (R124 to R126), the session (R127 to
R130), and the edits of the staging area (R131 to R135).
-/

namespace Sys2Proof.Machine

/-! ## Answers and checks -/

/-- A prompt MREPLY to a MGMT frame (R124). -/
def State.answer (s : State) (f : Frame) (status : Status) (results : List Byte) : State :=
  s.pushPrompt f.source f.tag (.mreply (mgmtCode f.body) status results)

/-- The session is OPEN with this owner (R127). -/
def State.ownedBy (s : State) (source : Byte) : Bool :=
  match s.session with
  | some n => decide (n.owner = source)
  | none => false

/-- A MGMT frame from the owner restarts the idle timer while no operation is pending, whatever its
operation and its answer (R130). -/
def State.touchSession (s : State) (source : Byte) : State :=
  if s.operation = .none ∧ s.ownedBy source then s.startIdleTimer else s

/-- What an operation needs (R126). -/
structure Needs where
  session : Bool
  whilePending : Bool
  closing : Bool
deriving DecidableEq, Repr, Inhabited

/-- An operation any station may send, served while an operation is pending (R125). -/
def needsNothing : Needs := ⟨false, true, false⟩

/-- An operation any station may send while no operation is pending. -/
def needsQuiet : Needs := ⟨false, false, false⟩

/-- An operation of the session owner. -/
def needsOwner : Needs := ⟨true, false, false⟩

/-- An operation of the session owner that ends with a closing MREPLY (R119). -/
def needsClosing : Needs := ⟨true, false, true⟩

/-- Checks 1 to 4 of R126, in order: the status of the first that fails. -/
def State.mgmtCheck (s : State) (n : Needs) (source : Byte) (argsGood : Bool) : Option Status :=
  if s.operation ≠ .none ∧ !n.whilePending then some .mgmtBusy
  else if n.closing && closingHeld s.txQueue then some .mgmtBusy
  else if n.session && !s.ownedBy source then some .notOwner
  else if !argsGood then some .badArgument
  else none

/-- A management operation (R126): the idle timer, checks 1 to 4 over the arguments that `read` finds
good, and the operation itself. -/
def serve {α : Type} (n : Needs) (read : State → List Byte → Option α)
    (act : α → Frame → State → State) (f : Frame) (s : State) : State :=
  let s1 := s.touchSession f.source
  match s1.mgmtCheck n f.source (read s1 (mgmtArgs f.body)).isSome with
  | some status => s1.answer f status []
  | none =>
    match read s1 (mgmtArgs f.body) with
    | some a => act a f s1
    | none => s1

/-- The MGMT frame is of an operation (R124). -/
def isOp (op : MgmtOp) (f : Frame) : Bool := decide (mgmtOp f.body = some op)

/-- MGMT_BAD_OPERATION (R124). -/
def execMgmtBadOperation (byte : Byte) (s : State) : Host.Outcome State Fault Refusal :=
  .next (onMgmt (fun f => decide (mgmtOp f.body = none))
    (fun f t => (t.touchSession f.source).answer f .badOperation []) byte s)

/-! ## Session -/

/-- The results of SESSION_OPEN: owner and timeout (R128, R170). -/
def sessionResults (owner : Byte) (timeout : Nat) : List Byte := owner :: nat2 timeout

/-- The session is OPEN with an owner and a timeout, its idle timer started (R128). -/
def State.openSession (s : State) (owner : Byte) (timeout : Nat) : State :=
  { s with session := some ⟨owner, timeout, some (after s.uptime (timeout * 1000))⟩ }

/-- SESSION_OPEN's own condition and effect (R128). -/
def sessionOpen (timeout : Nat) (f : Frame) (s : State) : State :=
  match s.session with
  | some n =>
    if n.owner = f.source then
      (s.openSession f.source timeout).answer f .ok (sessionResults f.source timeout)
    else s.answer f .sessionHeld [n.owner]
  | none => (s.openSession f.source timeout).answer f .ok (sessionResults f.source timeout)

/-- The session goes to NONE and the staging area reverts to a copy of the active tables with the mark
set (R129, R130). -/
def State.closeSession (s : State) : State :=
  { s with session := none, staging := copyOf s.active }

/-- SESSION_OPEN (R128). -/
def execSessionOpen (byte : Byte) (s : State) : Host.Outcome State Fault Refusal :=
  .next (onMgmt (isOp .sessionOpen) (serve needsQuiet (fun _ => sessionOpenArg) sessionOpen) byte s)

/-- SESSION_CLOSE (R129). -/
def execSessionClose (byte : Byte) (s : State) : Host.Outcome State Fault Refusal :=
  .next (onMgmt (isOp .sessionClose)
    (serve needsOwner (fun _ => noArgs) (fun _ f t => t.closeSession.answer f .ok [])) byte s)

/-- IDLE_TIMER_EXPIRY (R130). -/
def execIdleTimerExpiry (s : State) : Host.Outcome State Fault Refusal :=
  if s.serving && expired s.uptime (s.session.bind Session.expiry) then .next s.closeSession
  else .next s

/-! ## Staging -/

/-- A staging edit of R132 is carried out: the mark is cleared and the answer is OK. -/
def stageEdit (g : Staging) (f : Frame) (s : State) : State :=
  { s with staging := { g with mark := false } }.answer f .ok []

/-- STAGE_COPY_ACTIVE (R133). -/
def execStageCopyActive (byte : Byte) (s : State) : Host.Outcome State Fault Refusal :=
  .next (onMgmt (isOp .stageCopyActive)
    (serve needsOwner (fun _ => noArgs)
      (fun _ f t => { t with staging := copyOf t.active }.answer f .ok [])) byte s)

/-- STAGE_CLEAR (R133). -/
def execStageClear (byte : Byte) (s : State) : Host.Outcome State Fault Refusal :=
  .next (onMgmt (isOp .stageClear)
    (serve needsOwner (fun _ => noArgs)
      (fun _ f t => stageEdit { t.staging with map := [], scan := [] } f t)) byte s)

/-- STAGE_PUT_MAP (R134). -/
def execStagePutMap (byte : Byte) (s : State) : Host.Outcome State Fault Refusal :=
  .next (onMgmt (isOp .stagePutMap)
    (serve needsOwner (fun _ => putMapArgs)
      (fun a f t => stageEdit { t.staging with map := t.staging.map.put a.1 a.2 } f t)) byte s)

/-- STAGE_DELETE_MAP (R134). -/
def execStageDeleteMap (byte : Byte) (s : State) : Host.Outcome State Fault Refusal :=
  .next (onMgmt (isOp .stageDeleteMap)
    (serve needsOwner (fun _ => placeArg 256)
      (fun p f t => stageEdit { t.staging with map := t.staging.map.del p } f t)) byte s)

/-- STAGE_PUT_SCAN (R135). -/
def execStagePutScan (byte : Byte) (s : State) : Host.Outcome State Fault Refusal :=
  .next (onMgmt (isOp .stagePutScan)
    (serve needsOwner (fun _ => putScanArgs)
      (fun a f t => stageEdit { t.staging with scan := t.staging.scan.put a.1 a.2 } f t)) byte s)

/-- STAGE_DELETE_SCAN (R135). -/
def execStageDeleteScan (byte : Byte) (s : State) : Host.Outcome State Fault Refusal :=
  .next (onMgmt (isOp .stageDeleteScan)
    (serve needsOwner (fun _ => placeArg 64)
      (fun p f t => stageEdit { t.staging with scan := t.staging.scan.del p } f t)) byte s)

/-- STAGE_PUT_LINE (R135). -/
def execStagePutLine (byte : Byte) (s : State) : Host.Outcome State Fault Refusal :=
  .next (onMgmt (isOp .stagePutLine)
    (serve needsOwner (fun _ => putLineArgs)
      (fun a f t => stageEdit { t.staging with lines := t.staging.lines.set a.1 a.2 } f t)) byte s)

/-- STAGE_PUT_BRIDGE (R135). -/
def execStagePutBridge (byte : Byte) (s : State) : Host.Outcome State Fault Refusal :=
  .next (onMgmt (isOp .stagePutBridge)
    (serve needsOwner (fun _ => putBridgeArgs)
      (fun r f t => stageEdit { t.staging with bridge := r } f t)) byte s)

end Sys2Proof.Machine
end

