-- ==== Sys2Proof/Machine/Convert.lean ====
section
/-!
DEFINITION. Conversion of values between registers and items (R15 to R21). Values are converted to
integers, computed exactly, and narrowed at the end.
-/

namespace Sys2Proof.Machine

/-- A type whose element is two registers (R2). -/
def RemoteType.wide : RemoteType → Bool
  | .u8 | .s8 | .u16 | .s16 => false
  | .u32 | .s32 | .f32 => true

/-- A type read as a two's complement number. -/
def RemoteType.signed : RemoteType → Bool
  | .s8 | .s16 | .s32 => true
  | .u8 | .u16 | .u32 | .f32 => false

/-- The range of host values of a type (R17). -/
def hostRange : RemoteType → Int × Int
  | .u8 | .u16 => (0, 65535)
  | .s8 | .s16 => (-32768, 32767)
  | .u32 | .f32 => (0, 4294967295)
  | .s32 => (-2147483648, 2147483647)

/-- The range of remote values of a type (R20). -/
def remoteRange : RemoteType → Int × Int
  | .u8 => (0, 255)
  | .s8 => (-128, 127)
  | .u16 => (0, 65535)
  | .s16 => (-32768, 32767)
  | .u32 | .f32 => (0, 4294967295)
  | .s32 => (-2147483648, 2147483647)

/-! ## Reading (R15 to R17) -/

/-- The number an 8- or 16-bit register holds (R15): the low 8 bits for the 8-bit types. -/
def registerNumber (t : RemoteType) (w : Word) : Int :=
  match t with
  | .u8 => (lowByte w).toNat
  | .s8 => (lowByte w).toInt
  | .s16 => w.toInt
  | _ => w.toNat

/-- The number a 32-bit value denotes (R16). -/
def elementNumber (t : RemoteType) (d : DWord) : Int := if t.signed then d.toInt else d.toNat

/-- The scaled value before clamping (R17); the division truncates toward zero. -/
def scaleRead (s : Scale) (remote : Int) : Int :=
  (remote * (s.multiplier : Int)).tdiv (s.divisor : Int) + s.offset

/-- A value clamped to a range, and whether it was clamped (R17). -/
def clampTo (range : Int × Int) (x : Int) : Int × Bool :=
  if x < range.1 then (range.1, true)
  else if range.2 < x then (range.2, true)
  else (x, false)

/-- The host value of a number, scaled and clamped when the entry has a scale (R15, R17). -/
def hostValue (e : MapEntry) (remote : Int) : Int × Bool :=
  match e.scale with
  | none => (remote, false)
  | some s => clampTo (hostRange e.type) (scaleRead s remote)

/-- The host cell of one register of an 8- or 16-bit entry, and whether it clamped (R15, R17). -/
def readRegister (e : MapEntry) (w : Word) : Word × Bool :=
  let r := hostValue e (registerNumber e.type w)
  (BitVec.ofInt 16 r.1, r.2)

/-- The 32-bit value of an element's two registers, the lower-numbered register first (R16). -/
def joinHalves (o : WordOrder) (lower higher : Word) : DWord :=
  match o with
  | .highFirst => dwordOf lower higher
  | .lowFirst => dwordOf higher lower

/-- The two registers of a 32-bit value, the lower-numbered register first (R21). -/
def splitHalves (o : WordOrder) (d : DWord) : Word × Word :=
  match o with
  | .highFirst => (highWord d, lowWord d)
  | .lowFirst => (lowWord d, highWord d)

/-- The 32-bit host value of an element, and whether it clamped (R16, R17). F32 passes as it is. -/
def readElement (e : MapEntry) (d : DWord) : DWord × Bool :=
  if e.type = .f32 then (d, false)
  else
    let r := hostValue e (elementNumber e.type d)
    (BitVec.ofInt 32 r.1, r.2)

/-- The host cells of the elements of a 32-bit entry, the more significant half in the lower item. -/
def readElements (e : MapEntry) : List Word → List Word × Bool
  | lower :: higher :: rest =>
    let r := readElement e (joinHalves e.order lower higher)
    let t := readElements e rest
    (highWord r.1 :: lowWord r.1 :: t.1, r.2 || t.2)
  | _ => ([], false)

/-- The host cells of registers of an 8- or 16-bit entry. -/
def readRegisters (e : MapEntry) : List Word → List Word × Bool
  | [] => ([], false)
  | w :: ws =>
    let r := readRegister e w
    let t := readRegisters e ws
    (r.1 :: t.1, r.2 || t.2)

/-- Conversion on read of consecutive registers that begin on an element of the entry: the host cells
and whether any value clamped (R15 to R18). -/
def convertRead (e : MapEntry) (registers : List Word) : List Word × Bool :=
  if e.type.wide then readElements e registers else readRegisters e registers

/-! ## Storing (R19 to R21) -/

/-- The remote value of a host value (R19). -/
def remoteValue (e : MapEntry) (host : Int) : Int :=
  match e.scale with
  | none => host
  | some s => ((host - s.offset) * (s.divisor : Int)).tdiv (s.multiplier : Int)

/-- A remote value lies in its type's range (R20). -/
def inRemoteRange (t : RemoteType) (x : Int) : Bool :=
  decide ((remoteRange t).1 ≤ x) && decide (x ≤ (remoteRange t).2)

/-- The register pattern of an 8- or 16-bit remote value; an 8-bit type leaves the high byte 0 (R21). -/
def registerPattern (t : RemoteType) (x : Int) : Word :=
  match t with
  | .u8 | .s8 => wordOf 0#8 (BitVec.ofInt 8 x)
  | _ => BitVec.ofInt 16 x

/-- The register that one host value of an 8- or 16-bit entry is stored as; none when it is out of
range (R19 to R21). -/
def storeRegister (e : MapEntry) (w : Word) : Option Word :=
  let x := remoteValue e (if e.type.signed then w.toInt else w.toNat)
  if inRemoteRange e.type x then some (registerPattern e.type x) else none

/-- The remote 32-bit value of an element's host value; none when it is out of range (R19, R20). F32
is neither scaled nor checked. -/
def storeElement (e : MapEntry) (d : DWord) : Option DWord :=
  if e.type = .f32 then some d
  else
    let x := remoteValue e (elementNumber e.type d)
    if inRemoteRange e.type x then some (BitVec.ofInt 32 x) else none

/-- The registers of the elements of a 32-bit entry, or the offset of the first failing element's
first item; `k` is the offset of the first cell given. -/
def storeElements (e : MapEntry) : Nat → List Word → Except Nat (List Word)
  | k, high :: low :: rest =>
    match storeElement e (dwordOf high low) with
    | none => .error k
    | some d =>
      match storeElements e (k + 2) rest with
      | .error j => .error j
      | .ok rs => .ok ((splitHalves e.order d).1 :: (splitHalves e.order d).2 :: rs)
  | _, _ => .ok []

/-- The registers of host values of an 8- or 16-bit entry, or the offset of the first failing one. -/
def storeRegisters (e : MapEntry) : Nat → List Word → Except Nat (List Word)
  | _, [] => .ok []
  | k, w :: ws =>
    match storeRegister e w with
    | none => .error k
    | some r =>
      match storeRegisters e (k + 1) ws with
      | .error j => .error j
      | .ok rs => .ok (r :: rs)

/-- Conversion on store of consecutive host values that begin on an element of the entry: the register
values in ascending register order, or the offset of the item a range failure names (R20). -/
def convertStore (e : MapEntry) (values : List Word) : Except Nat (List Word) :=
  if e.type.wide then storeElements e 0 values else storeRegisters e 0 values

end Sys2Proof.Machine
end

