-- ==== Sys2Proof/Machine/Requests.lean ====
section
/-!
DEFINITION. What becomes of an admitted request: failures and the first-failure record, leg ends,
releases, cancellations, completion and the reply (R41 to R61), with the mirror writes of its legs
(R105 to R107).
-/

namespace Sys2Proof.Machine

/-! ## Legs of a request -/

/-- HELD, QUEUED and IN_FLIGHT are unfinished (R42). -/
def LegState.unfinished : LegState → Bool
  | .held | .queued | .inFlight => true
  | .done | .failed => false

/-- The records of a request's leg list that hold a leg of which `p` holds, in leg list order. -/
def State.legsWhere (s : State) (r : Request) (p : Leg → Bool) : List Nat :=
  r.legs.filter (fun i => ((s.legs.get i).map p).getD false)

/-- A leg of a slot becomes CANCELLED: it leaves its demand queue and the slot's leg list, and its
record returns to the pool (R42). -/
def State.cancelLeg (k : Nat) (s : State) (i : Nat) : State :=
  match s.legs.get i with
  | none => s
  | some g =>
    ((s.modLine g.line (fun n => { n with demand := n.demand.filter (fun j => j != i) })).modSlot k
      (fun r => { r with legs := r.legs.filter (fun j => j != i) })).freeLeg i

/-- The legs of a slot of which `p` holds become CANCELLED. -/
def State.cancelLegs (s : State) (k : Nat) (p : Leg → Bool) : State :=
  match s.slots.get k with
  | none => s
  | some r => (s.legsWhere r p).foldl (State.cancelLeg k) s

/-! ## The first-failure record -/

/-- The item at a request position: an item of the run, or a pair's item (R44). -/
def Request.itemAt (r : Request) (position : Nat) : Nat :=
  match r.kind with
  | .storeSet => r.items.getD position 0
  | _ => r.first + position

/-- A failure is offered to the first-failure record: it enters when the record is absent or lies at a
higher position (R44). -/
def Request.offer (r : Request) (f : Failure) : Request :=
  match r.failure with
  | none => { r with failure := some f }
  | some old => if f.position < old.position then { r with failure := some f } else r

/-- Whether a failure at a position would enter the record (R44). -/
def Request.admitsFailure (r : Request) (position : Nat) : Bool :=
  match r.failure with
  | none => true
  | some old => decide (position < old.position)

/-- The entry of a failed leg (R44). -/
def Request.legFailure (r : Request) (g : Leg) (status : Status) : Failure where
  position := g.position
  status := status
  detail := ⟨r.itemAt g.position, some g.line, g.station, g.remote, g.attempts, g.uncertain⟩

/-- The CANCELLED entry at a cancel point (R44, R59). -/
def Request.cancelFailure (r : Request) (position : Nat) : Failure where
  position := position
  status := .cancelled
  detail := ⟨r.itemAt position, none, 0, none, 0, false⟩

/-! ## Completion and the reply -/

/-- The transferred count of an admitted request (R55). -/
def Request.transferred (r : Request) : Nat :=
  match r.failure with
  | none => r.count
  | some f => f.position

/-- The value of a buffer cell; open where the cell holds none, which no run reaches (R49). -/
def Request.cellValue (r : Request) (k : Nat) : Word :=
  (r.buffer.get k).getD (Config.unfilledCell k)

/-- The REPLY of a completed request (R54, R55). -/
def Request.reply (r : Request) : Reply where
  status := (r.failure.map Failure.status).getD .ok
  stale := r.stale
  clamped := r.clamped
  uncertain := (r.failure.map (fun f => f.detail.uncertain)).getD false
  transferred := r.transferred
  detail := r.failure.map Failure.detail
  values :=
    match r.kind with
    | .fetch => (List.range r.transferred).map r.cellValue
    | _ => []

/-- Some leg of the request is unfinished (R49, R53). -/
def State.unfinished (s : State) (r : Request) : Bool :=
  r.legs.any (fun i => ((s.legs.get i).map (fun g => g.state.unfinished)).getD false)

/-- The completion test of an ACTIVE slot: with no leg unfinished, its REPLY joins the transmit queue
and the slot is REPLYING (R49, R53, R54, R56). -/
def State.completeIfDone (s : State) (k : Nat) : State :=
  match s.slots.get k with
  | none => s
  | some r =>
    if r.phase = .active ∧ s.unfinished r = false then
      (s.enqueue ⟨.slotReply k, r.source, r.tag, .reply r.reply⟩).putSlot k
        { r with phase := .replying }
    else s

/-! ## Failures -/

/-- A leg that fails takes its outcome fields (R43, R46). -/
def Leg.fail (g : Leg) (status : Status) (remote : Option RemoteCode) (uncertain : Bool) : Leg :=
  { g with state := .failed, status := some status, remote := remote, uncertain := uncertain }

/-- A slot takes the failure of a fetch leg (R48): the failure is offered, and when the record changed
the QUEUED legs above it are cancelled. -/
def State.fetchFailure (s : State) (k : Nat) (r : Request) (g : Leg) (status : Status) : State :=
  let s1 := s.putSlot k (r.offer (r.legFailure g status))
  let s2 :=
    if r.admitsFailure g.position then
      s1.cancelLegs k (fun h => decide (h.state = .queued) && decide (g.position < h.position))
    else s1
  s2.completeIfDone k

/-- A slot takes the failure of a store leg (R52): the failure is offered and every HELD leg is
cancelled. -/
def State.storeFailure (s : State) (k : Nat) (r : Request) (g : Leg) (status : Status) : State :=
  ((s.putSlot k (r.offer (r.legFailure g status))).cancelLegs k
    (fun h => decide (h.state = .held))).completeIfDone k

/-- A slot takes a leg failure under the rule of its kind (R48, R52). -/
def State.legFailure (s : State) (g : Leg) (status : Status) : State :=
  match s.slots.get g.owner with
  | none => s
  | some r =>
    match r.kind with
    | .fetch => s.fetchFailure g.owner r g status
    | _ => s.storeFailure g.owner r g status

/-- A QUEUED leg fails STATION_OFFLINE as its station goes OFFLINE (R46). A leg that an earlier failure
of the same event has taken out of the queue is passed over. -/
def State.failQueued (s : State) (i : Nat) : State :=
  match s.legs.get i with
  | none => s
  | some g =>
    if g.state = .queued then
      let failed := g.fail .stationOffline none false
      ((s.modLine g.line (fun n => { n with demand := n.demand.filter (fun j => j != i) })).putLeg i
        failed).legFailure failed .stationOffline
    else s

/-! ## Release of held legs -/

/-- A station that turns work away: its record is OFFLINE; station 0 never does (R51). -/
def State.turnsAway (s : State) (l : LineNo) (station : Nat) : Bool :=
  decide (station ≠ 0) && s.offline l station

/-- The slot releases its next leg to release, if it is HELD (R51). A line that is IDLE takes the released leg
in the same event (R66); a CANCEL that falls together with it takes it back (R61, `State.cancelRequest`). -/
def State.release (s : State) (k : Nat) (r : Request) : State :=
  match r.legs[r.nextRelease]? with
  | none => s
  | some i =>
    match s.legs.get i with
    | none => s
    | some g =>
      if g.state = .held then
        let r1 := { r with nextRelease := r.nextRelease + 1 }
        let s1 := s.putSlot k r1
        if s.turnsAway g.line g.station then
          let failed := g.fail .stationOffline none false
          (s1.putLeg i failed).storeFailure k r1 failed .stationOffline
        else
          ((s1.putLeg i { g with state := .queued }).joinDemand g.line i).kick g.line
      else s

/-! ## The end of a leg on its line -/

/-- The outcome a line hands to a leg (R43, R76). -/
inductive LegOutcome where
  | done (values : List Word)
  | failed (status : Status) (remote : Option RemoteCode)
deriving DecidableEq, Repr, Inhabited

/-- The leg with its outcome (R43): a store leg that fails by reply timeout is UNCERTAIN. -/
def Leg.ended (g : Leg) : LegOutcome → Leg
  | .done values =>
    match g.direction with
    | .fetch => { g with state := .done, values := values }
    | .store => { g with state := .done }
  | .failed status remote =>
    g.fail status remote (decide (g.direction = .store) && decide (status = .timeout))

/-- The mirror cell of a leg's first register under the binding of its map entry (R105, R106). -/
def State.legCell (s : State) (g : Leg) : Option Nat :=
  match s.active.map[g.mapPosition]? with
  | none => none
  | some e =>
    match e.binding with
    | none => none
    | some b => (s.active.scan.get b.scan).map (fun c => c.mirrorBase + (g.first - c.remote))

/-- The mirror's side of a leg's end: a DONE leg writes the bound cells, a store leg that failed by
reply timeout invalidates them, any other failure leaves them (R105 to R107). -/
def State.legMirror (s : State) (g : Leg) : State :=
  match s.legCell g with
  | none => s
  | some k =>
    match g.state with
    | .done => s.writeCells k g.values
    | .failed => if g.uncertain then s.invalidateCells k g.count else s
    | _ => s

/-- Consecutive buffer cells take values. -/
def fillBuffer : Nat → List Word → Sparse Word → Sparse Word
  | _, [], b => b
  | k, w :: ws, b => fillBuffer (k + 1) ws (b.put k w)

/-- The value buffer takes the converted values of a DONE fetch leg, unless the request is being
cancelled (R47). -/
def State.takeValues (s : State) (r : Request) (g : Leg) : Request :=
  if r.cancelRequested then r
  else
    match s.active.map[g.mapPosition]? with
    | none => r
    | some e =>
      let c := convertRead e g.values
      { r with buffer := fillBuffer g.position c.1 r.buffer, clamped := r.clamped || c.2 }

/-- The slot takes the DONE of a leg: a FETCH its values (R47), a store the release of its next leg
unless it is being cancelled (R51); then it tests for completion. -/
def State.legDone (s : State) (g : Leg) : State :=
  match s.slots.get g.owner with
  | none => s
  | some r =>
    match r.kind with
    | .fetch => (s.putSlot g.owner (s.takeValues r g)).completeIfDone g.owner
    | _ => (if r.cancelRequested then s else s.release g.owner r).completeIfDone g.owner

/-- An IN_FLIGHT leg ends on its line: the leg takes its outcome, the bound mirror cells are written or
invalidated, and the owning slot takes the end (R43, R60). -/
def State.legEnd (s : State) (i : Nat) (o : LegOutcome) : State :=
  match s.legs.get i with
  | none => s
  | some g =>
    let g1 := g.ended o
    let s1 := (s.putLeg i g1).legMirror g1
    match o with
    | .done _ => s1.legDone g1
    | .failed status _ => s1.legFailure g1 status

/-! ## Cancelling -/

/-- The leg that a store released last, as work of a line (R51). Leg 0 was queued by admission. -/
def Request.released (r : Request) : Option Work :=
  match r.kind with
  | .fetch => none
  | _ => if 2 ≤ r.nextRelease then (r.legs[r.nextRelease - 1]?).map .leg else none

/-- A leg that a CANCEL's cancel point counts (R59): QUEUED or IN_FLIGHT for a FETCH, QUEUED or HELD for
a store. -/
def cancelCounts (kind : RequestKind) (g : Leg) : Bool :=
  match kind, g.state with
  | .fetch, .queued => true
  | .fetch, .inFlight => true
  | .fetch, _ => false
  | _, .queued => true
  | _, .held => true
  | _, _ => false

/-- A leg that has not reached its line: QUEUED or HELD (R59). -/
def Leg.waiting (g : Leg) : Bool := decide (g.state = .queued) || decide (g.state = .held)

/-- The cancel point: the lowest request position among the legs that count, if any (R59). -/
def State.cancelPoint (s : State) (r : Request) : Option Nat :=
  ((s.legsWhere r (cancelCounts r.kind)).filterMap
    (fun i => (s.legs.get i).map Leg.position)).min?

/-- The request's own side of a CANCEL: cancel-requested is set and the cancel point, when there is
one, is offered to the first-failure record (R59). -/
def State.cancelMark (s : State) (r : Request) : Request :=
  let r1 := { r with cancelRequested := true }
  match s.cancelPoint r with
  | none => r1
  | some position => r1.offer (r1.cancelFailure position)

end Sys2Proof.Machine
end

