-- ==== Sys2Proof/Machine/Activation.lean ====
section
/-!
DEFINITION. ACTIVATE and its drain (R139 to R147), and CANCEL, which may complete a drain (R58, R141).
-/

namespace Sys2Proof.Machine

/-! ## The beginning of a drain -/

/-- Every QUEUED scan entry of a line leaves its queue and becomes WAITING, uncounted (R101). -/
def State.emptyScanQueue (s : State) (l : LineNo) : State :=
  (s.lines.get l).scans.foldl (fun t i => t.modScan i (fun r => { r with state := .waiting }))
    (s.modLine l (fun n => { n with scans := [] }))

/-- The scan scheduler's side of entering DRAINING (R101): the scan queues are emptied. The due timers
stand still while the bridge is DRAINING (R96). -/
def State.stopScans (s : State) : State := allLines.foldl State.emptyScanQueue s

/-- The bridge enters DRAINING for an ACTIVATE (R139). A scan entry whose due expiry falls together with the
ACTIVATE and comes first is in the queue that the drain empties (R97, R147). -/
def State.enterDraining (s : State) (dest tag : Byte) (timeout : Nat) : State :=
  State.together
    { s with
      bridge := .draining
      operation := .activate dest tag (after s.uptime timeout) }.stopIdleTimer
    (fun _ w => w.isScan) State.stopScans

/-- ACTIVATE's own condition and effect (R139): NOT_VALIDATED, or the drain begins and the drain test is
made. -/
def activate (timeout : Nat) (f : Frame) (s : State) : State :=
  if s.staging.mark then (s.enterDraining f.source f.tag timeout).drainTest
  else s.answer f .notValidated []

/-- ACTIVATE (R139). -/
def execActivate (byte : Byte) (s : State) : Host.Outcome State Fault Refusal :=
  .next (onMgmt (isOp .activate) (serve needsClosing (fun _ => activateArg) activate) byte s)

/-! ## The end of a drain by its timer -/

/-- A line with a leg or scan fetch in flight (R146). -/
def Line.busy (n : Line) : Bool :=
  match n.current with
  | some (.leg _) => true
  | some (.scan _) => true
  | _ => false

/-- The results of a DRAIN_TIMEOUT MREPLY (R146): slots ACTIVE and busy lines. -/
def State.drainResults (s : State) : List Byte :=
  [nat1 (s.slotsIn .active), nat1 (s.lines.toList.countP Line.busy)]

/-- An entry's state at a drain's end by its timer (R101): WAITING. The line goes on with a fetch that it holds,
to that fetch's end (R98, R101; DESIGN CHOICE: log entry 14). -/
def ScanState.restarted : ScanState → ScanState
  | .inFlight attempts tag => .finishing attempts tag
  | other => other

/-- Every used scan entry starts WAITING with a fresh due timer; its counters stay (R96, R101, R146). None is
QUEUED there: the drain emptied the scan queues and nothing has joined them since (R96, R101). -/
def State.restartDueTimers (s : State) : State :=
  { s with scans := s.scans.mapVals (fun i r =>
      match s.active.scan.get i with
      | some e => { r with
          state := r.state.restarted
          nextDue := after s.uptime e.period }
      | none => r) }

/-- The ACTIVATE ends without a swap (R146). -/
def State.drainTimedOut (s : State) (dest tag : Byte) : State :=
  ({ s with bridge := .running }.restartDueTimers.pushClosing .drainTimeout dest tag
    (.mreply 0x0C#8 .drainTimeout s.drainResults)).endOperation

/-- DRAIN_TIMER_EXPIRY (R146). -/
def execDrainTimerExpiry (s : State) : Host.Outcome State Fault Refusal :=
  match s.operation with
  | .activate dest tag drain =>
    if s.powered && decide (s.bridge = .draining) && reached s.uptime drain then
      .next (s.drainTimedOut dest tag)
    else .next s
  | _ => .next s

/-! ## CANCEL -/

/-- A CANCEL answered with an ACK of a status (R58). -/
def State.pushAck (s : State) (f : Frame) (status : Status) : State :=
  s.pushPrompt f.source f.tag (.ack status)

/-- The effect of a CANCEL on an ACTIVE slot (R59): the mark, the cancellation of its QUEUED and HELD legs, the
ACK, and the completion test. -/
def State.cancelActive (s : State) (k : Nat) (r : Request) (f : Frame) : State :=
  (((s.putSlot k (s.cancelMark r)).cancelLegs k Leg.waiting).pushAck f .ok).completeIfDone k

/-- A CANCEL's arrival at the request table (R58, R59). A leg whose release falls together with the CANCEL and
comes first is QUEUED, and cancelled from the queue (R61). A CANCEL that finds its slot ACTIVE may complete
the request, which while DRAINING is followed by the drain test (R141, R147). -/
def State.cancelRequest (s : State) (f : Frame) : State :=
  match s.slotOf f.source f.tag with
  | none => s.pushAck f .notFound
  | some (k, r) =>
    match r.phase with
    | .replying => s.pushAck f .tooLate
    | .active =>
      if r.cancelRequested then s.pushAck f .ok
      else
        (s.together (fun _ w => decide (r.released = some w))
          (fun t => t.cancelActive k r f)).drainTest

/-- CANCEL (R58). -/
def execCancel (byte : Byte) (s : State) : Host.Outcome State Fault Refusal :=
  .next (onKind .cancel (fun f t => t.cancelRequest f) byte s)

end Sys2Proof.Machine
end

