-- ==== Sys2Proof/Machine/Lookup.lean ====
section
/-!
DEFINITION. Lookup of item ranges and pair lists in the active map table, segments, and the cutting
of segments into legs (R7, R10 to R14).
-/

namespace Sys2Proof.Machine

/-- An entry covers an item (R7). -/
def MapEntry.covers (e : MapEntry) (item : Nat) : Bool :=
  decide (e.base ≤ item) && decide (item < e.base + e.length)

/-- The first entry that covers an item, with its position; `p` is the first entry's position. -/
def findEntry (item : Nat) : Nat → List MapEntry → Option (Nat × MapEntry)
  | _, [] => none
  | p, e :: es => if e.covers item then some (p, e) else findEntry item (p + 1) es

/-- A segment (R10), with the entry at its map position at hand. -/
structure Segment where
  mapPosition : Nat
  entry : MapEntry
  first : Nat
  count : Nat
  register : Nat
  offset : Nat
deriving DecidableEq, Repr, Inhabited

/-- The segment of `n` items from `item` in an entry (R2, R10). -/
def segmentAt (p : Nat) (e : MapEntry) (item n offset : Nat) : Segment :=
  ⟨p, e, item, n, e.remote + (item - e.base), offset⟩

/-- Lookup of a run of `left` items from `item`: the segments in item order, or the hole item. Each
segment holds at least one item, so `fuel = left` is enough. `origin` is the request's first item. -/
def lookupRun (map : List MapEntry) (origin : Nat) : Nat → Nat → Nat → Except Nat (List Segment)
  | 0, _, _ => .ok []
  | fuel + 1, item, left =>
    if left = 0 then .ok []
    else
      match findEntry item 0 map with
      | none => .error item
      | some (p, e) =>
        let n := min left (e.base + e.length - item)
        match lookupRun map origin fuel (item + n) (left - n) with
        | .error hole => .error hole
        | .ok segments => .ok (segmentAt p e item n (item - origin) :: segments)

/-- Lookup of the pairs of a STORE_SET from pair `index` on: one segment of one item each, in pair
order, or the hole item (R10). -/
def lookupPairs (map : List MapEntry) : Nat → List Nat → Except Nat (List Segment)
  | _, [] => .ok []
  | index, item :: items =>
    match findEntry item 0 map with
    | none => .error item
    | some (p, e) =>
      match lookupPairs map (index + 1) items with
      | .error hole => .error hole
      | .ok segments => .ok (segmentAt p e item 1 index :: segments)

/-- An access permits a request kind (R3). -/
def Access.permits : Access → RequestKind → Bool
  | .ro, .fetch => true
  | .ro, _ => false
  | .rw, _ => true
  | .wo, .fetch => false
  | .wo, _ => true

/-- The item of the access conflict, if any: the first item in item order (R3). -/
def accessConflict (kind : RequestKind) (segments : List Segment) : Option Nat :=
  (segments.find? (fun g => !g.entry.access.permits kind)).map Segment.first

/-- The item a segment splits a pair at, if it does (R11). -/
def splitItem (kind : RequestKind) (g : Segment) : Option Nat :=
  if g.entry.type.wide then
    if kind = .storeSet then some g.first
    else if (g.first - g.entry.base) % 2 = 1 then some g.first
    else if (g.first + g.count - 1 - g.entry.base) % 2 = 0 then some (g.first + g.count - 1)
    else none
  else none

/-- The split-pair item of a request, if any (R11). -/
def splitPair (kind : RequestKind) (segments : List Segment) : Option Nat :=
  segments.findSome? (splitItem kind)

/-- The remote values of each segment of a store, or the item a range failure names (R20). The host
values of a segment stand at its offset in the request. -/
def convertSegments (values : List Word) : List Segment → Except Nat (List (Segment × List Word))
  | [] => .ok []
  | g :: gs =>
    match convertStore g.entry ((values.drop g.offset).take g.count) with
    | .error k => .error (g.first + k)
    | .ok registers =>
      match convertSegments values gs with
      | .error item => .error item
      | .ok rest => .ok ((g, registers) :: rest)

/-- What a leg is to do, before it is bound to a record (R12). -/
structure LegPlan where
  line : LineNo
  station : Nat
  first : Nat
  count : Nat
  direction : Direction
  values : List Word
  position : Nat
  mapPosition : Nat
deriving DecidableEq, Repr, Inhabited

/-- The number of legs of a segment of `n` registers: `n` divided by 60, rounded up (R12). -/
def legsOf (n : Nat) : Nat := (n + 59) / 60

/-- Leg `m` of a segment (R12). -/
def legOf (direction : Direction) (g : Segment) (values : List Word) (m : Nat) : LegPlan where
  line := g.entry.line
  station := g.entry.station
  first := g.register + 60 * m
  count := min 60 (g.count - 60 * m)
  direction := direction
  values := (values.drop (60 * m)).take 60
  position := g.offset + 60 * m
  mapPosition := g.mapPosition

/-- The legs of a segment, in item order (R12). -/
def cutSegment (direction : Direction) (g : Segment) (values : List Word) : List LegPlan :=
  (List.range (legsOf g.count)).map (legOf direction g values)

end Sys2Proof.Machine
end

