-- ==== Sys2Proof/Machine/Admission.lean ====
section
/-!
DEFINITION. Admission of FETCH, STORE and STORE_SET (R22 to R40).
-/

namespace Sys2Proof.Machine

/-! ## Mirror segments of a FETCH -/

/-- The mirror cell of the segment's item at an offset in the segment (R5). -/
def State.segmentCell (s : State) (g : Segment) (k : Nat) : MirrorCell :=
  ((s.boundCell g.entry (g.first - g.entry.base + k)).map s.cell).getD blankCell

/-- The classification of a FETCH segment: true when it is mirror-served (R36). -/
def State.mirrorServed (s : State) (g : Segment) : Bool :=
  match g.entry.policy with
  | .live => false
  | .mirror => true
  | .mirrorFallback =>
    (List.range g.count).all
      (fun k => (s.segmentCell g k).fresh s.uptime (g.entry.maxAge.getD 0))

/-- Element size in registers (R2). -/
def RemoteType.width (t : RemoteType) : Nat := if t.wide then 2 else 1

/-- How many items of a mirror-served segment are served: those before the first element that contains
an invalid cell (R37). -/
def State.servable (s : State) (g : Segment) : Nat :=
  let w := g.entry.type.width
  w * ((List.range (g.count / w)).takeWhile
    (fun j => (List.range w).all (fun i => (s.segmentCell g (w * j + i)).valid))).length

/-- The NO_DATA point at an offset of a segment (R37). -/
def noDataAt (g : Segment) (k : Nat) : Failure where
  position := g.offset + k
  status := .noData
  detail := ⟨g.first + k, none, g.entry.station, none, 0, false⟩

/-- A mirror-served segment is served (R37): its cells up to the first element with an invalid one are
converted into the value buffer, STALE and CLAMPED are set, and a NO_DATA point is offered. -/
def State.serveSegment (s : State) (r : Request) (g : Segment) : Request :=
  let n := s.servable g
  let cells := (List.range n).map (s.segmentCell g)
  let c := convertRead g.entry (cells.map MirrorCell.raw)
  let r1 : Request := { r with
    buffer := fillBuffer g.offset c.1 r.buffer
    stale := r.stale || cells.any (fun x => x.stale s.uptime (g.entry.maxAge.getD 0))
    clamped := r.clamped || c.2 }
  if n < g.count then r1.offer (noDataAt g n) else r1

/-! ## The checks -/

/-- What an admitted request will do: its fields, the segments served from the mirror, and its legs in
order (R12, R13, R33, R39). -/
structure Plan where
  fields : DataFields
  served : List Segment
  legs : List LegPlan
deriving DecidableEq, Repr, Inhabited

/-- The lookup of a request (R10). -/
def lookup (map : List MapEntry) (kind : RequestKind) (d : DataFields) :
    Except Nat (List Segment) :=
  match kind with
  | .storeSet => lookupPairs map 0 d.items
  | _ => lookupRun map d.first d.count d.first d.count

/-- Check 7 and the plan (R12, R13, R32, R33): a FETCH has its segments classified, a store has its
values converted; the error is the item of a range failure. -/
def State.planFor (s : State) (kind : RequestKind) (d : DataFields) (segments : List Segment) :
    Except Nat Plan :=
  match kind with
  | .fetch =>
    .ok ⟨d, segments.filter s.mirrorServed,
      (segments.filter (fun g => !s.mirrorServed g)).flatMap (fun g => cutSegment .fetch g [])⟩
  | _ =>
    match convertSegments d.values segments with
    | .error item => .error item
    | .ok converted => .ok ⟨d, [], converted.flatMap (fun c => cutSegment .store c.1 c.2)⟩

/-- Checks 8 to 11 (R30, R34): leg count, duplicate tag, free slot, free records. -/
def State.roomFor (s : State) (f : Frame) (p : Plan) : Option Status :=
  if 64 < p.legs.length then some .tooFragmented
  else if (s.slotOf f.source f.tag).isSome then some .duplicateTag
  else if s.freeSlot = none then some .full
  else if s.freeRecords.length < p.legs.length then some .legShortage
  else none

/-- The eleven admission checks in their order (R30): the refusal status and the item it names, or the
plan of the admitted request. -/
def State.admission (s : State) (kind : RequestKind) (f : Frame) : Except (Status × Nat) Plan :=
  let lead := leadItem kind f.body
  if s.bridge = .draining then .error (.reconfig, lead)
  else
    match dataFields kind f.body with
    | none => .error (.badCount, lead)
    | some d =>
      if s.active.map = [] then .error (.noMap, lead)
      else
        match lookup s.active.map kind d with
        | .error item => .error (.hole, item)
        | .ok segments =>
          match accessConflict kind segments with
          | some item => .error (.access, item)
          | none =>
            match splitPair kind segments with
            | some item => .error (.splitPair, item)
            | none =>
              match s.planFor kind d segments with
              | .error item => .error (.range, item)
              | .ok p =>
                match s.roomFor f p with
                | some status => .error (status, lead)
                | none => .ok p

/-- The REPLY of a refusal (R35). -/
def refusalReply (status : Status) (item : Nat) : Reply where
  status := status
  stale := false
  clamped := false
  uncertain := false
  transferred := 0
  detail := some ⟨item, none, 0, none, 0, false⟩
  values := []

/-! ## Filling the slot -/

/-- The fields of a slot on admission, before any mirror segment or leg (R25). -/
def newRequest (kind : RequestKind) (f : Frame) (d : DataFields) : Request where
  phase := .active
  source := f.source
  tag := f.tag
  kind := kind
  first := d.first
  count := d.count
  items := d.items
  legs := []
  buffer := []
  stale := false
  clamped := false
  failure := none
  cancelRequested := false
  nextRelease := 1

/-- A leg record filled from its plan (R41). -/
def newLeg (slot : Nat) (p : LegPlan) (state : LegState) : Leg where
  state := state
  owner := slot
  line := p.line
  station := p.station
  first := p.first
  count := p.count
  direction := p.direction
  values := p.values
  position := p.position
  mapPosition := p.mapPosition
  attempts := 0
  status := none
  remote := none
  tag := none
  uncertain := false

/-- A leg lies after the request's first failure recorded so far (R38). -/
def Request.beyondFailure (r : Request) (position : Nat) : Bool :=
  match r.failure with
  | none => false
  | some old => decide (old.position < position)

/-- Admission goes through one leg of a FETCH (R38): it is cancelled beyond the first failure, fails
STATION_OFFLINE, or is QUEUED. A cancelled leg leaves its reserved record free. -/
def admitFetchLeg (slot : Nat) (acc : State × Request) (b : Nat × LegPlan) : State × Request :=
  let (s, r) := acc
  let (i, p) := b
  if r.beyondFailure p.position then (s, r)
  else
    let r1 : Request := { r with legs := r.legs ++ [i] }
    if s.turnsAway p.line p.station then
      let g := (newLeg slot p .queued).fail .stationOffline none false
      (s.putLeg i g, r1.offer (r1.legFailure g .stationOffline))
    else ((s.putLeg i (newLeg slot p .queued)).joinDemand p.line i, r1)

/-- The legs of a store after the first are HELD (R39). -/
def State.holdLegs (slot : Nat) (s : State) (b : Nat × LegPlan) : State :=
  s.putLeg b.1 (newLeg slot b.2 .held)

/-- Admission treats the legs of a store (R39): leg 0 fails STATION_OFFLINE and the others are
cancelled, or leg 0 is QUEUED and the others are HELD. -/
def admitStoreLegs (slot : Nat) (s : State) (r : Request) (bound : List (Nat × LegPlan)) :
    State × Request :=
  match bound with
  | [] => (s, r)
  | (i, p) :: rest =>
    if s.turnsAway p.line p.station then
      let r1 : Request := { r with legs := [i] }
      let g := (newLeg slot p .queued).fail .stationOffline none false
      (s.putLeg i g, r1.offer (r1.legFailure g .stationOffline))
    else
      let s1 := (s.putLeg i (newLeg slot p .queued)).joinDemand p.line i
      (rest.foldl (State.holdLegs slot) s1, { r with legs := bound.map Prod.fst })

/-- The line of a QUEUED leg that has joined its demand queue takes it when it is IDLE (R38, R66). -/
def State.kickFor (s : State) (i : Nat) : State :=
  match s.legs.get i with
  | none => s
  | some g => if g.state = .queued then s.kick g.line else s

/-- An admitted request takes its slot (R25, R28, R37 to R40): records are bound, mirror segments
served, legs queued, and a request with no QUEUED leg completes at once. -/
def State.admitPlan (s : State) (kind : RequestKind) (f : Frame) (slot : Nat) (p : Plan) : State :=
  let r0 := p.served.foldl s.serveSegment (newRequest kind f p.fields)
  let bound := s.freeRecords.zip p.legs
  let (s1, r1) :=
    match kind with
    | .fetch => bound.foldl (admitFetchLeg slot) (s, r0)
    | _ => admitStoreLegs slot s r0 bound
  (r1.legs.foldl State.kickFor (s1.putSlot slot r1)).completeIfDone slot

/-- Admission of a data request (R30, R35). -/
def State.dataRequest (s : State) (kind : RequestKind) (f : Frame) : State :=
  match s.admission kind f with
  | .error (status, item) => s.pushRefusal f.source f.tag (refusalReply status item)
  | .ok p =>
    match s.freeSlot with
    | none => s
    | some slot => s.admitPlan kind f slot p

/-- FETCH (R30). -/
def execFetch (byte : Byte) (s : State) : Host.Outcome State Fault Refusal :=
  .next (onKind .fetch (fun f t => t.dataRequest .fetch f) byte s)

/-- STORE (R39). -/
def execStore (byte : Byte) (s : State) : Host.Outcome State Fault Refusal :=
  .next (onKind .store (fun f t => t.dataRequest .store f) byte s)

/-- STORE_SET (R39). -/
def execStoreSet (byte : Byte) (s : State) : Host.Outcome State Fault Refusal :=
  .next (onKind .storeSet (fun f t => t.dataRequest .storeSet f) byte s)

end Sys2Proof.Machine
end

