-- ==== Sys2Proof/Machine/FieldLines.lean ====
section
/-!
DEFINITION. The field line engines' events: the end of transmissions and receptions, the timers of a
line, the end of attempts and of work, and the OFFLINE transition (R65 to R76, R82 to R88, R98 to
R100).
-/

namespace Sys2Proof.Machine

/-! ## Scan fetches -/

/-- A scan fetch ends DONE (R99): its region takes the values, and the entry is WAITING. -/
def State.scanDone (s : State) (i : Nat) (values : List Word) : State :=
  (match s.active.scan.get i with
   | none => s
   | some e => s.writeCells e.mirrorBase values).modScan i
    (fun r => { r with state := .waiting, fetchesDone := satInc r.fetchesDone })

/-- A scan fetch ends FAILED (R100): its cells stay, the failure is counted, the entry is WAITING. -/
def State.scanFailed (s : State) (i : Nat) : State :=
  s.modScan i (fun r => { r with state := .waiting, failures := satInc r.failures })

/-! ## Reports to the station record -/

/-- An answer puts the record in ONLINE with failures 0 (R82, R87, R88). -/
def StationRecord.answered (r : StationRecord) : StationRecord :=
  { r with health := .online, failures := 0, probe := .none }

/-- A failed attempt of a leg or scan fetch raises the failures and makes the record SUSPECT or, at the
threshold, OFFLINE with its probe timer started (R83, R85). -/
def StationRecord.failedAttempt (now : Uptime) (settings : LineSettings) (r : StationRecord) :
    StationRecord :=
  if r.failures + 1 < settings.offlineThreshold then
    { r with health := .suspect, failures := r.failures + 1 }
  else
    { r with
      health := .offline
      failures := r.failures + 1
      probe := .waiting (after now settings.probeInterval) }

/-- A failed probe leaves an OFFLINE record OFFLINE and starts its probe timer (R87); a record that is
no longer OFFLINE is left as it is (R88). -/
def StationRecord.failedProbe (now : Uptime) (settings : LineSettings) (r : StationRecord) :
    StationRecord :=
  if r.health = .offline then { r with probe := .waiting (after now settings.probeInterval) } else r

/-- A failed attempt would drive the station OFFLINE (R83). -/
def State.drivesOffline (s : State) (l : LineNo) (station : Nat) : Bool :=
  match s.record l station with
  | none => false
  | some r => decide ((s.settings l).offlineThreshold ≤ r.failures + 1)

/-! ## The OFFLINE transition -/

/-- A leg record's leg is addressed to a station. -/
def State.legTo (s : State) (station i : Nat) : Bool :=
  ((s.legs.get i).map (fun g => decide (g.station = station))).getD false

/-- A scan place's entry is on a line and of a station. -/
def State.scanOf (s : State) (l : LineNo) (station i : Nat) : Bool :=
  ((s.active.scan.get i).map
    (fun e => decide (e.line = l) && decide (e.station = station))).getD false

/-- The QUEUED legs of the station fail STATION_OFFLINE, in demand queue order (R46, R84). -/
def State.failStationLegs (s : State) (l : LineNo) (station : Nat) : State :=
  ((s.lines.get l).demand.filter (s.legTo station)).foldl State.failQueued s

/-- The station's scan entries leave the line's scan queue and are WAITING, uncounted (R85). -/
def State.withdrawScans (s : State) (l : LineNo) (station : Nat) : State :=
  let leaving := (s.lines.get l).scans.filter (s.scanOf l station)
  leaving.foldl (fun t i => t.modScan i (fun r => { r with state := .waiting }))
    (s.modLine l (fun n => { n with scans := n.scans.filter (fun i => !s.scanOf l station i) }))

/-- Every cell of the station's scan entries on the line is marked invalid (R85). -/
def State.invalidateStation (s : State) (l : LineNo) (station : Nat) : State :=
  s.active.scan.foldl
    (fun t e =>
      if e.2.line = l ∧ e.2.station = station then t.invalidateCells e.2.mirrorBase e.2.count else t)
    s

/-- What follows the end of the work in flight when a station has gone OFFLINE (R84, R85). -/
def State.offlineSweep (s : State) (l : LineNo) (station : Nat) : State :=
  ((s.failStationLegs l station).withdrawScans l station).invalidateStation l station

/-! ## The end of an attempt -/

/-- The counter that an attempt's result raises (R74, R79). -/
def countResult (r : AttemptResult) (c : LineCounters) : LineCounters :=
  match r with
  | .success _ => c
  | .remoteFault _ => { c with remoteFaults := satInc c.remoteFaults }
  | .busy => { c with busyAnswers := satInc c.busyAnswers }
  | .lineError => { c with formatErrors := satInc c.formatErrors }
  | .timeout => { c with timeouts := satInc c.timeouts }

/-- A failed attempt: LINE_ERROR or TIMEOUT; the other results are answers (R72). -/
def AttemptResult.failed : AttemptResult → Bool
  | .lineError => true
  | .timeout => true
  | _ => false

/-- The outcome of work that ends with an attempt's result (R43, R76). -/
def AttemptResult.outcome : AttemptResult → LegOutcome
  | .success values => .done values
  | .remoteFault code => .failed code.status (some code)
  | .busy => .failed .remoteBusy (some .busy)
  | .lineError => .failed .lineError none
  | .timeout => .failed .timeout none

/-- The line's attempt ends: no reception is under way, and frames are heard under the line's settings
from now on (R77). -/
def State.closeAttempt (s : State) (l : LineNo) : State :=
  s.modLine l (fun n => { n with receiving := false, wire := (s.settings l).wire })

/-- The work's outcome is handed to its owner (R76). -/
def State.handOver (s : State) (w : Work) (o : LegOutcome) : State :=
  match w, o with
  | .leg i, o => s.legEnd i o
  | .scan i, .done values => s.scanDone i values
  | .scan i, .failed _ _ => s.scanFailed i
  | .probe _ _ _, _ => s

/-- The line's side of the end of work: a leg is counted as served, the line has no current work and
enters GUARD (R76, R79). -/
def State.dropWork (s : State) (l : LineNo) (w : Work) : State :=
  let s1 := s.modLine l (fun n => { n with current := none })
  (match w with
   | .leg _ => s1.countLine l (fun c => { c with legsServed := satInc c.legsServed })
   | _ => s1).enterGuard l

/-- The line's current work ends and its outcome is handed on (R76). -/
def State.finishWork (s : State) (l : LineNo) (w : Work) (o : LegOutcome) : State :=
  (s.dropWork l w).handOver w o

/-- The station a piece of work is addressed to. -/
def State.workStation (s : State) (w : Work) : Nat :=
  match w with
  | .leg i => ((s.legs.get i).map Leg.station).getD 0
  | .scan i => ((s.active.scan.get i).map ScanEntry.station).getD 0
  | .probe station _ _ => station

/-- The attempts made so far for a piece of work. -/
def State.workAttempts (s : State) (w : Work) : Nat :=
  match w with
  | .leg i => ((s.legs.get i).map Leg.attempts).getD 0
  | .scan i =>
    match s.scans.get i with
    | some r =>
      match r.state with
      | .inFlight n _ => n
      | .finishing n _ => n
      | _ => 0
    | none => 0
  | .probe _ _ _ => 1

/-- The field tag of the attempt in progress for a piece of work (R68). -/
def State.workTag (s : State) (w : Work) : Option Byte :=
  match w with
  | .leg i => (s.legs.get i).bind Leg.tag
  | .scan i =>
    match s.scans.get i with
    | some r =>
      match r.state with
      | .inFlight _ tag => tag
      | .finishing _ tag => tag
      | _ => none
    | none => none
  | .probe _ tag _ => tag

/-- The direction and register count of a piece of work (R72). -/
def State.workShape (s : State) (w : Work) : Direction × Nat :=
  match w with
  | .leg i => ((s.legs.get i).map (fun g => (g.direction, g.count))).getD (.fetch, 0)
  | .scan i => (.fetch, ((s.active.scan.get i).map ScanEntry.count).getD 0)
  | .probe _ _ _ => (.fetch, 1)

/-- The report to the station record for a leg or scan fetch (R74, R82, R83). -/
def State.report (s : State) (l : LineNo) (station : Nat) (r : AttemptResult) : State :=
  if r.failed then
    s.modRecord l station (StationRecord.failedAttempt s.uptime (s.settings l))
  else s.modRecord l station StationRecord.answered

/-- What follows the end of an attempt for a leg or scan fetch (R74, R75): the work ends, is kept for a
retry, or backs off. -/
def State.afterAttempt (s : State) (l : LineNo) (w : Work) (station : Nat) (wentOffline : Bool)
    (r : AttemptResult) : State :=
  let exhausted : Bool := decide ((s.settings l).retryLimit + 1 ≤ s.workAttempts w)
  match r with
  | .success _ => (s.finishWork l w r.outcome).drainTest
  | .remoteFault _ => (s.finishWork l w r.outcome).drainTest
  | .busy =>
    if exhausted then (s.finishWork l w r.outcome).drainTest
    else s.modLine l (fun n =>
      { n with phase := .backoff (after s.uptime (s.settings l).busyBackoff) })
  | _ =>
    if wentOffline then ((s.finishWork l w r.outcome).offlineSweep l station).drainTest
    else if exhausted then (s.finishWork l w r.outcome).drainTest
    else s.enterGuard l

/-- The result of a probe reaches its station record, unless a swap has removed the record (R76, R77,
R87, R88). -/
def State.probeResult (s : State) (l : LineNo) (station : Nat) (discard : Bool)
    (r : AttemptResult) : State :=
  if discard then s
  else if r.failed then
    s.modRecord l station (StationRecord.failedProbe s.uptime (s.settings l))
  else s.modRecord l station StationRecord.answered

/-- An attempt of the line's current work ends with a result (R71 to R76). -/
def State.attemptEnd (s : State) (l : LineNo) (r : AttemptResult) : State :=
  match (s.lines.get l).current with
  | none => s
  | some w =>
    let s1 := (s.closeAttempt l).countLine l (countResult r)
    match w with
    | .probe station _ discard => (s1.dropWork l w).probeResult l station discard r
    | _ =>
      let station := s1.workStation w
      (s1.report l station r).afterAttempt l w station
        (r.failed && s1.drivesOffline l station) r

/-! ## Receptions -/

/-- The line's receiver runs: the part serves and the line is enabled (R63, R78). -/
def State.listens (s : State) (l : LineNo) : Bool := s.serving && (s.settings l).enabled

/-- A reception outside an attempt ends or is abandoned: in GUARD the guard time runs again in full from
now (R65). -/
def State.endReception (s : State) (l : LineNo) : State :=
  s.modLine l (fun n => { n with
    receiving := false
    phase :=
      match n.phase with
      | .guard _ => .guard (some (after s.uptime (s.settings l).guardTime))
      | other => other })

/-- A stray is counted (R70, R71). -/
def State.countStray (s : State) (l : LineNo) : State :=
  s.countLine l (fun c => { c with strays := satInc c.strays })

/-- A good frame is an accepted reply to the current attempt (R71). -/
def State.accepts (s : State) (w : Work) (f : Frame) : Bool :=
  decide (f.dest = bridgeFieldAddress) && decide (f.source = nat1 (s.workStation w))
    && decide (f.kind = FrameKind.reply.code) && decide (some f.tag = s.workTag w)

/-- A complete frame heard in AWAITING (R70, R71). -/
def State.awaitedFrame (s : State) (l : LineNo) (f : Frame) : State :=
  if !f.checkGood then s.attemptEnd l .lineError
  else
    match (s.lines.get l).current with
    | none => s
    | some w =>
      if s.accepts w f then
        s.attemptEnd l (judgeReply (s.workShape w).1 (s.workShape w).2 f.body)
      else (s.endReception l).countStray l

/-- A complete frame on a field line (R70). -/
def State.fieldFrame (s : State) (l : LineNo) (f : Frame) : State :=
  match (s.lines.get l).phase with
  | .sending _ _ => s
  | .awaiting _ => s.awaitedFrame l f
  | _ => (s.endReception l).countStray l

/-- FIELD_FRAME_RECEIVED (R71). -/
def execFieldFrameReceived (l : LineNo) (bytes : List Byte) (s : State) :
    Host.Outcome State Fault Refusal :=
  if s.listens l && (s.lines.get l).receiving then
    match fieldFrameOf bytes with
    | some f => .next (s.fieldFrame l f)
    | none => .next s
  else .next s

/-- A frame is abandoned on a field line (R70). -/
def State.fieldAbandon (s : State) (l : LineNo) : State :=
  match (s.lines.get l).phase with
  | .sending _ _ => s
  | .awaiting _ => s.attemptEnd l .lineError
  | _ => s.endReception l

/-- FIELD_GAP_ABANDON (R70). -/
def execFieldGapAbandon (l : LineNo) (s : State) : Host.Outcome State Fault Refusal :=
  if s.listens l && (s.lines.get l).receiving then .next (s.fieldAbandon l) else .next s

/-- A reception begins: an IDLE line enters GUARD, and a running guard time is held back; bytes heard
during SENDING are discarded (R65, R70). -/
def Line.startReception (n : Line) : Line :=
  match n.phase with
  | .sending _ _ => n
  | .idle => { n with phase := .guard none, receiving := true }
  | .guard _ => { n with phase := .guard none, receiving := true }
  | _ => { n with receiving := true }

/-- FIELD_RECEPTION_START (R65). -/
def execFieldReceptionStart (l : LineNo) (s : State) : Host.Outcome State Fault Refusal :=
  if s.listens l then .next (s.modLine l Line.startReception) else .next s

/-! ## Transmissions and timers -/

/-- The work is a store leg addressed to station 0 (R69). -/
def State.broadcast (s : State) (w : Work) : Bool :=
  match w with
  | .leg i =>
    ((s.legs.get i).map
      (fun g => decide (g.direction = .store) && decide (g.station = 0))).getD false
  | _ => false

/-- The end of an attempt's transmission (R69): a broadcast store leg ends DONE, any other work awaits
its reply. -/
def State.transmitted (s : State) (l : LineNo) (replyTimeout : Nat) (w : Work) : State :=
  if s.broadcast w then ((s.closeAttempt l).finishWork l w (.done [])).drainTest
  else s.modLine l (fun n =>
    { n with receiving := false, phase := .awaiting (after s.uptime replyTimeout) })

/-- FIELD_TRANSMISSION_END (R69). -/
def execFieldTransmissionEnd (l : LineNo) (s : State) : Host.Outcome State Fault Refusal :=
  match s.serving, (s.lines.get l).phase, (s.lines.get l).current with
  | true, .sending _ replyTimeout, some w => .next (s.transmitted l replyTimeout w)
  | _, _, _ => .next s

/-- The guard time's expiry: the next attempt of the current work, or a fresh take (R65, R66, R74). -/
def State.guardOver (s : State) (l : LineNo) : State :=
  match (s.lines.get l).current with
  | some w => s.startAttempt l w
  | none => s.take l

/-- GUARD_TIME_EXPIRY (R66). -/
def execGuardTimeExpiry (l : LineNo) (s : State) : Host.Outcome State Fault Refusal :=
  match (s.lines.get l).phase with
  | .guard (some expiry) =>
    if s.serving && reached s.uptime expiry then .next (s.guardOver l) else .next s
  | _ => .next s

/-- REPLY_TIMER_EXPIRY (R73). -/
def execReplyTimerExpiry (l : LineNo) (s : State) : Host.Outcome State Fault Refusal :=
  match (s.lines.get l).phase with
  | .awaiting expiry =>
    if s.serving && reached s.uptime expiry then .next (s.attemptEnd l .timeout) else .next s
  | _ => .next s

/-- The busy backoff ends in GUARD; a reception under way holds the guard time back (R65, R75). DESIGN
CHOICE (log entry 26): the guard time runs in full from the backoff's expiry. R65 counts it from the end of
the last transmission or reception or from the expiry that ended an attempt, none of which is this moment,
and R75 says only that GUARD is entered. -/
def State.backoffOver (s : State) (l : LineNo) : State :=
  if (s.lines.get l).receiving then s.modLine l (fun n => { n with phase := .guard none })
  else s.enterGuard l

/-- BUSY_BACKOFF_EXPIRY (R75). -/
def execBusyBackoffExpiry (l : LineNo) (s : State) : Host.Outcome State Fault Refusal :=
  match (s.lines.get l).phase with
  | .backoff expiry =>
    if s.serving && reached s.uptime expiry then .next (s.backoffOver l) else .next s
  | _ => .next s

end Sys2Proof.Machine
end

