-- ==== Sys2Proof/Machine/ReadOut.lean ====
section
/-!
DEFINITION. The read-out operations: STATUS, STATS, READ_ACTIVE, READ_STAGE, STATION_LIST and SCAN_INFO
(R91, R138, R162 to R166), and STATION_RESET (R89).
-/

namespace Sys2Proof.Machine

/-! ## STATUS -/

/-- The number of records of a line in a state (R91, R162). -/
def State.stationCount (s : State) (l : LineNo) (h : Health) : Nat :=
  (s.stations.get l).countP (fun r => decide (r.health = h))

/-- The four counts of a line (R162, R170). -/
def State.stationCounts (s : State) (l : LineNo) : List Byte :=
  [nat1 (s.stationCount l .unknown), nat1 (s.stationCount l .online),
    nat1 (s.stationCount l .suspect), nat1 (s.stationCount l .offline)]

/-- The bridge state byte (R170); STARTING never appears (R162). -/
def BridgeState.code : BridgeState → Byte
  | .draining => 1
  | _ => 0

/-- The pending operation byte (R170). -/
def PendingOp.code : PendingOp → Byte
  | .none => 0
  | .activate _ _ _ => 1
  | .commit _ _ _ => 2

/-- The number of free legs (R28, R162). -/
def State.freeLegs (s : State) : Nat := s.freeRecords.length

/-- The session byte and the owner byte (R170). -/
def sessionBytes : Option Session → List Byte
  | none => [0, 0]
  | some n => [1, n.owner]

/-- The committed generation with its present flag (R170). -/
def committedBytes : Option Word → List Byte
  | none => [0, 0, 0]
  | some g => 1 :: bytes16 g

/-- The 32 bytes of STATUS (R162, R170). -/
def State.statusResults (s : State) : List Byte :=
  s.bridge.code :: (bytes16 s.generation ++ committedBytes s.committed
    ++ [nat1 (s.slotsIn .active), nat1 (s.slotsIn .replying), nat1 s.freeLegs]
    ++ sessionBytes s.session ++ [s.operation.code] ++ bytes32 s.uptime
    ++ allLines.flatMap s.stationCounts)

/-- STATUS (R162). -/
def execStatus (byte : Byte) (s : State) : Host.Outcome State Fault Refusal :=
  .next (onMgmt (isOp .status)
    (serve needsNothing (fun _ => noArgs) (fun _ f t => t.answer f .ok t.statusResults)) byte s)

/-! ## STATS -/

/-- The group a STATS reads: none where an argument is bad or a scan place is unused (R163). -/
def statsArgs (s : State) (args : List Byte) : Option StatsGroup :=
  match args with
  | [group, index, _] =>
    match statsGroup group index with
    | some (.scan i) => if (s.active.scan.get i).isSome then some (.scan i) else none
    | g => g
  | _ => none

/-- The counters of a group (11.2). -/
def State.groupBytes (s : State) (g : StatsGroup) : List Byte :=
  match g with
  | .host => s.hostCounters.bytes
  | .line l => (s.lines.get l).counters.bytes
  | .scan i => ((s.scans.get i).map ScanRun.counterBytes).getD []

/-- The results of STATS: group, index, counters (R170). -/
def State.statsResults (s : State) (f : Frame) (g : StatsGroup) : List Byte :=
  (mgmtArgs f.body).take 2 ++ s.groupBytes g

/-- Every counter of a group is set to 0 (R164). -/
def State.clearGroup (s : State) (g : StatsGroup) : State :=
  match g with
  | .host => s.countHost (fun _ => .zero)
  | .line l => s.countLine l (fun _ => .zero)
  | .scan i =>
    s.modScan i (fun r => { r with fetchesDone := 0, failures := 0, overruns := 0, skips := 0 })

/-- A STATS whose argument bytes are not three, or whose clear byte is neither 0 nor 1, is answered
BAD_ARGUMENT before check 1 (R126). -/
def statsMalformed (f : Frame) (s : State) : State :=
  (s.touchSession f.source).answer f .badArgument []

/-- A STATS frame that may be the event of a row: not one with the other clear option. -/
def isStats (clear : Bool) (f : Frame) : Bool :=
  isOp .stats f && decide (statsClearOption (mgmtArgs f.body) ≠ some (!clear))

/-- STATS with the clear option no (R163). -/
def statsRead (f : Frame) (s : State) : State :=
  if (statsClearOption (mgmtArgs f.body)).isSome then
    serve needsNothing statsArgs (fun g f t => t.answer f .ok (t.statsResults f g)) f s
  else statsMalformed f s

/-- STATS with the clear option yes (R164): the group is read and set to 0 in one event. -/
def statsClear (f : Frame) (s : State) : State :=
  if (statsClearOption (mgmtArgs f.body)).isSome then
    serve needsOwner statsArgs (fun g f t => (t.clearGroup g).answer f .ok (t.statsResults f g)) f s
  else statsMalformed f s

/-- STATS_READ (R163). -/
def execStatsRead (byte : Byte) (s : State) : Host.Outcome State Fault Refusal :=
  .next (onMgmt (isStats false) statsRead byte s)

/-- STATS_CLEAR (R164). -/
def execStatsClear (byte : Byte) (s : State) : Host.Outcome State Fault Refusal :=
  .next (onMgmt (isStats true) statsClear byte s)

/-! ## Reading the tables -/

/-- A map or scan place as read: used flag, and the entry when used (R138, R170). -/
def placeRecord {α : Type} (encode : α → List Byte) : Option α → List Byte
  | none => [0]
  | some e => 1 :: encode e

/-- The record READ_ACTIVE selects: a map index is a position below the entry count (R138). -/
def activeArgs (s : State) (args : List Byte) : Option TableSelect :=
  match tableSelect args with
  | some (.map i) => if i < s.active.map.length then some (.map i) else none
  | sel => sel

/-- The record of the active tables (R138). -/
def activeRecord (t : Tables) : TableSelect → List Byte
  | .map i => placeRecord encodeMapEntry t.map[i]?
  | .scan i => placeRecord encodeScanEntry (t.scan.get i)
  | .line l => encodeLine (t.lines.get l)
  | .bridge => encodeBridge t.bridge

/-- The record of the staging area (R138). -/
def stagedRecord (g : Staging) : TableSelect → List Byte
  | .map i => placeRecord encodeMapEntry (g.map.get i)
  | .scan i => placeRecord encodeScanEntry (g.scan.get i)
  | .line l => encodeLine (g.lines.get l)
  | .bridge => encodeBridge g.bridge

/-- READ_ACTIVE's answer (R138, R170). -/
def readActive (sel : TableSelect) (f : Frame) (s : State) : State :=
  s.answer f .ok (mgmtArgs f.body ++ bytes16 s.generation ++ activeRecord s.active sel)

/-- READ_ACTIVE (R138). -/
def execReadActive (byte : Byte) (s : State) : Host.Outcome State Fault Refusal :=
  .next (onMgmt (isOp .readActive) (serve needsNothing activeArgs readActive) byte s)

/-- READ_STAGE's answer (R138, R170). -/
def readStage (sel : TableSelect) (f : Frame) (s : State) : State :=
  s.answer f .ok (mgmtArgs f.body ++ [flagByte s.staging.mark] ++ stagedRecord s.staging sel)

/-- READ_STAGE (R138). -/
def execReadStage (byte : Byte) (s : State) : Host.Outcome State Fault Refusal :=
  .next (onMgmt (isOp .readStage) (serve needsQuiet (fun _ => tableSelect) readStage) byte s)

/-! ## Stations and scans -/

/-- The results of STATION_LIST (R91, R170). -/
def State.stationListResults (s : State) (l : LineNo) : List Byte :=
  [nat1 l.val, nat1 (s.stations.get l).length] ++ (s.stations.get l).flatMap stationBytes

/-- STATION_LIST (R91). -/
def execStationList (byte : Byte) (s : State) : Host.Outcome State Fault Refusal :=
  .next (onMgmt (isOp .stationList)
    (serve needsNothing (fun _ => lineArg)
      (fun l f t => t.answer f .ok (t.stationListResults l))) byte s)

/-- The attempts byte of SCAN_INFO: 0 when the entry is not IN_FLIGHT (R170). -/
def ScanState.attempts : ScanState → Nat
  | .inFlight n _ => n
  | _ => 0

/-- The results of SCAN_INFO (R166, R170). -/
def State.scanInfoResults (s : State) (i : Nat) : List Byte :=
  match s.active.scan.get i, s.scans.get i with
  | some e, some r =>
    [nat1 i, 1] ++ encodeScanEntry e ++ [r.state.code] ++ bytes32 r.nextDue
      ++ [nat1 r.state.attempts] ++ r.counterBytes
  | _, _ => [nat1 i, 0]

/-- SCAN_INFO (R166). -/
def execScanInfo (byte : Byte) (s : State) : Host.Outcome State Fault Refusal :=
  .next (onMgmt (isOp .scanInfo)
    (serve needsQuiet (fun _ => placeArg 64)
      (fun i f t => t.answer f .ok (t.scanInfoResults i))) byte s)

/-- STATION_RESET's line and station: a pair with no record is a bad argument (R89). -/
def stationResetArgs (s : State) (args : List Byte) : Option (LineNo × Nat) :=
  match stationArgs args with
  | some (l, station) => if (s.record l station).isSome then some (l, station) else none
  | none => none

/-- The record is UNKNOWN with failures 0 and probe stage NONE, and a LISTED station leaves its line's
probe list (R89). A probe in progress runs to its end. -/
def State.resetRecord (s : State) (l : LineNo) (station : Nat) : State :=
  let s1 := s.modRecord l station (fun r => { r with health := .unknown, failures := 0, probe := .none })
  match (s.record l station).map StationRecord.probe with
  | some .listed =>
    s1.modLine l (fun n => { n with probes := n.probes.filter (fun x => x != station) })
  | _ => s1

/-- The work is a probe of a station. -/
def Work.probes (station : Nat) : Work → Bool
  | .probe n _ _ => decide (n = station)
  | _ => false

/-- The reset of a record (R89). A station whose probe timer's expiry falls together with the reset and comes
first is LISTED, and leaves the list (R90). -/
def State.resetStation (s : State) (l : LineNo) (station : Nat) : State :=
  s.together (fun m w => decide (m = l) && w.probes station)
    (fun t => t.resetRecord l station)

/-- STATION_RESET (R89). -/
def execStationReset (byte : Byte) (s : State) : Host.Outcome State Fault Refusal :=
  .next (onMgmt (isOp .stationReset)
    (serve needsOwner stationResetArgs
      (fun a f t => (t.resetStation a.1 a.2).answer f .ok [])) byte s)

end Sys2Proof.Machine
end

