-- ==== Sys2Proof/Machine/Schedules.lean ====
section
/-!
DEFINITION. The due timers of the scan list and the probe timers of the station table (R87, R95).
-/

namespace Sys2Proof.Machine

/-- A scan entry joins the tail of its line's scan queue; an IDLE line takes it at once (R64, R66, R95). An
ACTIVATE that falls together with it takes it back (R97, R147, `State.enterDraining`). -/
def State.joinScan (s : State) (l : LineNo) (i : Nat) : State :=
  ((s.modLine l (fun n => { n with scans := n.scans ++ [i] })).modScan i
    (fun r => { r with state := .queued })).kick l

/-- The expiry of a scan entry's due timer acts on the entry (R95): an overrun, a skip, or the entry
joins its scan queue; the next due time advances by one period. An entry whose fetch its line still holds from
before a drain is not queued a second time, and counts an overrun (DESIGN CHOICE: log entry 14). -/
def State.scanDue (s : State) (i : Nat) (e : ScanEntry) (r : ScanRun) : State :=
  let s1 := s.modScan i (fun c => { c with nextDue := after c.nextDue e.period })
  match r.state with
  | .waiting =>
    if s.offline e.line e.station then
      s1.modScan i (fun c => { c with skips := satInc c.skips })
    else s1.joinScan e.line i
  | _ => s1.modScan i (fun c => { c with overruns := satInc c.overruns })

/-- SCAN_DUE_EXPIRY (R95): the due timers run while the bridge is RUNNING (R96). -/
def execScanDueExpiry (place : Nat) (s : State) : Host.Outcome State Fault Refusal :=
  match s.active.scan.get place, s.scans.get place with
  | some e, some r =>
    if s.powered && decide (s.bridge = .running) && reached s.uptime r.nextDue then
      .next (s.scanDue place e r)
    else .next s
  | _, _ => .next s

/-- A station joins the tail of its line's probe list as LISTED, and an IDLE line takes it at once (R66, R87). A
STATION_RESET, or a swap that removes the record, that falls together with it takes it back (R90,
`State.resetStation`, `State.swap`). -/
def State.listProbe (s : State) (l : LineNo) (station : Nat) : State :=
  ((s.modRecord l station (fun r => { r with probe := .listed })).modLine l
    (fun n => { n with probes := n.probes ++ [station] })).kick l

/-- PROBE_TIMER_EXPIRY (R87). -/
def execProbeTimerExpiry (l : LineNo) (station : Nat) (s : State) :
    Host.Outcome State Fault Refusal :=
  match (s.record l station).map StationRecord.probe with
  | some (.waiting next) =>
    if s.serving && reached s.uptime next then .next (s.listProbe l station) else .next s
  | _ => .next s

end Sys2Proof.Machine
end

