-- ==== Sys2Proof/Machine/ImageStore.lean ====
section
/-!
DEFINITION. The image store and COMMIT (R149 to R154, R171).
-/

namespace Sys2Proof.Machine

/-- The bytes of a slot. -/
def ImageStore.slot (m : ImageStore) : SlotId → Sparse Byte
  | .a => m.slotA
  | .b => m.slotB

/-- The view of a slot (R149). -/
def ImageStore.view (m : ImageStore) : SlotId → Option SlotView
  | .a => m.viewA
  | .b => m.viewB

/-- Replaces the bytes of a slot. -/
def ImageStore.setSlot (m : ImageStore) (i : SlotId) (bytes : Sparse Byte) : ImageStore :=
  match i with
  | .a => { m with slotA := bytes }
  | .b => { m with slotB := bytes }

/-- Replaces the view of a slot. -/
def ImageStore.setView (m : ImageStore) (i : SlotId) (v : Option SlotView) : ImageStore :=
  match i with
  | .a => { m with viewA := v }
  | .b => { m with viewB := v }

/-- The view is built from both slots (R149, R156). -/
def ImageStore.rebuilt (m : ImageStore) : ImageStore :=
  { m with viewA := slotView m.slotA, viewB := slotView m.slotB }

/-- Slot B's sequence number is newer than slot A's: their difference modulo 2^32 lies in 1 to 7FFFFFFFh
(R150). -/
def newerB (a b : DWord) : Bool :=
  decide (1 ≤ (b - a).toNat) && decide ((b - a).toNat ≤ 0x7FFFFFFF)

/-- The slot of the newest valid image, with its view (R150). -/
def ImageStore.newest (m : ImageStore) : Option (SlotId × SlotView) :=
  match m.viewA, m.viewB with
  | some a, some b => if newerB a.sequence b.sequence then some (.b, b) else some (.a, a)
  | some a, none => some (.a, a)
  | none, some b => some (.b, b)
  | none, none => none

/-- The slot that a COMMIT writes (R151). -/
def ImageStore.target (m : ImageStore) : SlotId :=
  match m.newest with
  | some (.a, _) => .b
  | some (.b, _) => .a
  | none => .a

/-- The sequence number that a COMMIT writes (R151). -/
def ImageStore.nextSequence (m : ImageStore) : DWord :=
  match m.newest with
  | some (_, v) => v.sequence + 1#32
  | none => 1#32

/-- The completion mark of a slot is written (R171). -/
def ImageStore.writeMark (m : ImageStore) (i : SlotId) (mark : Byte) : ImageStore :=
  m.setSlot i ((m.slot i).write 0 0 mark)

/-- The slot byte of a slot in results (R170). -/
def SlotId.code : SlotId → Byte
  | .a => 0
  | .b => 1

/-- A COMMIT begins (R151): the owner's idle timer stops, the target slot is marked invalid in the view
and in the store, and the content is taken from the active tables. -/
def State.beginCommit (s : State) (dest tag : Byte) : State :=
  let target := s.store.target
  let job : CommitJob :=
    { target := target
      sequence := s.store.nextSequence
      generation := s.generation
      content := imageBytes s.store.nextSequence s.generation s.active
      written := false
      fault := false }
  { s with
    operation := .commit dest tag job
    store := (s.store.setView target none).writeMark target 0x00#8 }.stopIdleTimer

/-- COMMIT (R151). -/
def execCommit (byte : Byte) (s : State) : Host.Outcome State Fault Refusal :=
  .next (onMgmt (isOp .commit)
    (serve needsClosing (fun _ => noArgs) (fun _ f t => t.beginCommit f.source f.tag)) byte s)

/-- The write reaches bytes 1 to 7109 in ascending order, and the cells given hold something else
(R171). -/
def writeImage (content : List Byte) (cells : List Host.Cell) (slot : Sparse Byte) : Sparse Byte :=
  (cells.filter writtenCell).foldl (fun m c => m.write 0 c.1 c.2) (slot.writeFrom 0 1 content)

/-- COMMIT_WRITE_END (R152). -/
def execCommitWriteEnd (fault : Bool) (cells : List Host.Cell) (s : State) :
    Host.Outcome State Fault Refusal :=
  match s.serving, s.operation with
  | true, .commit dest tag job =>
    if job.written then .next s
    else
      .next { s with
        operation := .commit dest tag { job with written := true, fault := fault }
        store := s.store.setSlot job.target
          (writeImage job.content cells (s.store.slot job.target)) }
  | _, _ => .next s

/-- The verify finds the content taken at the beginning: the store reported no fault and bytes 1 to 7109
read back equal (R153, R171). -/
def commitGood (m : ImageStore) (job : CommitJob) : Bool :=
  !job.fault && decide ((m.slot job.target).readFrom 0 1 7109 = job.content)

/-- The commit succeeds (R153). -/
def State.commitDone (s : State) (dest tag : Byte) (job : CommitJob) : State :=
  ({ s with
    store := (s.store.writeMark job.target completeMark).setView job.target
      (some ⟨job.sequence, job.generation⟩)
    committed := some job.generation }.pushClosing .commit dest tag
      (.mreply 0x0D#8 .ok
        (job.target.code :: (bytes32 job.sequence ++ bytes16 job.generation)))).endOperation

/-- The commit fails (R153). -/
def State.commitFailed (s : State) (dest tag : Byte) (job : CommitJob) : State :=
  (s.pushClosing .commit dest tag (.mreply 0x0D#8 .nvFault [job.target.code])).endOperation

/-- COMMIT_VERIFY_RESULT (R153). -/
def execCommitVerifyResult (s : State) : Host.Outcome State Fault Refusal :=
  match s.serving, s.operation with
  | true, .commit dest tag job =>
    if job.written then
      if commitGood s.store job then .next (s.commitDone dest tag job)
      else .next (s.commitFailed dest tag job)
    else .next s
  | _, _ => .next s

/-- A COMMIT that a reset or power loss cuts off (R154): of a write that has not ended, an open number of
bytes has reached the slot. -/
def State.cutCommit (s : State) : State :=
  match s.operation with
  | .commit _ _ job =>
    if job.written then s
    else
      let bytes := (s.store.slot job.target).writeFrom 0 1
        (job.content.take (Config.bytesWritten s.freeCount))
      { s with store := s.store.setSlot job.target bytes, freeCount := s.freeCount + 1 }
  | _ => s

end Sys2Proof.Machine
end

