-- ==== Sys2Proof/Machine/Restart.lean ====
section
/-!
DEFINITION. Cold start, the RESET pin, power, start-up, and RESTART (R154 to R161).
-/

namespace Sys2Proof.Machine

/-! ## Stopping and the beginning of a cold start -/

/-- A line engine stops where it stands: nothing is transmitted, no timer runs, no frame is being
received (R155, R156). -/
def Line.halted (n : Line) : Line :=
  { n with phase := .idle, current := none, receiving := false }

/-- The part stops where it stands (R154, R155): transmissions, a COMMIT's write or verify, the pending
operation and every timer stop. The frame being transmitted on the host link stops, and the queue is
discarded with it (R121). -/
def State.halt (s : State) : State :=
  let s1 := s.cutCommit.stopIdleTimer.hunt
  { s1 with
    sending := none
    txQueue := []
    operation := .none
    lines := Four.build (fun l => (s1.lines.get l).halted) }

/-- A cold start begins (R156): uptime 0, STARTING, and the view is built from both slots. -/
def State.beginColdStart (s : State) : State :=
  let s1 := s.halt
  { s1 with uptime := 0#32, bridge := .starting, store := s1.store.rebuilt }

/-- RESET_PIN_EVENT (R155). -/
def execResetPinEvent (s : State) : Host.Outcome State Fault Refusal :=
  if s.resetLow then .next s
  else if s.supply then .next { s.halt with resetLow := true }
  else .next { s with resetLow := true }

/-- RESET_PIN_RELEASE (R156). -/
def execResetPinRelease (s : State) : Host.Outcome State Fault Refusal :=
  if !s.resetLow then .next s
  else if s.supply then .next ({ s with resetLow := false }.beginColdStart)
  else .next { s with resetLow := false }

/-- POWER_ON (R156): a cold start begins, at the release where the RESET pin is held low (R155). -/
def execPowerOn (s : State) : Host.Outcome State Fault Refusal :=
  if s.supply then .next s
  else if s.resetLow then .next { s with supply := true }
  else .next ({ s with supply := true }.beginColdStart)

/-- POWER_LOSS (R154). -/
def execPowerLoss (s : State) : Host.Outcome State Fault Refusal :=
  if s.supply then
    if s.resetLow then .next { s with supply := false } else .next { s.halt with supply := false }
  else .next s

/-! ## Entry to RUNNING -/

/-- What start-up selects (R157): tables, generation and committed generation. -/
def ImageStore.selection (m : ImageStore) : Tables × Word × Option Word :=
  match m.newest with
  | none => (emptyTables, 0#16, none)
  | some (i, v) => (loadTables ((m.slot i).readFrom 0 7 7101), v.generation, some v.generation)

/-- Every block at its value after a cold start, under an active configuration (R158). The supply, the
pin, the uptime, the image store and the model's own fields are kept. -/
def State.coldValues (s : State) (t : Tables) (generation : Word) (committed : Option Word) :
    State where
  supply := s.supply
  resetLow := s.resetLow
  bridge := .running
  uptime := s.uptime
  framer := ⟨.hunt, none⟩
  link := t.bridge
  txQueue := []
  sending := none
  hostCounters := .zero
  slots := []
  legs := []
  active := t
  generation := generation
  lines := Four.build (fun l => Line.fresh (t.lines.get l).bitRate (t.lines.get l).parity)
  stations := Four.build t.freshRecords
  scans := startedRuns s.uptime t.scan []
  mirror := []
  session := none
  staging := copyOf t
  operation := .none
  store := s.store
  committed := committed
  freeCount := s.freeCount
  pending := s.pending

/-- ENTER_RUNNING (R158). -/
def execEnterRunning (s : State) : Host.Outcome State Fault Refusal :=
  if s.powered && decide (s.bridge = .starting) then
    .next (s.coldValues s.store.selection.1 s.store.selection.2.1 s.store.selection.2.2)
  else .next s

/-! ## Warm restart -/

/-- A line engine at a RESTART WARM (R78): its work is abandoned, its collections emptied, and an
enabled line is in GUARD from now. -/
def Line.restarted (now : Uptime) (r : LineSettings) (n : Line) : Line :=
  { n with
    phase := if r.enabled then .guard (some (after now r.guardTime)) else .idle
    current := none
    receiving := false
    demand := []
    scans := []
    probes := []
    streak := 0
    previous := .none
    wire := r.wire }

/-- The warm restart (R160). -/
def State.warmRestart (s : State) : State :=
  { s.hunt with
    slots := []
    legs := []
    txQueue := []
    sending := none
    lines := Four.build (fun l => (s.lines.get l).restarted s.uptime (s.settings l))
    stations := Four.build s.active.freshRecords
    scans := startedRuns s.uptime s.active.scan s.scans
    session := none
    staging := copyOf s.active
    operation := .none }.invalidateMirror

/-! ## RESTART -/

/-- RESTART is accepted (R159): its closing MREPLY joins, and the restart is taken once it is sent. -/
def acceptRestart (cold : Bool) (f : Frame) (s : State) : State :=
  s.pushClosing (if cold then .restartCold else .restartWarm) f.source f.tag
    (.mreply (mgmtCode f.body) .ok [flagByte cold])

/-- A RESTART frame that may be the event of a row: not one whose argument is the other kind. -/
def isRestart (cold : Bool) (f : Frame) : Bool :=
  isOp .restart f && decide (restartArg (mgmtArgs f.body) ≠ some (!cold))

/-- RESTART_WARM (R159). -/
def execRestartWarm (byte : Byte) (s : State) : Host.Outcome State Fault Refusal :=
  .next (onMgmt (isRestart false) (serve needsClosing (fun _ => restartArg) acceptRestart) byte s)

/-- RESTART_COLD (R159). -/
def execRestartCold (byte : Byte) (s : State) : Host.Outcome State Fault Refusal :=
  .next (onMgmt (isRestart true) (serve needsClosing (fun _ => restartArg) acceptRestart) byte s)

end Sys2Proof.Machine
end

