-- ==== Sys2Proof/Machine/Transmit.lean ====
section
/-!
DEFINITION. The transmitter (R120, R121) and what the end of each class of frame brings about, the
switch of the bridge settings among them (R122).
-/

namespace Sys2Proof.Machine

/-- The active bridge settings take effect on the host link (R122): a frame partly received is abandoned
and counted as a framing error (R116). -/
def State.switchLink (s : State) : State :=
  { (if s.framer.state = .hunt then s else s.abandonFrame) with link := s.active.bridge }

/-- What follows in the event in which a frame's last byte has been sent (R120). -/
def State.frameSent (s : State) (c : FrameClass) : State :=
  match c with
  | .slotReply k => s.releaseSlot k
  | .closing .swap => s.switchLink
  | .closing .restartWarm => s.warmRestart
  | .closing .restartCold => s.beginColdStart
  | .closing .drainTimeout => s
  | .closing .commit => s
  | .prompt => s

/-- TRANSMIT_START (R120): the head frame's source byte and check are fixed as its bytes go out. -/
def execTransmitStart (s : State) : Host.Outcome State Fault Refusal :=
  match s.serving, s.sending, s.txQueue with
  | true, none, f :: _ => .next { s with sending := some (f.bytes s.link.address) }
  | _, _, _ => .next s

/-- TRANSMIT_END (R120): the head frame leaves the queue and its class decides what follows. -/
def execTransmitEnd (s : State) : Host.Outcome State Fault Refusal :=
  match s.serving, s.sending, s.txQueue with
  | true, some _, f :: rest => .next ({ s with sending := none, txQueue := rest }.frameSent f.cls)
  | _, _, _ => .next s

end Sys2Proof.Machine
end

