-- ==== Sys2Proof/Machine/Validate.lean ====
section
/-!
DEFINITION. VALIDATE: the six ordered checks over the staging area (R136, R137).
-/

namespace Sys2Proof.Machine

/-- The reasons of an INVALID answer, in the order of their codes (R136, R137, R170). -/
inductive Reason where
  | notAscending | overlap | oddLength | scaleOnF32 | broadcastAccess | bindingMissing
  | bindingOnLive | bindingUnused | bindingMismatch | bindingRange | regionOverlap | lineDisabled
  | tooManyStations
deriving DecidableEq, Repr, Inhabited

/-- The reason byte: 01h to 0Dh (R170). -/
def Reason.code : Reason → Byte
  | .notAscending => 0x01#8
  | .overlap => 0x02#8
  | .oddLength => 0x03#8
  | .scaleOnF32 => 0x04#8
  | .broadcastAccess => 0x05#8
  | .bindingMissing => 0x06#8
  | .bindingOnLive => 0x07#8
  | .bindingUnused => 0x08#8
  | .bindingMismatch => 0x09#8
  | .bindingRange => 0x0A#8
  | .regionOverlap => 0x0B#8
  | .lineDisabled => 0x0C#8
  | .tooManyStations => 0x0D#8

/-- The table an INVALID answer names (R136). -/
inductive Where where
  | map | scan | line
deriving DecidableEq, Repr, Inhabited

/-- The table byte (R170). -/
def Where.code : Where → Byte
  | .map => 0
  | .scan => 1
  | .line => 2

/-- A failure of VALIDATE: table, index, reason (R136). -/
structure Invalid where
  table : Where
  index : Nat
  reason : Reason
deriving DecidableEq, Repr, Inhabited

/-- The first reason that applies to one place. -/
def firstReason (tests : List (Bool × Reason)) : Option Reason :=
  (tests.find? Prod.fst).map Prod.snd

/-- Check 1 for a used map place and the used place before it (R136). -/
def orderReason (previous e : MapEntry) : Option Reason :=
  firstReason
    [(decide (e.base ≤ previous.base), .notAscending),
     (decide (previous.base < e.base) && decide (e.base < previous.base + previous.length),
       .overlap)]

/-- Check 1: used map places in ascending index order, each against the one before it (R136). -/
def checkOrder : List (Nat × MapEntry) → Option Invalid
  | [] => none
  | [_] => none
  | a :: b :: rest =>
    match orderReason a.2 b.2 with
    | some reason => some ⟨.map, b.1, reason⟩
    | none => checkOrder (b :: rest)

/-- Check 2 for one map entry (R136). -/
def entryReason (e : MapEntry) : Option Reason :=
  firstReason
    [(e.type.wide && decide (e.length % 2 = 1), .oddLength),
     (decide (e.type = .f32) && e.scale.isSome, .scaleOnF32),
     (decide (e.station = 0) && decide (e.access ≠ .wo), .broadcastAccess),
     (decide (e.policy ≠ .live) && (e.binding.isNone || e.maxAge.isNone), .bindingMissing),
     (decide (e.policy = .live) && (e.binding.isSome || e.maxAge.isSome), .bindingOnLive)]

/-- Check 3 for one map entry (R5, R136). -/
def bindingReason (scan : Sparse ScanEntry) (e : MapEntry) : Option Reason :=
  match e.binding with
  | none => none
  | some b =>
    match scan.get b.scan with
    | none => some .bindingUnused
    | some c =>
      firstReason
        [(decide (c.line ≠ e.line) || decide (c.station ≠ e.station), .bindingMismatch),
         (decide (c.remote + b.offset ≠ e.remote) || decide (c.count < b.offset + e.length),
           .bindingRange)]

/-- The first place of a table at which a test gives a reason. -/
def firstInvalid {α : Type} (table : Where) (test : α → Option Reason) (m : List (Nat × α)) :
    Option Invalid :=
  m.findSome? (fun p => (test p.2).map (fun reason => ⟨table, p.1, reason⟩))

/-- The regions of two scan entries share a cell (R93, R137). -/
def regionsMeet (a b : ScanEntry) : Bool :=
  decide (a.mirrorBase < b.mirrorBase + b.count) && decide (b.mirrorBase < a.mirrorBase + a.count)

/-- Check 4: each used scan place against those of lower index (R137). -/
def checkRegions (scan : Sparse ScanEntry) : Option Invalid :=
  (scan.find? (fun p => scan.any (fun q => decide (q.1 < p.1) && regionsMeet q.2 p.2))).map
    (fun p => ⟨.scan, p.1, .regionOverlap⟩)

/-- Check 5 for one entry (R137). -/
def lineReason (lines : Four LineSettings) (l : LineNo) : Option Reason :=
  if (lines.get l).enabled then none else some .lineDisabled

/-- Check 6 (R137). -/
def checkStations (t : Tables) : Option Invalid :=
  (allLines.find? (fun l => decide (32 < (t.stationsOn l).length))).map
    (fun l => ⟨.line, l.val, .tooManyStations⟩)

/-- The six checks over a staging area: the first failure found (R136, R137). -/
def validation (g : Staging) : Option Invalid :=
  (((((checkOrder g.map).or (firstInvalid .map entryReason g.map)).or
    (firstInvalid .map (bindingReason g.scan) g.map)).or (checkRegions g.scan)).or
    ((firstInvalid .map (fun e => lineReason g.lines e.line) g.map).or
      (firstInvalid .scan (fun e => lineReason g.lines e.line) g.scan))).or
    (checkStations g.tables)

/-- VALIDATE's own condition and effect (R136, R137): a failing staging area leaves the mark clear. -/
def validateStaging (f : Frame) (s : State) : State :=
  match validation s.staging with
  | some v =>
    { s with staging := { s.staging with mark := false } }.answer f .invalid
      [v.table.code, nat1 v.index, v.reason.code]
  | none =>
    { s with staging := { s.staging with mark := true } }.answer f .ok
      (nat2 s.staging.map.length ++ [nat1 s.staging.scan.length])

/-- VALIDATE (R136). -/
def execValidate (byte : Byte) (s : State) : Host.Outcome State Fault Refusal :=
  .next (onMgmt (isOp .validate)
    (serve needsOwner (fun _ => noArgs) (fun _ f t => validateStaging f t)) byte s)

end Sys2Proof.Machine
end

