-- ==== Sys2Proof/Machine/Dispatch.lean ====
section
/-!
DEFINITION. The meaning of every command: one arm per constructor of Instr.
-/

namespace Sys2Proof.Machine

def exec (i : Instr) (s : State) : Host.Outcome State Fault Refusal :=
  match i with
  | .hostBadLength byte => Sys2Proof.Machine.execHostBadLength byte s
  | .hostGapTimerExpiry => Sys2Proof.Machine.execHostGapTimerExpiry s
  | .hostFrameRejected byte => Sys2Proof.Machine.execHostFrameRejected byte s
  | .fetch byte => Sys2Proof.Machine.execFetch byte s
  | .store byte => Sys2Proof.Machine.execStore byte s
  | .storeSet byte => Sys2Proof.Machine.execStoreSet byte s
  | .cancel byte => Sys2Proof.Machine.execCancel byte s
  | .mgmtBadOperation byte => Sys2Proof.Machine.execMgmtBadOperation byte s
  | .sessionOpen byte => Sys2Proof.Machine.execSessionOpen byte s
  | .sessionClose byte => Sys2Proof.Machine.execSessionClose byte s
  | .stageCopyActive byte => Sys2Proof.Machine.execStageCopyActive byte s
  | .stageClear byte => Sys2Proof.Machine.execStageClear byte s
  | .stagePutMap byte => Sys2Proof.Machine.execStagePutMap byte s
  | .stageDeleteMap byte => Sys2Proof.Machine.execStageDeleteMap byte s
  | .stagePutScan byte => Sys2Proof.Machine.execStagePutScan byte s
  | .stageDeleteScan byte => Sys2Proof.Machine.execStageDeleteScan byte s
  | .stagePutLine byte => Sys2Proof.Machine.execStagePutLine byte s
  | .stagePutBridge byte => Sys2Proof.Machine.execStagePutBridge byte s
  | .validate byte => Sys2Proof.Machine.execValidate byte s
  | .activate byte => Sys2Proof.Machine.execActivate byte s
  | .drainTimerExpiry => Sys2Proof.Machine.execDrainTimerExpiry s
  | .commit byte => Sys2Proof.Machine.execCommit byte s
  | .commitWriteEnd fault cells => Sys2Proof.Machine.execCommitWriteEnd fault cells s
  | .commitVerifyResult => Sys2Proof.Machine.execCommitVerifyResult s
  | .restartWarm byte => Sys2Proof.Machine.execRestartWarm byte s
  | .restartCold byte => Sys2Proof.Machine.execRestartCold byte s
  | .stationReset byte => Sys2Proof.Machine.execStationReset byte s
  | .statsRead byte => Sys2Proof.Machine.execStatsRead byte s
  | .statsClear byte => Sys2Proof.Machine.execStatsClear byte s
  | .status byte => Sys2Proof.Machine.execStatus byte s
  | .readActive byte => Sys2Proof.Machine.execReadActive byte s
  | .readStage byte => Sys2Proof.Machine.execReadStage byte s
  | .stationList byte => Sys2Proof.Machine.execStationList byte s
  | .scanInfo byte => Sys2Proof.Machine.execScanInfo byte s
  | .idleTimerExpiry => Sys2Proof.Machine.execIdleTimerExpiry s
  | .transmitStart => Sys2Proof.Machine.execTransmitStart s
  | .transmitEnd => Sys2Proof.Machine.execTransmitEnd s
  | .guardTimeExpiry line => Sys2Proof.Machine.execGuardTimeExpiry line s
  | .fieldTransmissionEnd line => Sys2Proof.Machine.execFieldTransmissionEnd line s
  | .fieldReceptionStart line => Sys2Proof.Machine.execFieldReceptionStart line s
  | .fieldFrameReceived line bytes => Sys2Proof.Machine.execFieldFrameReceived line bytes s
  | .fieldGapAbandon line => Sys2Proof.Machine.execFieldGapAbandon line s
  | .replyTimerExpiry line => Sys2Proof.Machine.execReplyTimerExpiry line s
  | .busyBackoffExpiry line => Sys2Proof.Machine.execBusyBackoffExpiry line s
  | .scanDueExpiry place => Sys2Proof.Machine.execScanDueExpiry place s
  | .probeTimerExpiry line station => Sys2Proof.Machine.execProbeTimerExpiry line station s
  | .resetPinEvent => Sys2Proof.Machine.execResetPinEvent s
  | .resetPinRelease => Sys2Proof.Machine.execResetPinRelease s
  | .powerOn => Sys2Proof.Machine.execPowerOn s
  | .enterRunning => Sys2Proof.Machine.execEnterRunning s
  | .hostByteReceived byte => Sys2Proof.Machine.execHostByteReceived byte s
  | .powerLoss => Sys2Proof.Machine.execPowerLoss s

end Sys2Proof.Machine
end

