-- ==== Sys2Proof/Safety.lean ====
section
/-!
DEFINITION. What a sound run keeps: the laws that every step preserves, stated over State, with the
table of the management operations (R126) and the vocabulary the statements share. The part has no
fault, so a safe run is one whose states keep these laws.
-/

namespace Sys2Proof.Machine

/-! ## Transmit queue (R117 to R119) -/

/-- The slot whose reply a frame is. -/
def TxFrame.replySlot (f : TxFrame) : Option Nat :=
  match f.cls with
  | .slotReply k => some k
  | _ => none

/-- The slots whose replies stand in a queue, head first. -/
def repliesIn (q : List TxFrame) : List Nat := q.filterMap TxFrame.replySlot

/-- How many closing places are taken or promised: the closing MREPLYs in the queue and the one that a
pending operation will place (R119). -/
def State.closingClaims (s : State) : Nat :=
  s.txQueue.countP TxFrame.isClosing + (if s.operation = .none then 0 else 1)

/-- The transmit queue keeps its classes within their room (R117, R118, R119). -/
structure QueueLaw (s : State) : Prop where
  prompts : promptCount s.txQueue ≤ 7
  closing : s.closingClaims ≤ 1
  replies : (repliesIn s.txQueue).Nodup
  slots : sparseWf 8 s.slots = true
  replying : ∀ k ∈ repliesIn s.txQueue, ∃ r, s.slots.get k = some r ∧ r.phase = .replying

/-! ## Request table and leg pool (R24, R26, R28) -/

/-- Slots are 0 to 7 and records 0 to 63; no two slots hold the same (source, tag) (R26); every held
record stands in the leg list of its owner slot, and every listed record is held by that slot (R28). -/
structure RequestLaw (s : State) : Prop where
  slots : sparseWf 8 s.slots = true
  records : sparseWf 64 s.legs = true
  tags : ∀ j k q r, s.slots.get j = some q → s.slots.get k = some r →
    q.source = r.source → q.tag = r.tag → j = k
  owned : ∀ i g, s.legs.get i = some g → ∃ r, s.slots.get g.owner = some r ∧ i ∈ r.legs
  listed : ∀ k r, s.slots.get k = some r →
    r.legs.Nodup ∧ ∀ i ∈ r.legs, ∃ g, s.legs.get i = some g ∧ g.owner = k

/-! ## Lines and stations (R67, R80) -/

/-- A line's records are in strictly ascending station number, each 1–126 (R80). -/
def recordsOrdered (records : List StationRecord) : Prop :=
  (records.map StationRecord.station).Pairwise (· < ·) ∧
    ∀ r ∈ records, 1 ≤ r.station ∧ r.station ≤ 126

/-- The streak count holds 0–4 (R67), and the station records keep their order (R80). -/
structure LineLaw (s : State) : Prop where
  streak : ∀ l, (s.lines.get l).streak ≤ 4
  records : ∀ l, recordsOrdered (s.stations.get l)

/-! ## Session and pending operation (R125, R127, R130, R140) -/

/-- An ACTIVATE is pending. -/
def PendingOp.isActivate : PendingOp → Bool
  | .activate _ _ _ => true
  | _ => false

/-- The owner is a host station and the timeout 5–600 s (R127); while an operation is pending the
session stands and its idle timer is stopped (R130); the part is DRAINING exactly while an ACTIVATE is
pending (R125, R139), and what that ACTIVATE will install stays validated (R125, R132). -/
structure SessionLaw (s : State) : Prop where
  owner : ∀ n, s.session = some n → hostAddress n.owner = true ∧ 5 ≤ n.timeout ∧ n.timeout ≤ 600
  stopped : s.operation ≠ .none → ∃ n, s.session = some n ∧ n.expiry = none
  draining : s.powered = true → (s.bridge = .draining ↔ s.operation.isActivate = true)
  validated : s.operation.isActivate = true → s.staging.mark = true

/-! ## Image store (R149 to R154) -/

/-- What a COMMIT in progress keeps (R151, R152): its target is invalid in the view, its completion mark
holds 00h, its sequence number is the one after the newest, and its content is that of the active
tables. -/
structure CommitLaw (s : State) (job : CommitJob) : Prop where
  view : s.store.view job.target = none
  mark : (s.store.slot job.target).read 0 0 = 0x00#8
  sequence : job.sequence = s.store.nextSequence
  generation : job.generation = s.generation
  content : job.content = imageBytes job.sequence job.generation s.active

/-- The view agrees with the slots (R149), and a COMMIT in progress keeps its law. -/
structure ImageLaw (s : State) : Prop where
  views : ∀ i, s.store.view i = slotView (s.store.slot i)
  commit : ∀ dest tag job, s.operation = .commit dest tag job → CommitLaw s job

/-! ## Addressed stores (R103, R171) -/

/-- The addressed stores hold their canonical form: the image slots over 7,110 bytes, and the mirror with
rising cell numbers and no blank cell listed. A COMMIT's content fits the slot. -/
structure StoreLaw (s : State) : Prop where
  slotA : storeWf slotSize 0 s.store.slotA = true
  slotB : storeWf slotSize 0 s.store.slotB = true
  rising : (s.mirror.map Prod.fst).Pairwise (· < ·)
  listed : ∀ e ∈ s.mirror, e.2 ≠ blankCell
  content : ∀ dest tag job, s.operation = .commit dest tag job → job.content.length < slotSize

/-! ## Tables that a put can build (R134, R135) -/

/-- Tables whose records lie in the ranges of the puts, with places in range: those that an image can
carry. -/
structure Tables.storable (t : Tables) : Prop where
  count : t.map.length ≤ 256
  map : ∀ e ∈ t.map, e.inRange = true
  places : sparseWf 64 t.scan = true
  scan : ∀ p ∈ t.scan, p.2.inRange = true
  lines : ∀ l, (t.lines.get l).inRange = true

/-! ## The shared vocabulary of the statements -/

/-- The command of a data request's arrival. -/
def dataCommand : RequestKind → Byte → Instr
  | .fetch => .fetch
  | .store => .store
  | .storeSet => .storeSet

/-- The frame kind of a data request. -/
def dataKind : RequestKind → FrameKind
  | .fetch => .fetch
  | .store => .store
  | .storeSet => .storeSet

/-- The state in which a management operation acts: the frame has been counted and the owner's idle timer
restarted (R115, R130). -/
def State.served (s : State) (f : Frame) : State := s.frameTaken.touchSession f.source

/-- Checks 1 to 3 of R126 pass for an operation of the session owner. -/
def State.ownerMay (s : State) (f : Frame) : Prop := s.operation = .none ∧ s.ownedBy f.source = true

/-- A line that begins sending a frame (R68): the tag counter advances, the attempt is counted, and the
line's settings apply to the transmission. -/
def Line.sent (n : Line) (r : LineSettings) (frame : List Byte) : Line :=
  { n with
    phase := .sending frame r.replyTimeout
    receiving := false
    nextTag := n.nextTag + 1#8
    wire := ⟨r.bitRate, r.parity⟩
    counters := { n.counters with attempts := satInc n.counters.attempts }
    joined := none }

/-- A line whose attempt has ended, in GUARD from now (R65, R74). -/
def Line.rested (n : Line) (r : LineSettings) (now : Uptime) : Line :=
  { n with
    phase := .guard (some (after now r.guardTime))
    receiving := false
    wire := ⟨r.bitRate, r.parity⟩ }

/-- A frame is an accepted reply, of a body, to the current work (R71). -/
def State.replied (s : State) (w : Work) (bytes body : List Byte) : Prop :=
  ∃ f tag, fieldFrameOf bytes = some f ∧ f.checkGood = true ∧ f.dest = 127#8 ∧
    f.source = nat1 (s.workStation w) ∧ f.kind = 0x41#8 ∧ s.workTag w = some tag ∧ f.tag = tag ∧
    f.body = body

/-- A frame is an accepted reply of a status and further body bytes to the current work (R71). -/
def State.answeredBy (s : State) (w : Work) (bytes : List Byte) (status : Byte) (rest : List Byte) :
    Prop :=
  s.replied w bytes (status :: rest)

/-- The line awaits the reply to an attempt of `w`, and a frame is being received. -/
def State.hearing (s : State) (l : LineNo) (w : Work) : Prop :=
  s.serving = true ∧ (s.settings l).enabled = true ∧ (s.lines.get l).receiving = true ∧
    (∃ expiry, (s.lines.get l).phase = .awaiting expiry) ∧ (s.lines.get l).current = some w

/-- The reply timer of an attempt of `w` has run out. -/
def State.replyOverdue (s : State) (l : LineNo) (w : Work) : Prop :=
  s.serving = true ∧ (s.lines.get l).current = some w ∧
    ∃ expiry, (s.lines.get l).phase = .awaiting expiry ∧ reached s.uptime expiry = true

/-! ## How an attempt fails, and what its work's owner does (R43, R44, R48 to R53, R70 to R75) -/

/-- The body of an OK reply, after its status, is of the shape that the work asks for (R72). -/
def State.rightShape (s : State) (w : Work) (rest : List Byte) : Prop :=
  ∃ flags count values, rest = flags :: count :: values ∧ count.toNat = (s.workShape w).2 ∧
    values.length = match (s.workShape w).1 with
      | .fetch => 2 * count.toNat
      | .store => 0

/-- The command ends the line's attempt for `w` with that result, which is no success (R70 to R73, R168): an
accepted reply of a remote code or of BUSY, whatever its flags, its count and what follows (log entry 11); one
of another status, of a wrong shape or too short for status, flags and count; a frame of a bad check; an
abandoned frame; or the reply timer's expiry. -/
inductive AttemptFails (s : State) (l : LineNo) (w : Work) : Instr → AttemptResult → Prop where
  | noRegister (bytes rest : List Byte) (flags count : Byte) : s.hearing l w →
    s.answeredBy w bytes 0x01#8 (flags :: count :: rest) →
    AttemptFails s l w (.fieldFrameReceived l bytes) (.remoteFault .noRegister)
  | refused (bytes rest : List Byte) (flags count : Byte) : s.hearing l w →
    s.answeredBy w bytes 0x02#8 (flags :: count :: rest) →
    AttemptFails s l w (.fieldFrameReceived l bytes) (.remoteFault .refused)
  | busy (bytes rest : List Byte) (flags count : Byte) : s.hearing l w →
    s.answeredBy w bytes 0x03#8 (flags :: count :: rest) →
    AttemptFails s l w (.fieldFrameReceived l bytes) .busy
  | otherStatus (bytes rest : List Byte) (status : Byte) : s.hearing l w →
    s.answeredBy w bytes status rest → 3 < status.toNat →
    AttemptFails s l w (.fieldFrameReceived l bytes) .lineError
  | wrongShape (bytes rest : List Byte) : s.hearing l w → s.answeredBy w bytes 0x00#8 rest →
    ¬s.rightShape w rest → AttemptFails s l w (.fieldFrameReceived l bytes) .lineError
  | short (bytes body : List Byte) : s.hearing l w → s.replied w bytes body → body.length < 3 →
    AttemptFails s l w (.fieldFrameReceived l bytes) .lineError
  | badCheck (bytes : List Byte) (f : Frame) : s.hearing l w → fieldFrameOf bytes = some f →
    f.checkGood = false → AttemptFails s l w (.fieldFrameReceived l bytes) .lineError
  | abandoned : s.hearing l w → AttemptFails s l w (.fieldGapAbandon l) .lineError
  | overdue : s.replyOverdue l w → AttemptFails s l w (.replyTimerExpiry l) .timeout

/-- The attempt ends its work FAILED and leaves the station other than OFFLINE (R74, R75): a remote fault
at once, any other result at the last permitted attempt. -/
def State.endsFailed (s : State) (l : LineNo) (w : Work) : AttemptResult → Prop
  | .success _ => False
  | .remoteFault _ => True
  | .busy => (s.settings l).retryLimit + 1 ≤ s.workAttempts w
  | .lineError => (s.settings l).retryLimit + 1 ≤ s.workAttempts w ∧
      s.drivesOffline l (s.workStation w) = false
  | .timeout => (s.settings l).retryLimit + 1 ≤ s.workAttempts w ∧
      s.drivesOffline l (s.workStation w) = false

/-- The status and the remote code of work that ends FAILED with an attempt's result (R43). -/
def AttemptResult.fate : AttemptResult → Status × Option RemoteCode
  | .success _ => (.ok, none)
  | .remoteFault .noRegister => (.remoteNoRegister, some .noRegister)
  | .remoteFault .refused => (.remoteRefused, some .refused)
  | .remoteFault .busy => (.remoteBusy, some .busy)
  | .busy => (.remoteBusy, some .busy)
  | .lineError => (.lineError, none)
  | .timeout => (.timeout, none)

/-- A leg that has ended FAILED (R43): a store leg is UNCERTAIN when its last attempt ended by reply
timeout. -/
def Leg.endedFailed (g : Leg) (res : AttemptResult) : Leg :=
  { g with
    state := .failed
    status := some res.fate.1
    remote := res.fate.2
    uncertain := decide (g.direction = .store) && decide (res = .timeout) }

/-- A leg that has failed because its station is OFFLINE (R38, R46, R51). -/
def Leg.failedOffline (g : Leg) : Leg :=
  { g with
    state := .failed
    status := some .stationOffline
    remote := none
    uncertain := false }

/-- The entry that the failure of a leg offers to its request's first-failure record (R44). -/
def Request.entryOf (r : Request) (g : Leg) (status : Status) : Failure where
  position := g.position
  status := status
  detail := ⟨(match r.kind with
      | .storeSet => r.items.getD g.position 0
      | _ => r.first + g.position), some g.line, g.station, g.remote, g.attempts, g.uncertain⟩

/-- A list with each member where it stands last. -/
def lastOfEach : List Nat → List Nat
  | [] => []
  | a :: as => if as.contains a then lastOfEach as else a :: lastOfEach as

/-- The REPLY of a slot that is ACTIVE in `s` and REPLYING in `t` (R54, R56). -/
def State.completedReply (s t : State) (k : Nat) : Option TxFrame :=
  match s.slots.get k, t.slots.get k with
  | some r, some q =>
    if r.phase = .active ∧ q.phase = .replying then
      some ⟨.slotReply k, r.source, r.tag, .reply q.reply⟩
    else none
  | _, _ => none

/-- In `u` slot `k` is ACTIVE with request `r` and its leg `g` stands FAILED; in `t` the slot has taken
that failure (R44, R48, R49, R52, R53). The entry enters the record when the record is absent or lies
higher. A FETCH whose record changed cancels its QUEUED legs above it, a store cancels its HELD legs: they
leave the leg list, the pool and their demand queues. With no leg unfinished the request completes. -/
def LegFailureTaken (u t : State) (k : Nat) (r : Request) (g : Leg) (status : Status) : Prop :=
  let enters : Bool := r.failure.all (fun old => decide (g.position < old.position))
  let cancelled (i : Nat) : Bool := (u.legs.get i).any (fun h => decide (h.owner = k) &&
    match r.kind with
    | .fetch => enters && decide (h.state = .queued) && decide (g.position < h.position)
    | _ => decide (h.state = .held))
  ∃ q, t.slots.get k = some q ∧
    t = { u with
      slots := t.slots
      legs := t.legs
      lines := t.lines
      txQueue := t.txQueue } ∧
    q = { r with
      failure := if enters then some (r.entryOf g status) else r.failure
      legs := r.legs.filter (fun i => !cancelled i)
      phase := q.phase } ∧
    (∀ j, j ≠ k → t.slots.get j = u.slots.get j) ∧
    (∀ i, t.legs.get i = if cancelled i then none else u.legs.get i) ∧
    (∀ l, t.lines.get l = { u.lines.get l with
      demand := (u.lines.get l).demand.filter (fun i =>
        !(cancelled i && (u.legs.get i).any (fun h => decide (h.line = l)))) }) ∧
    (q.phase = .replying ↔
      ∀ i ∈ q.legs, ∀ h, u.legs.get i = some h → h.state.unfinished = false) ∧
    t.txQueue = u.txQueue ++ (if q.phase = .replying then
      [⟨.slotReply k, r.source, r.tag, .reply q.reply⟩] else [])

/-- In `u` slot `k` is ACTIVE with the store request `r` and a leg of it has just ended DONE; `out` is the
answer of the machine (R51, R53). Unless the request is being cancelled the next leg to release, if it is
HELD, is released: QUEUED at the tail of its line, which takes it at once when IDLE (R66), or FAILED
when its station is OFFLINE. With nothing to release and no leg unfinished the request completes. The drain test
follows (R141). -/
def StoreGoesOn (out : Host.Outcome State Fault Refusal) (u : State) (k : Nat) (r : Request) : Prop :=
  (∀ j h, r.cancelRequested = false → r.legs[r.nextRelease]? = some j → u.legs.get j = some h →
    h.state = .held →
    let r1 : Request := { r with nextRelease := r.nextRelease + 1 }
    (h.station = 0 ∨ u.offline h.line h.station = false →
      let released : State := { u with
        slots := u.slots.put k r1
        legs := u.legs.put j { h with state := .queued }
        lines := u.lines.set h.line { u.lines.get h.line with
          demand := (u.lines.get h.line).demand ++ [j] } }
      out = .next (State.drainTest
        (if (u.lines.get h.line).phase = .idle then released.kick h.line else released))) ∧
    (h.station ≠ 0 → u.offline h.line h.station = true → RequestLaw u →
      ∃ t : State, out = .next t.drainTest ∧
        LegFailureTaken { u with
          slots := u.slots.put k r1
          legs := u.legs.put j h.failedOffline } t k r1 h.failedOffline .stationOffline)) ∧
  (r.cancelRequested = true ∨
      (∀ j h, r.legs[r.nextRelease]? = some j → u.legs.get j = some h → h.state ≠ .held) →
    ((∀ j ∈ r.legs, ∀ h, u.legs.get j = some h → h.state.unfinished = false) →
      out = .next (State.drainTest { u with
        slots := u.slots.put k { r with phase := .replying }
        txQueue := u.txQueue ++ [⟨.slotReply k, r.source, r.tag, .reply r.reply⟩] })) ∧
    ((∃ j ∈ r.legs, ∃ h, u.legs.get j = some h ∧ h.state.unfinished = true) →
      out = .next u.drainTest))

/-! ## Management operations (R126) -/

/-- A management operation of R126's table: its command, the frames that are its event, what it needs,
and whether its arguments are good (check 4). -/
structure MgmtRow where
  command : Byte → Instr
  takes : Frame → Bool
  session : Bool
  whilePending : Bool
  closing : Bool
  argsGood : State → List Byte → Bool

/-- A row whose arguments one reader judges. -/
def mgmtRow {α : Type} (command : Byte → Instr) (op : MgmtOp) (needs : Needs)
    (read : State → List Byte → Option α) : MgmtRow :=
  ⟨command, isOp op, needs.session, needs.whilePending, needs.closing, fun s a => (read s a).isSome⟩

/-- The table of R126, every operation in its order; STATS and RESTART have two rows each. -/
def mgmtRows : List MgmtRow :=
  [mgmtRow .sessionOpen .sessionOpen ⟨false, false, false⟩ (fun _ => sessionOpenArg),
   mgmtRow .sessionClose .sessionClose ⟨true, false, false⟩ (fun _ => noArgs),
   mgmtRow .stageCopyActive .stageCopyActive ⟨true, false, false⟩ (fun _ => noArgs),
   mgmtRow .stageClear .stageClear ⟨true, false, false⟩ (fun _ => noArgs),
   mgmtRow .stagePutMap .stagePutMap ⟨true, false, false⟩ (fun _ => putMapArgs),
   mgmtRow .stageDeleteMap .stageDeleteMap ⟨true, false, false⟩ (fun _ => placeArg 256),
   mgmtRow .stagePutScan .stagePutScan ⟨true, false, false⟩ (fun _ => putScanArgs),
   mgmtRow .stageDeleteScan .stageDeleteScan ⟨true, false, false⟩ (fun _ => placeArg 64),
   mgmtRow .stagePutLine .stagePutLine ⟨true, false, false⟩ (fun _ => putLineArgs),
   mgmtRow .stagePutBridge .stagePutBridge ⟨true, false, false⟩ (fun _ => putBridgeArgs),
   mgmtRow .validate .validate ⟨true, false, false⟩ (fun _ => noArgs),
   mgmtRow .activate .activate ⟨true, false, true⟩ (fun _ => activateArg),
   mgmtRow .commit .commit ⟨true, false, true⟩ (fun _ => noArgs),
   { mgmtRow .restartWarm .restart ⟨true, false, true⟩ (fun _ => restartArg) with
     takes := isRestart false },
   { mgmtRow .restartCold .restart ⟨true, false, true⟩ (fun _ => restartArg) with
     takes := isRestart true },
   mgmtRow .stationReset .stationReset ⟨true, false, false⟩ stationResetArgs,
   { mgmtRow .statsClear .stats ⟨true, false, false⟩ statsArgs with
     takes := fun f => isOp .stats f && decide (statsClearOption (mgmtArgs f.body) = some true) },
   { mgmtRow .statsRead .stats ⟨false, true, false⟩ statsArgs with
     takes := fun f => isOp .stats f && decide (statsClearOption (mgmtArgs f.body) = some false) },
   mgmtRow .status .status ⟨false, true, false⟩ (fun _ => noArgs),
   mgmtRow .readActive .readActive ⟨false, true, false⟩ activeArgs,
   mgmtRow .readStage .readStage ⟨false, false, false⟩ (fun _ => tableSelect),
   mgmtRow .stationList .stationList ⟨false, true, false⟩ (fun _ => lineArg),
   mgmtRow .scanInfo .scanInfo ⟨false, false, false⟩ (fun _ => placeArg 64)]

/-- The commands that a byte may complete as a staging edit or as VALIDATE (R127, R132). -/
def isEdit (byte : Byte) (i : Instr) : Prop :=
  i ∈ [Instr.stageCopyActive byte, .stageClear byte, .stagePutMap byte, .stageDeleteMap byte,
    .stagePutScan byte, .stageDeleteScan byte, .stagePutLine byte, .stagePutBridge byte,
    .validate byte]

end Sys2Proof.Machine
end

