-- ==== Sys2Proof/Certificates/Slice0/Obligations.lean ====
section
/-!
DEFINITION. The statements for the provers. Each says what a command or the machine does; its docstring
names the rule it formalises. Where the effect of a command is given as an equation, the record update
says the frame too: every field it does not name is as before.
-/

open Sys2Proof Sys2Proof.Machine

/-! ## The queue of commands -/

/-- A step takes the command at the front of the queue and runs it on the rest. On an empty queue one
millisecond of the time base passes, or nothing without power or in reset: that clause is the model's
choice (log entry 1). -/
def Obligations.StepRunsFrontCommandElseTicks : Prop :=
  (∀ (c : Instr) (rest : List Instr) (s : State), s.pending = c :: rest →
    step s = exec c { s with pending := rest }) ∧
  (∀ s : State, s.pending = [] → s.powered = true →
    step s = .next { s with uptime := s.uptime + 1#32 }) ∧
  (∀ s : State, s.pending = [] → s.powered = false → step s = .next s)

/-- Every command has a next state in every state, none faulting or refusing, and leaves the queue of
waiting commands alone: the model's choice (log entries 22 and 4). -/
def Obligations.EveryCommandGoesOn : Prop :=
  ∀ (i : Instr) (s : State), ∃ t, exec i s = .next t ∧ t.pending = s.pending

/-! ## Host link -/

/-- R112, R113: what each received byte, a bad length and the gap timer's expiry do to the framer. That
the gap timer's deadline is 10 ms after the last kept byte is the model's reading (log entry 8). -/
def Obligations.FramerTakesBytes : Prop :=
  ∀ (s : State) (byte : Byte),
    (s.serving = false → exec (.hostByteReceived byte) s = .next s) ∧
    (s.serving = true →
      (s.framer.state = .hunt →
        exec (.hostByteReceived byte) s = .next (if byte = 0xC3#8 then
          { s with framer := ⟨.header, some (after s.uptime 10)⟩ } else s)) ∧
      (s.framer.state = .header → 4 ≤ byte.toNat → byte.toNat ≤ 250 →
        exec (.hostByteReceived byte) s =
          .next { s with framer := ⟨.body byte [], some (after s.uptime 10)⟩ }) ∧
      (s.framer.state = .header → byte.toNat < 4 ∨ 250 < byte.toNat →
        exec (.hostBadLength byte) s = .next { s with
          framer := ⟨.hunt, none⟩
          hostCounters := { s.hostCounters with
            framingErrors := satInc s.hostCounters.framingErrors } }) ∧
      (∀ length kept, s.framer.state = .body length kept →
        exec (.hostByteReceived byte) s = .next { s with
          framer := ⟨if kept.length + 1 < length.toNat then .body length (kept ++ [byte])
              else .check length (kept ++ [byte]) none, some (after s.uptime 10)⟩ }) ∧
      (∀ length kept, s.framer.state = .check length kept none →
        exec (.hostByteReceived byte) s = .next { s with
          framer := ⟨.check length kept (some byte), some (after s.uptime 10)⟩ }) ∧
      (∀ expiry, s.framer.state ≠ .hunt → s.framer.gap = some expiry →
        reached s.uptime expiry = true →
        exec .hostGapTimerExpiry s = .next { s with
          framer := ⟨.hunt, none⟩
          hostCounters := { s.hostCounters with
            framingErrors := satInc s.hostCounters.framingErrors } }))

/-- R114: the four tests of a complete frame in their order; the first that fails decides its fate, and a
frame that passes all four is dispatched. -/
def Obligations.HostFrameJudgedInOrder : Prop :=
  ∀ (s : State) (byte : Byte) (f : Frame), s.byteEvent byte = some (.completes f) →
    (f.checkGood = false →
      exec (.hostFrameRejected byte) s = .next { s with
        framer := ⟨.hunt, none⟩
        hostCounters := { s.hostCounters with checkErrors := satInc s.hostCounters.checkErrors } }) ∧
    (f.checkGood = true → f.dest ≠ s.link.address →
      exec (.hostFrameRejected byte) s = .next { s with
        framer := ⟨.hunt, none⟩
        hostCounters := { s.hostCounters with notForUs := satInc s.hostCounters.notForUs } }) ∧
    (f.checkGood = true → f.dest = s.link.address →
      f.source.toNat < 1 ∨ 126 < f.source.toNat ∨ f.source = s.link.address →
      exec (.hostFrameRejected byte) s = .next { s with
        framer := ⟨.hunt, none⟩
        hostCounters := { s.hostCounters with notForUs := satInc s.hostCounters.notForUs } }) ∧
    (f.checkGood = true → f.dest = s.link.address → 1 ≤ f.source.toNat → f.source.toNat ≤ 126 →
      f.source ≠ s.link.address → f.kind ∉ [0x21#8, 0x22#8, 0x23#8, 0x28#8, 0x30#8] →
      exec (.hostFrameRejected byte) s = .next { s with
        framer := ⟨.hunt, none⟩
        hostCounters := { s.hostCounters with unknownKind := satInc s.hostCounters.unknownKind } }) ∧
    (f.checkGood = true → f.dest = s.link.address → 1 ≤ f.source.toNat → f.source.toNat ≤ 126 →
      f.source ≠ s.link.address →
      ∀ kind ∈ [FrameKind.fetch, .store, .storeSet, .cancel, .mgmt], f.kind = kind.code →
        s.dispatched byte = some (f, kind))

/-- R112, R114, R167: the framer reads back every frame of the layout. Fed the bytes of a frame from HUNT,
all but the last, it stands in CHECK, and the last byte completes the frame with its fields and a good
check. -/
def Obligations.FramerReadsEveryFrame : Prop :=
  ∀ (s : State) (dest source tag : Byte) (kind : FrameKind) (body : List Byte) (last : Byte),
    s.serving = true → s.framer.state = .hunt → body.length ≤ 246 →
    (wireFrame dest source kind tag body).getLast? = some last →
    s.pending = (wireFrame dest source kind tag body).dropLast.map .hostByteReceived →
    ∃ framer, core.run (body.length + 7) s = .next { s with framer := framer, pending := [] } ∧
      State.byteEvent { s with framer := framer, pending := [] } last =
        some (.completes ⟨dest, source, kind.code, tag, body, true⟩)

/-- R120, R57: the transmitter sends the head of the queue under the address in force; at its end the frame
leaves the queue, and a slot's reply frees the slot and its records. -/
def Obligations.TransmitterSendsQueueHead : Prop :=
  ∀ (s : State) (f : TxFrame) (rest : List TxFrame), s.serving = true → s.txQueue = f :: rest →
    (s.sending = none →
      exec .transmitStart s = .next { s with
        sending := some (wireFrame f.dest s.link.address f.payload.kind f.tag f.payload.body) }) ∧
    (∀ bytes, s.sending = some bytes →
      f.cls = .prompt ∨ f.cls = .closing .drainTimeout ∨ f.cls = .closing .commit →
      exec .transmitEnd s = .next { s with sending := none, txQueue := rest }) ∧
    (∀ bytes k r, s.sending = some bytes → f.cls = .slotReply k → s.slots.get k = some r →
      exec .transmitEnd s = .next { s with
        sending := none
        txQueue := rest
        slots := s.slots.del k
        legs := s.legs.filter (fun e => !r.legs.contains e.1) })

/-- R122, R116: the active bridge settings take effect on the host link in the event in which the closing
MREPLY of a swap has been sent; a frame partly received is abandoned and counted. That it is so too when the
settings are the same as before is the model's reading (log entry 13). -/
def Obligations.SettingsSwitchAfterSwapReply : Prop :=
  ∀ (s : State) (f : TxFrame) (rest : List TxFrame) (bytes : List Byte), s.serving = true →
    s.sending = some bytes → s.txQueue = f :: rest → f.cls = .closing .swap →
    exec .transmitEnd s = .next { s with
      sending := none
      txQueue := rest
      link := s.active.bridge
      framer := if s.framer.state = .hunt then s.framer else ⟨.hunt, none⟩
      hostCounters := if s.framer.state = .hunt then s.hostCounters else
        { s.hostCounters with framingErrors := satInc s.hostCounters.framingErrors } }

/-- R160: the warm restart, taken as the closing MREPLY of a RESTART WARM has been sent: what it discards,
what it resets and what it keeps. The mirror's canonical form is a premise. -/
def Obligations.WarmRestartKeepsConfiguration : Prop :=
  ∀ (s : State) (f : TxFrame) (rest : List TxFrame) (bytes : List Byte), StoreLaw s →
    s.serving = true → s.sending = some bytes → s.txQueue = f :: rest →
    f.cls = .closing .restartWarm →
    ∃ t, exec .transmitEnd s = .next t ∧
      t.slots = [] ∧ t.legs = [] ∧ t.txQueue = [] ∧ t.sending = none ∧ t.framer = ⟨.hunt, none⟩ ∧
      (∀ l, t.lines.get l = { s.lines.get l with
        phase := if (s.settings l).enabled then .guard (some (after s.uptime (s.settings l).guardTime))
          else .idle
        current := none
        receiving := false
        demand := []
        scans := []
        probes := []
        streak := 0
        previous := .none
        wire := ⟨(s.settings l).bitRate, (s.settings l).parity⟩ }) ∧
      (∀ l, t.stations.get l =
        (s.active.stationsOn l).map (fun n => ⟨n, .unknown, 0, .none⟩)) ∧
      (∀ i, t.scans.get i = (s.active.scan.get i).map (fun e =>
        match s.scans.get i with
        | some c => { c with state := .waiting, nextDue := after s.uptime e.period }
        | none => ⟨.waiting, after s.uptime e.period, 0, 0, 0, 0⟩)) ∧
      (∀ k, t.cell k = { s.cell k with valid := false }) ∧
      t.session = none ∧ t.staging = copyOf s.active ∧ t.operation = .none ∧
      t.active = s.active ∧ t.link = s.link ∧ t.generation = s.generation ∧
      t.committed = s.committed ∧ t.store = s.store ∧ t.uptime = s.uptime ∧
      t.hostCounters = s.hostCounters ∧ t.bridge = s.bridge

/-- R118: a prompt frame joins at the tail while fewer than seven are in the queue, and is dropped and
counted otherwise; a refusal that joins is counted in refusals sent. -/
def Obligations.PromptFrameJoinsOrIsDropped : Prop :=
  ∀ (s : State) (dest tag : Byte) (p : Payload) (r : Reply),
    (promptCount s.txQueue < 7 →
      s.pushPrompt dest tag p = { s with txQueue := s.txQueue ++ [⟨.prompt, dest, tag, p⟩] } ∧
      s.pushRefusal dest tag r = { s with
        txQueue := s.txQueue ++ [⟨.prompt, dest, tag, .reply r⟩]
        hostCounters := { s.hostCounters with
          refusalsSent := satInc s.hostCounters.refusalsSent } }) ∧
    (7 ≤ promptCount s.txQueue →
      s.pushPrompt dest tag p = { s with hostCounters := { s.hostCounters with
        repliesDropped := satInc s.hostCounters.repliesDropped } } ∧
      s.pushRefusal dest tag r = { s with hostCounters := { s.hostCounters with
        repliesDropped := satInc s.hostCounters.repliesDropped } })

/-! ## Admission -/

/-- R30: the eleven checks in their order, each with its refusal status and the item it names; a refused
request touches nothing but the transmit queue and the host counters (R35). -/
def Obligations.AdmissionChecksInOrder : Prop :=
  ∀ (s : State) (kind : RequestKind) (f : Frame),
    let lead := leadItem kind f.body
    (∀ (byte : Byte) (status : Status) (item : Nat),
      s.dispatched byte = some (f, dataKind kind) → s.admission kind f = .error (status, item) →
      exec (dataCommand kind byte) s = .next (s.frameTaken.pushRefusal f.source f.tag
        ⟨status, false, false, false, 0, some ⟨item, none, 0, none, 0, false⟩, []⟩)) ∧
    (s.bridge = .draining → s.admission kind f = .error (.reconfig, lead)) ∧
    (s.bridge ≠ .draining → dataFields kind f.body = none →
      s.admission kind f = .error (.badCount, lead)) ∧
    (∀ d, s.bridge ≠ .draining → dataFields kind f.body = some d →
      (s.active.map = [] → s.admission kind f = .error (.noMap, lead)) ∧
      (∀ item, s.active.map ≠ [] → lookup s.active.map kind d = .error item →
        s.admission kind f = .error (.hole, item)) ∧
      (∀ segments, s.active.map ≠ [] → lookup s.active.map kind d = .ok segments →
        (∀ item, accessConflict kind segments = some item →
          s.admission kind f = .error (.access, item)) ∧
        (∀ item, accessConflict kind segments = none → splitPair kind segments = some item →
          s.admission kind f = .error (.splitPair, item)) ∧
        (∀ item, accessConflict kind segments = none → splitPair kind segments = none →
          s.planFor kind d segments = .error item → s.admission kind f = .error (.range, item)) ∧
        (∀ p, accessConflict kind segments = none → splitPair kind segments = none →
          s.planFor kind d segments = .ok p →
          (64 < p.legs.length → s.admission kind f = .error (.tooFragmented, lead)) ∧
          (∀ e, p.legs.length ≤ 64 → s.slotOf f.source f.tag = some e →
            s.admission kind f = .error (.duplicateTag, lead)) ∧
          (p.legs.length ≤ 64 → s.slotOf f.source f.tag = none → s.freeSlot = none →
            s.admission kind f = .error (.full, lead)) ∧
          (∀ k, p.legs.length ≤ 64 → s.slotOf f.source f.tag = none → s.freeSlot = some k →
            (s.freeRecords.length < p.legs.length →
              s.admission kind f = .error (.legShortage, lead)) ∧
            (p.legs.length ≤ s.freeRecords.length → s.admission kind f = .ok p)))))

/-- R40, R54, R56: a FETCH all of whose segments are mirror-served completes at its admission: it takes the
lowest FREE slot, holds no leg record, and its REPLY joins the transmit queue. -/
def Obligations.MirrorServedFetchCompletesAtOnce : Prop :=
  ∀ (s : State) (byte : Byte) (f : Frame) (p : Plan) (k : Nat),
    s.dispatched byte = some (f, .fetch) → s.frameTaken.admission .fetch f = .ok p →
    p.legs = [] → s.freeSlot = some k →
    ∃ r, exec (.fetch byte) s = .next { s.frameTaken with
        slots := s.slots.put k r
        txQueue := s.txQueue ++ [⟨.slotReply k, f.source, f.tag, .reply r.reply⟩] } ∧
      r = { p.served.foldl s.frameTaken.serveSegment (newRequest .fetch f p.fields) with
        phase := .replying } ∧
      r.legs = [] ∧ r.source = f.source ∧ r.tag = f.tag ∧ r.kind = .fetch ∧
      r.first = p.fields.first ∧ r.count = p.fields.count

/-- R24, R28, R38, R40: an admitted FETCH takes the lowest FREE slot and the lowest free records. Its legs
are taken in item order: those up to the first NO_DATA point and before the first leg to an OFFLINE
station are QUEUED at the tails of their lines; that leg fails STATION_OFFLINE and keeps its record; the
legs beyond are cancelled, their records free. With no leg QUEUED the request completes at once, and
otherwise IDLE lines take at once. -/
def Obligations.AdmittedFetchQueuesItsLegs : Prop :=
  ∀ (s : State) (byte : Byte) (f : Frame) (p : Plan) (k : Nat) (queued beyond : List LegPlan),
    s.dispatched byte = some (f, .fetch) → s.frameTaken.admission .fetch f = .ok p →
    s.freeSlot = some k → p.legs = queued ++ beyond →
    let r := p.served.foldl s.frameTaken.serveSegment (newRequest .fetch f p.fields)
    let bound := s.freeRecords.zip queued
    let filled : Sparse Leg := bound.foldl (fun m b => m.put b.1 (newLeg k b.2 .queued)) s.legs
    let lined : Four Line := bound.foldl (fun v b => v.set b.2.line
      { v.get b.2.line with demand := (v.get b.2.line).demand ++ [b.1] }) s.lines
    let ended (q : Request) (legs : Sparse Leg) : State := { s.frameTaken with
      slots := s.slots.put k { q with phase := .replying }
      legs := legs
      txQueue := s.txQueue ++ [⟨.slotReply k, f.source, f.tag, .reply q.reply⟩] }
    (∀ q ∈ queued, (q.station = 0 ∨ s.offline q.line q.station = false) ∧
      ∀ x, r.failure = some x → q.position ≤ x.position) →
    ((∀ q ∈ beyond, ∃ x, r.failure = some x ∧ x.position < q.position) →
      (queued = [] → exec (.fetch byte) s = .next (ended r s.legs)) ∧
      (queued ≠ [] → exec (.fetch byte) s = .next ((bound.map Prod.fst).foldl State.kickFor
        { s.frameTaken with
          slots := s.slots.put k { r with legs := bound.map Prod.fst }
          legs := filled
          lines := lined }))) ∧
    (∀ q rest i, beyond = q :: rest → s.freeRecords[queued.length]? = some i → q.station ≠ 0 →
      s.offline q.line q.station = true → (∀ x, r.failure = some x → q.position ≤ x.position) →
      let failed : Leg := (newLeg k q .queued).failedOffline
      let r1 : Request := { r with
        failure := if r.failure.all (fun x => decide (q.position < x.position)) then
          some (r.entryOf failed .stationOffline) else r.failure
        legs := bound.map Prod.fst ++ [i] }
      (queued = [] → exec (.fetch byte) s = .next (ended r1 (s.legs.put i failed))) ∧
      (queued ≠ [] → exec (.fetch byte) s = .next ((bound.map Prod.fst).foldl State.kickFor
        { s.frameTaken with
          slots := s.slots.put k r1
          legs := filled.put i failed
          lines := lined })))

/-- R39, R40: an admitted STORE or STORE_SET queues leg 0 and holds the others; when leg 0's station is
OFFLINE that leg fails, the others return to the pool, and the request completes at once. -/
def Obligations.AdmittedStoreQueuesFirstLeg : Prop :=
  ∀ (s : State) (kind : RequestKind) (byte : Byte) (f : Frame) (p : Plan) (k i : Nat) (q : LegPlan)
    (rest : List (Nat × LegPlan)),
    kind ≠ .fetch → s.dispatched byte = some (f, dataKind kind) →
    s.frameTaken.admission kind f = .ok p → s.freeSlot = some k →
    s.freeRecords.zip p.legs = (i, q) :: rest →
    (s.turnsAway q.line q.station = false →
      exec (dataCommand kind byte) s = .next (State.kick { s.frameTaken with
        slots := s.slots.put k
          { newRequest kind f p.fields with legs := i :: rest.map Prod.fst }
        legs := rest.foldl (fun m b => m.put b.1 (newLeg k b.2 .held))
          (s.legs.put i (newLeg k q .queued))
        lines := s.lines.set q.line { s.lines.get q.line with
          demand := (s.lines.get q.line).demand ++ [i] } } q.line)) ∧
    (s.turnsAway q.line q.station = true →
      let r : Request := { newRequest kind f p.fields with
        legs := [i]
        failure := some ⟨q.position, .stationOffline,
          ⟨(newRequest kind f p.fields).itemAt q.position, some q.line, q.station, none, 0, false⟩⟩ }
      exec (dataCommand kind byte) s = .next { s.frameTaken with
        slots := s.slots.put k { r with phase := .replying }
        legs := s.legs.put i { newLeg k q .failed with status := some .stationOffline }
        txQueue := s.txQueue ++ [⟨.slotReply k, f.source, f.tag, .reply r.reply⟩] })

/-- R63, R66: a line that work joins takes by its arbiter at once when it is IDLE and enabled, as at the
expiry of a guard time, and keeps the uptime; a line in another state, or a disabled one, takes nothing.
R61, R90, R97, R147: an event at the same uptime, the first frame still being sent, falls together with that
joining and finds the work in its collection: once the line gives it back, the whole part stands as it stood
when the work had joined, but for the line's tag counter, streak count, previous take and counters, which
stay as the take and the beginning of the attempt set them (R67, R68, R79, R165). What falls together, and
that these four stay, is the model's choice (log entry 25). -/
def Obligations.IdleLineTakesAtOnce : Prop :=
  ∀ (s : State) (l : LineNo), s.serving = true → (s.lines.get l).current = none →
    let n := s.lines.get l
    let k := (s.kick l).lines.get l
    let withdrawable (w : Work) : Prop :=
      (s.kick l).justTook (fun m x => decide (m = l) && decide (x = w)) l = true ∧
        (s.kick l).untake l = { s with lines := s.lines.set l { n with
          nextTag := k.nextTag
          streak := k.streak
          previous := k.previous
          counters := k.counters } }
    ((s.settings l).enabled = true → n.phase = .idle →
      ∃ t, exec (.guardTimeExpiry l) { s with
          lines := s.lines.set l { n with phase := .guard (some s.uptime) } } = .next t ∧
        s.kick l = { t with lines := t.lines.set l { t.lines.get l with
          joined := (t.lines.get l).current.map (fun _ => s.uptime) } }) ∧
    ((s.settings l).enabled = false ∨ n.phase ≠ .idle → s.kick l = s) ∧
    ((s.settings l).enabled = true → n.phase = .idle → n.joined = none → n.receiving = false →
      n.wire = ⟨(s.settings l).bitRate, (s.settings l).parity⟩ →
      (∀ i rest g, n.probes = [] ∨ n.previous = .probe → n.demand = i :: rest →
        n.scans = [] ∨ n.streak < 4 → s.legs.get i = some g → g.state = .queued → g.attempts = 0 →
        g.tag = none → withdrawable (.leg i)) ∧
      (∀ i rest c, n.probes = [] ∨ n.previous = .probe → n.demand = [] ∨ 4 ≤ n.streak →
        n.scans = i :: rest → s.scans.get i = some c → c.state = .queued → withdrawable (.scan i)) ∧
      (∀ station rest, n.probes = station :: rest →
        n.previous ≠ .probe ∨ (n.demand = [] ∧ n.scans = []) →
        (∀ x ∈ s.stations.get l, x.station = station → x.probe = .listed) →
        withdrawable (.probe station (some n.nextTag) false)))

/-- R58, R59: the answer to a CANCEL in each state of the request table, and its effect on an ACTIVE slot:
every QUEUED or HELD leg returns to the pool and leaves its queue, every leg in flight stays, the cancel
point is offered, the ACK joins first, and the REPLY follows when nothing is in flight. R61: a store leg whose
release falls together with the CANCEL counts as QUEUED, the line that has just taken it giving it back, and
that line then takes what else waits. The drain test follows (R141). What falls together is the model's choice
(log entry 25). -/
def Obligations.CancelAnswersAndStopsWaitingLegs : Prop :=
  ∀ (s : State) (byte : Byte) (f : Frame), s.dispatched byte = some (f, .cancel) →
    (s.slotOf f.source f.tag = none →
      exec (.cancel byte) s = .next (s.frameTaken.pushPrompt f.source f.tag (.ack .notFound))) ∧
    (∀ k r, s.slotOf f.source f.tag = some (k, r) → r.phase = .replying →
      exec (.cancel byte) s = .next (s.frameTaken.pushPrompt f.source f.tag (.ack .tooLate))) ∧
    (∀ k r, s.slotOf f.source f.tag = some (k, r) → r.phase = .active → r.cancelRequested = true →
      exec (.cancel byte) s = .next (s.frameTaken.pushPrompt f.source f.tag (.ack .ok))) ∧
    (∀ k r, RequestLaw s → s.slotOf f.source f.tag = some (k, r) →
      r.phase = .active → r.cancelRequested = false →
      let released (_ : LineNo) (w : Work) : Bool := decide (r.kind ≠ .fetch ∧ 2 ≤ r.nextRelease ∧
        r.legs[r.nextRelease - 1]?.map .leg = some w)
      let u := s.withdrawn released
      ∃ (t : State) (q : Request),
        exec (.cancel byte) s = .next (State.drainTest ((s.joining released).foldl State.kick t)) ∧
        t.slots.get k = some q ∧
        q.cancelRequested = true ∧ q.failure = (u.cancelMark r).failure ∧
        q.legs = r.legs.filter (fun i => ((u.legs.get i).map (fun g => !g.waiting)).getD true) ∧
        (∀ j, j ≠ k → t.slots.get j = s.slots.get j) ∧
        (∀ i g, u.legs.get i = some g → t.legs.get i =
          if g.owner = k ∧ g.waiting = true then none else some g) ∧
        (∀ l, t.lines.get l = { u.lines.get l with
          demand := (u.lines.get l).demand.filter (fun i =>
            !((u.legs.get i).map (fun g =>
              decide (g.owner = k) && g.waiting && decide (g.line = l))).getD false) }) ∧
        (q.phase = .replying ↔ ∀ i ∈ q.legs, ∀ g, u.legs.get i = some g → g.state ≠ .inFlight) ∧
        t.txQueue = (s.pushPrompt f.source f.tag (.ack .ok)).txQueue ++
          (if q.phase = .replying then
            [⟨.slotReply k, f.source, f.tag, .reply q.reply⟩] else []) ∧
        t.mirror = s.mirror ∧ t.stations = s.stations ∧ t.scans = s.scans ∧ t.active = s.active)

/-! ## What requests are made of -/

/-- R10: lookup of a run gives segments that cover it exactly, in item order, each inside its entry; or it
stops at the lowest uncovered item. Lookup of the pairs of a STORE_SET gives one segment of one item for
each pair, in pair order, its offset the pair's index; or it stops at the first pair whose item nothing
covers. -/
def Obligations.LookupCoversTheRun : Prop :=
  (∀ (map : List MapEntry) (origin item n : Nat),
    (∀ segments, lookupRun map origin n item n = .ok segments →
      (segments.map Segment.count).sum = n ∧
      ∀ j g, segments[j]? = some g →
        g.first = item + ((segments.take j).map Segment.count).sum ∧ 1 ≤ g.count ∧
        map[g.mapPosition]? = some g.entry ∧ g.entry.base ≤ g.first ∧
        g.first + g.count ≤ g.entry.base + g.entry.length ∧
        g.register = g.entry.remote + (g.first - g.entry.base) ∧ g.offset = g.first - origin) ∧
    (∀ hole, lookupRun map origin n item n = .error hole →
      item ≤ hole ∧ hole < item + n ∧ (∀ e ∈ map, e.covers hole = false) ∧
      ∀ i, item ≤ i → i < hole → ∃ e ∈ map, e.covers i = true)) ∧
  (∀ (map : List MapEntry) (items : List Nat),
    (∀ segments : List Segment, lookupPairs map 0 items = .ok segments →
      segments.map Segment.first = items ∧
      ∀ (j : Nat) (g : Segment), segments[j]? = some g →
        g.count = 1 ∧ g.offset = j ∧ map[g.mapPosition]? = some g.entry ∧
        g.entry.base ≤ g.first ∧ g.first < g.entry.base + g.entry.length ∧
        g.register = g.entry.remote + (g.first - g.entry.base)) ∧
    (∀ hole, lookupPairs map 0 items = .error hole →
      ∃ j : Nat, items[j]? = some hole ∧ (∀ e ∈ map, e.covers hole = false) ∧
        ∀ item ∈ items.take j, ∃ e ∈ map, e.covers item = true))

/-- R12: a segment is cut into legs of at most 60 registers that cover it in item order. -/
def Obligations.SegmentIsCutIntoLegs : Prop :=
  ∀ (d : Direction) (g : Segment) (values : List Word),
    (cutSegment d g values).length = (g.count + 59) / 60 ∧
    ((cutSegment d g values).map LegPlan.count).sum = g.count ∧
    ∀ m q, (cutSegment d g values)[m]? = some q →
      1 ≤ q.count ∧ q.count ≤ 60 ∧ (m + 1 < (cutSegment d g values).length → q.count = 60) ∧
      q.line = g.entry.line ∧ q.station = g.entry.station ∧ q.direction = d ∧
      q.mapPosition = g.mapPosition ∧ q.first = g.register + 60 * m ∧ q.position = g.offset + 60 * m

/-- R44: whatever the order in which the failures of a request occur, its first-failure record holds the
one lowest in item order, and of several at that position the one that came first. -/
def Obligations.FirstFailureIsTheLowest : Prop :=
  ∀ (r : Request) (failures : List Failure), r.failure = none → failures ≠ [] →
    ∃ (before after : List Failure) (f : Failure), failures = before ++ f :: after ∧
      (failures.foldl Request.offer r).failure = some f ∧
      (∀ g ∈ before, f.position < g.position) ∧ (∀ g ∈ after, f.position ≤ g.position)

/-- R16, R17: the host value of a scaled number is the exact scaled value, truncated toward zero, plus the
offset, clamped to the host range of the type, and CLAMPED says whether it lay outside; an F32 pattern
passes as it is. -/
def Obligations.ScaledReadsTruncateAndClamp : Prop :=
  (∀ (e : MapEntry) (c : Scale) (remote : Int), e.scale = some c →
    let exact : Int := (remote * c.multiplier).tdiv c.divisor + c.offset
    let clamped (lo hi : Int) : Int × Bool :=
      (max lo (min hi exact), decide (exact < lo) || decide (hi < exact))
    (e.type = .u8 ∨ e.type = .u16 → hostValue e remote = clamped 0 65535) ∧
    (e.type = .s8 ∨ e.type = .s16 → hostValue e remote = clamped (-32768) 32767) ∧
    (e.type = .u32 → hostValue e remote = clamped 0 4294967295) ∧
    (e.type = .s32 → hostValue e remote = clamped (-2147483648) 2147483647)) ∧
  (∀ (e : MapEntry) (d : DWord), e.type = .f32 → readElement e d = (d, false))

/-- R15, R16, R19, R21: what an unscaled store writes to the registers reads back as the values stored,
whatever the type and the word order. -/
def Obligations.UnscaledStoreReadsBack : Prop :=
  ∀ (e : MapEntry) (values registers : List Word), e.scale = none →
    (e.type.wide = true → values.length % 2 = 0) → convertStore e values = .ok registers →
    convertRead e registers = (values, false)

/-! ## Field lines -/

/-- R65, R66, R67, R68, R74: at the guard time's expiry the line begins the next attempt of its current
work, or takes work by the four orders of its arbiter and begins the first attempt, or goes IDLE. A fetch that
a drain's timer has left on its line makes its attempts likewise (R101); that the model keeps its attempts and
tag beside WAITING is its choice (log entry 14). -/
def Obligations.GuardExpiryAttemptsOrTakes : Prop :=
  ∀ (s : State) (l : LineNo) (expiry : Uptime), s.serving = true →
    (s.lines.get l).phase = .guard (some expiry) → reached s.uptime expiry = true →
    let n := s.lines.get l
    let r := s.settings l
    (∀ i g, n.current = some (.leg i) → s.legs.get i = some g →
      exec (.guardTimeExpiry l) s = .next { s with
        legs := s.legs.modify i (fun x =>
          { x with attempts := x.attempts + 1, tag := some n.nextTag })
        lines := s.lines.set l (n.sent r (legFrame g n.nextTag)) }) ∧
    (∀ i e c a tag, n.current = some (.scan i) → s.active.scan.get i = some e →
      s.scans.get i = some c → c.state = .inFlight a tag →
      exec (.guardTimeExpiry l) s = .next { s with
        scans := s.scans.modify i (fun x => { x with state := .inFlight (a + 1) (some n.nextTag) })
        lines := s.lines.set l (n.sent r (scanFrame e n.nextTag)) }) ∧
    (∀ i e c a tag, n.current = some (.scan i) → s.active.scan.get i = some e →
      s.scans.get i = some c → c.state = .finishing a tag →
      exec (.guardTimeExpiry l) s = .next { s with
        scans := s.scans.modify i (fun x => { x with state := .finishing (a + 1) (some n.nextTag) })
        lines := s.lines.set l (n.sent r (scanFrame e n.nextTag)) }) ∧
    (n.current = none →
      (∀ station rest, n.probes = station :: rest →
        n.previous ≠ .probe ∨ (n.demand = [] ∧ n.scans = []) →
        exec (.guardTimeExpiry l) s = .next { s with
          stations := s.stations.set l ((s.stations.get l).map (fun x =>
            if x.station = station then { x with probe := .probing } else x))
          lines := s.lines.set l { n.sent r (probeFrame r station n.nextTag) with
            current := some (.probe station (some n.nextTag) false)
            probes := rest
            previous := .probe
            counters := { n.counters with
              attempts := satInc n.counters.attempts
              probes := satInc n.counters.probes } } }) ∧
      (∀ i g rest, n.probes = [] ∨ n.previous = .probe → n.demand = i :: rest →
        n.scans = [] ∨ n.streak < 4 → s.legs.get i = some g →
        exec (.guardTimeExpiry l) s = .next { s with
          legs := s.legs.modify i (fun x =>
            { x with state := .inFlight, attempts := x.attempts + 1, tag := some n.nextTag })
          lines := s.lines.set l { n.sent r (legFrame g n.nextTag) with
            current := some (.leg i)
            demand := rest
            streak := min 4 (n.streak + 1)
            previous := .demand } }) ∧
      (∀ i e rest, n.probes = [] ∨ n.previous = .probe → n.demand = [] ∨ 4 ≤ n.streak →
        n.scans = i :: rest → s.active.scan.get i = some e →
        exec (.guardTimeExpiry l) s = .next { s with
          scans := s.scans.modify i (fun x => { x with state := .inFlight 1 (some n.nextTag) })
          lines := s.lines.set l { n.sent r (scanFrame e n.nextTag) with
            current := some (.scan i)
            scans := rest
            streak := 0
            previous := .scan } }) ∧
      (n.probes = [] → n.demand = [] → n.scans = [] →
        exec (.guardTimeExpiry l) s =
          .next { s with lines := s.lines.set l { n with phase := .idle } }))

/-- R68, R167, R168: the frame of an attempt: its destination, the bridge's field address 127 as source, its
kind, the tag drawn, the first register and the count, and a store leg's remote values. -/
def Obligations.AttemptFramesCarryTheWork : Prop :=
  ∀ (g : Leg) (e : ScanEntry) (r : LineSettings) (station : Nat) (tag : Byte),
    (g.direction = .fetch →
      legFrame g tag = wireFrame (nat1 g.station) 127#8 .fetch tag (nat2 g.first ++ [nat1 g.count])) ∧
    (g.direction = .store →
      legFrame g tag = wireFrame (nat1 g.station) 127#8 .store tag
        (nat2 g.first ++ nat1 g.count :: g.values.flatMap bytes16)) ∧
    scanFrame e tag = wireFrame (nat1 e.station) 127#8 .fetch tag (nat2 e.remote ++ [nat1 e.count]) ∧
    probeFrame r station tag = wireFrame (nat1 station) 127#8 .fetch tag
      (nat2 r.probeRegister ++ [1#8])

/-- R69: at the end of an attempt's transmission the line awaits the reply, its timer counted from now. A
broadcast store leg ends DONE there, told to no station record, and its request goes on: the next HELD leg
is released, or with nothing left to release the request completes (R51, R53). The drain test follows. An
IDLE line takes the released leg in this event (R66); a CANCEL that falls together with it finds it QUEUED
(R61, log entry 25). -/
def Obligations.TransmissionEndAwaitsReplyOrEndsBroadcast : Prop :=
  ∀ (s : State) (l : LineNo) (frame : List Byte) (timeout : Nat) (w : Work), s.serving = true →
    (s.lines.get l).phase = .sending frame timeout → (s.lines.get l).current = some w →
    let n := s.lines.get l
    (s.broadcast w = false →
      exec (.fieldTransmissionEnd l) s = .next { s with lines := s.lines.set l { n with
        receiving := false
        phase := .awaiting (after s.uptime timeout) } }) ∧
    (∀ i g k r, w = .leg i → s.legs.get i = some g → g.direction = .store → g.station = 0 →
      g.owner = k → s.slots.get k = some r → r.kind ≠ .fetch → r.phase = .active →
      StoreGoesOn (exec (.fieldTransmissionEnd l) s) { s with
        legs := s.legs.put i { g with state := .done }
        mirror := match s.legCell g with
          | some m => s.mirror.writeFrom blankCell m (g.values.map (fun w => ⟨w, true, s.uptime⟩))
          | none => s.mirror
        lines := s.lines.set l { n.rested (s.settings l) s.uptime with
          current := none
          counters := { n.counters with legsServed := satInc n.counters.legsServed } } } k r)

/-- R65, R70: a frame begins on an enabled line: an IDLE line enters GUARD, a running guard time is held
back, and bytes heard during SENDING are discarded. -/
def Obligations.ReceptionHoldsGuardTime : Prop :=
  ∀ (s : State) (l : LineNo),
    let n := s.lines.get l
    (s.serving = true → (s.settings l).enabled = true →
      (n.phase = .idle ∨ (∃ x, n.phase = .guard x) →
        exec (.fieldReceptionStart l) s = .next { s with
          lines := s.lines.set l { n with phase := .guard none, receiving := true } }) ∧
      ((∃ x, n.phase = .awaiting x) ∨ (∃ x, n.phase = .backoff x) →
        exec (.fieldReceptionStart l) s = .next { s with
          lines := s.lines.set l { n with receiving := true } }) ∧
      (∀ bytes x, n.phase = .sending bytes x → exec (.fieldReceptionStart l) s = .next s)) ∧
    ((s.settings l).enabled = false → exec (.fieldReceptionStart l) s = .next s)

/-- R65, R70, R71: a complete frame heard outside AWAITING is a stray: counted and discarded, and GUARD's
guard time runs again in full; an abandoned one is not counted. In AWAITING a good frame that does not
match the attempt is a stray too, and the line stays in AWAITING. -/
def Obligations.StraysAreCountedAndDiscarded : Prop :=
  ∀ (s : State) (l : LineNo) (bytes : List Byte) (f : Frame), s.serving = true →
    (s.settings l).enabled = true → (s.lines.get l).receiving = true → fieldFrameOf bytes = some f →
    let n := s.lines.get l
    let counted := { n.counters with strays := satInc n.counters.strays }
    let guard : LinePhase := .guard (some (after s.uptime (s.settings l).guardTime))
    (∀ x, n.phase = .guard x →
      exec (.fieldFrameReceived l bytes) s = .next { s with
        lines := s.lines.set l { n with receiving := false, phase := guard, counters := counted } } ∧
      exec (.fieldGapAbandon l) s = .next { s with
        lines := s.lines.set l { n with receiving := false, phase := guard } }) ∧
    (∀ x, n.phase = .backoff x →
      exec (.fieldFrameReceived l bytes) s = .next { s with
        lines := s.lines.set l { n with receiving := false, counters := counted } } ∧
      exec (.fieldGapAbandon l) s = .next { s with
        lines := s.lines.set l { n with receiving := false } }) ∧
    (∀ x w, n.phase = .awaiting x → n.current = some w → f.checkGood = true →
      f.dest ≠ 127#8 ∨ f.source ≠ nat1 (s.workStation w) ∨ f.kind ≠ 0x41#8 ∨
        some f.tag ≠ s.workTag w →
      exec (.fieldFrameReceived l bytes) s = .next { s with
        lines := s.lines.set l { n with receiving := false, counters := counted } })

/-- R71, R72, R99: an accepted OK reply with the right count ends a scan fetch DONE: the region's cells take
the values as received, valid and stamped with now, the entry is WAITING and counts a fetch done, the
station is ONLINE, and the line is in GUARD with no current work. The drain test follows (R141). -/
def Obligations.ScanReplyFillsItsRegion : Prop :=
  ∀ (s : State) (l : LineNo) (i : Nat) (e : ScanEntry) (bytes values : List Byte) (flags : Byte),
    s.hearing l (.scan i) → s.active.scan.get i = some e →
    s.answeredBy (.scan i) bytes 0x00#8 (flags :: nat1 e.count :: values) → e.count ≤ 60 →
    values.length = 2 * e.count →
    exec (.fieldFrameReceived l bytes) s = .next (State.drainTest { s with
      lines := s.lines.set l
        { (s.lines.get l).rested (s.settings l) s.uptime with current := none }
      stations := s.stations.set l ((s.stations.get l).map (fun x =>
        if x.station = e.station then { x with health := .online, failures := 0, probe := .none }
        else x))
      mirror := s.mirror.writeFrom blankCell e.mirrorBase
        ((wordsOf values).map (fun w => ⟨w, true, s.uptime⟩))
      scans := s.scans.modify i (fun c =>
        { c with state := .waiting, fetchesDone := satInc c.fetchesDone }) })

/-- R47, R82, R105: an accepted OK reply ends a fetch leg DONE: the converted values enter the value buffer
unless the request is being cancelled, the bound mirror cells take the raw values, the station is ONLINE,
and the request completes when no other leg of it is unfinished. The drain test follows (R141). -/
def Obligations.FetchLegDoneFillsBuffer : Prop :=
  ∀ (s : State) (l : LineNo) (i k : Nat) (g : Leg) (r : Request) (e : MapEntry)
    (bytes values : List Byte) (flags : Byte), s.hearing l (.leg i) →
    s.legs.get i = some g → g.direction = .fetch → g.count ≤ 60 → g.owner = k →
    s.slots.get k = some r → r.kind = .fetch → r.phase = .active →
    s.active.map[g.mapPosition]? = some e →
    s.answeredBy (.leg i) bytes 0x00#8 (flags :: nat1 g.count :: values) →
    values.length = 2 * g.count →
    ∃ (t : State) (q : Request), exec (.fieldFrameReceived l bytes) s = .next t.drainTest ∧ t.slots.get k = some q ∧
      t.legs = s.legs.put i { g with state := .done, values := wordsOf values } ∧
      (r.cancelRequested = true → q.buffer = r.buffer ∧ q.clamped = r.clamped) ∧
      (r.cancelRequested = false →
        q.buffer = fillBuffer g.position (convertRead e (wordsOf values)).1 r.buffer ∧
        q.clamped = (r.clamped || (convertRead e (wordsOf values)).2)) ∧
      q.failure = r.failure ∧ q.stale = r.stale ∧ q.legs = r.legs ∧
      (q.phase = .replying ↔
        ∀ j ∈ r.legs, j ≠ i → ∀ h, s.legs.get j = some h → h.state.unfinished = false) ∧
      t.txQueue = s.txQueue ++ (if q.phase = .replying then
        [⟨.slotReply k, r.source, r.tag, .reply q.reply⟩] else []) ∧
      (∀ j, j ≠ k → t.slots.get j = s.slots.get j) ∧
      t.mirror = (match s.legCell g with
        | some m => s.mirror.writeFrom blankCell m
            ((wordsOf values).map (fun w => ⟨w, true, s.uptime⟩))
        | none => s.mirror) ∧
      t.stations = s.stations.set l ((s.stations.get l).map (fun x =>
        if x.station = g.station then { x with health := .online, failures := 0, probe := .none }
        else x)) ∧
      t.lines = s.lines.set l { (s.lines.get l).rested (s.settings l) s.uptime with
        current := none
        counters := { (s.lines.get l).counters with
          legsServed := satInc (s.lines.get l).counters.legsServed } }

/-- R51, R53, R82, R106: an accepted OK reply ends a store leg DONE: the bound cells take the values
written, the station is ONLINE, and the line is in GUARD. Unless the request is being cancelled its next
HELD leg, to whichever line, is released: QUEUED at its line's tail, which takes it at once when IDLE, or
FAILED when its station is OFFLINE, which ends the request. With nothing left to release and no leg
unfinished the request completes. The drain test follows. A CANCEL that falls together with the DONE
finds the released leg QUEUED (R61, log entry 25). -/
def Obligations.StoreLegDoneReleasesNext : Prop :=
  ∀ (s : State) (l : LineNo) (i k : Nat) (g : Leg) (r : Request) (bytes : List Byte) (flags : Byte),
    s.hearing l (.leg i) → s.legs.get i = some g → g.direction = .store → g.count ≤ 60 →
    g.owner = k → s.slots.get k = some r → r.kind ≠ .fetch → r.phase = .active →
    s.answeredBy (.leg i) bytes 0x00#8 [flags, nat1 g.count] →
    StoreGoesOn (exec (.fieldFrameReceived l bytes) s) { s with
      legs := s.legs.put i { g with state := .done }
      mirror := match s.legCell g with
        | some m => s.mirror.writeFrom blankCell m (g.values.map (fun w => ⟨w, true, s.uptime⟩))
        | none => s.mirror
      stations := s.stations.set l ((s.stations.get l).map (fun x =>
        if x.station = g.station then { x with health := .online, failures := 0, probe := .none }
        else x))
      lines := s.lines.set l { (s.lines.get l).rested (s.settings l) s.uptime with
        current := none
        counters := { (s.lines.get l).counters with
          legsServed := satInc (s.lines.get l).counters.legsServed } } } k r

/-- R43, R48, R52, R72, R73, R74, R75, R79, R82, R83, R100, R107: what becomes of a leg or a scan fetch whose
attempt is no success, by whatever command that attempt ends. The result is counted, the station record
told, and the line is in GUARD. A failed attempt that neither drives the station OFFLINE nor is the last
permitted keeps the work. A remote fault, and any other result at the last permitted attempt, ends it
FAILED. A scan fetch counts a failure and waits, its cells as they were. A leg takes R43's status, remote
code and UNCERTAIN, its bound cells are invalid when it is UNCERTAIN and as they were otherwise, and its
owner takes the failure. And how a station record takes an answer, a failed attempt and a failed probe
(R82, R83, R87, R88). That a reply of a status other than OK is judged with any bytes behind its count, an odd
number included, is the model's choice (log entry 11). -/
def Obligations.FailedAttemptKeepsTheWork : Prop :=
  (∀ (s : State) (l : LineNo) (w : Work) (c : Instr) (res : AttemptResult),
    AttemptFails s l w c res → w.isProbe = false →
    let n := s.lines.get l
    let line : Line := { n.rested (s.settings l) s.uptime with
      counters := match res with
        | .timeout => { n.counters with timeouts := satInc n.counters.timeouts }
        | .lineError => { n.counters with formatErrors := satInc n.counters.formatErrors }
        | .busy => { n.counters with busyAnswers := satInc n.counters.busyAnswers }
        | .remoteFault _ => { n.counters with remoteFaults := satInc n.counters.remoteFaults }
        | .success _ => n.counters }
    let stations : Four (List StationRecord) :=
      s.stations.set l ((s.stations.get l).map (fun x =>
        if x.station = s.workStation w then
          (if res = .timeout ∨ res = .lineError then x.failedAttempt s.uptime (s.settings l)
            else { x with health := .online, failures := 0, probe := .none })
        else x))
    (res = .timeout ∨ res = .lineError → s.drivesOffline l (s.workStation w) = false →
      s.workAttempts w ≤ (s.settings l).retryLimit →
      exec c s = .next { s with
        lines := s.lines.set l line
        stations := stations }) ∧
    (s.endsFailed l w res →
      (∀ i, w = .scan i →
        exec c s = .next (State.drainTest { s with
          lines := s.lines.set l { line with current := none }
          stations := stations
          scans := s.scans.modify i (fun x =>
            { x with state := .waiting, failures := satInc x.failures }) })) ∧
      (∀ i g k r, RequestLaw s → w = .leg i → s.legs.get i = some g → g.owner = k →
        s.slots.get k = some r → r.phase = .active →
        ∃ (t : State) (mirror : Sparse MirrorCell), exec c s = .next t.drainTest ∧
          LegFailureTaken { s with
            lines := s.lines.set l { line with
              current := none
              counters := { line.counters with legsServed := satInc n.counters.legsServed } }
            stations := stations
            legs := s.legs.put i (g.endedFailed res)
            mirror := mirror } t k r (g.endedFailed res) res.fate.1 ∧
          (∀ a, t.cell a =
            if (s.legCell g).any (fun b => (g.endedFailed res).uncertain &&
              decide (b ≤ a) && decide (a < b + g.count)) then { s.cell a with valid := false }
            else s.cell a)))) ∧
  (∀ (x : StationRecord) (now : Uptime) (r : LineSettings),
      x.answered = { x with health := .online, failures := 0, probe := .none } ∧
      (x.failures + 1 < r.offlineThreshold →
        x.failedAttempt now r = { x with health := .suspect, failures := x.failures + 1 }) ∧
      (r.offlineThreshold ≤ x.failures + 1 →
        x.failedAttempt now r = { x with
          health := .offline
          failures := x.failures + 1
          probe := .waiting (after now r.probeInterval) }) ∧
      (x.health = .offline →
        x.failedProbe now r = { x with probe := .waiting (after now r.probeInterval) }) ∧
      (x.health ≠ .offline → x.failedProbe now r = x))

/-- R43, R46, R74, R83, R84, R85, R100, R107: the failed attempt, by timeout or LINE_ERROR, that drives a
station OFFLINE. Its record counts the failure and starts its probe timer. The work in flight ends FAILED
with that attempt's reason. The QUEUED legs to the station fail STATION_OFFLINE, in demand queue order,
unless a lower failure of their request in the same event has cancelled them; each request's record takes
all these failures in that order, and each request then complete is completed: its REPLY joins the transmit
queue behind the frames that stand there, and the replies follow the order of the legs that fail, the work in
flight first, each at the last failed leg of its request. The station's scan entries
leave the scan queue and wait, uncounted; every cell of its regions is invalid, and keeps its value and
stamp. No other record changes. The drain test follows. -/
def Obligations.TimeoutDrivesStationOffline : Prop :=
  ∀ (s : State) (l : LineNo) (w : Work) (c : Instr) (res : AttemptResult) (x : StationRecord),
    AttemptFails s l w c res → res = .timeout ∨ res = .lineError → w.isProbe = false →
    s.record l (s.workStation w) = some x → (s.settings l).offlineThreshold ≤ x.failures + 1 →
    let station := s.workStation w
    let n := s.lines.get l
    let struck (i : Nat) : Bool := decide (w ≠ .leg i) && (s.legs.get i).any (fun h =>
      decide (h.state = .queued) && decide (h.station = station))
    let offered (k : Nat) (r : Request) : List Failure :=
      (match w with
        | .leg i => ((s.legs.get i).toList.filter (fun g => decide (g.owner = k))).map
            (fun g => r.entryOf (g.endedFailed res) res.fate.1)
        | _ => []) ++
      (((n.demand.filter struck).filterMap s.legs.get).filter (fun h => decide (h.owner = k))).map
        (fun h => r.entryOf h.failedOffline .stationOffline)
    let failing (t : State) : List Nat :=
      ((match w with
        | .leg i => [i]
        | _ => []) ++
        (n.demand.filter struck).eraseDups.filter (fun i => (t.legs.get i).isSome)).filterMap
        (fun i => (s.legs.get i).map Leg.owner)
    ∃ t : State, exec c s = .next t.drainTest ∧
      t = { s with
        slots := t.slots
        legs := t.legs
        lines := t.lines
        stations := t.stations
        scans := t.scans
        mirror := t.mirror
        txQueue := t.txQueue } ∧
      t.record l station = some { x with
        health := .offline
        failures := x.failures + 1
        probe := .waiting (after s.uptime (s.settings l).probeInterval) } ∧
      (∀ m y, m ≠ l ∨ y ≠ station → t.record m y = s.record m y) ∧
      (∀ m, m ≠ l → t.lines.get m = { s.lines.get m with demand := (t.lines.get m).demand }) ∧
      (∀ m, (t.lines.get m).demand.Sublist (s.lines.get m).demand) ∧
      t.lines.get l = { n.rested (s.settings l) s.uptime with
        current := none
        demand := (t.lines.get l).demand
        scans := n.scans.filter (fun i => !s.scanOf l station i)
        counters :=
          let a := if res = .timeout then
              { n.counters with timeouts := satInc n.counters.timeouts }
            else { n.counters with formatErrors := satInc n.counters.formatErrors }
          match w with
          | .leg _ => { a with legsServed := satInc a.legsServed }
          | _ => a } ∧
      (∀ i ∈ (t.lines.get l).demand, ∀ g, t.legs.get i = some g → g.station = station →
        g.state ≠ .queued) ∧
      (∀ i g, w = .leg i → s.legs.get i = some g → t.legs.get i = some (g.endedFailed res)) ∧
      (RequestLaw s →
        (∀ before i after h, n.demand = before ++ i :: after → struck i = true →
          s.legs.get i = some h →
          (∀ j g, w = .leg j ∨ j ∈ before → s.legs.get j = some g → g.owner = h.owner →
            h.position ≤ g.position) →
          t.legs.get i = some h.failedOffline) ∧
        (∀ i ∈ n.demand, struck i = true → ∀ h, s.legs.get i = some h →
          t.legs.get i = some h.failedOffline ∨ (t.legs.get i = none ∧
            ∃ q y, t.slots.get h.owner = some q ∧ q.failure = some y ∧ y.position < h.position)) ∧
        (∀ i h, s.legs.get i = some h → w ≠ .leg i → (struck i = false ∨ i ∉ n.demand) →
          t.legs.get i = some h ∨ (t.legs.get i = none ∧ (h.state = .queued ∨ h.state = .held) ∧
            ∀ r, s.slots.get h.owner = some r → offered h.owner r ≠ [])) ∧
        (∀ k r, s.slots.get k = some r → ∃ q, t.slots.get k = some q ∧
          q = { r with failure := q.failure, legs := q.legs, phase := q.phase } ∧
          q.failure = ((offered k r).foldl Request.offer r).failure ∧
          (offered k r = [] → q = r) ∧
          (offered k r ≠ [] → r.phase = .active →
            (q.phase = .replying ↔
              ∀ i ∈ q.legs, ∀ h, t.legs.get i = some h → h.state.unfinished = false) ∧
            (q.phase = .replying →
              ⟨.slotReply k, r.source, r.tag, .reply q.reply⟩ ∈ t.txQueue))) ∧
        t.txQueue = s.txQueue ++ (lastOfEach (failing t)).filterMap (s.completedReply t)) ∧
      (∀ i, t.scans.get i = (s.scans.get i).map (fun y =>
        if w = .scan i then { y with state := .waiting, failures := satInc y.failures }
        else if i ∈ n.scans ∧ s.scanOf l station i = true then { y with state := .waiting }
        else y)) ∧
      (∀ a,
        let gone : Prop := (∃ i e, (i, e) ∈ s.active.scan ∧ e.line = l ∧ e.station = station ∧
            e.mirrorBase ≤ a ∧ a < e.mirrorBase + e.count) ∨
          (∃ i g b, w = .leg i ∧ s.legs.get i = some g ∧ (g.endedFailed res).uncertain = true ∧
            s.legCell g = some b ∧ b ≤ a ∧ a < b + g.count)
        (gone → t.cell a = { s.cell a with valid := false }) ∧ (¬gone → t.cell a = s.cell a))

/-- R72, R75: a BUSY answer with attempts remaining puts the line in BACKOFF from now; at the backoff's expiry
the line enters GUARD, its guard time run in full from that moment, or held back while a frame is being
received. Two things here are the model's choices. The answer is BUSY by its status, flags and count bytes
alone, whatever the number of bytes behind the count, an odd number included, and it shows the station ONLINE:
R72's words, where R168's layout has whole words there (log entry 11). And the guard time runs from the
backoff's end (log entry 26). -/
def Obligations.BusyAnswerBacksOff : Prop :=
  ∀ (s : State) (l : LineNo),
    let n := s.lines.get l
    (∀ w bytes flags count rest, s.hearing l w → w.isProbe = false →
      s.workAttempts w ≤ (s.settings l).retryLimit →
      s.answeredBy w bytes 0x03#8 (flags :: count :: rest) →
      exec (.fieldFrameReceived l bytes) s = .next { s with
        lines := s.lines.set l { n with
          phase := .backoff (after s.uptime (s.settings l).busyBackoff)
          receiving := false
          wire := ⟨(s.settings l).bitRate, (s.settings l).parity⟩
          counters := { n.counters with busyAnswers := satInc n.counters.busyAnswers } }
        stations := s.stations.set l ((s.stations.get l).map (fun x =>
          if x.station = s.workStation w then
            { x with health := .online, failures := 0, probe := .none }
          else x)) }) ∧
    (∀ expiry, s.serving = true → n.phase = .backoff expiry → reached s.uptime expiry = true →
      exec (.busyBackoffExpiry l) s = .next { s with lines := s.lines.set l { n with
        phase := .guard (if n.receiving then none else
          some (after s.uptime (s.settings l).guardTime)) } })

/-- R95: the expiry of a scan entry's due timer advances the due time by one period; a busy entry counts an
overrun, an entry of an OFFLINE station a skip, and any other joins its line's scan queue, where an IDLE line
takes it at once, as R95 says. An ACTIVATE that falls together with the expiry finds it QUEUED (R97, R147, log
entry 25). That an entry whose fetch a drain's timer left on its line counts an overrun here, WAITING though
it is, is the model's choice (log entry 14). -/
def Obligations.ScanDueQueuesOrCounts : Prop :=
  ∀ (s : State) (i : Nat) (e : ScanEntry) (c : ScanRun), s.powered = true → s.bridge = .running →
    s.active.scan.get i = some e → s.scans.get i = some c → reached s.uptime c.nextDue = true →
    (c.state ≠ .waiting →
      exec (.scanDueExpiry i) s = .next { s with
        scans := s.scans.modify i (fun x =>
          { x with nextDue := after x.nextDue e.period, overruns := satInc x.overruns }) }) ∧
    (c.state = .waiting → s.offline e.line e.station = true →
      exec (.scanDueExpiry i) s = .next { s with
        scans := s.scans.modify i (fun x =>
          { x with nextDue := after x.nextDue e.period, skips := satInc x.skips }) }) ∧
    (c.state = .waiting → s.offline e.line e.station = false →
      exec (.scanDueExpiry i) s = .next (State.kick { s with
        scans := s.scans.modify i (fun x =>
          { x with nextDue := after x.nextDue e.period, state := .queued })
        lines := s.lines.set e.line { s.lines.get e.line with
          scans := (s.lines.get e.line).scans ++ [i] } } e.line))

/-- R76, R77, R79, R87, R88: a probe timer's expiry lists the station at the tail of its line's probe list,
and an IDLE line takes at once. The end of a probe counts its result and leaves the line in GUARD with no
work, whatever the retry limit. An answer of any status, OK, NO_REGISTER, REFUSED or BUSY, puts the record in
ONLINE with failures 0; a failed attempt, by LINE_ERROR in any of its ways or by timeout, starts the probe
timer of an OFFLINE record again and leaves any other. Where a swap has removed the record, no record takes
the result. A STATION_RESET, or a swap that removes the record, that falls together with the expiry finds the
station LISTED (R90, log entry 25). That an answer of a status other than OK counts with any bytes behind its
count, an odd number included, is the model's choice (log entry 11). -/
def Obligations.ProbesReachOfflineStations : Prop :=
  ∀ (s : State) (l : LineNo) (station : Nat),
    let n := s.lines.get l
    let changed (f : StationRecord → StationRecord) : Four (List StationRecord) :=
      s.stations.set l ((s.stations.get l).map (fun y => if y.station = station then f y else y))
    let online (y : StationRecord) : StationRecord :=
      { y with health := .online, failures := 0, probe := .none }
    let again (y : StationRecord) : StationRecord :=
      if y.health = .offline then
        { y with probe := .waiting (after s.uptime (s.settings l).probeInterval) }
      else y
    (∀ x next, s.record l station = some x → s.serving = true → x.probe = .waiting next →
      reached s.uptime next = true →
      exec (.probeTimerExpiry l station) s = .next (State.kick { s with
        stations := changed (fun y => { y with probe := .listed })
        lines := s.lines.set l { n with probes := n.probes ++ [station] } } l)) ∧
    (∀ tag discard bytes flags high low, s.hearing l (.probe station tag discard) →
      s.answeredBy (.probe station tag discard) bytes 0x00#8 [flags, 1#8, high, low] →
      exec (.fieldFrameReceived l bytes) s = .next { s with
        stations := if discard then s.stations else changed online
        lines := s.lines.set l { n.rested (s.settings l) s.uptime with current := none } }) ∧
    (∀ tag discard c res, AttemptFails s l (.probe station tag discard) c res →
      exec c s = .next { s with
        stations :=
          if discard then s.stations
          else if res = .timeout ∨ res = .lineError then changed again
          else changed online
        lines := s.lines.set l { n.rested (s.settings l) s.uptime with
          current := none
          counters := match res with
            | .timeout => { n.counters with timeouts := satInc n.counters.timeouts }
            | .lineError => { n.counters with formatErrors := satInc n.counters.formatErrors }
            | .busy => { n.counters with busyAnswers := satInc n.counters.busyAnswers }
            | .remoteFault _ => { n.counters with remoteFaults := satInc n.counters.remoteFaults }
            | .success _ => n.counters } })

/-! ## Management -/

/-- R124, R126: an empty body or an unknown code is answered BAD_OPERATION; for every operation of R126's
table, checks 1 to 4 in their order, each with its answer and, beyond it, only the frame's count and the
owner's idle timer; a STATS of the wrong shape is answered BAD_ARGUMENT before check 1. A malformed RESTART
or STATS is an event of either of its two rows: the model's choice (log entry 10). -/
def Obligations.ManagementChecksInOrder : Prop :=
  ∀ (s : State) (byte : Byte) (f : Frame), s.dispatched byte = some (f, .mgmt) →
    let refused (status : Status) : State :=
      (s.served f).pushPrompt f.source f.tag (.mreply (mgmtCode f.body) status [])
    (mgmtOp f.body = none → exec (.mgmtBadOperation byte) s = .next (refused .badOperation)) ∧
    (mgmtOp f.body = some .stats → statsClearOption (mgmtArgs f.body) = none →
      exec (.statsRead byte) s = .next (refused .badArgument) ∧
      exec (.statsClear byte) s = .next (refused .badArgument)) ∧
    ∀ row ∈ mgmtRows, row.takes f = true →
      let pending := s.operation ≠ .none ∧ row.whilePending = false
      let held := row.closing = true ∧ closingHeld s.txQueue = true
      let foreign := row.session = true ∧ s.ownedBy f.source = false
      (pending ∨ held → exec (row.command byte) s = .next (refused .mgmtBusy)) ∧
      (¬pending → ¬held → foreign → exec (row.command byte) s = .next (refused .notOwner)) ∧
      (¬pending → ¬held → ¬foreign → row.argsGood s (mgmtArgs f.body) = false →
        exec (row.command byte) s = .next (refused .badArgument))

/-- R128, R129, R130: SESSION_OPEN opens or renews the session and starts its idle timer, and from another
station is answered SESSION_HELD; SESSION_CLOSE and the idle timer's expiry put the session to NONE and
revert the staging area to a copy of the active tables with the mark set. Every MGMT frame of the owner
restarts the idle timer while no operation is pending, and no other frame touches it. -/
def Obligations.SessionOpensRenewsAndReverts : Prop :=
  (∀ (s : State) (byte : Byte) (f : Frame), s.dispatched byte = some (f, .mgmt) →
    s.operation = .none →
    (∀ n, mgmtOp f.body = some .sessionOpen → sessionOpenArg (mgmtArgs f.body) = some n →
      (s.session = none ∨ s.ownedBy f.source = true →
        exec (.sessionOpen byte) s = .next (State.pushPrompt
          { s.frameTaken with session := some ⟨f.source, n, some (after s.uptime (n * 1000))⟩ }
          f.source f.tag (.mreply 0x01#8 .ok (f.source :: nat2 n)))) ∧
      (∀ o, s.session = some o → o.owner ≠ f.source →
        exec (.sessionOpen byte) s = .next (s.frameTaken.pushPrompt f.source f.tag
          (.mreply 0x01#8 .sessionHeld [o.owner])))) ∧
    (mgmtOp f.body = some .sessionClose → mgmtArgs f.body = [] → s.ownedBy f.source = true →
      exec (.sessionClose byte) s = .next (State.pushPrompt
        { s.frameTaken with session := none, staging := copyOf s.active }
        f.source f.tag (.mreply 0x02#8 .ok [])))) ∧
  (∀ (s : State) (o : Session) (expiry : Uptime), s.serving = true → s.session = some o →
    o.expiry = some expiry → reached s.uptime expiry = true →
    exec .idleTimerExpiry s = .next { s with session := none, staging := copyOf s.active }) ∧
  (∀ (s : State) (f : Frame),
    (∀ o, s.session = some o → o.owner = f.source → s.operation = .none →
      s.served f = { s.frameTaken with
        session := some { o with expiry := some (after s.uptime (o.timeout * 1000)) } }) ∧
    (s.operation ≠ .none ∨ s.ownedBy f.source = false → s.served f = s.frameTaken))

/-- R132 to R135: the eight edits of the staging area, once checks 1 to 4 pass. Each changes the part of the
staging area that it names and nothing else of it, sets or clears the mark, and is answered OK. -/
def Obligations.StagingEditsTakeEffect : Prop :=
  ∀ (s : State) (byte : Byte) (f : Frame), s.dispatched byte = some (f, .mgmt) → s.ownerMay f →
    let g := s.staging
    let edited (next : Staging) : State := State.pushPrompt { s.served f with staging := next }
      f.source f.tag (.mreply (mgmtCode f.body) .ok [])
    (mgmtOp f.body = some .stageCopyActive → mgmtArgs f.body = [] →
      exec (.stageCopyActive byte) s = .next (edited (copyOf s.active))) ∧
    (mgmtOp f.body = some .stageClear → mgmtArgs f.body = [] →
      exec (.stageClear byte) s = .next (edited ⟨[], [], g.lines, g.bridge, false⟩)) ∧
    (∀ p e, mgmtOp f.body = some .stagePutMap → putMapArgs (mgmtArgs f.body) = some (p, e) →
      exec (.stagePutMap byte) s =
        .next (edited { g with map := g.map.put p e, mark := false })) ∧
    (∀ p, mgmtOp f.body = some .stageDeleteMap → placeArg 256 (mgmtArgs f.body) = some p →
      exec (.stageDeleteMap byte) s =
        .next (edited { g with map := g.map.del p, mark := false })) ∧
    (∀ p e, mgmtOp f.body = some .stagePutScan → putScanArgs (mgmtArgs f.body) = some (p, e) →
      exec (.stagePutScan byte) s =
        .next (edited { g with scan := g.scan.put p e, mark := false })) ∧
    (∀ p, mgmtOp f.body = some .stageDeleteScan → placeArg 64 (mgmtArgs f.body) = some p →
      exec (.stageDeleteScan byte) s =
        .next (edited { g with scan := g.scan.del p, mark := false })) ∧
    (∀ l r, mgmtOp f.body = some .stagePutLine → putLineArgs (mgmtArgs f.body) = some (l, r) →
      exec (.stagePutLine byte) s =
        .next (edited { g with lines := g.lines.set l r, mark := false })) ∧
    (∀ r, mgmtOp f.body = some .stagePutBridge → putBridgeArgs (mgmtArgs f.body) = some r →
      exec (.stagePutBridge byte) s = .next (edited { g with bridge := r, mark := false }))

/-- R136, R137: VALIDATE answers OK with the counts of used places and sets the mark when its six checks
pass; otherwise it answers INVALID with the table, the index and the reason of the first failure, and the
mark is clear. It changes no content. That the failing answer clears the mark in every state is the model's
reading (log entry 17). -/
def Obligations.ValidateAnswersFirstFailure : Prop :=
  ∀ (s : State) (byte : Byte) (f : Frame), s.dispatched byte = some (f, .mgmt) → s.ownerMay f →
    mgmtOp f.body = some .validate → mgmtArgs f.body = [] →
    let answered (mark : Bool) (status : Status) (results : List Byte) : State := State.pushPrompt
      { s.served f with staging := { s.staging with mark := mark } }
      f.source f.tag (.mreply 0x0B#8 status results)
    (validation s.staging = none →
      exec (.validate byte) s = .next (answered true .ok
        (nat2 s.staging.map.length ++ [nat1 s.staging.scan.length]))) ∧
    (∀ v, validation s.staging = some v →
      exec (.validate byte) s = .next (answered false .invalid
        [v.table.code, nat1 v.index, v.reason.code]))

/-- R136, R137: the six checks of VALIDATE pass exactly when the staging area is consistent: map entries
ascending and apart, 32-bit entries of even length, no scale on F32, broadcast entries write only, bindings
present exactly where the policy wants them and inside the bound scan entry, regions apart, every named line
enabled, and at most 32 stations on a line. -/
def Obligations.ValidationAcceptsConsistentStaging : Prop :=
  ∀ (g : Staging), sparseWf 256 g.map = true → sparseWf 64 g.scan = true →
    (validation g = none ↔
      (g.map.map Prod.snd).Pairwise (fun a b => a.base < b.base ∧ a.base + a.length ≤ b.base) ∧
      (∀ e ∈ g.map.map Prod.snd,
        (e.type.wide = true → e.length % 2 = 0) ∧ (e.type = .f32 → e.scale = none) ∧
        (e.station = 0 → e.access = .wo) ∧
        (e.policy ≠ .live → e.binding ≠ none ∧ e.maxAge ≠ none) ∧
        (e.policy = .live → e.binding = none ∧ e.maxAge = none) ∧
        (∀ b, e.binding = some b → ∃ c, g.scan.get b.scan = some c ∧ c.line = e.line ∧
          c.station = e.station ∧ c.remote + b.offset = e.remote ∧ b.offset + e.length ≤ c.count) ∧
        (g.lines.get e.line).enabled = true) ∧
      (∀ i j c d, g.scan.get i = some c → g.scan.get j = some d → i ≠ j →
        c.mirrorBase + c.count ≤ d.mirrorBase ∨ d.mirrorBase + d.count ≤ c.mirrorBase) ∧
      (∀ i c, g.scan.get i = some c → (g.lines.get c.line).enabled = true) ∧
      (∀ l, (g.tables.stationsOn l).length ≤ 32))

/-! ## Activation -/

/-- R139, R101: an ACTIVATE that passes checks 1 to 4 is answered NOT_VALIDATED while the mark is clear, and
otherwise begins: the bridge is DRAINING, the operation pending, the idle timer stopped, the drain timer
started, every scan queue emptied, and the drain test made. R97, R147: an entry whose due expiry falls together
with the ACTIVATE counts as QUEUED, the line that has just taken it giving it back, and that line then takes
what else waits. What falls together is the model's choice (log entry 25). -/
def Obligations.ActivateBeginsItsDrain : Prop :=
  ∀ (s : State) (byte : Byte) (f : Frame) (timeout : Nat) (o : Session),
    s.dispatched byte = some (f, .mgmt) → s.operation = .none → s.session = some o →
    o.owner = f.source → closingHeld s.txQueue = false → mgmtOp f.body = some .activate →
    activateArg (mgmtArgs f.body) = some timeout →
    (s.staging.mark = false →
      exec (.activate byte) s = .next ((s.served f).pushPrompt f.source f.tag
        (.mreply 0x0C#8 .notValidated []))) ∧
    (s.staging.mark = true →
      let scanning (_ : LineNo) (w : Work) : Bool := w.isScan
      let u := s.withdrawn scanning
      ∃ lines scans,
      exec (.activate byte) s = .next (State.drainTest
        ((s.joining scanning).foldl State.kick { s.frameTaken with
          bridge := .draining
          operation := .activate f.source f.tag (after s.uptime timeout)
          session := some { o with expiry := none }
          lines := lines
          scans := scans })) ∧
      (∀ l, lines.get l = { u.lines.get l with scans := [] }) ∧
      (∀ i, scans.get i = (u.scans.get i).map (fun c =>
        if ∃ l, i ∈ (u.lines.get l).scans then { c with state := .waiting } else c)))

/-- R141 to R145, R77, R81, R94: the drain test of a DRAINING part does nothing while a slot is ACTIVE or a
scan fetch in flight; otherwise the swap is made: the staged tables become active whole, the generation is
raised by 1, every cell is invalid, records and scan entries are carried over as laid down, and the closing
MREPLY joins. A probe list keeps, in their order, the stations whose record is carried over. A disabled line
abandons its probe and is IDLE. A probe in progress on an enabled line goes on as it began, its result
discarded when its record is not carried over. On any other enabled line the new bit rate and parity apply at
once, and a running guard time, or whatever else the line is in, goes on, but for a frame partly received
under another rate or parity: it is abandoned, and in GUARD the guard time is run again in full (R65).
R90: a probe whose timer's expiry falls together with the swap is LISTED when its record is removed, the line
that has just taken it giving it back, and that line then takes what else waits; what falls together is the
model's choice (log entry 25). The mirror's canonical form is a premise. -/
def Obligations.DrainedBridgeSwapsTables : Prop :=
  ∀ (s : State) (dest tag : Byte) (drain : Uptime), StoreLaw s →
    s.operation = .activate dest tag drain → s.bridge = .draining →
    ((∃ e ∈ s.slots, e.2.phase = .active) ∨ (∃ e ∈ s.scans, e.2.flying = true) →
      s.drainTest = s) ∧
    ((∀ e ∈ s.slots, e.2.phase ≠ .active) → (∀ e ∈ s.scans, e.2.flying = false) →
      let lost := s.losesRecord s.staging.tables
      let v := s.withdrawn lost
      ∃ t : State, s.drainTest = (s.joining lost).foldl State.kick t ∧
      t.active = ⟨s.staging.map.map Prod.snd, s.staging.scan, s.staging.lines, s.staging.bridge⟩ ∧
      t.generation = s.generation + 1#16 ∧ t.bridge = .running ∧ t.operation = .none ∧
      t.session = s.session.map (fun o =>
        { o with expiry := some (after s.uptime (o.timeout * 1000)) }) ∧
      (∀ k, t.cell k = { s.cell k with valid := false }) ∧
      (∀ l, t.stations.get l = (t.active.stationsOn l).map (fun n =>
        ((v.stations.get l).find? (fun x => decide (x.station = n))).getD
          ⟨n, .unknown, 0, .none⟩)) ∧
      (∀ i, t.scans.get i = (t.active.scan.get i).map (fun e =>
        match s.scans.get i with
        | some c => { c with state := .waiting, nextDue := after s.uptime e.period }
        | none => ⟨.waiting, after s.uptime e.period, 0, 0, 0, 0⟩)) ∧
      (∀ l, (t.lines.get l).probes = (v.lines.get l).probes.filter (fun station =>
        (v.record l station).isSome && (t.record l station).isSome)) ∧
      (∀ l, (t.settings l).enabled = false →
        (t.lines.get l).phase = .idle ∧ (t.lines.get l).current = none ∧
        (t.lines.get l).receiving = false ∧
        (t.lines.get l).wire = ⟨(t.settings l).bitRate, (t.settings l).parity⟩) ∧
      (∀ l, (t.settings l).enabled = true → (v.lines.get l).phase.attempting = true →
        (t.lines.get l).phase = (v.lines.get l).phase ∧
        (t.lines.get l).receiving = (v.lines.get l).receiving ∧
        (t.lines.get l).wire = (v.lines.get l).wire ∧
        (t.lines.get l).current = (v.lines.get l).current.map (fun w =>
          match w with
          | .probe station tag discard => .probe station tag
              (discard || (v.record l station).isNone || (t.record l station).isNone)
          | other => other)) ∧
      (∀ l, (t.settings l).enabled = true → (v.lines.get l).phase.attempting = false →
        let wire : WireSettings := ⟨(t.settings l).bitRate, (t.settings l).parity⟩
        let abandoned := (v.lines.get l).receiving = true ∧ (v.lines.get l).wire ≠ wire
        (t.lines.get l).current = (v.lines.get l).current ∧ (t.lines.get l).wire = wire ∧
        (¬abandoned → (t.lines.get l).phase = (v.lines.get l).phase ∧
          (t.lines.get l).receiving = (v.lines.get l).receiving) ∧
        (abandoned → (t.lines.get l).receiving = false ∧
          (t.lines.get l).phase = match (v.lines.get l).phase with
            | .guard _ => .guard (some (after s.uptime (t.settings l).guardTime))
            | other => other)) ∧
      (∀ l, (t.lines.get l).demand = (v.lines.get l).demand ∧
        (t.lines.get l).scans = (v.lines.get l).scans) ∧
      (∀ l, (t.lines.get l).counters = (v.lines.get l).counters ∧
        (t.lines.get l).nextTag = (v.lines.get l).nextTag ∧
        (t.lines.get l).streak = (v.lines.get l).streak ∧
        (t.lines.get l).previous = (v.lines.get l).previous) ∧
      t.txQueue = s.txQueue ++ [⟨.closing .swap, dest, tag, .mreply 0x0C#8 .ok
        (bytes16 (s.generation + 1#16) ++ nat2 s.staging.map.length
          ++ [nat1 s.staging.scan.length])⟩] ∧
      t.slots = s.slots ∧ t.legs = s.legs ∧ t.link = s.link ∧ t.staging = s.staging ∧
      t.store = s.store ∧ t.committed = s.committed ∧ t.hostCounters = s.hostCounters)

/-- R146: a drain that its timer ends leaves the tables as they were: the bridge is RUNNING, no operation is
pending, the idle timer starts afresh, every scan entry starts WAITING with a fresh due timer (R96, R101), and
the closing MREPLY carries DRAIN_TIMEOUT with the ACTIVE slots and the lines with a leg or scan fetch in
flight. No entry is QUEUED there, since the drain emptied the scan queues (R101). That the model keeps, beside
WAITING, the attempts and tag of a fetch that its line still holds is its choice (log entry 14). -/
def Obligations.DrainTimeoutKeepsTables : Prop :=
  ∀ (s : State) (dest tag : Byte) (drain : Uptime), s.powered = true → s.bridge = .draining →
    s.operation = .activate dest tag drain → reached s.uptime drain = true →
    exec .drainTimerExpiry s = .next { s with
      bridge := .running
      operation := .none
      session := s.session.map (fun o =>
        { o with expiry := some (after s.uptime (o.timeout * 1000)) })
      scans := s.scans.mapVals (fun i c =>
        match s.active.scan.get i with
        | some e => { c with
            state := match c.state with
              | .inFlight a x => .finishing a x
              | other => other
            nextDue := after s.uptime e.period }
        | none => c)
      txQueue := s.txQueue ++ [⟨.closing .drainTimeout, dest, tag, .mreply 0x0C#8 .drainTimeout
        [nat1 (s.slots.countP (fun e => decide (e.2.phase = .active))),
         nat1 (allLines.countP (fun l => (s.lines.get l).current.any (fun w => !w.isProbe)))]⟩] }

/-! ## Image store, restart and start-up -/

/-- R150, R151: a COMMIT begins: the slot that does not hold the newest valid image is the target and becomes
invalid, the sequence number is one past the newest, and the content is taken from the active tables. -/
def Obligations.CommitBeginsOnTheOlderSlot : Prop :=
  ∀ (s : State) (byte : Byte) (f : Frame) (o : Session),
    s.dispatched byte = some (f, .mgmt) → s.operation = .none → s.session = some o →
    o.owner = f.source → closingHeld s.txQueue = false → mgmtOp f.body = some .commit →
    mgmtArgs f.body = [] →
    ∀ target sequence,
      ((s.store.viewA = none ∧ s.store.viewB = none ∧ target = .a ∧ sequence = 1#32) ∨
       (∃ a, s.store.viewA = some a ∧ s.store.viewB = none ∧ target = .b ∧
         sequence = a.sequence + 1#32) ∨
       (∃ b, s.store.viewA = none ∧ s.store.viewB = some b ∧ target = .a ∧
         sequence = b.sequence + 1#32) ∨
       (∃ a b, s.store.viewA = some a ∧ s.store.viewB = some b ∧
         1 ≤ (b.sequence - a.sequence).toNat ∧ (b.sequence - a.sequence).toNat ≤ 0x7FFFFFFF ∧
         target = .a ∧ sequence = b.sequence + 1#32) ∨
       (∃ a b, s.store.viewA = some a ∧ s.store.viewB = some b ∧
         ((b.sequence - a.sequence).toNat = 0 ∨ 0x7FFFFFFF < (b.sequence - a.sequence).toNat) ∧
         target = .b ∧ sequence = a.sequence + 1#32)) →
      exec (.commit byte) s = .next { s.frameTaken with
        operation := .commit f.source f.tag ⟨target, sequence, s.generation,
          imageBytes sequence s.generation s.active, false, false⟩
        session := some { o with expiry := none }
        store := (s.store.setView target none).setSlot target
          ((s.store.slot target).write 0 0 0x00#8) }

/-- R152, R153, R171: the write fills bytes 1 to 7109 of the target with the content, but for the cells that
the store reports to hold something else; the verify finds it good exactly when the store reported no fault
and the bytes read back equal, and then the image is complete, valid and committed; otherwise the closing
MREPLY carries NV_FAULT and the slot stays invalid. That the write takes effect at one event, which carries
the fault and the cells that differ, is the model's choice (log entry 21). -/
def Obligations.CommitWritesThenVerifies : Prop :=
  ∀ (s : State) (dest tag : Byte) (job : CommitJob), s.serving = true →
    s.operation = .commit dest tag job →
    let ended (session : Option Session) (store : ImageStore) (committed : Option Word)
        (status : Status) (results : List Byte) : State := { s with
      operation := .none
      session := session.map (fun o =>
        { o with expiry := some (after s.uptime (o.timeout * 1000)) })
      store := store
      committed := committed
      txQueue := s.txQueue ++ [⟨.closing .commit, dest, tag, .mreply 0x0D#8 status results⟩] }
    let good := job.fault = false ∧
      (s.store.slot job.target).readFrom 0 1 7109 = job.content
    let sound := (s.store.slot job.target).writeFrom 0 1 job.content
    (∀ fault cells, job.written = false → ∃ slot,
      exec (.commitWriteEnd fault cells) s = .next { s with
        operation := .commit dest tag { job with written := true, fault := fault }
        store := s.store.setSlot job.target slot } ∧
      (cells = [] → slot = sound) ∧
      (∀ n, slot.read 0 n =
        match cells.reverse.find? (fun x => decide (x.1 = n)) with
        | some x => if 1 ≤ n ∧ n ≤ 7109 then x.2 else sound.read 0 n
        | none => sound.read 0 n)) ∧
    (job.written = true → good →
      exec .commitVerifyResult s = .next (ended s.session
        ((s.store.setSlot job.target ((s.store.slot job.target).write 0 0 0xA5#8)).setView
          job.target (some ⟨job.sequence, job.generation⟩))
        (some job.generation) .ok
        (job.target.code :: (bytes32 job.sequence ++ bytes16 job.generation)))) ∧
    (job.written = true → ¬good →
      exec .commitVerifyResult s = .next
        (ended s.session s.store s.committed .nvFault [job.target.code]))

/-- R159: a RESTART that passes checks 1 to 4 places its closing MREPLY, of its kind, and changes nothing
else: the restart is taken when that MREPLY has been sent. -/
def Obligations.RestartJoinsItsClosingReply : Prop :=
  ∀ (s : State) (byte : Byte) (f : Frame) (cold : Bool),
    s.dispatched byte = some (f, .mgmt) → s.ownerMay f → closingHeld s.txQueue = false →
    mgmtOp f.body = some .restart → restartArg (mgmtArgs f.body) = some cold →
    exec (if cold then .restartCold byte else .restartWarm byte) s = .next { s.served f with
      txQueue := s.txQueue ++ [⟨.closing (if cold then .restartCold else .restartWarm), f.source,
        f.tag, .mreply 0x0E#8 .ok [if cold then 1#8 else 0#8]⟩] }

/-- R154, R155, R156, R121: at the RESET pin's fall, at a loss of power and at the end of a RESTART COLD the
part stops where it stands: the queue and the pending operation are discarded, the lines and the framer stop,
the session timer stops, and a COMMIT's write leaves some first part of its content in its target. The
release, power and a RESTART COLD begin a cold start: uptime 0, STARTING, and the view built from both
slots. How much of its content a COMMIT's cut write leaves is a free value (log entry 7); that a loss of
power stops the part as the pin's fall does, and that the queue goes at that moment, is the model's reading
(log entry 15). -/
def Obligations.ResetAndPowerStopThePart : Prop :=
  ∀ (s : State),
    let stopped (t : State) : Prop :=
      t.sending = none ∧ t.txQueue = [] ∧ t.operation = .none ∧ t.framer = ⟨.hunt, none⟩ ∧
      (∀ l, t.lines.get l =
        { s.lines.get l with phase := .idle, current := none, receiving := false }) ∧
      t.session = s.session.map (fun o => { o with expiry := none }) ∧
      t.active = s.active ∧ t.generation = s.generation ∧ t.committed = s.committed ∧
      t.staging = s.staging
    let sound (store : ImageStore) : Prop :=
      (∀ dest tag job, s.operation = .commit dest tag job → job.written = false →
        ∃ n, store = s.store.setSlot job.target
          ((s.store.slot job.target).writeFrom 0 1 (job.content.take n))) ∧
      ((∀ dest tag job, s.operation = .commit dest tag job → job.written = true) →
        store = s.store)
    (s.supply = true → s.resetLow = false → ∃ t u,
      exec .resetPinEvent s = .next t ∧ stopped t ∧ sound t.store ∧ t.resetLow = true ∧
        t.supply = true ∧ t.uptime = s.uptime ∧
      exec .powerLoss s = .next u ∧ stopped u ∧ sound u.store ∧ u.supply = false) ∧
    (s.supply = true → s.resetLow = true → ∃ t, exec .resetPinRelease s = .next t ∧
      t.resetLow = false ∧ t.uptime = 0#32 ∧ t.bridge = .starting ∧ stopped t ∧
      (s.operation = .none → t.store = s.store.rebuilt)) ∧
    (s.supply = false → s.resetLow = false → ∃ t, exec .powerOn s = .next t ∧
      t.supply = true ∧ t.uptime = 0#32 ∧ t.bridge = .starting ∧ stopped t ∧
      (s.operation = .none → t.store = s.store.rebuilt)) ∧
    (∀ f rest bytes, s.serving = true → s.sending = some bytes → s.txQueue = f :: rest →
      f.cls = .closing .restartCold → ∃ t store, exec .transmitEnd s = .next t ∧
        t.uptime = 0#32 ∧ t.bridge = .starting ∧ stopped t ∧ sound store ∧
        t.store = store.rebuilt)

/-- R157, R158: start-up ends in RUNNING with every block at its value after a cold start, under the
configuration of the newest valid image, or the empty one with generation 0 and no committed generation when
no image is valid. What the tables of an image are whose bytes encode no record, a line record with the
bridge's bit rate code 5 among them, is the model's choice (log entry 19). -/
def Obligations.StartUpEntersRunning : Prop :=
  ∀ (s : State), s.powered = true → s.bridge = .starting →
    ∃ t, exec .enterRunning s = .next t ∧
      (s.store.newest = none →
        t.active = ⟨[], [], Four.fill defaultLine, ⟨100#8, .b115200, .even⟩⟩ ∧
        t.generation = 0#16 ∧ t.committed = none) ∧
      (∀ i v, s.store.newest = some (i, v) →
        t.active = loadTables ((s.store.slot i).readFrom 0 7 7101) ∧
        t.generation = v.generation ∧ t.committed = some v.generation) ∧
      t.bridge = .running ∧ t.uptime = s.uptime ∧ t.framer = ⟨.hunt, none⟩ ∧
      t.link = t.active.bridge ∧ t.txQueue = [] ∧ t.sending = none ∧
      t.hostCounters = ⟨0, 0, 0, 0, 0, 0, 0⟩ ∧ t.slots = [] ∧ t.legs = [] ∧
      (∀ l, t.lines.get l = ⟨.idle, none, false, [], [], [], 0#8, 0, .none,
        ⟨(t.settings l).bitRate, (t.settings l).parity⟩, ⟨0, 0, 0, 0, 0, 0, 0, 0⟩, none⟩) ∧
      (∀ l, t.stations.get l = (t.active.stationsOn l).map (fun n => ⟨n, .unknown, 0, .none⟩)) ∧
      (∀ i, t.scans.get i = (t.active.scan.get i).map (fun e =>
        ⟨.waiting, after s.uptime e.period, 0, 0, 0, 0⟩)) ∧
      (∀ k, t.cell k = ⟨0#16, false, 0#32⟩) ∧ t.session = none ∧
      t.staging = copyOf t.active ∧ t.operation = .none ∧ t.store = s.store

/-! ## Status and statistics -/

/-- R89: STATION_RESET puts the record in UNKNOWN with failures 0 and probe stage NONE, and a LISTED station
leaves its line's probe list; no other record changes. R90: a station whose probe timer's expiry falls together
with the reset is LISTED, the line that has just taken the probe giving it back, and that line then takes what
else waits; what falls together is the model's choice (log entry 25). -/
def Obligations.StationResetClearsRecord : Prop :=
  ∀ (s : State) (byte : Byte) (f : Frame) (l : LineNo) (station : Nat) (x : StationRecord),
    s.dispatched byte = some (f, .mgmt) → s.ownerMay f → mgmtOp f.body = some .stationReset →
    stationArgs (mgmtArgs f.body) = some (l, station) → s.record l station = some x →
    let probing (m : LineNo) (w : Work) : Bool := decide (m = l) && w.probes station
    let v := s.withdrawn probing
    ∃ y, v.record l station = some y ∧
      (s.joining probing = [] → v = s) ∧ (s.joining probing ≠ [] → y.probe = .listed) ∧
      exec (.stationReset byte) s = .next (State.pushPrompt
        ((s.joining probing).foldl State.kick { s.served f with
          stations := v.stations.set l ((v.stations.get l).map (fun z =>
            if z.station = station then ⟨z.station, .unknown, 0, .none⟩ else z))
          lines := if y.probe = .listed then v.lines.set l { v.lines.get l with
              probes := (v.lines.get l).probes.filter (fun n => n != station) }
            else v.lines })
        f.source f.tag (.mreply 0x0F#8 .ok []))

/-- R162, R170: STATUS is answered OK with 32 bytes: bridge state, generation, committed generation, slots
ACTIVE and REPLYING, free legs, session, pending operation, uptime, and four station counts a line. -/
def Obligations.StatusReportsThePart : Prop :=
  ∀ (s : State) (byte : Byte) (f : Frame), s.dispatched byte = some (f, .mgmt) →
    mgmtOp f.body = some .status → mgmtArgs f.body = [] →
    let count (l : LineNo) (h : Health) : Byte :=
      nat1 ((s.stations.get l).countP (fun x => decide (x.health = h)))
    let results : List Byte :=
      ([if s.bridge = .draining then 1 else 0] : List Byte) ++ bytes16 s.generation ++
      (match s.committed with | none => [0, 0, 0] | some g => 1 :: bytes16 g) ++
      [nat1 (s.slots.countP (fun e => decide (e.2.phase = .active))),
       nat1 (s.slots.countP (fun e => decide (e.2.phase = .replying))),
       nat1 ((List.range 64).countP (fun i => (s.legs.get i).isNone))] ++
      (match s.session with | none => [0, 0] | some o => [1, o.owner]) ++
      ([match s.operation with | .none => 0 | .activate _ _ _ => 1 | .commit _ _ _ => 2] :
        List Byte) ++
      bytes32 s.uptime ++
      allLines.flatMap (fun l =>
        [count l .unknown, count l .online, count l .suspect, count l .offline])
    results.length = 32 ∧
    exec (.status byte) s = .next ((s.served f).pushPrompt f.source f.tag
      (.mreply 0x11#8 .ok results))

/-- R138, R91, R166, R170: the read-only operations: READ_ACTIVE and READ_STAGE answer with the place read
and its record, STATION_LIST with the records of a line in station order, SCAN_INFO with the entry and its
runtime record; none changes anything but the transmit queue and the idle timer. -/
def Obligations.ReadOutsAnswerAndChangeNothing : Prop :=
  ∀ (s : State) (byte : Byte) (f : Frame), s.dispatched byte = some (f, .mgmt) →
    let answered (code : Byte) (results : List Byte) : State :=
      (s.served f).pushPrompt f.source f.tag (.mreply code .ok results)
    let place {α : Type} (encode : α → List Byte) (e : Option α) : List Byte :=
      match e with | none => [0] | some a => 1 :: encode a
    (∀ sel, mgmtOp f.body = some .readActive → activeArgs s (mgmtArgs f.body) = some sel →
      exec (.readActive byte) s = .next (answered 0x12#8 (mgmtArgs f.body ++ bytes16 s.generation ++
        (match sel with
         | .map i => place encodeMapEntry s.active.map[i]?
         | .scan i => place encodeScanEntry (s.active.scan.get i)
         | .line l => encodeLine (s.active.lines.get l)
         | .bridge => encodeBridge s.active.bridge)))) ∧
    (∀ sel, mgmtOp f.body = some .readStage → s.operation = .none →
      tableSelect (mgmtArgs f.body) = some sel →
      exec (.readStage byte) s = .next (answered 0x13#8
        (mgmtArgs f.body ++ [if s.staging.mark then 1 else 0] ++
        (match sel with
         | .map i => place encodeMapEntry (s.staging.map.get i)
         | .scan i => place encodeScanEntry (s.staging.scan.get i)
         | .line l => encodeLine (s.staging.lines.get l)
         | .bridge => encodeBridge s.staging.bridge)))) ∧
    (∀ l, mgmtOp f.body = some .stationList → lineArg (mgmtArgs f.body) = some l →
      exec (.stationList byte) s = .next (answered 0x14#8
        (nat1 l.val :: nat1 (s.stations.get l).length ::
          (s.stations.get l).flatMap stationBytes))) ∧
    (∀ i, mgmtOp f.body = some .scanInfo → s.operation = .none →
      placeArg 64 (mgmtArgs f.body) = some i →
      exec (.scanInfo byte) s = .next (answered 0x15#8
        (match s.active.scan.get i, s.scans.get i with
         | some e, some c => [nat1 i, 1] ++ encodeScanEntry e ++ [c.state.code] ++
             bytes32 c.nextDue ++ [nat1 c.state.attempts] ++
             [c.fetchesDone, c.failures, c.overruns, c.skips].flatMap bytes32
         | _, _ => [nat1 i, 0])))

/-- R163, R164: STATS answers with the counters of the group as they stand; with the clear option it also
sets every counter of that group to 0 in the same event, and no other counter. -/
def Obligations.StatsReadsAndClearsAGroup : Prop :=
  ∀ (s : State) (byte : Byte) (f : Frame) (group index : Byte) (clear : Byte) (g : StatsGroup),
    s.dispatched byte = some (f, .mgmt) → f.body = [0x10#8, group, index, clear] →
    statsArgs s [group, index, clear] = some g →
    let h := s.frameTaken.hostCounters
    let counters : List DWord :=
      match g with
      | .host => [h.framesGood, h.checkErrors, h.framingErrors, h.notForUs, h.unknownKind,
          h.refusalsSent, h.repliesDropped]
      | .line l => let c := (s.lines.get l).counters
          [c.legsServed, c.attempts, c.timeouts, c.formatErrors, c.remoteFaults, c.busyAnswers,
            c.strays, c.probes]
      | .scan i => match s.scans.get i with
          | some c => [c.fetchesDone, c.failures, c.overruns, c.skips]
          | none => []
    let answer : Payload := .mreply 0x10#8 .ok (group :: index :: counters.flatMap bytes32)
    (clear = 0#8 →
      exec (.statsRead byte) s = .next ((s.served f).pushPrompt f.source f.tag answer)) ∧
    (clear = 1#8 → s.ownerMay f →
      exec (.statsClear byte) s = .next (State.pushPrompt
        (match g with
         | .host => { s.served f with hostCounters := ⟨0, 0, 0, 0, 0, 0, 0⟩ }
         | .line l => { s.served f with
             lines := s.lines.set l { s.lines.get l with counters := ⟨0, 0, 0, 0, 0, 0, 0, 0⟩ } }
         | .scan i => { s.served f with
             scans := s.scans.modify i (fun c =>
               { c with fetchesDone := 0, failures := 0, overruns := 0, skips := 0 }) })
        f.source f.tag answer))

/-! ## Encodings -/

/-- R169: every record in range decodes to itself from its encoding: map entries with any of their optional
parts, scan entries, line records and bridge records; and the arguments of the puts, so encoded, are the
place and the record. -/
def Obligations.RecordsDecodeAsEncoded : Prop :=
  (∀ (e : MapEntry) (p : Byte), e.inRange = true →
    (encodeMapEntry e).length = 25 ∧ decodeMapEntry (encodeMapEntry e) = some e ∧
    putMapArgs (p :: encodeMapEntry e) = some (p.toNat, e)) ∧
  (∀ (e : ScanEntry) (p : Byte), e.inRange = true → p.toNat < 64 →
    (encodeScanEntry e).length = 9 ∧ decodeScanEntry (encodeScanEntry e) = some e ∧
    putScanArgs (p :: encodeScanEntry e) = some (p.toNat, e)) ∧
  (∀ (r : LineSettings) (l : LineNo), r.inRange = true →
    (encodeLine r).length = 14 ∧ decodeLine (encodeLine r) = some r ∧
    putLineArgs (nat1 l.val :: encodeLine r) = some (l, r)) ∧
  (∀ (r : BridgeSettings), r.inRange = true →
    (encodeBridge r).length = 3 ∧ decodeBridge (encodeBridge r) = some r ∧
    putBridgeArgs (encodeBridge r) = some r)

/-- R149 to R158, R171: a COMMIT whose write ends soundly and is verified survives a cold start: reset and
start-up then run under the tables, the generation and the committed generation that the COMMIT took. -/
def Obligations.CommittedConfigurationSurvivesReset : Prop :=
  ∀ (s : State) (dest tag : Byte) (job : CommitJob), ImageLaw s → s.active.storable →
    s.serving = true → s.operation = .commit dest tag job → job.written = false →
    s.pending = [.commitWriteEnd false [], .commitVerifyResult, .resetPinEvent, .resetPinRelease,
      .enterRunning] →
    ∃ t, core.run 5 s = .next t ∧ t.bridge = .running ∧ t.active = s.active ∧
      t.generation = s.generation ∧ t.committed = some s.generation

/-! ## Whole-machine laws -/

/-- Every law of Safety.lean holds at the model's state after reset (log entries 2 and 3). -/
def Obligations.LawsHoldAtReset : Prop :=
  QueueLaw State.reset ∧ RequestLaw State.reset ∧ LineLaw State.reset ∧ SessionLaw State.reset ∧
    ImageLaw State.reset ∧ StoreLaw State.reset ∧ State.reset.active.storable

/-- R117, R118, R119: every step keeps the classes of the transmit queue within their room, at most 16
frames in all. -/
def Obligations.StepKeepsQueueLaw : Prop :=
  ∀ (s t : State), QueueLaw s → step s = .next t → QueueLaw t ∧ t.txQueue.length ≤ 16

/-- R24, R26, R28: every step keeps the request table and the leg pool in agreement: no two slots hold the
same (source, tag), every held record stands in exactly its owner's leg list, and free and listed records
make up 64. -/
def Obligations.StepKeepsRequestLaw : Prop :=
  ∀ (s t : State), RequestLaw s → step s = .next t →
    RequestLaw t ∧ t.freeLegs + (t.slots.map (fun e => e.2.legs.length)).sum = 64

/-- R67, R80, R125, R127, R130, R139: every step keeps the streak counts within 0 to 4, the station records
in ascending order, the session's owner and timeout in range, and the session standing while an operation
is pending. -/
def Obligations.StepKeepsLineAndSessionLaws : Prop :=
  ∀ (s t : State), QueueLaw s → LineLaw s → SessionLaw s → step s = .next t →
    LineLaw t ∧ SessionLaw t

/-- R149, R171, R103: every step keeps the view in agreement with the slots, a COMMIT's job in agreement with
its target and the active tables, and the addressed stores in their canonical form. -/
def Obligations.StepKeepsImageAndStoreLaws : Prop :=
  ∀ (s t : State), ImageLaw s → StoreLaw s → step s = .next t → ImageLaw t ∧ StoreLaw t

/-- R127, R132: the staging area changes at the edits alone, each sent by the session's owner while no
operation is pending, and at the reverts, which leave a copy of the active tables, marked, and no session. -/
def Obligations.StagingEditedByOwnerOnly : Prop :=
  ∀ (i : Instr) (s t : State), exec i s = .next t → t.staging ≠ s.staging →
    (t.session = none ∧ t.staging = copyOf t.active) ∨
    (∃ byte f, isEdit byte i ∧ s.dispatched byte = some (f, .mgmt) ∧ s.ownerMay f)

/-- R7, R142, R143, R148: the active tables and the generation change at start-up and at a swap alone. A swap
installs the whole staged configuration, validated, raises the generation by 1, and is made by a drain test
that reads a state `u` in which no slot is ACTIVE and no scan fetch in flight, under the old tables. -/
def Obligations.ActiveTablesReplacedWhole : Prop :=
  ∀ (i : Instr) (s t : State), SessionLaw s → exec i s = .next t →
    (t.active ≠ s.active ∨ t.generation ≠ s.generation) →
    (i = .enterRunning ∧ s.bridge = .starting ∧
      (t.active, t.generation, t.committed) = s.store.selection) ∨
    (t.active = s.staging.tables ∧ s.staging.mark = true ∧ t.generation = s.generation + 1#16 ∧
      t.bridge = .running ∧ t.operation = .none ∧
      ∃ (u : State) (dest tag : Byte) (drain : Uptime), t = u.drainTest ∧ u.bridge = .draining ∧
        u.operation = .activate dest tag drain ∧ u.active = s.active ∧
        u.generation = s.generation ∧ u.staging = s.staging ∧
        (∀ e ∈ u.slots, e.2.phase ≠ .active) ∧ (∀ e ∈ u.scans, e.2.flying = false))

/-- R151, R154: no event changes a byte of the newest valid image: a COMMIT, sound, failed or cut off, writes
the other slot. -/
def Obligations.NewestImageUntouched : Prop :=
  ∀ (i : Instr) (s t : State) (slot : SlotId) (v : SlotView), ImageLaw s → exec i s = .next t →
    s.store.newest = some (slot, v) → t.store.slot slot = s.store.slot slot
end

