-- ==== Sys2Proof/Laws/Collections.lean ====
section
/-!
SUPPORT. The laws of the two containers: reading after writing, and the canonical forms that every
operation keeps.
-/

namespace Sys2Proof.Machine

/-! ## Four values -/

@[simp] theorem Four.get_set_same {α : Type} (v : Four α) (i : LineNo) (a : α) :
    (v.set i a).get i = a := by
  fin_cases i <;> rfl

theorem Four.get_set_ne {α : Type} (v : Four α) {i j : LineNo} (a : α) (h : j ≠ i) :
    (v.set i a).get j = v.get j := by
  fin_cases i <;> fin_cases j <;> first | rfl | exact absurd rfl h

theorem Four.get_set {α : Type} (v : Four α) (i j : LineNo) (a : α) :
    (v.set i a).get j = if j = i then a else v.get j := by
  by_cases h : j = i
  · subst h; simp
  · simp [h, Four.get_set_ne v a h]

@[simp] theorem Four.get_fill {α : Type} (a : α) (i : LineNo) : (Four.fill a).get i = a := by
  fin_cases i <;> rfl

@[simp] theorem Four.get_build {α : Type} (f : LineNo → α) (i : LineNo) :
    (Four.build f).get i = f i := by
  fin_cases i <;> rfl

theorem Four.ext_get {α : Type} {v w : Four α} (h : ∀ i, v.get i = w.get i) : v = w := by
  cases v; cases w
  have h0 := h 0; have h1 := h 1; have h2 := h 2; have h3 := h 3
  simp only [Four.get] at h0 h1 h2 h3
  simp_all

@[simp] theorem Four.set_get {α : Type} (v : Four α) (i : LineNo) : v.set i (v.get i) = v := by
  fin_cases i <;> rfl

@[simp] theorem Four.set_set {α : Type} (v : Four α) (i : LineNo) (a b : α) :
    (v.set i a).set i b = v.set i b := by
  fin_cases i <;> rfl

/-! ## Finite maps -/

section maps

variable {α β : Type}

@[simp] theorem Sparse.get_nil (k : Nat) : Sparse.get ([] : Sparse α) k = none := rfl

@[simp] theorem Sparse.get_put_same (k : Nat) (a : α) (m : Sparse α) : (m.put k a).get k = some a := by
  induction m with
  | nil => simp [Sparse.put, Sparse.get]
  | cons e m ih =>
    obtain ⟨j, b⟩ := e
    unfold Sparse.put
    split
    · simp [Sparse.get]
    · split
      · simp [Sparse.get]
      · simp only [Sparse.get]
        split
        · omega
        · exact ih

theorem Sparse.get_put_ne {k j : Nat} (a : α) (m : Sparse α) (h : j ≠ k) :
    (m.put k a).get j = m.get j := by
  induction m with
  | nil => simp [Sparse.put, Sparse.get, Ne.symm h]
  | cons e m ih =>
    obtain ⟨i, b⟩ := e
    unfold Sparse.put
    split
    · simp [Sparse.get, Ne.symm h]
    · split
      · rename_i hk; subst hk; simp [Sparse.get, Ne.symm h]
      · simp only [Sparse.get, ih]

theorem Sparse.get_put (k j : Nat) (a : α) (m : Sparse α) :
    (m.put k a).get j = if j = k then some a else m.get j := by
  by_cases h : j = k
  · subst h; simp
  · simp [h, Sparse.get_put_ne a m h]

@[simp] theorem Sparse.get_del_same (k : Nat) (m : Sparse α) : (m.del k).get k = none := by
  induction m with
  | nil => rfl
  | cons e m ih =>
    obtain ⟨j, b⟩ := e
    unfold Sparse.del at ih ⊢
    by_cases h : j = k
    · simp [h, ih]
    · simp [h, Sparse.get, ih]

theorem Sparse.get_del_ne {k j : Nat} (m : Sparse α) (h : j ≠ k) : (m.del k).get j = m.get j := by
  induction m with
  | nil => rfl
  | cons e m ih =>
    obtain ⟨i, b⟩ := e
    unfold Sparse.del at ih ⊢
    by_cases hi : i = k
    · simp [hi, ih, Sparse.get, Ne.symm h]
    · simp [hi, Sparse.get, ih]

theorem Sparse.get_del (k j : Nat) (m : Sparse α) :
    (m.del k).get j = if j = k then none else m.get j := by
  by_cases h : j = k
  · subst h; simp
  · simp [h, Sparse.get_del_ne m h]

theorem Sparse.get_modify (k j : Nat) (f : α → α) (m : Sparse α) :
    (m.modify k f).get j = if j = k then (m.get j).map f else m.get j := by
  induction m with
  | nil => simp [Sparse.modify, Sparse.get]
  | cons e m ih =>
    obtain ⟨i, b⟩ := e
    unfold Sparse.modify
    by_cases hi : i = k
    · subst hi
      by_cases hj : j = i
      · subst hj; simp [Sparse.get]
      · simp [Sparse.get, hj, Ne.symm hj]
    · simp only [hi, if_false, Sparse.get, ih]
      by_cases hj : i = j
      · subst hj; simp [hi]
      · simp [hj]

theorem Sparse.get_mapVals (f : Nat → α → β) (m : Sparse α) (k : Nat) :
    (m.mapVals f).get k = (m.get k).map (f k) := by
  induction m with
  | nil => rfl
  | cons e m ih =>
    obtain ⟨j, b⟩ := e
    unfold Sparse.mapVals at ih ⊢
    simp only [List.map_cons, Sparse.get, ih]
    by_cases h : j = k
    · subst h; simp
    · simp [h]

theorem Sparse.mem_of_get {m : Sparse α} {k : Nat} {a : α} (h : m.get k = some a) : (k, a) ∈ m := by
  induction m with
  | nil => simp [Sparse.get] at h
  | cons e m ih =>
    obtain ⟨j, b⟩ := e
    simp only [Sparse.get] at h
    by_cases hj : j = k
    · simp [hj] at h; simp [hj, h]
    · simp [hj] at h; simp [ih h]

theorem Sparse.get_of_mem {m : Sparse α} (hm : (m.map Prod.fst).Pairwise (· < ·)) {k : Nat} {a : α}
    (h : (k, a) ∈ m) : m.get k = some a := by
  induction m with
  | nil => simp at h
  | cons e m ih =>
    obtain ⟨j, b⟩ := e
    simp only [List.map_cons, List.pairwise_cons] at hm
    rcases List.mem_cons.1 h with h | h
    · cases h; simp [Sparse.get]
    · have hlt : j < k := hm.1 k (List.mem_map.2 ⟨_, h, rfl⟩)
      simp only [Sparse.get, if_neg (Nat.ne_of_lt hlt)]
      exact ih hm.2 h

/-! ## The keys of a map -/

theorem sparseWf_iff (bound : Nat) (m : Sparse α) :
    sparseWf bound m = true ↔ (m.map Prod.fst).Pairwise (· < ·) ∧ ∀ e ∈ m, e.1 < bound := by
  simp [sparseWf]

@[simp] theorem sparseWf_nil (bound : Nat) : sparseWf bound ([] : Sparse α) = true := by
  simp [sparseWf]

theorem Sparse.key_lt_of_get {bound : Nat} {m : Sparse α} (h : sparseWf bound m = true) {k : Nat}
    {a : α} (hk : m.get k = some a) : k < bound :=
  ((sparseWf_iff bound m).1 h).2 _ (Sparse.mem_of_get hk)

theorem Sparse.mem_put {k : Nat} {a : α} {m : Sparse α} {e : Nat × α} (h : e ∈ m.put k a) :
    e = (k, a) ∨ e ∈ m := by
  induction m with
  | nil => simpa [Sparse.put] using h
  | cons x m ih =>
    obtain ⟨j, b⟩ := x
    unfold Sparse.put at h
    split at h
    · rcases List.mem_cons.1 h with h | h
      · exact .inl h
      · exact .inr h
    · split at h
      · rcases List.mem_cons.1 h with h | h
        · exact .inl h
        · exact .inr (List.mem_cons_of_mem _ h)
      · rcases List.mem_cons.1 h with h | h
        · exact .inr (by rw [h]; exact List.mem_cons_self)
        · rcases ih h with h | h
          · exact .inl h
          · exact .inr (List.mem_cons_of_mem _ h)

theorem Sparse.rising_put (k : Nat) (a : α) {m : Sparse α}
    (h : (m.map Prod.fst).Pairwise (· < ·)) : ((m.put k a).map Prod.fst).Pairwise (· < ·) := by
  induction m with
  | nil => simp [Sparse.put]
  | cons x m ih =>
    obtain ⟨j, b⟩ := x
    have hc := List.pairwise_cons.1 h
    unfold Sparse.put
    split
    · rename_i hk
      refine List.pairwise_cons.2 ⟨?_, h⟩
      intro i hi
      rcases List.mem_cons.1 hi with hi | hi
      · simpa [hi] using hk
      · exact Nat.lt_trans hk (hc.1 i hi)
    · split
      · rename_i hk
        subst hk
        exact List.pairwise_cons.2 hc
      · rename_i h1 h2
        refine List.pairwise_cons.2 ⟨?_, ih hc.2⟩
        intro i hi
        obtain ⟨e, he, rfl⟩ := List.mem_map.1 hi
        rcases Sparse.mem_put he with he | he
        · subst he; simp only; omega
        · exact hc.1 _ (List.mem_map_of_mem he)

theorem Sparse.rising_del (k : Nat) {m : Sparse α} (h : (m.map Prod.fst).Pairwise (· < ·)) :
    ((m.del k).map Prod.fst).Pairwise (· < ·) :=
  List.Pairwise.sublist (List.Sublist.map _ List.filter_sublist) h

@[simp] theorem Sparse.keys_modify (k : Nat) (f : α → α) (m : Sparse α) :
    (m.modify k f).map Prod.fst = m.map Prod.fst := by
  induction m with
  | nil => rfl
  | cons x m ih =>
    obtain ⟨j, b⟩ := x
    unfold Sparse.modify
    split
    · simp
    · simp [ih]

@[simp] theorem Sparse.keys_mapVals (f : Nat → α → β) (m : Sparse α) :
    (m.mapVals f).map Prod.fst = m.map Prod.fst := by
  simp [Sparse.mapVals]

theorem sparseWf_of_keys {bound : Nat} {m : Sparse α} {n : Sparse β}
    (h : n.map Prod.fst = m.map Prod.fst) (hm : sparseWf bound m = true) :
    sparseWf bound n = true := by
  rw [sparseWf_iff] at hm ⊢
  refine ⟨h ▸ hm.1, fun e he => ?_⟩
  have : e.1 ∈ m.map Prod.fst := h ▸ List.mem_map_of_mem he
  obtain ⟨x, hx, hxe⟩ := List.mem_map.1 this
  exact hxe ▸ hm.2 x hx

theorem sparseWf_put {bound k : Nat} {a : α} {m : Sparse α} (hk : k < bound)
    (h : sparseWf bound m = true) : sparseWf bound (m.put k a) = true := by
  rw [sparseWf_iff] at h ⊢
  refine ⟨Sparse.rising_put k a h.1, fun e he => ?_⟩
  rcases Sparse.mem_put he with he | he
  · rw [he]; exact hk
  · exact h.2 e he

theorem sparseWf_sublist {bound : Nat} {m n : Sparse α} (hs : n.Sublist m)
    (h : sparseWf bound m = true) : sparseWf bound n = true := by
  rw [sparseWf_iff] at h ⊢
  exact ⟨h.1.sublist (hs.map _), fun e he => h.2 e (hs.subset he)⟩

theorem sparseWf_del {bound k : Nat} {m : Sparse α} (h : sparseWf bound m = true) :
    sparseWf bound (m.del k) = true := sparseWf_sublist List.filter_sublist h

theorem sparseWf_modify {bound k : Nat} {f : α → α} {m : Sparse α} (h : sparseWf bound m = true) :
    sparseWf bound (m.modify k f) = true := sparseWf_of_keys (Sparse.keys_modify k f m) h

theorem sparseWf_mapVals {bound : Nat} {f : Nat → α → β} {m : Sparse α}
    (h : sparseWf bound m = true) : sparseWf bound (m.mapVals f) = true :=
  sparseWf_of_keys (Sparse.keys_mapVals f m) h

end maps

/-! ## Addressed stores -/

@[simp] theorem Sparse.read_nil {α : Type} (d : α) (k : Nat) : Sparse.read d [] k = d := rfl

@[simp] theorem Sparse.length_readFrom {α : Type} (d : α) (m : Sparse α) (k n : Nat) :
    (m.readFrom d k n).length = n := by
  induction n generalizing k with
  | zero => rfl
  | succ n ih => simp [Sparse.readFrom, ih]

theorem Sparse.getD_readFrom {α : Type} (d : α) (m : Sparse α) (k n i : Nat) (h : i < n) :
    (m.readFrom d k n).getD i d = m.read d (k + i) := by
  induction n generalizing k i with
  | zero => omega
  | succ n ih =>
    cases i with
    | zero => simp [Sparse.readFrom]
    | succ i =>
      simp only [Sparse.readFrom, List.getD_cons_succ]
      rw [ih (k + 1) i (by omega)]
      congr 1
      omega

section stores

variable {α : Type} [DecidableEq α]

theorem storeWf_iff (size : Nat) (d : α) (m : Sparse α) :
    storeWf size d m = true ↔ sparseWf size m = true ∧ ∀ e ∈ m, e.2 ≠ d := by
  simp [storeWf]

@[simp] theorem storeWf_nil (size : Nat) (d : α) : storeWf size d ([] : Sparse α) = true := by
  simp [storeWf]

@[simp] theorem Sparse.read_write_same (d a : α) (k : Nat) (m : Sparse α) :
    (m.write d k a).read d k = a := by
  unfold Sparse.write Sparse.read
  by_cases h : a = d
  · simp [h]
  · simp [h]

theorem Sparse.read_write_ne (d a : α) {k j : Nat} (m : Sparse α) (h : j ≠ k) :
    (m.write d k a).read d j = m.read d j := by
  unfold Sparse.write Sparse.read
  by_cases ha : a = d
  · simp [ha, Sparse.get_del_ne m h]
  · simp [ha, Sparse.get_put_ne a m h]

theorem Sparse.read_write (d a : α) (k j : Nat) (m : Sparse α) :
    (m.write d k a).read d j = if j = k then a else m.read d j := by
  by_cases h : j = k
  · subst h; simp
  · simp [h, Sparse.read_write_ne d a m h]

theorem storeWf_write {size k : Nat} {d a : α} {m : Sparse α} (hk : k < size)
    (h : storeWf size d m = true) : storeWf size d (m.write d k a) = true := by
  rw [storeWf_iff] at h ⊢
  unfold Sparse.write
  split
  · exact ⟨sparseWf_del h.1, fun e he => h.2 e (List.mem_of_mem_filter he)⟩
  · rename_i ha
    refine ⟨sparseWf_put hk h.1, fun e he => ?_⟩
    rcases Sparse.mem_put he with he | he
    · rw [he]; exact ha
    · exact h.2 e he

theorem storeWf_writeFrom {size : Nat} {d : α} (values : List α) {k : Nat} {m : Sparse α}
    (hk : k + values.length ≤ size) (h : storeWf size d m = true) :
    storeWf size d (m.writeFrom d k values) = true := by
  induction values generalizing k m with
  | nil => exact h
  | cons a as ih =>
    simp only [List.length_cons] at hk
    exact ih (by omega) (storeWf_write (by omega) h)

theorem Sparse.read_writeFrom (d : α) (values : List α) (k j : Nat) (m : Sparse α) :
    (m.writeFrom d k values).read d j =
      if k ≤ j ∧ j < k + values.length then values.getD (j - k) d else m.read d j := by
  induction values generalizing k m with
  | nil => simp [Sparse.writeFrom]
  | cons a as ih =>
    simp only [Sparse.writeFrom, ih, Sparse.read_write, List.length_cons]
    by_cases h1 : j = k
    · subst h1
      simp
    · by_cases h2 : k + 1 ≤ j ∧ j < k + 1 + as.length
      · have h3 : k ≤ j ∧ j < k + (as.length + 1) := by omega
        rw [if_pos h2, if_pos h3]
        obtain ⟨n, hn⟩ : ∃ n, j - k = n + 1 := ⟨j - k - 1, by omega⟩
        have hn' : j - (k + 1) = n := by omega
        simp [hn, hn']
      · have h3 : ¬ (k ≤ j ∧ j < k + (as.length + 1)) := by omega
        rw [if_neg h2, if_neg h3, if_neg h1]

theorem Sparse.readFrom_writeFrom (d : α) (values : List α) (k : Nat) (m : Sparse α) :
    (m.writeFrom d k values).readFrom d k values.length = values := by
  apply List.ext_getElem
  · simp
  · intro i h1 h2
    have h := Sparse.getD_readFrom d (m.writeFrom d k values) k values.length i (by simpa using h1)
    rw [Sparse.read_writeFrom] at h
    rw [if_pos (by simp at h1; omega)] at h
    simp only [Nat.add_sub_cancel_left] at h
    simpa [List.getD_eq_getElem?_getD, h1, h2] using h

end stores

end Sys2Proof.Machine
end

