-- ==== Sys2Proof/Laws/State.lean ====
section
/-!
SUPPORT. One lemma per field per update of State, each true by unfolding the update: later proofs read a
field through an update without opening it.
-/

namespace Sys2Proof.Machine

/-! ### countHost -/

section countHost

variable (s : State) (f : HostCounters → HostCounters)

@[simp] theorem State.countHost_supply : (s.countHost f).supply = s.supply := rfl
@[simp] theorem State.countHost_resetLow : (s.countHost f).resetLow = s.resetLow := rfl
@[simp] theorem State.countHost_bridge : (s.countHost f).bridge = s.bridge := rfl
@[simp] theorem State.countHost_uptime : (s.countHost f).uptime = s.uptime := rfl
@[simp] theorem State.countHost_framer : (s.countHost f).framer = s.framer := rfl
@[simp] theorem State.countHost_link : (s.countHost f).link = s.link := rfl
@[simp] theorem State.countHost_txQueue : (s.countHost f).txQueue = s.txQueue := rfl
@[simp] theorem State.countHost_sending : (s.countHost f).sending = s.sending := rfl
@[simp] theorem State.countHost_hostCounters :
    (s.countHost f).hostCounters =
      f s.hostCounters := rfl
@[simp] theorem State.countHost_slots : (s.countHost f).slots = s.slots := rfl
@[simp] theorem State.countHost_legs : (s.countHost f).legs = s.legs := rfl
@[simp] theorem State.countHost_active : (s.countHost f).active = s.active := rfl
@[simp] theorem State.countHost_generation : (s.countHost f).generation = s.generation := rfl
@[simp] theorem State.countHost_lines : (s.countHost f).lines = s.lines := rfl
@[simp] theorem State.countHost_stations : (s.countHost f).stations = s.stations := rfl
@[simp] theorem State.countHost_scans : (s.countHost f).scans = s.scans := rfl
@[simp] theorem State.countHost_mirror : (s.countHost f).mirror = s.mirror := rfl
@[simp] theorem State.countHost_session : (s.countHost f).session = s.session := rfl
@[simp] theorem State.countHost_staging : (s.countHost f).staging = s.staging := rfl
@[simp] theorem State.countHost_operation : (s.countHost f).operation = s.operation := rfl
@[simp] theorem State.countHost_store : (s.countHost f).store = s.store := rfl
@[simp] theorem State.countHost_committed : (s.countHost f).committed = s.committed := rfl
@[simp] theorem State.countHost_freeCount : (s.countHost f).freeCount = s.freeCount := rfl
@[simp] theorem State.countHost_pending : (s.countHost f).pending = s.pending := rfl

end countHost

/-! ### enqueue -/

section enqueue

variable (s : State) (f : TxFrame)

@[simp] theorem State.enqueue_supply : (s.enqueue f).supply = s.supply := rfl
@[simp] theorem State.enqueue_resetLow : (s.enqueue f).resetLow = s.resetLow := rfl
@[simp] theorem State.enqueue_bridge : (s.enqueue f).bridge = s.bridge := rfl
@[simp] theorem State.enqueue_uptime : (s.enqueue f).uptime = s.uptime := rfl
@[simp] theorem State.enqueue_framer : (s.enqueue f).framer = s.framer := rfl
@[simp] theorem State.enqueue_link : (s.enqueue f).link = s.link := rfl
@[simp] theorem State.enqueue_txQueue : (s.enqueue f).txQueue = s.txQueue ++ [f] := rfl
@[simp] theorem State.enqueue_sending : (s.enqueue f).sending = s.sending := rfl
@[simp] theorem State.enqueue_hostCounters : (s.enqueue f).hostCounters = s.hostCounters := rfl
@[simp] theorem State.enqueue_slots : (s.enqueue f).slots = s.slots := rfl
@[simp] theorem State.enqueue_legs : (s.enqueue f).legs = s.legs := rfl
@[simp] theorem State.enqueue_active : (s.enqueue f).active = s.active := rfl
@[simp] theorem State.enqueue_generation : (s.enqueue f).generation = s.generation := rfl
@[simp] theorem State.enqueue_lines : (s.enqueue f).lines = s.lines := rfl
@[simp] theorem State.enqueue_stations : (s.enqueue f).stations = s.stations := rfl
@[simp] theorem State.enqueue_scans : (s.enqueue f).scans = s.scans := rfl
@[simp] theorem State.enqueue_mirror : (s.enqueue f).mirror = s.mirror := rfl
@[simp] theorem State.enqueue_session : (s.enqueue f).session = s.session := rfl
@[simp] theorem State.enqueue_staging : (s.enqueue f).staging = s.staging := rfl
@[simp] theorem State.enqueue_operation : (s.enqueue f).operation = s.operation := rfl
@[simp] theorem State.enqueue_store : (s.enqueue f).store = s.store := rfl
@[simp] theorem State.enqueue_committed : (s.enqueue f).committed = s.committed := rfl
@[simp] theorem State.enqueue_freeCount : (s.enqueue f).freeCount = s.freeCount := rfl
@[simp] theorem State.enqueue_pending : (s.enqueue f).pending = s.pending := rfl

end enqueue

/-! ### pushClosing -/

section pushClosing

variable (s : State) (c : ClosingKind) (dest tag : Byte) (p : Payload)

@[simp] theorem State.pushClosing_supply : (s.pushClosing c dest tag p).supply = s.supply := rfl
@[simp] theorem State.pushClosing_resetLow :
    (s.pushClosing c dest tag p).resetLow =
      s.resetLow := rfl
@[simp] theorem State.pushClosing_bridge : (s.pushClosing c dest tag p).bridge = s.bridge := rfl
@[simp] theorem State.pushClosing_uptime : (s.pushClosing c dest tag p).uptime = s.uptime := rfl
@[simp] theorem State.pushClosing_framer : (s.pushClosing c dest tag p).framer = s.framer := rfl
@[simp] theorem State.pushClosing_link : (s.pushClosing c dest tag p).link = s.link := rfl
@[simp] theorem State.pushClosing_txQueue :
    (s.pushClosing c dest tag p).txQueue =
      s.txQueue ++ [⟨.closing c, dest, tag, p⟩] := rfl
@[simp] theorem State.pushClosing_sending : (s.pushClosing c dest tag p).sending = s.sending := rfl
@[simp] theorem State.pushClosing_hostCounters :
    (s.pushClosing c dest tag p).hostCounters =
      s.hostCounters := rfl
@[simp] theorem State.pushClosing_slots : (s.pushClosing c dest tag p).slots = s.slots := rfl
@[simp] theorem State.pushClosing_legs : (s.pushClosing c dest tag p).legs = s.legs := rfl
@[simp] theorem State.pushClosing_active : (s.pushClosing c dest tag p).active = s.active := rfl
@[simp] theorem State.pushClosing_generation :
    (s.pushClosing c dest tag p).generation =
      s.generation := rfl
@[simp] theorem State.pushClosing_lines : (s.pushClosing c dest tag p).lines = s.lines := rfl
@[simp] theorem State.pushClosing_stations :
    (s.pushClosing c dest tag p).stations =
      s.stations := rfl
@[simp] theorem State.pushClosing_scans : (s.pushClosing c dest tag p).scans = s.scans := rfl
@[simp] theorem State.pushClosing_mirror : (s.pushClosing c dest tag p).mirror = s.mirror := rfl
@[simp] theorem State.pushClosing_session : (s.pushClosing c dest tag p).session = s.session := rfl
@[simp] theorem State.pushClosing_staging : (s.pushClosing c dest tag p).staging = s.staging := rfl
@[simp] theorem State.pushClosing_operation :
    (s.pushClosing c dest tag p).operation =
      s.operation := rfl
@[simp] theorem State.pushClosing_store : (s.pushClosing c dest tag p).store = s.store := rfl
@[simp] theorem State.pushClosing_committed :
    (s.pushClosing c dest tag p).committed =
      s.committed := rfl
@[simp] theorem State.pushClosing_freeCount :
    (s.pushClosing c dest tag p).freeCount =
      s.freeCount := rfl
@[simp] theorem State.pushClosing_pending : (s.pushClosing c dest tag p).pending = s.pending := rfl

end pushClosing

/-! ### putSlot -/

section putSlot

variable (s : State) (k : Nat) (r : Request)

@[simp] theorem State.putSlot_supply : (s.putSlot k r).supply = s.supply := rfl
@[simp] theorem State.putSlot_resetLow : (s.putSlot k r).resetLow = s.resetLow := rfl
@[simp] theorem State.putSlot_bridge : (s.putSlot k r).bridge = s.bridge := rfl
@[simp] theorem State.putSlot_uptime : (s.putSlot k r).uptime = s.uptime := rfl
@[simp] theorem State.putSlot_framer : (s.putSlot k r).framer = s.framer := rfl
@[simp] theorem State.putSlot_link : (s.putSlot k r).link = s.link := rfl
@[simp] theorem State.putSlot_txQueue : (s.putSlot k r).txQueue = s.txQueue := rfl
@[simp] theorem State.putSlot_sending : (s.putSlot k r).sending = s.sending := rfl
@[simp] theorem State.putSlot_hostCounters : (s.putSlot k r).hostCounters = s.hostCounters := rfl
@[simp] theorem State.putSlot_slots : (s.putSlot k r).slots = s.slots.put k r := rfl
@[simp] theorem State.putSlot_legs : (s.putSlot k r).legs = s.legs := rfl
@[simp] theorem State.putSlot_active : (s.putSlot k r).active = s.active := rfl
@[simp] theorem State.putSlot_generation : (s.putSlot k r).generation = s.generation := rfl
@[simp] theorem State.putSlot_lines : (s.putSlot k r).lines = s.lines := rfl
@[simp] theorem State.putSlot_stations : (s.putSlot k r).stations = s.stations := rfl
@[simp] theorem State.putSlot_scans : (s.putSlot k r).scans = s.scans := rfl
@[simp] theorem State.putSlot_mirror : (s.putSlot k r).mirror = s.mirror := rfl
@[simp] theorem State.putSlot_session : (s.putSlot k r).session = s.session := rfl
@[simp] theorem State.putSlot_staging : (s.putSlot k r).staging = s.staging := rfl
@[simp] theorem State.putSlot_operation : (s.putSlot k r).operation = s.operation := rfl
@[simp] theorem State.putSlot_store : (s.putSlot k r).store = s.store := rfl
@[simp] theorem State.putSlot_committed : (s.putSlot k r).committed = s.committed := rfl
@[simp] theorem State.putSlot_freeCount : (s.putSlot k r).freeCount = s.freeCount := rfl
@[simp] theorem State.putSlot_pending : (s.putSlot k r).pending = s.pending := rfl

end putSlot

/-! ### modSlot -/

section modSlot

variable (s : State) (k : Nat) (f : Request → Request)

@[simp] theorem State.modSlot_supply : (s.modSlot k f).supply = s.supply := rfl
@[simp] theorem State.modSlot_resetLow : (s.modSlot k f).resetLow = s.resetLow := rfl
@[simp] theorem State.modSlot_bridge : (s.modSlot k f).bridge = s.bridge := rfl
@[simp] theorem State.modSlot_uptime : (s.modSlot k f).uptime = s.uptime := rfl
@[simp] theorem State.modSlot_framer : (s.modSlot k f).framer = s.framer := rfl
@[simp] theorem State.modSlot_link : (s.modSlot k f).link = s.link := rfl
@[simp] theorem State.modSlot_txQueue : (s.modSlot k f).txQueue = s.txQueue := rfl
@[simp] theorem State.modSlot_sending : (s.modSlot k f).sending = s.sending := rfl
@[simp] theorem State.modSlot_hostCounters : (s.modSlot k f).hostCounters = s.hostCounters := rfl
@[simp] theorem State.modSlot_slots : (s.modSlot k f).slots = s.slots.modify k f := rfl
@[simp] theorem State.modSlot_legs : (s.modSlot k f).legs = s.legs := rfl
@[simp] theorem State.modSlot_active : (s.modSlot k f).active = s.active := rfl
@[simp] theorem State.modSlot_generation : (s.modSlot k f).generation = s.generation := rfl
@[simp] theorem State.modSlot_lines : (s.modSlot k f).lines = s.lines := rfl
@[simp] theorem State.modSlot_stations : (s.modSlot k f).stations = s.stations := rfl
@[simp] theorem State.modSlot_scans : (s.modSlot k f).scans = s.scans := rfl
@[simp] theorem State.modSlot_mirror : (s.modSlot k f).mirror = s.mirror := rfl
@[simp] theorem State.modSlot_session : (s.modSlot k f).session = s.session := rfl
@[simp] theorem State.modSlot_staging : (s.modSlot k f).staging = s.staging := rfl
@[simp] theorem State.modSlot_operation : (s.modSlot k f).operation = s.operation := rfl
@[simp] theorem State.modSlot_store : (s.modSlot k f).store = s.store := rfl
@[simp] theorem State.modSlot_committed : (s.modSlot k f).committed = s.committed := rfl
@[simp] theorem State.modSlot_freeCount : (s.modSlot k f).freeCount = s.freeCount := rfl
@[simp] theorem State.modSlot_pending : (s.modSlot k f).pending = s.pending := rfl

end modSlot

/-! ### putLeg -/

section putLeg

variable (s : State) (i : Nat) (g : Leg)

@[simp] theorem State.putLeg_supply : (s.putLeg i g).supply = s.supply := rfl
@[simp] theorem State.putLeg_resetLow : (s.putLeg i g).resetLow = s.resetLow := rfl
@[simp] theorem State.putLeg_bridge : (s.putLeg i g).bridge = s.bridge := rfl
@[simp] theorem State.putLeg_uptime : (s.putLeg i g).uptime = s.uptime := rfl
@[simp] theorem State.putLeg_framer : (s.putLeg i g).framer = s.framer := rfl
@[simp] theorem State.putLeg_link : (s.putLeg i g).link = s.link := rfl
@[simp] theorem State.putLeg_txQueue : (s.putLeg i g).txQueue = s.txQueue := rfl
@[simp] theorem State.putLeg_sending : (s.putLeg i g).sending = s.sending := rfl
@[simp] theorem State.putLeg_hostCounters : (s.putLeg i g).hostCounters = s.hostCounters := rfl
@[simp] theorem State.putLeg_slots : (s.putLeg i g).slots = s.slots := rfl
@[simp] theorem State.putLeg_legs : (s.putLeg i g).legs = s.legs.put i g := rfl
@[simp] theorem State.putLeg_active : (s.putLeg i g).active = s.active := rfl
@[simp] theorem State.putLeg_generation : (s.putLeg i g).generation = s.generation := rfl
@[simp] theorem State.putLeg_lines : (s.putLeg i g).lines = s.lines := rfl
@[simp] theorem State.putLeg_stations : (s.putLeg i g).stations = s.stations := rfl
@[simp] theorem State.putLeg_scans : (s.putLeg i g).scans = s.scans := rfl
@[simp] theorem State.putLeg_mirror : (s.putLeg i g).mirror = s.mirror := rfl
@[simp] theorem State.putLeg_session : (s.putLeg i g).session = s.session := rfl
@[simp] theorem State.putLeg_staging : (s.putLeg i g).staging = s.staging := rfl
@[simp] theorem State.putLeg_operation : (s.putLeg i g).operation = s.operation := rfl
@[simp] theorem State.putLeg_store : (s.putLeg i g).store = s.store := rfl
@[simp] theorem State.putLeg_committed : (s.putLeg i g).committed = s.committed := rfl
@[simp] theorem State.putLeg_freeCount : (s.putLeg i g).freeCount = s.freeCount := rfl
@[simp] theorem State.putLeg_pending : (s.putLeg i g).pending = s.pending := rfl

end putLeg

/-! ### modLeg -/

section modLeg

variable (s : State) (i : Nat) (f : Leg → Leg)

@[simp] theorem State.modLeg_supply : (s.modLeg i f).supply = s.supply := rfl
@[simp] theorem State.modLeg_resetLow : (s.modLeg i f).resetLow = s.resetLow := rfl
@[simp] theorem State.modLeg_bridge : (s.modLeg i f).bridge = s.bridge := rfl
@[simp] theorem State.modLeg_uptime : (s.modLeg i f).uptime = s.uptime := rfl
@[simp] theorem State.modLeg_framer : (s.modLeg i f).framer = s.framer := rfl
@[simp] theorem State.modLeg_link : (s.modLeg i f).link = s.link := rfl
@[simp] theorem State.modLeg_txQueue : (s.modLeg i f).txQueue = s.txQueue := rfl
@[simp] theorem State.modLeg_sending : (s.modLeg i f).sending = s.sending := rfl
@[simp] theorem State.modLeg_hostCounters : (s.modLeg i f).hostCounters = s.hostCounters := rfl
@[simp] theorem State.modLeg_slots : (s.modLeg i f).slots = s.slots := rfl
@[simp] theorem State.modLeg_legs : (s.modLeg i f).legs = s.legs.modify i f := rfl
@[simp] theorem State.modLeg_active : (s.modLeg i f).active = s.active := rfl
@[simp] theorem State.modLeg_generation : (s.modLeg i f).generation = s.generation := rfl
@[simp] theorem State.modLeg_lines : (s.modLeg i f).lines = s.lines := rfl
@[simp] theorem State.modLeg_stations : (s.modLeg i f).stations = s.stations := rfl
@[simp] theorem State.modLeg_scans : (s.modLeg i f).scans = s.scans := rfl
@[simp] theorem State.modLeg_mirror : (s.modLeg i f).mirror = s.mirror := rfl
@[simp] theorem State.modLeg_session : (s.modLeg i f).session = s.session := rfl
@[simp] theorem State.modLeg_staging : (s.modLeg i f).staging = s.staging := rfl
@[simp] theorem State.modLeg_operation : (s.modLeg i f).operation = s.operation := rfl
@[simp] theorem State.modLeg_store : (s.modLeg i f).store = s.store := rfl
@[simp] theorem State.modLeg_committed : (s.modLeg i f).committed = s.committed := rfl
@[simp] theorem State.modLeg_freeCount : (s.modLeg i f).freeCount = s.freeCount := rfl
@[simp] theorem State.modLeg_pending : (s.modLeg i f).pending = s.pending := rfl

end modLeg

/-! ### freeLeg -/

section freeLeg

variable (s : State) (i : Nat)

@[simp] theorem State.freeLeg_supply : (s.freeLeg i).supply = s.supply := rfl
@[simp] theorem State.freeLeg_resetLow : (s.freeLeg i).resetLow = s.resetLow := rfl
@[simp] theorem State.freeLeg_bridge : (s.freeLeg i).bridge = s.bridge := rfl
@[simp] theorem State.freeLeg_uptime : (s.freeLeg i).uptime = s.uptime := rfl
@[simp] theorem State.freeLeg_framer : (s.freeLeg i).framer = s.framer := rfl
@[simp] theorem State.freeLeg_link : (s.freeLeg i).link = s.link := rfl
@[simp] theorem State.freeLeg_txQueue : (s.freeLeg i).txQueue = s.txQueue := rfl
@[simp] theorem State.freeLeg_sending : (s.freeLeg i).sending = s.sending := rfl
@[simp] theorem State.freeLeg_hostCounters : (s.freeLeg i).hostCounters = s.hostCounters := rfl
@[simp] theorem State.freeLeg_slots : (s.freeLeg i).slots = s.slots := rfl
@[simp] theorem State.freeLeg_legs : (s.freeLeg i).legs = s.legs.del i := rfl
@[simp] theorem State.freeLeg_active : (s.freeLeg i).active = s.active := rfl
@[simp] theorem State.freeLeg_generation : (s.freeLeg i).generation = s.generation := rfl
@[simp] theorem State.freeLeg_lines : (s.freeLeg i).lines = s.lines := rfl
@[simp] theorem State.freeLeg_stations : (s.freeLeg i).stations = s.stations := rfl
@[simp] theorem State.freeLeg_scans : (s.freeLeg i).scans = s.scans := rfl
@[simp] theorem State.freeLeg_mirror : (s.freeLeg i).mirror = s.mirror := rfl
@[simp] theorem State.freeLeg_session : (s.freeLeg i).session = s.session := rfl
@[simp] theorem State.freeLeg_staging : (s.freeLeg i).staging = s.staging := rfl
@[simp] theorem State.freeLeg_operation : (s.freeLeg i).operation = s.operation := rfl
@[simp] theorem State.freeLeg_store : (s.freeLeg i).store = s.store := rfl
@[simp] theorem State.freeLeg_committed : (s.freeLeg i).committed = s.committed := rfl
@[simp] theorem State.freeLeg_freeCount : (s.freeLeg i).freeCount = s.freeCount := rfl
@[simp] theorem State.freeLeg_pending : (s.freeLeg i).pending = s.pending := rfl

end freeLeg

/-! ### modLine -/

section modLine

variable (s : State) (l : LineNo) (f : Line → Line)

@[simp] theorem State.modLine_supply : (s.modLine l f).supply = s.supply := rfl
@[simp] theorem State.modLine_resetLow : (s.modLine l f).resetLow = s.resetLow := rfl
@[simp] theorem State.modLine_bridge : (s.modLine l f).bridge = s.bridge := rfl
@[simp] theorem State.modLine_uptime : (s.modLine l f).uptime = s.uptime := rfl
@[simp] theorem State.modLine_framer : (s.modLine l f).framer = s.framer := rfl
@[simp] theorem State.modLine_link : (s.modLine l f).link = s.link := rfl
@[simp] theorem State.modLine_txQueue : (s.modLine l f).txQueue = s.txQueue := rfl
@[simp] theorem State.modLine_sending : (s.modLine l f).sending = s.sending := rfl
@[simp] theorem State.modLine_hostCounters : (s.modLine l f).hostCounters = s.hostCounters := rfl
@[simp] theorem State.modLine_slots : (s.modLine l f).slots = s.slots := rfl
@[simp] theorem State.modLine_legs : (s.modLine l f).legs = s.legs := rfl
@[simp] theorem State.modLine_active : (s.modLine l f).active = s.active := rfl
@[simp] theorem State.modLine_generation : (s.modLine l f).generation = s.generation := rfl
@[simp] theorem State.modLine_lines :
    (s.modLine l f).lines =
      s.lines.set l (f (s.lines.get l)) := rfl
@[simp] theorem State.modLine_stations : (s.modLine l f).stations = s.stations := rfl
@[simp] theorem State.modLine_scans : (s.modLine l f).scans = s.scans := rfl
@[simp] theorem State.modLine_mirror : (s.modLine l f).mirror = s.mirror := rfl
@[simp] theorem State.modLine_session : (s.modLine l f).session = s.session := rfl
@[simp] theorem State.modLine_staging : (s.modLine l f).staging = s.staging := rfl
@[simp] theorem State.modLine_operation : (s.modLine l f).operation = s.operation := rfl
@[simp] theorem State.modLine_store : (s.modLine l f).store = s.store := rfl
@[simp] theorem State.modLine_committed : (s.modLine l f).committed = s.committed := rfl
@[simp] theorem State.modLine_freeCount : (s.modLine l f).freeCount = s.freeCount := rfl
@[simp] theorem State.modLine_pending : (s.modLine l f).pending = s.pending := rfl

end modLine

/-! ### modRecord -/

section modRecord

variable (s : State) (l : LineNo) (n : Nat) (f : StationRecord → StationRecord)

@[simp] theorem State.modRecord_supply : (s.modRecord l n f).supply = s.supply := rfl
@[simp] theorem State.modRecord_resetLow : (s.modRecord l n f).resetLow = s.resetLow := rfl
@[simp] theorem State.modRecord_bridge : (s.modRecord l n f).bridge = s.bridge := rfl
@[simp] theorem State.modRecord_uptime : (s.modRecord l n f).uptime = s.uptime := rfl
@[simp] theorem State.modRecord_framer : (s.modRecord l n f).framer = s.framer := rfl
@[simp] theorem State.modRecord_link : (s.modRecord l n f).link = s.link := rfl
@[simp] theorem State.modRecord_txQueue : (s.modRecord l n f).txQueue = s.txQueue := rfl
@[simp] theorem State.modRecord_sending : (s.modRecord l n f).sending = s.sending := rfl
@[simp] theorem State.modRecord_hostCounters :
    (s.modRecord l n f).hostCounters =
      s.hostCounters := rfl
@[simp] theorem State.modRecord_slots : (s.modRecord l n f).slots = s.slots := rfl
@[simp] theorem State.modRecord_legs : (s.modRecord l n f).legs = s.legs := rfl
@[simp] theorem State.modRecord_active : (s.modRecord l n f).active = s.active := rfl
@[simp] theorem State.modRecord_generation : (s.modRecord l n f).generation = s.generation := rfl
@[simp] theorem State.modRecord_lines : (s.modRecord l n f).lines = s.lines := rfl
@[simp] theorem State.modRecord_stations :
    (s.modRecord l n f).stations =
      s.stations.set l ((s.stations.get l).map (fun r => if r.station = n then f r else r)) := rfl
@[simp] theorem State.modRecord_scans : (s.modRecord l n f).scans = s.scans := rfl
@[simp] theorem State.modRecord_mirror : (s.modRecord l n f).mirror = s.mirror := rfl
@[simp] theorem State.modRecord_session : (s.modRecord l n f).session = s.session := rfl
@[simp] theorem State.modRecord_staging : (s.modRecord l n f).staging = s.staging := rfl
@[simp] theorem State.modRecord_operation : (s.modRecord l n f).operation = s.operation := rfl
@[simp] theorem State.modRecord_store : (s.modRecord l n f).store = s.store := rfl
@[simp] theorem State.modRecord_committed : (s.modRecord l n f).committed = s.committed := rfl
@[simp] theorem State.modRecord_freeCount : (s.modRecord l n f).freeCount = s.freeCount := rfl
@[simp] theorem State.modRecord_pending : (s.modRecord l n f).pending = s.pending := rfl

end modRecord

/-! ### modScan -/

section modScan

variable (s : State) (i : Nat) (f : ScanRun → ScanRun)

@[simp] theorem State.modScan_supply : (s.modScan i f).supply = s.supply := rfl
@[simp] theorem State.modScan_resetLow : (s.modScan i f).resetLow = s.resetLow := rfl
@[simp] theorem State.modScan_bridge : (s.modScan i f).bridge = s.bridge := rfl
@[simp] theorem State.modScan_uptime : (s.modScan i f).uptime = s.uptime := rfl
@[simp] theorem State.modScan_framer : (s.modScan i f).framer = s.framer := rfl
@[simp] theorem State.modScan_link : (s.modScan i f).link = s.link := rfl
@[simp] theorem State.modScan_txQueue : (s.modScan i f).txQueue = s.txQueue := rfl
@[simp] theorem State.modScan_sending : (s.modScan i f).sending = s.sending := rfl
@[simp] theorem State.modScan_hostCounters : (s.modScan i f).hostCounters = s.hostCounters := rfl
@[simp] theorem State.modScan_slots : (s.modScan i f).slots = s.slots := rfl
@[simp] theorem State.modScan_legs : (s.modScan i f).legs = s.legs := rfl
@[simp] theorem State.modScan_active : (s.modScan i f).active = s.active := rfl
@[simp] theorem State.modScan_generation : (s.modScan i f).generation = s.generation := rfl
@[simp] theorem State.modScan_lines : (s.modScan i f).lines = s.lines := rfl
@[simp] theorem State.modScan_stations : (s.modScan i f).stations = s.stations := rfl
@[simp] theorem State.modScan_scans : (s.modScan i f).scans = s.scans.modify i f := rfl
@[simp] theorem State.modScan_mirror : (s.modScan i f).mirror = s.mirror := rfl
@[simp] theorem State.modScan_session : (s.modScan i f).session = s.session := rfl
@[simp] theorem State.modScan_staging : (s.modScan i f).staging = s.staging := rfl
@[simp] theorem State.modScan_operation : (s.modScan i f).operation = s.operation := rfl
@[simp] theorem State.modScan_store : (s.modScan i f).store = s.store := rfl
@[simp] theorem State.modScan_committed : (s.modScan i f).committed = s.committed := rfl
@[simp] theorem State.modScan_freeCount : (s.modScan i f).freeCount = s.freeCount := rfl
@[simp] theorem State.modScan_pending : (s.modScan i f).pending = s.pending := rfl

end modScan

/-! ### writeCells -/

section writeCells

variable (s : State) (k : Nat) (v : List Word)

@[simp] theorem State.writeCells_supply : (s.writeCells k v).supply = s.supply := rfl
@[simp] theorem State.writeCells_resetLow : (s.writeCells k v).resetLow = s.resetLow := rfl
@[simp] theorem State.writeCells_bridge : (s.writeCells k v).bridge = s.bridge := rfl
@[simp] theorem State.writeCells_uptime : (s.writeCells k v).uptime = s.uptime := rfl
@[simp] theorem State.writeCells_framer : (s.writeCells k v).framer = s.framer := rfl
@[simp] theorem State.writeCells_link : (s.writeCells k v).link = s.link := rfl
@[simp] theorem State.writeCells_txQueue : (s.writeCells k v).txQueue = s.txQueue := rfl
@[simp] theorem State.writeCells_sending : (s.writeCells k v).sending = s.sending := rfl
@[simp] theorem State.writeCells_hostCounters :
    (s.writeCells k v).hostCounters =
      s.hostCounters := rfl
@[simp] theorem State.writeCells_slots : (s.writeCells k v).slots = s.slots := rfl
@[simp] theorem State.writeCells_legs : (s.writeCells k v).legs = s.legs := rfl
@[simp] theorem State.writeCells_active : (s.writeCells k v).active = s.active := rfl
@[simp] theorem State.writeCells_generation : (s.writeCells k v).generation = s.generation := rfl
@[simp] theorem State.writeCells_lines : (s.writeCells k v).lines = s.lines := rfl
@[simp] theorem State.writeCells_stations : (s.writeCells k v).stations = s.stations := rfl
@[simp] theorem State.writeCells_scans : (s.writeCells k v).scans = s.scans := rfl
@[simp] theorem State.writeCells_mirror :
    (s.writeCells k v).mirror =
      s.mirror.writeFrom blankCell k (v.map (fun w => ⟨w, true, s.uptime⟩)) := rfl
@[simp] theorem State.writeCells_session : (s.writeCells k v).session = s.session := rfl
@[simp] theorem State.writeCells_staging : (s.writeCells k v).staging = s.staging := rfl
@[simp] theorem State.writeCells_operation : (s.writeCells k v).operation = s.operation := rfl
@[simp] theorem State.writeCells_store : (s.writeCells k v).store = s.store := rfl
@[simp] theorem State.writeCells_committed : (s.writeCells k v).committed = s.committed := rfl
@[simp] theorem State.writeCells_freeCount : (s.writeCells k v).freeCount = s.freeCount := rfl
@[simp] theorem State.writeCells_pending : (s.writeCells k v).pending = s.pending := rfl

end writeCells

/-! ### invalidateCells -/

section invalidateCells

variable (s : State) (k n : Nat)

@[simp] theorem State.invalidateCells_supply : (s.invalidateCells k n).supply = s.supply := rfl
@[simp] theorem State.invalidateCells_resetLow :
    (s.invalidateCells k n).resetLow =
      s.resetLow := rfl
@[simp] theorem State.invalidateCells_bridge : (s.invalidateCells k n).bridge = s.bridge := rfl
@[simp] theorem State.invalidateCells_uptime : (s.invalidateCells k n).uptime = s.uptime := rfl
@[simp] theorem State.invalidateCells_framer : (s.invalidateCells k n).framer = s.framer := rfl
@[simp] theorem State.invalidateCells_link : (s.invalidateCells k n).link = s.link := rfl
@[simp] theorem State.invalidateCells_txQueue : (s.invalidateCells k n).txQueue = s.txQueue := rfl
@[simp] theorem State.invalidateCells_sending : (s.invalidateCells k n).sending = s.sending := rfl
@[simp] theorem State.invalidateCells_hostCounters :
    (s.invalidateCells k n).hostCounters =
      s.hostCounters := rfl
@[simp] theorem State.invalidateCells_slots : (s.invalidateCells k n).slots = s.slots := rfl
@[simp] theorem State.invalidateCells_legs : (s.invalidateCells k n).legs = s.legs := rfl
@[simp] theorem State.invalidateCells_active : (s.invalidateCells k n).active = s.active := rfl
@[simp] theorem State.invalidateCells_generation :
    (s.invalidateCells k n).generation =
      s.generation := rfl
@[simp] theorem State.invalidateCells_lines : (s.invalidateCells k n).lines = s.lines := rfl
@[simp] theorem State.invalidateCells_stations :
    (s.invalidateCells k n).stations =
      s.stations := rfl
@[simp] theorem State.invalidateCells_scans : (s.invalidateCells k n).scans = s.scans := rfl
@[simp] theorem State.invalidateCells_mirror :
    (s.invalidateCells k n).mirror =
      invalidateRun k n s.mirror := rfl
@[simp] theorem State.invalidateCells_session : (s.invalidateCells k n).session = s.session := rfl
@[simp] theorem State.invalidateCells_staging : (s.invalidateCells k n).staging = s.staging := rfl
@[simp] theorem State.invalidateCells_operation :
    (s.invalidateCells k n).operation =
      s.operation := rfl
@[simp] theorem State.invalidateCells_store : (s.invalidateCells k n).store = s.store := rfl
@[simp] theorem State.invalidateCells_committed :
    (s.invalidateCells k n).committed =
      s.committed := rfl
@[simp] theorem State.invalidateCells_freeCount :
    (s.invalidateCells k n).freeCount =
      s.freeCount := rfl
@[simp] theorem State.invalidateCells_pending : (s.invalidateCells k n).pending = s.pending := rfl

end invalidateCells

/-! ### hunt -/

section hunt

variable (s : State)

@[simp] theorem State.hunt_supply : s.hunt.supply = s.supply := rfl
@[simp] theorem State.hunt_resetLow : s.hunt.resetLow = s.resetLow := rfl
@[simp] theorem State.hunt_bridge : s.hunt.bridge = s.bridge := rfl
@[simp] theorem State.hunt_uptime : s.hunt.uptime = s.uptime := rfl
@[simp] theorem State.hunt_framer : s.hunt.framer = ⟨.hunt, none⟩ := rfl
@[simp] theorem State.hunt_link : s.hunt.link = s.link := rfl
@[simp] theorem State.hunt_txQueue : s.hunt.txQueue = s.txQueue := rfl
@[simp] theorem State.hunt_sending : s.hunt.sending = s.sending := rfl
@[simp] theorem State.hunt_hostCounters : s.hunt.hostCounters = s.hostCounters := rfl
@[simp] theorem State.hunt_slots : s.hunt.slots = s.slots := rfl
@[simp] theorem State.hunt_legs : s.hunt.legs = s.legs := rfl
@[simp] theorem State.hunt_active : s.hunt.active = s.active := rfl
@[simp] theorem State.hunt_generation : s.hunt.generation = s.generation := rfl
@[simp] theorem State.hunt_lines : s.hunt.lines = s.lines := rfl
@[simp] theorem State.hunt_stations : s.hunt.stations = s.stations := rfl
@[simp] theorem State.hunt_scans : s.hunt.scans = s.scans := rfl
@[simp] theorem State.hunt_mirror : s.hunt.mirror = s.mirror := rfl
@[simp] theorem State.hunt_session : s.hunt.session = s.session := rfl
@[simp] theorem State.hunt_staging : s.hunt.staging = s.staging := rfl
@[simp] theorem State.hunt_operation : s.hunt.operation = s.operation := rfl
@[simp] theorem State.hunt_store : s.hunt.store = s.store := rfl
@[simp] theorem State.hunt_committed : s.hunt.committed = s.committed := rfl
@[simp] theorem State.hunt_freeCount : s.hunt.freeCount = s.freeCount := rfl
@[simp] theorem State.hunt_pending : s.hunt.pending = s.pending := rfl

end hunt

/-! ### gapFrom -/

section gapFrom

variable (s : State) (f : FramerState)

@[simp] theorem State.gapFrom_supply : (s.gapFrom f).supply = s.supply := rfl
@[simp] theorem State.gapFrom_resetLow : (s.gapFrom f).resetLow = s.resetLow := rfl
@[simp] theorem State.gapFrom_bridge : (s.gapFrom f).bridge = s.bridge := rfl
@[simp] theorem State.gapFrom_uptime : (s.gapFrom f).uptime = s.uptime := rfl
@[simp] theorem State.gapFrom_framer : (s.gapFrom f).framer = ⟨f, some (after s.uptime 10)⟩ := rfl
@[simp] theorem State.gapFrom_link : (s.gapFrom f).link = s.link := rfl
@[simp] theorem State.gapFrom_txQueue : (s.gapFrom f).txQueue = s.txQueue := rfl
@[simp] theorem State.gapFrom_sending : (s.gapFrom f).sending = s.sending := rfl
@[simp] theorem State.gapFrom_hostCounters : (s.gapFrom f).hostCounters = s.hostCounters := rfl
@[simp] theorem State.gapFrom_slots : (s.gapFrom f).slots = s.slots := rfl
@[simp] theorem State.gapFrom_legs : (s.gapFrom f).legs = s.legs := rfl
@[simp] theorem State.gapFrom_active : (s.gapFrom f).active = s.active := rfl
@[simp] theorem State.gapFrom_generation : (s.gapFrom f).generation = s.generation := rfl
@[simp] theorem State.gapFrom_lines : (s.gapFrom f).lines = s.lines := rfl
@[simp] theorem State.gapFrom_stations : (s.gapFrom f).stations = s.stations := rfl
@[simp] theorem State.gapFrom_scans : (s.gapFrom f).scans = s.scans := rfl
@[simp] theorem State.gapFrom_mirror : (s.gapFrom f).mirror = s.mirror := rfl
@[simp] theorem State.gapFrom_session : (s.gapFrom f).session = s.session := rfl
@[simp] theorem State.gapFrom_staging : (s.gapFrom f).staging = s.staging := rfl
@[simp] theorem State.gapFrom_operation : (s.gapFrom f).operation = s.operation := rfl
@[simp] theorem State.gapFrom_store : (s.gapFrom f).store = s.store := rfl
@[simp] theorem State.gapFrom_committed : (s.gapFrom f).committed = s.committed := rfl
@[simp] theorem State.gapFrom_freeCount : (s.gapFrom f).freeCount = s.freeCount := rfl
@[simp] theorem State.gapFrom_pending : (s.gapFrom f).pending = s.pending := rfl

end gapFrom

/-! ### frameTaken -/

section frameTaken

variable (s : State)

@[simp] theorem State.frameTaken_supply : s.frameTaken.supply = s.supply := rfl
@[simp] theorem State.frameTaken_resetLow : s.frameTaken.resetLow = s.resetLow := rfl
@[simp] theorem State.frameTaken_bridge : s.frameTaken.bridge = s.bridge := rfl
@[simp] theorem State.frameTaken_uptime : s.frameTaken.uptime = s.uptime := rfl
@[simp] theorem State.frameTaken_framer : s.frameTaken.framer = ⟨.hunt, none⟩ := rfl
@[simp] theorem State.frameTaken_link : s.frameTaken.link = s.link := rfl
@[simp] theorem State.frameTaken_txQueue : s.frameTaken.txQueue = s.txQueue := rfl
@[simp] theorem State.frameTaken_sending : s.frameTaken.sending = s.sending := rfl
@[simp] theorem State.frameTaken_hostCounters :
    s.frameTaken.hostCounters =
      { s.hostCounters with framesGood := satInc s.hostCounters.framesGood } := rfl
@[simp] theorem State.frameTaken_slots : s.frameTaken.slots = s.slots := rfl
@[simp] theorem State.frameTaken_legs : s.frameTaken.legs = s.legs := rfl
@[simp] theorem State.frameTaken_active : s.frameTaken.active = s.active := rfl
@[simp] theorem State.frameTaken_generation : s.frameTaken.generation = s.generation := rfl
@[simp] theorem State.frameTaken_lines : s.frameTaken.lines = s.lines := rfl
@[simp] theorem State.frameTaken_stations : s.frameTaken.stations = s.stations := rfl
@[simp] theorem State.frameTaken_scans : s.frameTaken.scans = s.scans := rfl
@[simp] theorem State.frameTaken_mirror : s.frameTaken.mirror = s.mirror := rfl
@[simp] theorem State.frameTaken_session : s.frameTaken.session = s.session := rfl
@[simp] theorem State.frameTaken_staging : s.frameTaken.staging = s.staging := rfl
@[simp] theorem State.frameTaken_operation : s.frameTaken.operation = s.operation := rfl
@[simp] theorem State.frameTaken_store : s.frameTaken.store = s.store := rfl
@[simp] theorem State.frameTaken_committed : s.frameTaken.committed = s.committed := rfl
@[simp] theorem State.frameTaken_freeCount : s.frameTaken.freeCount = s.freeCount := rfl
@[simp] theorem State.frameTaken_pending : s.frameTaken.pending = s.pending := rfl

end frameTaken

/-! ### abandonFrame -/

section abandonFrame

variable (s : State)

@[simp] theorem State.abandonFrame_supply : s.abandonFrame.supply = s.supply := rfl
@[simp] theorem State.abandonFrame_resetLow : s.abandonFrame.resetLow = s.resetLow := rfl
@[simp] theorem State.abandonFrame_bridge : s.abandonFrame.bridge = s.bridge := rfl
@[simp] theorem State.abandonFrame_uptime : s.abandonFrame.uptime = s.uptime := rfl
@[simp] theorem State.abandonFrame_framer : s.abandonFrame.framer = ⟨.hunt, none⟩ := rfl
@[simp] theorem State.abandonFrame_link : s.abandonFrame.link = s.link := rfl
@[simp] theorem State.abandonFrame_txQueue : s.abandonFrame.txQueue = s.txQueue := rfl
@[simp] theorem State.abandonFrame_sending : s.abandonFrame.sending = s.sending := rfl
@[simp] theorem State.abandonFrame_hostCounters :
    s.abandonFrame.hostCounters =
      { s.hostCounters with framingErrors := satInc s.hostCounters.framingErrors } := rfl
@[simp] theorem State.abandonFrame_slots : s.abandonFrame.slots = s.slots := rfl
@[simp] theorem State.abandonFrame_legs : s.abandonFrame.legs = s.legs := rfl
@[simp] theorem State.abandonFrame_active : s.abandonFrame.active = s.active := rfl
@[simp] theorem State.abandonFrame_generation : s.abandonFrame.generation = s.generation := rfl
@[simp] theorem State.abandonFrame_lines : s.abandonFrame.lines = s.lines := rfl
@[simp] theorem State.abandonFrame_stations : s.abandonFrame.stations = s.stations := rfl
@[simp] theorem State.abandonFrame_scans : s.abandonFrame.scans = s.scans := rfl
@[simp] theorem State.abandonFrame_mirror : s.abandonFrame.mirror = s.mirror := rfl
@[simp] theorem State.abandonFrame_session : s.abandonFrame.session = s.session := rfl
@[simp] theorem State.abandonFrame_staging : s.abandonFrame.staging = s.staging := rfl
@[simp] theorem State.abandonFrame_operation : s.abandonFrame.operation = s.operation := rfl
@[simp] theorem State.abandonFrame_store : s.abandonFrame.store = s.store := rfl
@[simp] theorem State.abandonFrame_committed : s.abandonFrame.committed = s.committed := rfl
@[simp] theorem State.abandonFrame_freeCount : s.abandonFrame.freeCount = s.freeCount := rfl
@[simp] theorem State.abandonFrame_pending : s.abandonFrame.pending = s.pending := rfl

end abandonFrame

/-! ### openSession -/

section openSession

variable (s : State) (owner : Byte) (n : Nat)

@[simp] theorem State.openSession_supply : (s.openSession owner n).supply = s.supply := rfl
@[simp] theorem State.openSession_resetLow : (s.openSession owner n).resetLow = s.resetLow := rfl
@[simp] theorem State.openSession_bridge : (s.openSession owner n).bridge = s.bridge := rfl
@[simp] theorem State.openSession_uptime : (s.openSession owner n).uptime = s.uptime := rfl
@[simp] theorem State.openSession_framer : (s.openSession owner n).framer = s.framer := rfl
@[simp] theorem State.openSession_link : (s.openSession owner n).link = s.link := rfl
@[simp] theorem State.openSession_txQueue : (s.openSession owner n).txQueue = s.txQueue := rfl
@[simp] theorem State.openSession_sending : (s.openSession owner n).sending = s.sending := rfl
@[simp] theorem State.openSession_hostCounters :
    (s.openSession owner n).hostCounters =
      s.hostCounters := rfl
@[simp] theorem State.openSession_slots : (s.openSession owner n).slots = s.slots := rfl
@[simp] theorem State.openSession_legs : (s.openSession owner n).legs = s.legs := rfl
@[simp] theorem State.openSession_active : (s.openSession owner n).active = s.active := rfl
@[simp] theorem State.openSession_generation :
    (s.openSession owner n).generation =
      s.generation := rfl
@[simp] theorem State.openSession_lines : (s.openSession owner n).lines = s.lines := rfl
@[simp] theorem State.openSession_stations : (s.openSession owner n).stations = s.stations := rfl
@[simp] theorem State.openSession_scans : (s.openSession owner n).scans = s.scans := rfl
@[simp] theorem State.openSession_mirror : (s.openSession owner n).mirror = s.mirror := rfl
@[simp] theorem State.openSession_session :
    (s.openSession owner n).session =
      some ⟨owner, n, some (after s.uptime (n * 1000))⟩ := rfl
@[simp] theorem State.openSession_staging : (s.openSession owner n).staging = s.staging := rfl
@[simp] theorem State.openSession_operation : (s.openSession owner n).operation = s.operation := rfl
@[simp] theorem State.openSession_store : (s.openSession owner n).store = s.store := rfl
@[simp] theorem State.openSession_committed : (s.openSession owner n).committed = s.committed := rfl
@[simp] theorem State.openSession_freeCount : (s.openSession owner n).freeCount = s.freeCount := rfl
@[simp] theorem State.openSession_pending : (s.openSession owner n).pending = s.pending := rfl

end openSession

/-! ### closeSession -/

section closeSession

variable (s : State)

@[simp] theorem State.closeSession_supply : s.closeSession.supply = s.supply := rfl
@[simp] theorem State.closeSession_resetLow : s.closeSession.resetLow = s.resetLow := rfl
@[simp] theorem State.closeSession_bridge : s.closeSession.bridge = s.bridge := rfl
@[simp] theorem State.closeSession_uptime : s.closeSession.uptime = s.uptime := rfl
@[simp] theorem State.closeSession_framer : s.closeSession.framer = s.framer := rfl
@[simp] theorem State.closeSession_link : s.closeSession.link = s.link := rfl
@[simp] theorem State.closeSession_txQueue : s.closeSession.txQueue = s.txQueue := rfl
@[simp] theorem State.closeSession_sending : s.closeSession.sending = s.sending := rfl
@[simp] theorem State.closeSession_hostCounters :
    s.closeSession.hostCounters =
      s.hostCounters := rfl
@[simp] theorem State.closeSession_slots : s.closeSession.slots = s.slots := rfl
@[simp] theorem State.closeSession_legs : s.closeSession.legs = s.legs := rfl
@[simp] theorem State.closeSession_active : s.closeSession.active = s.active := rfl
@[simp] theorem State.closeSession_generation : s.closeSession.generation = s.generation := rfl
@[simp] theorem State.closeSession_lines : s.closeSession.lines = s.lines := rfl
@[simp] theorem State.closeSession_stations : s.closeSession.stations = s.stations := rfl
@[simp] theorem State.closeSession_scans : s.closeSession.scans = s.scans := rfl
@[simp] theorem State.closeSession_mirror : s.closeSession.mirror = s.mirror := rfl
@[simp] theorem State.closeSession_session : s.closeSession.session = none := rfl
@[simp] theorem State.closeSession_staging : s.closeSession.staging = copyOf s.active := rfl
@[simp] theorem State.closeSession_operation : s.closeSession.operation = s.operation := rfl
@[simp] theorem State.closeSession_store : s.closeSession.store = s.store := rfl
@[simp] theorem State.closeSession_committed : s.closeSession.committed = s.committed := rfl
@[simp] theorem State.closeSession_freeCount : s.closeSession.freeCount = s.freeCount := rfl
@[simp] theorem State.closeSession_pending : s.closeSession.pending = s.pending := rfl

end closeSession

/-! ### invalidateMirror -/

section invalidateMirror

variable (s : State)

@[simp] theorem State.invalidateMirror_supply : s.invalidateMirror.supply = s.supply := rfl
@[simp] theorem State.invalidateMirror_resetLow : s.invalidateMirror.resetLow = s.resetLow := rfl
@[simp] theorem State.invalidateMirror_bridge : s.invalidateMirror.bridge = s.bridge := rfl
@[simp] theorem State.invalidateMirror_uptime : s.invalidateMirror.uptime = s.uptime := rfl
@[simp] theorem State.invalidateMirror_framer : s.invalidateMirror.framer = s.framer := rfl
@[simp] theorem State.invalidateMirror_link : s.invalidateMirror.link = s.link := rfl
@[simp] theorem State.invalidateMirror_txQueue : s.invalidateMirror.txQueue = s.txQueue := rfl
@[simp] theorem State.invalidateMirror_sending : s.invalidateMirror.sending = s.sending := rfl
@[simp] theorem State.invalidateMirror_hostCounters :
    s.invalidateMirror.hostCounters =
      s.hostCounters := rfl
@[simp] theorem State.invalidateMirror_slots : s.invalidateMirror.slots = s.slots := rfl
@[simp] theorem State.invalidateMirror_legs : s.invalidateMirror.legs = s.legs := rfl
@[simp] theorem State.invalidateMirror_active : s.invalidateMirror.active = s.active := rfl
@[simp] theorem State.invalidateMirror_generation :
    s.invalidateMirror.generation =
      s.generation := rfl
@[simp] theorem State.invalidateMirror_lines : s.invalidateMirror.lines = s.lines := rfl
@[simp] theorem State.invalidateMirror_stations : s.invalidateMirror.stations = s.stations := rfl
@[simp] theorem State.invalidateMirror_scans : s.invalidateMirror.scans = s.scans := rfl
@[simp] theorem State.invalidateMirror_session : s.invalidateMirror.session = s.session := rfl
@[simp] theorem State.invalidateMirror_staging : s.invalidateMirror.staging = s.staging := rfl
@[simp] theorem State.invalidateMirror_operation : s.invalidateMirror.operation = s.operation := rfl
@[simp] theorem State.invalidateMirror_store : s.invalidateMirror.store = s.store := rfl
@[simp] theorem State.invalidateMirror_committed : s.invalidateMirror.committed = s.committed := rfl
@[simp] theorem State.invalidateMirror_freeCount : s.invalidateMirror.freeCount = s.freeCount := rfl
@[simp] theorem State.invalidateMirror_pending : s.invalidateMirror.pending = s.pending := rfl

end invalidateMirror

/-! ### pushPrompt -/

section pushPrompt

variable (s : State) (dest tag : Byte) (p : Payload)

@[simp] theorem State.pushPrompt_supply : (s.pushPrompt dest tag p).supply = s.supply := by
  unfold State.pushPrompt; split <;> rfl
@[simp] theorem State.pushPrompt_resetLow : (s.pushPrompt dest tag p).resetLow = s.resetLow := by
  unfold State.pushPrompt; split <;> rfl
@[simp] theorem State.pushPrompt_bridge : (s.pushPrompt dest tag p).bridge = s.bridge := by
  unfold State.pushPrompt; split <;> rfl
@[simp] theorem State.pushPrompt_uptime : (s.pushPrompt dest tag p).uptime = s.uptime := by
  unfold State.pushPrompt; split <;> rfl
@[simp] theorem State.pushPrompt_framer : (s.pushPrompt dest tag p).framer = s.framer := by
  unfold State.pushPrompt; split <;> rfl
@[simp] theorem State.pushPrompt_link : (s.pushPrompt dest tag p).link = s.link := by
  unfold State.pushPrompt; split <;> rfl
@[simp] theorem State.pushPrompt_sending : (s.pushPrompt dest tag p).sending = s.sending := by
  unfold State.pushPrompt; split <;> rfl
@[simp] theorem State.pushPrompt_slots : (s.pushPrompt dest tag p).slots = s.slots := by
  unfold State.pushPrompt; split <;> rfl
@[simp] theorem State.pushPrompt_legs : (s.pushPrompt dest tag p).legs = s.legs := by
  unfold State.pushPrompt; split <;> rfl
@[simp] theorem State.pushPrompt_active : (s.pushPrompt dest tag p).active = s.active := by
  unfold State.pushPrompt; split <;> rfl
@[simp] theorem State.pushPrompt_generation : (s.pushPrompt dest tag p).generation = s.generation := by
  unfold State.pushPrompt; split <;> rfl
@[simp] theorem State.pushPrompt_lines : (s.pushPrompt dest tag p).lines = s.lines := by
  unfold State.pushPrompt; split <;> rfl
@[simp] theorem State.pushPrompt_stations : (s.pushPrompt dest tag p).stations = s.stations := by
  unfold State.pushPrompt; split <;> rfl
@[simp] theorem State.pushPrompt_scans : (s.pushPrompt dest tag p).scans = s.scans := by
  unfold State.pushPrompt; split <;> rfl
@[simp] theorem State.pushPrompt_mirror : (s.pushPrompt dest tag p).mirror = s.mirror := by
  unfold State.pushPrompt; split <;> rfl
@[simp] theorem State.pushPrompt_session : (s.pushPrompt dest tag p).session = s.session := by
  unfold State.pushPrompt; split <;> rfl
@[simp] theorem State.pushPrompt_staging : (s.pushPrompt dest tag p).staging = s.staging := by
  unfold State.pushPrompt; split <;> rfl
@[simp] theorem State.pushPrompt_operation : (s.pushPrompt dest tag p).operation = s.operation := by
  unfold State.pushPrompt; split <;> rfl
@[simp] theorem State.pushPrompt_store : (s.pushPrompt dest tag p).store = s.store := by
  unfold State.pushPrompt; split <;> rfl
@[simp] theorem State.pushPrompt_committed : (s.pushPrompt dest tag p).committed = s.committed := by
  unfold State.pushPrompt; split <;> rfl
@[simp] theorem State.pushPrompt_freeCount : (s.pushPrompt dest tag p).freeCount = s.freeCount := by
  unfold State.pushPrompt; split <;> rfl
@[simp] theorem State.pushPrompt_pending : (s.pushPrompt dest tag p).pending = s.pending := by
  unfold State.pushPrompt; split <;> rfl

end pushPrompt

/-! ### pushRefusal -/

section pushRefusal

variable (s : State) (dest tag : Byte) (r : Reply)

@[simp] theorem State.pushRefusal_supply : (s.pushRefusal dest tag r).supply = s.supply := by
  unfold State.pushRefusal State.pushPrompt; split <;> rfl
@[simp] theorem State.pushRefusal_resetLow : (s.pushRefusal dest tag r).resetLow = s.resetLow := by
  unfold State.pushRefusal State.pushPrompt; split <;> rfl
@[simp] theorem State.pushRefusal_bridge : (s.pushRefusal dest tag r).bridge = s.bridge := by
  unfold State.pushRefusal State.pushPrompt; split <;> rfl
@[simp] theorem State.pushRefusal_uptime : (s.pushRefusal dest tag r).uptime = s.uptime := by
  unfold State.pushRefusal State.pushPrompt; split <;> rfl
@[simp] theorem State.pushRefusal_framer : (s.pushRefusal dest tag r).framer = s.framer := by
  unfold State.pushRefusal State.pushPrompt; split <;> rfl
@[simp] theorem State.pushRefusal_link : (s.pushRefusal dest tag r).link = s.link := by
  unfold State.pushRefusal State.pushPrompt; split <;> rfl
@[simp] theorem State.pushRefusal_sending : (s.pushRefusal dest tag r).sending = s.sending := by
  unfold State.pushRefusal State.pushPrompt; split <;> rfl
@[simp] theorem State.pushRefusal_slots : (s.pushRefusal dest tag r).slots = s.slots := by
  unfold State.pushRefusal State.pushPrompt; split <;> rfl
@[simp] theorem State.pushRefusal_legs : (s.pushRefusal dest tag r).legs = s.legs := by
  unfold State.pushRefusal State.pushPrompt; split <;> rfl
@[simp] theorem State.pushRefusal_active : (s.pushRefusal dest tag r).active = s.active := by
  unfold State.pushRefusal State.pushPrompt; split <;> rfl
@[simp] theorem State.pushRefusal_generation : (s.pushRefusal dest tag r).generation = s.generation := by
  unfold State.pushRefusal State.pushPrompt; split <;> rfl
@[simp] theorem State.pushRefusal_lines : (s.pushRefusal dest tag r).lines = s.lines := by
  unfold State.pushRefusal State.pushPrompt; split <;> rfl
@[simp] theorem State.pushRefusal_stations : (s.pushRefusal dest tag r).stations = s.stations := by
  unfold State.pushRefusal State.pushPrompt; split <;> rfl
@[simp] theorem State.pushRefusal_scans : (s.pushRefusal dest tag r).scans = s.scans := by
  unfold State.pushRefusal State.pushPrompt; split <;> rfl
@[simp] theorem State.pushRefusal_mirror : (s.pushRefusal dest tag r).mirror = s.mirror := by
  unfold State.pushRefusal State.pushPrompt; split <;> rfl
@[simp] theorem State.pushRefusal_session : (s.pushRefusal dest tag r).session = s.session := by
  unfold State.pushRefusal State.pushPrompt; split <;> rfl
@[simp] theorem State.pushRefusal_staging : (s.pushRefusal dest tag r).staging = s.staging := by
  unfold State.pushRefusal State.pushPrompt; split <;> rfl
@[simp] theorem State.pushRefusal_operation : (s.pushRefusal dest tag r).operation = s.operation := by
  unfold State.pushRefusal State.pushPrompt; split <;> rfl
@[simp] theorem State.pushRefusal_store : (s.pushRefusal dest tag r).store = s.store := by
  unfold State.pushRefusal State.pushPrompt; split <;> rfl
@[simp] theorem State.pushRefusal_committed : (s.pushRefusal dest tag r).committed = s.committed := by
  unfold State.pushRefusal State.pushPrompt; split <;> rfl
@[simp] theorem State.pushRefusal_freeCount : (s.pushRefusal dest tag r).freeCount = s.freeCount := by
  unfold State.pushRefusal State.pushPrompt; split <;> rfl
@[simp] theorem State.pushRefusal_pending : (s.pushRefusal dest tag r).pending = s.pending := by
  unfold State.pushRefusal State.pushPrompt; split <;> rfl

end pushRefusal

/-! ### releaseSlot -/

section releaseSlot

variable (s : State) (k : Nat)

@[simp] theorem State.releaseSlot_supply : (s.releaseSlot k).supply = s.supply := by
  unfold State.releaseSlot; split <;> rfl
@[simp] theorem State.releaseSlot_resetLow : (s.releaseSlot k).resetLow = s.resetLow := by
  unfold State.releaseSlot; split <;> rfl
@[simp] theorem State.releaseSlot_bridge : (s.releaseSlot k).bridge = s.bridge := by
  unfold State.releaseSlot; split <;> rfl
@[simp] theorem State.releaseSlot_uptime : (s.releaseSlot k).uptime = s.uptime := by
  unfold State.releaseSlot; split <;> rfl
@[simp] theorem State.releaseSlot_framer : (s.releaseSlot k).framer = s.framer := by
  unfold State.releaseSlot; split <;> rfl
@[simp] theorem State.releaseSlot_link : (s.releaseSlot k).link = s.link := by
  unfold State.releaseSlot; split <;> rfl
@[simp] theorem State.releaseSlot_txQueue : (s.releaseSlot k).txQueue = s.txQueue := by
  unfold State.releaseSlot; split <;> rfl
@[simp] theorem State.releaseSlot_sending : (s.releaseSlot k).sending = s.sending := by
  unfold State.releaseSlot; split <;> rfl
@[simp] theorem State.releaseSlot_hostCounters : (s.releaseSlot k).hostCounters = s.hostCounters := by
  unfold State.releaseSlot; split <;> rfl
@[simp] theorem State.releaseSlot_active : (s.releaseSlot k).active = s.active := by
  unfold State.releaseSlot; split <;> rfl
@[simp] theorem State.releaseSlot_generation : (s.releaseSlot k).generation = s.generation := by
  unfold State.releaseSlot; split <;> rfl
@[simp] theorem State.releaseSlot_lines : (s.releaseSlot k).lines = s.lines := by
  unfold State.releaseSlot; split <;> rfl
@[simp] theorem State.releaseSlot_stations : (s.releaseSlot k).stations = s.stations := by
  unfold State.releaseSlot; split <;> rfl
@[simp] theorem State.releaseSlot_scans : (s.releaseSlot k).scans = s.scans := by
  unfold State.releaseSlot; split <;> rfl
@[simp] theorem State.releaseSlot_mirror : (s.releaseSlot k).mirror = s.mirror := by
  unfold State.releaseSlot; split <;> rfl
@[simp] theorem State.releaseSlot_session : (s.releaseSlot k).session = s.session := by
  unfold State.releaseSlot; split <;> rfl
@[simp] theorem State.releaseSlot_staging : (s.releaseSlot k).staging = s.staging := by
  unfold State.releaseSlot; split <;> rfl
@[simp] theorem State.releaseSlot_operation : (s.releaseSlot k).operation = s.operation := by
  unfold State.releaseSlot; split <;> rfl
@[simp] theorem State.releaseSlot_store : (s.releaseSlot k).store = s.store := by
  unfold State.releaseSlot; split <;> rfl
@[simp] theorem State.releaseSlot_committed : (s.releaseSlot k).committed = s.committed := by
  unfold State.releaseSlot; split <;> rfl
@[simp] theorem State.releaseSlot_freeCount : (s.releaseSlot k).freeCount = s.freeCount := by
  unfold State.releaseSlot; split <;> rfl
@[simp] theorem State.releaseSlot_pending : (s.releaseSlot k).pending = s.pending := by
  unfold State.releaseSlot; split <;> rfl

end releaseSlot

/-! ### startIdleTimer -/

section startIdleTimer

variable (s : State)

@[simp] theorem State.startIdleTimer_supply : s.startIdleTimer.supply = s.supply := by
  unfold State.startIdleTimer; split <;> rfl
@[simp] theorem State.startIdleTimer_resetLow : s.startIdleTimer.resetLow = s.resetLow := by
  unfold State.startIdleTimer; split <;> rfl
@[simp] theorem State.startIdleTimer_bridge : s.startIdleTimer.bridge = s.bridge := by
  unfold State.startIdleTimer; split <;> rfl
@[simp] theorem State.startIdleTimer_uptime : s.startIdleTimer.uptime = s.uptime := by
  unfold State.startIdleTimer; split <;> rfl
@[simp] theorem State.startIdleTimer_framer : s.startIdleTimer.framer = s.framer := by
  unfold State.startIdleTimer; split <;> rfl
@[simp] theorem State.startIdleTimer_link : s.startIdleTimer.link = s.link := by
  unfold State.startIdleTimer; split <;> rfl
@[simp] theorem State.startIdleTimer_txQueue : s.startIdleTimer.txQueue = s.txQueue := by
  unfold State.startIdleTimer; split <;> rfl
@[simp] theorem State.startIdleTimer_sending : s.startIdleTimer.sending = s.sending := by
  unfold State.startIdleTimer; split <;> rfl
@[simp] theorem State.startIdleTimer_hostCounters : s.startIdleTimer.hostCounters = s.hostCounters := by
  unfold State.startIdleTimer; split <;> rfl
@[simp] theorem State.startIdleTimer_slots : s.startIdleTimer.slots = s.slots := by
  unfold State.startIdleTimer; split <;> rfl
@[simp] theorem State.startIdleTimer_legs : s.startIdleTimer.legs = s.legs := by
  unfold State.startIdleTimer; split <;> rfl
@[simp] theorem State.startIdleTimer_active : s.startIdleTimer.active = s.active := by
  unfold State.startIdleTimer; split <;> rfl
@[simp] theorem State.startIdleTimer_generation : s.startIdleTimer.generation = s.generation := by
  unfold State.startIdleTimer; split <;> rfl
@[simp] theorem State.startIdleTimer_lines : s.startIdleTimer.lines = s.lines := by
  unfold State.startIdleTimer; split <;> rfl
@[simp] theorem State.startIdleTimer_stations : s.startIdleTimer.stations = s.stations := by
  unfold State.startIdleTimer; split <;> rfl
@[simp] theorem State.startIdleTimer_scans : s.startIdleTimer.scans = s.scans := by
  unfold State.startIdleTimer; split <;> rfl
@[simp] theorem State.startIdleTimer_mirror : s.startIdleTimer.mirror = s.mirror := by
  unfold State.startIdleTimer; split <;> rfl
@[simp] theorem State.startIdleTimer_staging : s.startIdleTimer.staging = s.staging := by
  unfold State.startIdleTimer; split <;> rfl
@[simp] theorem State.startIdleTimer_operation : s.startIdleTimer.operation = s.operation := by
  unfold State.startIdleTimer; split <;> rfl
@[simp] theorem State.startIdleTimer_store : s.startIdleTimer.store = s.store := by
  unfold State.startIdleTimer; split <;> rfl
@[simp] theorem State.startIdleTimer_committed : s.startIdleTimer.committed = s.committed := by
  unfold State.startIdleTimer; split <;> rfl
@[simp] theorem State.startIdleTimer_freeCount : s.startIdleTimer.freeCount = s.freeCount := by
  unfold State.startIdleTimer; split <;> rfl
@[simp] theorem State.startIdleTimer_pending : s.startIdleTimer.pending = s.pending := by
  unfold State.startIdleTimer; split <;> rfl

end startIdleTimer

/-! ### stopIdleTimer -/

section stopIdleTimer

variable (s : State)

@[simp] theorem State.stopIdleTimer_supply : s.stopIdleTimer.supply = s.supply := by
  unfold State.stopIdleTimer; split <;> rfl
@[simp] theorem State.stopIdleTimer_resetLow : s.stopIdleTimer.resetLow = s.resetLow := by
  unfold State.stopIdleTimer; split <;> rfl
@[simp] theorem State.stopIdleTimer_bridge : s.stopIdleTimer.bridge = s.bridge := by
  unfold State.stopIdleTimer; split <;> rfl
@[simp] theorem State.stopIdleTimer_uptime : s.stopIdleTimer.uptime = s.uptime := by
  unfold State.stopIdleTimer; split <;> rfl
@[simp] theorem State.stopIdleTimer_framer : s.stopIdleTimer.framer = s.framer := by
  unfold State.stopIdleTimer; split <;> rfl
@[simp] theorem State.stopIdleTimer_link : s.stopIdleTimer.link = s.link := by
  unfold State.stopIdleTimer; split <;> rfl
@[simp] theorem State.stopIdleTimer_txQueue : s.stopIdleTimer.txQueue = s.txQueue := by
  unfold State.stopIdleTimer; split <;> rfl
@[simp] theorem State.stopIdleTimer_sending : s.stopIdleTimer.sending = s.sending := by
  unfold State.stopIdleTimer; split <;> rfl
@[simp] theorem State.stopIdleTimer_hostCounters : s.stopIdleTimer.hostCounters = s.hostCounters := by
  unfold State.stopIdleTimer; split <;> rfl
@[simp] theorem State.stopIdleTimer_slots : s.stopIdleTimer.slots = s.slots := by
  unfold State.stopIdleTimer; split <;> rfl
@[simp] theorem State.stopIdleTimer_legs : s.stopIdleTimer.legs = s.legs := by
  unfold State.stopIdleTimer; split <;> rfl
@[simp] theorem State.stopIdleTimer_active : s.stopIdleTimer.active = s.active := by
  unfold State.stopIdleTimer; split <;> rfl
@[simp] theorem State.stopIdleTimer_generation : s.stopIdleTimer.generation = s.generation := by
  unfold State.stopIdleTimer; split <;> rfl
@[simp] theorem State.stopIdleTimer_lines : s.stopIdleTimer.lines = s.lines := by
  unfold State.stopIdleTimer; split <;> rfl
@[simp] theorem State.stopIdleTimer_stations : s.stopIdleTimer.stations = s.stations := by
  unfold State.stopIdleTimer; split <;> rfl
@[simp] theorem State.stopIdleTimer_scans : s.stopIdleTimer.scans = s.scans := by
  unfold State.stopIdleTimer; split <;> rfl
@[simp] theorem State.stopIdleTimer_mirror : s.stopIdleTimer.mirror = s.mirror := by
  unfold State.stopIdleTimer; split <;> rfl
@[simp] theorem State.stopIdleTimer_staging : s.stopIdleTimer.staging = s.staging := by
  unfold State.stopIdleTimer; split <;> rfl
@[simp] theorem State.stopIdleTimer_operation : s.stopIdleTimer.operation = s.operation := by
  unfold State.stopIdleTimer; split <;> rfl
@[simp] theorem State.stopIdleTimer_store : s.stopIdleTimer.store = s.store := by
  unfold State.stopIdleTimer; split <;> rfl
@[simp] theorem State.stopIdleTimer_committed : s.stopIdleTimer.committed = s.committed := by
  unfold State.stopIdleTimer; split <;> rfl
@[simp] theorem State.stopIdleTimer_freeCount : s.stopIdleTimer.freeCount = s.freeCount := by
  unfold State.stopIdleTimer; split <;> rfl
@[simp] theorem State.stopIdleTimer_pending : s.stopIdleTimer.pending = s.pending := by
  unfold State.stopIdleTimer; split <;> rfl

end stopIdleTimer

/-! ### endOperation -/

section endOperation

variable (s : State)

@[simp] theorem State.endOperation_supply : s.endOperation.supply = s.supply := by
  unfold State.endOperation State.startIdleTimer; split <;> rfl
@[simp] theorem State.endOperation_resetLow : s.endOperation.resetLow = s.resetLow := by
  unfold State.endOperation State.startIdleTimer; split <;> rfl
@[simp] theorem State.endOperation_bridge : s.endOperation.bridge = s.bridge := by
  unfold State.endOperation State.startIdleTimer; split <;> rfl
@[simp] theorem State.endOperation_uptime : s.endOperation.uptime = s.uptime := by
  unfold State.endOperation State.startIdleTimer; split <;> rfl
@[simp] theorem State.endOperation_framer : s.endOperation.framer = s.framer := by
  unfold State.endOperation State.startIdleTimer; split <;> rfl
@[simp] theorem State.endOperation_link : s.endOperation.link = s.link := by
  unfold State.endOperation State.startIdleTimer; split <;> rfl
@[simp] theorem State.endOperation_txQueue : s.endOperation.txQueue = s.txQueue := by
  unfold State.endOperation State.startIdleTimer; split <;> rfl
@[simp] theorem State.endOperation_sending : s.endOperation.sending = s.sending := by
  unfold State.endOperation State.startIdleTimer; split <;> rfl
@[simp] theorem State.endOperation_hostCounters : s.endOperation.hostCounters = s.hostCounters := by
  unfold State.endOperation State.startIdleTimer; split <;> rfl
@[simp] theorem State.endOperation_slots : s.endOperation.slots = s.slots := by
  unfold State.endOperation State.startIdleTimer; split <;> rfl
@[simp] theorem State.endOperation_legs : s.endOperation.legs = s.legs := by
  unfold State.endOperation State.startIdleTimer; split <;> rfl
@[simp] theorem State.endOperation_active : s.endOperation.active = s.active := by
  unfold State.endOperation State.startIdleTimer; split <;> rfl
@[simp] theorem State.endOperation_generation : s.endOperation.generation = s.generation := by
  unfold State.endOperation State.startIdleTimer; split <;> rfl
@[simp] theorem State.endOperation_lines : s.endOperation.lines = s.lines := by
  unfold State.endOperation State.startIdleTimer; split <;> rfl
@[simp] theorem State.endOperation_stations : s.endOperation.stations = s.stations := by
  unfold State.endOperation State.startIdleTimer; split <;> rfl
@[simp] theorem State.endOperation_scans : s.endOperation.scans = s.scans := by
  unfold State.endOperation State.startIdleTimer; split <;> rfl
@[simp] theorem State.endOperation_mirror : s.endOperation.mirror = s.mirror := by
  unfold State.endOperation State.startIdleTimer; split <;> rfl
@[simp] theorem State.endOperation_staging : s.endOperation.staging = s.staging := by
  unfold State.endOperation State.startIdleTimer; split <;> rfl
@[simp] theorem State.endOperation_store : s.endOperation.store = s.store := by
  unfold State.endOperation State.startIdleTimer; split <;> rfl
@[simp] theorem State.endOperation_committed : s.endOperation.committed = s.committed := by
  unfold State.endOperation State.startIdleTimer; split <;> rfl
@[simp] theorem State.endOperation_freeCount : s.endOperation.freeCount = s.freeCount := by
  unfold State.endOperation State.startIdleTimer; split <;> rfl
@[simp] theorem State.endOperation_pending : s.endOperation.pending = s.pending := by
  unfold State.endOperation State.startIdleTimer; split <;> rfl

end endOperation

/-! ### touchSession -/

section touchSession

variable (s : State) (source : Byte)

@[simp] theorem State.touchSession_supply : (s.touchSession source).supply = s.supply := by
  unfold State.touchSession State.startIdleTimer; (repeat' split) <;> rfl
@[simp] theorem State.touchSession_resetLow : (s.touchSession source).resetLow = s.resetLow := by
  unfold State.touchSession State.startIdleTimer; (repeat' split) <;> rfl
@[simp] theorem State.touchSession_bridge : (s.touchSession source).bridge = s.bridge := by
  unfold State.touchSession State.startIdleTimer; (repeat' split) <;> rfl
@[simp] theorem State.touchSession_uptime : (s.touchSession source).uptime = s.uptime := by
  unfold State.touchSession State.startIdleTimer; (repeat' split) <;> rfl
@[simp] theorem State.touchSession_framer : (s.touchSession source).framer = s.framer := by
  unfold State.touchSession State.startIdleTimer; (repeat' split) <;> rfl
@[simp] theorem State.touchSession_link : (s.touchSession source).link = s.link := by
  unfold State.touchSession State.startIdleTimer; (repeat' split) <;> rfl
@[simp] theorem State.touchSession_txQueue : (s.touchSession source).txQueue = s.txQueue := by
  unfold State.touchSession State.startIdleTimer; (repeat' split) <;> rfl
@[simp] theorem State.touchSession_sending : (s.touchSession source).sending = s.sending := by
  unfold State.touchSession State.startIdleTimer; (repeat' split) <;> rfl
@[simp] theorem State.touchSession_hostCounters : (s.touchSession source).hostCounters = s.hostCounters := by
  unfold State.touchSession State.startIdleTimer; (repeat' split) <;> rfl
@[simp] theorem State.touchSession_slots : (s.touchSession source).slots = s.slots := by
  unfold State.touchSession State.startIdleTimer; (repeat' split) <;> rfl
@[simp] theorem State.touchSession_legs : (s.touchSession source).legs = s.legs := by
  unfold State.touchSession State.startIdleTimer; (repeat' split) <;> rfl
@[simp] theorem State.touchSession_active : (s.touchSession source).active = s.active := by
  unfold State.touchSession State.startIdleTimer; (repeat' split) <;> rfl
@[simp] theorem State.touchSession_generation : (s.touchSession source).generation = s.generation := by
  unfold State.touchSession State.startIdleTimer; (repeat' split) <;> rfl
@[simp] theorem State.touchSession_lines : (s.touchSession source).lines = s.lines := by
  unfold State.touchSession State.startIdleTimer; (repeat' split) <;> rfl
@[simp] theorem State.touchSession_stations : (s.touchSession source).stations = s.stations := by
  unfold State.touchSession State.startIdleTimer; (repeat' split) <;> rfl
@[simp] theorem State.touchSession_scans : (s.touchSession source).scans = s.scans := by
  unfold State.touchSession State.startIdleTimer; (repeat' split) <;> rfl
@[simp] theorem State.touchSession_mirror : (s.touchSession source).mirror = s.mirror := by
  unfold State.touchSession State.startIdleTimer; (repeat' split) <;> rfl
@[simp] theorem State.touchSession_staging : (s.touchSession source).staging = s.staging := by
  unfold State.touchSession State.startIdleTimer; (repeat' split) <;> rfl
@[simp] theorem State.touchSession_operation : (s.touchSession source).operation = s.operation := by
  unfold State.touchSession State.startIdleTimer; (repeat' split) <;> rfl
@[simp] theorem State.touchSession_store : (s.touchSession source).store = s.store := by
  unfold State.touchSession State.startIdleTimer; (repeat' split) <;> rfl
@[simp] theorem State.touchSession_committed : (s.touchSession source).committed = s.committed := by
  unfold State.touchSession State.startIdleTimer; (repeat' split) <;> rfl
@[simp] theorem State.touchSession_freeCount : (s.touchSession source).freeCount = s.freeCount := by
  unfold State.touchSession State.startIdleTimer; (repeat' split) <;> rfl
@[simp] theorem State.touchSession_pending : (s.touchSession source).pending = s.pending := by
  unfold State.touchSession State.startIdleTimer; (repeat' split) <;> rfl

end touchSession

/-! ### completeIfDone -/

section completeIfDone

variable (s : State) (k : Nat)

@[simp] theorem State.completeIfDone_supply : (s.completeIfDone k).supply = s.supply := by
  unfold State.completeIfDone; (repeat' split) <;> rfl
@[simp] theorem State.completeIfDone_resetLow : (s.completeIfDone k).resetLow = s.resetLow := by
  unfold State.completeIfDone; (repeat' split) <;> rfl
@[simp] theorem State.completeIfDone_bridge : (s.completeIfDone k).bridge = s.bridge := by
  unfold State.completeIfDone; (repeat' split) <;> rfl
@[simp] theorem State.completeIfDone_uptime : (s.completeIfDone k).uptime = s.uptime := by
  unfold State.completeIfDone; (repeat' split) <;> rfl
@[simp] theorem State.completeIfDone_framer : (s.completeIfDone k).framer = s.framer := by
  unfold State.completeIfDone; (repeat' split) <;> rfl
@[simp] theorem State.completeIfDone_link : (s.completeIfDone k).link = s.link := by
  unfold State.completeIfDone; (repeat' split) <;> rfl
@[simp] theorem State.completeIfDone_sending : (s.completeIfDone k).sending = s.sending := by
  unfold State.completeIfDone; (repeat' split) <;> rfl
@[simp] theorem State.completeIfDone_hostCounters : (s.completeIfDone k).hostCounters = s.hostCounters := by
  unfold State.completeIfDone; (repeat' split) <;> rfl
@[simp] theorem State.completeIfDone_legs : (s.completeIfDone k).legs = s.legs := by
  unfold State.completeIfDone; (repeat' split) <;> rfl
@[simp] theorem State.completeIfDone_active : (s.completeIfDone k).active = s.active := by
  unfold State.completeIfDone; (repeat' split) <;> rfl
@[simp] theorem State.completeIfDone_generation : (s.completeIfDone k).generation = s.generation := by
  unfold State.completeIfDone; (repeat' split) <;> rfl
@[simp] theorem State.completeIfDone_lines : (s.completeIfDone k).lines = s.lines := by
  unfold State.completeIfDone; (repeat' split) <;> rfl
@[simp] theorem State.completeIfDone_stations : (s.completeIfDone k).stations = s.stations := by
  unfold State.completeIfDone; (repeat' split) <;> rfl
@[simp] theorem State.completeIfDone_scans : (s.completeIfDone k).scans = s.scans := by
  unfold State.completeIfDone; (repeat' split) <;> rfl
@[simp] theorem State.completeIfDone_mirror : (s.completeIfDone k).mirror = s.mirror := by
  unfold State.completeIfDone; (repeat' split) <;> rfl
@[simp] theorem State.completeIfDone_session : (s.completeIfDone k).session = s.session := by
  unfold State.completeIfDone; (repeat' split) <;> rfl
@[simp] theorem State.completeIfDone_staging : (s.completeIfDone k).staging = s.staging := by
  unfold State.completeIfDone; (repeat' split) <;> rfl
@[simp] theorem State.completeIfDone_operation : (s.completeIfDone k).operation = s.operation := by
  unfold State.completeIfDone; (repeat' split) <;> rfl
@[simp] theorem State.completeIfDone_store : (s.completeIfDone k).store = s.store := by
  unfold State.completeIfDone; (repeat' split) <;> rfl
@[simp] theorem State.completeIfDone_committed : (s.completeIfDone k).committed = s.committed := by
  unfold State.completeIfDone; (repeat' split) <;> rfl
@[simp] theorem State.completeIfDone_freeCount : (s.completeIfDone k).freeCount = s.freeCount := by
  unfold State.completeIfDone; (repeat' split) <;> rfl
@[simp] theorem State.completeIfDone_pending : (s.completeIfDone k).pending = s.pending := by
  unfold State.completeIfDone; (repeat' split) <;> rfl

end completeIfDone

end Sys2Proof.Machine
end

