-- ==== Sys2Proof/Laws/Stores.lean ====
section
/-!
SUPPORT. The addressed stores: what a mirror operation does to each cell, what a write to a slot does to
each byte, and that every one of them keeps the canonical form.
-/

namespace Sys2Proof.Machine

/-! ## Canonical form without a bound on the addresses -/

/-- Addresses rising and no entry equal to what an unlisted address reads as. -/
def storeCanon {α : Type} (d : α) (m : Sparse α) : Prop :=
  (m.map Prod.fst).Pairwise (· < ·) ∧ ∀ e ∈ m, e.2 ≠ d

theorem storeCanon_write {α : Type} [DecidableEq α] {k : Nat} {d a : α} {m : Sparse α}
    (h : storeCanon d m) : storeCanon d (m.write d k a) := by
  unfold Sparse.write
  split
  · exact ⟨Sparse.rising_del k h.1, fun e he => h.2 e (List.mem_of_mem_filter he)⟩
  · rename_i ha
    refine ⟨Sparse.rising_put k a h.1, fun e he => ?_⟩
    rcases Sparse.mem_put he with he | he
    · rw [he]; exact ha
    · exact h.2 e he

theorem storeCanon_writeFrom {α : Type} [DecidableEq α] {d : α} (values : List α) {k : Nat}
    {m : Sparse α} (h : storeCanon d m) : storeCanon d (m.writeFrom d k values) := by
  induction values generalizing k m with
  | nil => exact h
  | cons a as ih => exact ih (storeCanon_write h)

theorem storeCanon_invalidateRun (k n : Nat) {m : Sparse MirrorCell} (h : storeCanon blankCell m) :
    storeCanon blankCell (invalidateRun k n m) := by
  induction n generalizing k m with
  | zero => exact h
  | succ n ih => exact ih (k + 1) (storeCanon_write h)

theorem storeCanon_invalidateMirror {s : State} (h : storeCanon blankCell s.mirror) :
    storeCanon blankCell s.invalidateMirror.mirror := by
  refine ⟨?_, fun e he => by simpa using (List.mem_filter.1 he).2⟩
  refine List.Pairwise.sublist (List.Sublist.map _ List.filter_sublist) ?_
  rw [Sparse.keys_mapVals]
  exact h.1

/-! ## Cells -/

theorem State.cell_writeCells (s : State) (k j : Nat) (values : List Word) :
    (s.writeCells k values).cell j =
      if k ≤ j ∧ j < k + values.length then ⟨values.getD (j - k) 0, true, s.uptime⟩
      else s.cell j := by
  show Sparse.read _ (Sparse.writeFrom _ _ _ _) _ = _
  rw [Sparse.read_writeFrom]
  simp only [List.length_map]
  split
  · rename_i h
    have : j - k < values.length := by omega
    simp [List.getD_eq_getElem?_getD, this]
  · rfl

theorem Sparse.read_invalidateRun (k n j : Nat) (m : Sparse MirrorCell) :
    (invalidateRun k n m).read blankCell j =
      if k ≤ j ∧ j < k + n then { m.read blankCell j with valid := false }
      else m.read blankCell j := by
  induction n generalizing k m with
  | zero => rw [if_neg (by omega)]; rfl
  | succ n ih =>
    simp only [invalidateRun, ih, Sparse.read_write]
    by_cases h : j = k
    · subst h
      rw [if_neg (by omega), if_pos rfl, if_pos (by omega)]
    · rw [if_neg h]
      by_cases h1 : k + 1 ≤ j ∧ j < k + 1 + n
      · rw [if_pos h1, if_pos (by omega)]
      · rw [if_neg h1, if_neg (by omega)]

theorem State.cell_invalidateCells (s : State) (k n j : Nat) :
    (s.invalidateCells k n).cell j =
      if k ≤ j ∧ j < k + n then { s.cell j with valid := false } else s.cell j :=
  Sparse.read_invalidateRun k n j s.mirror

theorem Sparse.read_filter_canon {m : Sparse MirrorCell} (h : (m.map Prod.fst).Pairwise (· < ·))
    (j : Nat) :
    Sparse.read blankCell (m.filter (fun e => decide (e.2 ≠ blankCell))) j = m.read blankCell j := by
  induction m with
  | nil => rfl
  | cons e m ih =>
    obtain ⟨i, c⟩ := e
    have hc := List.pairwise_cons.1 h
    have ih := ih hc.2
    by_cases hb : c = blankCell
    · rw [List.filter_cons_of_neg (by simp [hb]), ih]
      by_cases hij : i = j
      · subst hij
        have : Sparse.get m i = none := by
          cases hg : Sparse.get m i with
          | none => rfl
          | some x =>
            exact absurd (hc.1 i (List.mem_map_of_mem (Sparse.mem_of_get hg))) (by simp)
        simp [Sparse.read, Sparse.get, hb, this]
      · simp [Sparse.read, Sparse.get, hij]
    · rw [List.filter_cons_of_pos (by simp [hb])]
      by_cases hij : i = j
      · simp [Sparse.read, Sparse.get, hij]
      · simp only [Sparse.read, Sparse.get, if_neg hij]
        exact ih

theorem State.cell_invalidateMirror {s : State} (h : (s.mirror.map Prod.fst).Pairwise (· < ·))
    (j : Nat) : s.invalidateMirror.cell j = { s.cell j with valid := false } := by
  show Sparse.read _ (List.filter _ _) _ = _
  rw [Sparse.read_filter_canon (by rw [Sparse.keys_mapVals]; exact h)]
  simp only [Sparse.read, Sparse.get_mapVals, State.cell]
  cases s.mirror.get j <;> rfl

/-! ## Image slots -/

@[simp] theorem ImageStore.slot_setSlot_same (m : ImageStore) (i : SlotId) (b : Sparse Byte) :
    (m.setSlot i b).slot i = b := by cases i <;> rfl

theorem ImageStore.slot_setSlot_ne (m : ImageStore) {i j : SlotId} (b : Sparse Byte) (h : j ≠ i) :
    (m.setSlot i b).slot j = m.slot j := by cases i <;> cases j <;> first | rfl | exact absurd rfl h

@[simp] theorem ImageStore.slot_setView (m : ImageStore) (i j : SlotId) (v : Option SlotView) :
    (m.setView i v).slot j = m.slot j := by cases i <;> cases j <;> rfl

@[simp] theorem ImageStore.view_setSlot (m : ImageStore) (i j : SlotId) (b : Sparse Byte) :
    (m.setSlot i b).view j = m.view j := by cases i <;> cases j <;> rfl

@[simp] theorem ImageStore.view_setView_same (m : ImageStore) (i : SlotId) (v : Option SlotView) :
    (m.setView i v).view i = v := by cases i <;> rfl

theorem ImageStore.view_setView_ne (m : ImageStore) {i j : SlotId} (v : Option SlotView)
    (h : j ≠ i) : (m.setView i v).view j = m.view j := by
  cases i <;> cases j <;> first | rfl | exact absurd rfl h

@[simp] theorem ImageStore.slot_rebuilt (m : ImageStore) (i : SlotId) :
    m.rebuilt.slot i = m.slot i := by cases i <;> rfl

@[simp] theorem ImageStore.view_rebuilt (m : ImageStore) (i : SlotId) :
    m.rebuilt.view i = slotView (m.slot i) := by cases i <;> rfl

theorem storeWf_writeImage {content : List Byte} (cells : List Host.Cell) {m : Sparse Byte}
    (hc : content.length < slotSize) (h : storeWf slotSize 0 m = true) :
    storeWf slotSize 0 (writeImage content cells m) = true := by
  unfold writeImage
  have h0 : storeWf slotSize 0 (m.writeFrom 0 1 content) = true :=
    storeWf_writeFrom content (by omega) h
  have hl : ∀ c ∈ cells.filter writtenCell, c.1 < slotSize := by
    intro c hc
    have := (List.mem_filter.1 hc).2
    simp only [writtenCell, Bool.and_eq_true, decide_eq_true_eq] at this
    simp only [slotSize]
    omega
  generalize m.writeFrom 0 1 content = n at h0
  generalize cells.filter writtenCell = cs at hl
  induction cs generalizing n with
  | nil => exact h0
  | cons c cs ih =>
    exact ih _ (storeWf_write (hl c List.mem_cons_self) h0)
      (fun c hc => hl c (List.mem_cons_of_mem _ hc))

/-- The completion mark stays as it is while the write reaches bytes 1 to 7109. -/
theorem read_writeImage_mark (content : List Byte) (cells : List Host.Cell) (m : Sparse Byte) :
    (writeImage content cells m).read 0 0 = m.read 0 0 := by
  unfold writeImage
  have h0 : (m.writeFrom 0 1 content).read 0 0 = m.read 0 0 := by
    rw [Sparse.read_writeFrom, if_neg (by omega)]
  have hl : ∀ c ∈ cells.filter writtenCell, c.1 ≠ 0 := by
    intro c hc
    have := (List.mem_filter.1 hc).2
    simp only [writtenCell, Bool.and_eq_true, decide_eq_true_eq] at this
    omega
  rw [← h0]
  generalize m.writeFrom 0 1 content = n
  generalize cells.filter writtenCell = cs at hl
  induction cs generalizing n with
  | nil => rfl
  | cons c cs ih =>
    rw [List.foldl_cons, ih _ (fun c hc => hl c (List.mem_cons_of_mem _ hc)), Sparse.read_write_ne]
    exact (hl c List.mem_cons_self).symm

/-- A slot whose completion mark is not A5h is invalid (R149). -/
theorem slotView_of_mark {m : Sparse Byte} (h : m.read 0 0 ≠ completeMark) : slotView m = none := by
  unfold slotView slotValid
  rw [decide_eq_false h]
  rfl

end Sys2Proof.Machine
end

