-- ==== Sys2Proof/Laws/Attempts.lean ====
section
/-!
SUPPORT. The end of an attempt, said once: the commands that end one, what its line and its station record
take, and the end of a leg that is no success (R43, R70 to R76, R107).
-/

namespace Sys2Proof.Machine

/-- An accepted reply ends the attempt with its judgement (R71, R72). -/
theorem replied_exec {s : State} {l : LineNo} {w : Work} {bytes body : List Byte}
    (hh : s.hearing l w) (ha : s.replied w bytes body) :
    exec (.fieldFrameReceived l bytes) s = .next
      (s.attemptEnd l (judgeReply (s.workShape w).1 (s.workShape w).2 body)) := by
  obtain ⟨h1, h2, h3, ⟨x, h4⟩, h5⟩ := hh
  obtain ⟨f, tag, a1, a2, a3, a4, a5, a6, a7, a8⟩ := ha
  have hacc : s.accepts w f = true := by
    simp only [State.accepts, a3, a4, a5, a6, a7, decide_true]; rfl
  simp only [exec, execFieldFrameReceived, State.listens, h1, h2, h3, Bool.and_self, if_true, a1,
    State.fieldFrame, h4, State.awaitedFrame, a2, Bool.not_true, Bool.false_eq_true, if_false, h5,
    hacc, a8]

/-- An accepted reply ends the attempt with its judgement (R71, R72). -/
theorem accepted_exec {s : State} {l : LineNo} {w : Work} {bytes rest : List Byte} {st : Byte}
    (hh : s.hearing l w) (ha : s.answeredBy w bytes st rest) :
    exec (.fieldFrameReceived l bytes) s = .next
      (s.attemptEnd l (judgeReply (s.workShape w).1 (s.workShape w).2 (st :: rest))) :=
  replied_exec hh ha

/-- A body too short for status, flags and count is LINE_ERROR (R168). -/
theorem judgeReply_short (d : Direction) (n : Nat) {body : List Byte} (h : body.length < 3) :
    judgeReply d n body = .lineError := by
  match body, h with
  | [], _ => rfl
  | [_], _ => rfl
  | [_, _], _ => rfl

/-- A status byte that R72 does not name is LINE_ERROR. -/
theorem judgeReply_other (d : Direction) (n : Nat) {st : Byte} (rest : List Byte)
    (h : 3 < st.toNat) : judgeReply d n (st :: rest) = .lineError := by
  match rest with
  | [] => rfl
  | [_] => rfl
  | _ :: _ :: _ =>
    simp only [judgeReply]
    split <;> first | omega | rfl

/-- A command that ends an attempt without success, by whichever way (R70 to R73). -/
theorem AttemptFails.exec {s : State} {l : LineNo} {w : Work} {c : Instr} {res : AttemptResult}
    (h : AttemptFails s l w c res) :
    exec c s = .next (s.attemptEnd l res) ∧ (s.lines.get l).current = some w ∧
      ∀ v, res ≠ .success v := by
  cases h with
  | noRegister bytes rest f n hh ha => exact ⟨by rw [accepted_exec hh ha]; rfl, hh.2.2.2.2, by simp⟩
  | refused bytes rest f n hh ha => exact ⟨by rw [accepted_exec hh ha]; rfl, hh.2.2.2.2, by simp⟩
  | busy bytes rest f n hh ha => exact ⟨by rw [accepted_exec hh ha]; rfl, hh.2.2.2.2, by simp⟩
  | otherStatus bytes rest st hh ha hs =>
    exact ⟨by rw [accepted_exec hh ha, judgeReply_other _ _ _ hs], hh.2.2.2.2, by simp⟩
  | short bytes body hh ha hs =>
    exact ⟨by rw [replied_exec hh ha, judgeReply_short _ _ hs], hh.2.2.2.2, by simp⟩
  | wrongShape bytes rest hh ha hs =>
    refine ⟨?_, hh.2.2.2.2, by simp⟩
    rw [accepted_exec hh ha]
    have : judgeReply (s.workShape w).1 (s.workShape w).2 (0x00#8 :: rest) = .lineError := by
      unfold State.rightShape at hs
      generalize s.workShape w = x at hs
      obtain ⟨d, n⟩ := x
      match rest, hs with
      | [], _ => rfl
      | [_], _ => rfl
      | f :: m :: v, hs =>
        simp only [judgeReply, BitVec.toNat_ofNat, Nat.zero_mod]
        split
        · rename_i hm
          cases d with
          | fetch =>
            simp only
            rw [if_neg]
            intro hv
            exact hs ⟨_, _, _, rfl, hm, by simp only; omega⟩
          | store =>
            simp only
            rw [if_neg]
            intro hv
            exact hs ⟨_, _, _, rfl, hm, by rw [hv]; rfl⟩
        · rfl
    rw [this]
  | badCheck bytes f hh hf hc =>
    obtain ⟨h1, h2, h3, ⟨x, h4⟩, h5⟩ := hh
    refine ⟨?_, h5, by simp⟩
    simp only [Machine.exec, execFieldFrameReceived, State.listens, h1, h2, h3, Bool.and_self, if_true,
      hf, State.fieldFrame, h4, State.awaitedFrame, hc, Bool.not_false]
  | abandoned hh =>
    obtain ⟨h1, h2, h3, ⟨x, h4⟩, h5⟩ := hh
    refine ⟨?_, h5, by simp⟩
    simp only [Machine.exec, execFieldGapAbandon, State.listens, h1, h2, h3, Bool.and_self, if_true,
      State.fieldAbandon, h4]
  | overdue hh =>
    obtain ⟨h1, h2, x, h3, h4⟩ := hh
    refine ⟨?_, h2, by simp⟩
    simp only [Machine.exec, execReplyTimerExpiry, h1, h3, h4, Bool.and_self, if_true]

/-- The state after a leg's or scan fetch's attempt has been counted and its station told (R74, R79, R82,
R83). -/
def State.told (s : State) (l : LineNo) (w : Work) (res : AttemptResult) : State := { s with
  lines := s.lines.set l { s.lines.get l with
    receiving := false
    wire := (s.settings l).wire
    counters := countResult res (s.lines.get l).counters }
  stations := s.stations.set l ((s.stations.get l).map (fun x =>
        if x.station = s.workStation w then
          (if res = .timeout ∨ res = .lineError then x.failedAttempt s.uptime (s.settings l)
            else { x with health := .online, failures := 0, probe := .none })
        else x)) }

/-- The end of an attempt for a leg or scan fetch (R74, R75). -/
theorem attemptEnd_work {s : State} {l : LineNo} {w : Work} {res : AttemptResult}
    (hc : (s.lines.get l).current = some w) (hp : w.isProbe = false) :
    s.attemptEnd l res = (s.told l w res).afterAttempt l w (s.workStation w)
      (res.failed && s.drivesOffline l (s.workStation w)) res := by
  have e1 : ((s.closeAttempt l).countLine l (countResult res)).report l (s.workStation w) res =
      s.told l w res := by
    simp only [State.report, State.closeAttempt, State.countLine, State.modLine, State.modRecord,
      State.settings, Four.get_set_same, Four.set_set, State.told]
    cases res <;> rfl
  simp only [State.attemptEnd, hc]
  cases w with
  | probe a b c => cases hp
  | leg i => rw [← e1]; rfl
  | scan i => rw [← e1]; rfl

/-- The end of a probe (R76, R77, R79, R87, R88): the result is counted, the line is in GUARD with no work, and
the station record takes the result unless a swap has removed it. -/
theorem attemptEnd_probe {s : State} {l : LineNo} {station : Nat} {tag : Option Byte} {discard : Bool}
    {res : AttemptResult} (hc : (s.lines.get l).current = some (.probe station tag discard)) :
    s.attemptEnd l res = { s with
      stations :=
        if discard then s.stations
        else s.stations.set l ((s.stations.get l).map (fun y =>
          if y.station = station then
            (if res = .timeout ∨ res = .lineError then y.failedProbe s.uptime (s.settings l)
              else y.answered)
          else y))
      lines := s.lines.set l { (s.lines.get l).rested (s.settings l) s.uptime with
        current := none
        counters := countResult res (s.lines.get l).counters } } := by
  simp only [State.attemptEnd, hc, State.probeResult]
  cases discard <;> cases res <;>
    simp only [State.dropWork, State.closeAttempt, State.countLine, State.modLine, State.modRecord,
      State.settings, State.enterGuard, AttemptResult.failed, Bool.false_eq_true, if_false, if_true,
      Four.get_set_same, Four.set_set, countResult] <;> rfl

/-- A leg that ends with a result that is no success (R43). -/
theorem ended_failed (g : Leg) (res : AttemptResult) (hn : ∀ v, res ≠ .success v) :
    ∃ b, res.outcome = .failed res.fate.1 b ∧ g.ended (.failed res.fate.1 b) = g.endedFailed res := by
  cases res with
  | success v => exact absurd rfl (hn v)
  | remoteFault c =>
    cases c <;> refine ⟨_, rfl, ?_⟩ <;>
      simp [Leg.ended, Leg.fail, Leg.endedFailed, AttemptResult.fate]
  | busy => refine ⟨_, rfl, ?_⟩; simp [Leg.ended, Leg.fail, Leg.endedFailed, AttemptResult.fate]
  | lineError => refine ⟨_, rfl, ?_⟩; simp [Leg.ended, Leg.fail, Leg.endedFailed, AttemptResult.fate]
  | timeout => refine ⟨_, rfl, ?_⟩; simp [Leg.ended, Leg.fail, Leg.endedFailed, AttemptResult.fate]

/-- A leg ends FAILED on its line: its bound cells are invalid when it is UNCERTAIN, and its owner takes the
failure (R43, R107). -/
theorem legEnd_failed {u : State} {i : Nat} {g : Leg} {res : AttemptResult}
    (hg : u.legs.get i = some g) (hn : ∀ v, res ≠ .success v) :
    ∃ mirror, (∀ a, Sparse.read blankCell mirror a =
        if (u.legCell g).any (fun b => (g.endedFailed res).uncertain &&
          decide (b ≤ a) && decide (a < b + g.count)) then { u.cell a with valid := false }
        else u.cell a) ∧
      u.legEnd i res.outcome = State.legFailure { u with
        legs := u.legs.put i (g.endedFailed res)
        mirror := mirror } (g.endedFailed res) res.fate.1 := by
  obtain ⟨b, ho, he⟩ := ended_failed g res hn
  have hlc : ∀ v : State, v.active = u.active → v.legCell (g.endedFailed res) = u.legCell g := by
    intro v hv; simp only [State.legCell, hv]; rfl
  have hm : ∃ mirror, (∀ a, Sparse.read blankCell mirror a =
        if (u.legCell g).any (fun b => (g.endedFailed res).uncertain &&
          decide (b ≤ a) && decide (a < b + g.count)) then { u.cell a with valid := false }
        else u.cell a) ∧
      (u.putLeg i (g.endedFailed res)).legMirror (g.endedFailed res) = { u with
        legs := u.legs.put i (g.endedFailed res)
        mirror := mirror } := by
    unfold State.legMirror
    rw [hlc (u.putLeg i (g.endedFailed res)) rfl]
    cases hc : u.legCell g with
    | none => exact ⟨u.mirror, fun a => by simp [State.cell], rfl⟩
    | some k =>
      simp only [show (g.endedFailed res).state = .failed from rfl]
      cases hu : (g.endedFailed res).uncertain with
      | false => exact ⟨u.mirror, fun a => by simp [State.cell], rfl⟩
      | true =>
        refine ⟨invalidateRun k g.count u.mirror, fun a => ?_, rfl⟩
        rw [Sparse.read_invalidateRun]
        simp only [Option.any_some, Bool.true_and, Bool.and_eq_true, decide_eq_true_eq]
        rfl
  obtain ⟨mirror, h1, h2⟩ := hm
  refine ⟨mirror, h1, ?_⟩
  simp only [ho, State.legEnd, hg, he, h2]

end Sys2Proof.Machine
end

