-- ==== Sys2Proof/Laws/Bytes.lean ====
section
/-!
SUPPORT. The byte order of two- and four-byte fields: a field sent and put together again is the field,
and its two halves are what was sent (0.5).
-/

namespace Sys2Proof.Machine

theorem wordOf_high_low (w : Word) : wordOf (highByte w) (lowByte w) = w := by
  apply BitVec.eq_of_getLsbD_eq
  intro i hi
  simp only [wordOf, highByte, lowByte, BitVec.getLsbD_append, BitVec.getLsbD_extractLsb']
  have : i < 16 := hi
  by_cases h : i < 8
  · simp [h]
  · have h2 : i - 8 < 8 := by omega
    have h3 : 8 + (i - 8) = i := by omega
    simp [h, h2, h3]

theorem dwordOf_high_low (d : DWord) : dwordOf (highWord d) (lowWord d) = d := by
  apply BitVec.eq_of_getLsbD_eq
  intro i hi
  simp only [dwordOf, highWord, lowWord, BitVec.getLsbD_append, BitVec.getLsbD_extractLsb']
  have : i < 32 := hi
  by_cases h : i < 16
  · simp [h]
  · have h2 : i - 16 < 16 := by omega
    have h3 : 16 + (i - 16) = i := by omega
    simp [h, h2, h3]

theorem highByte_wordOf (high low : Byte) : highByte (wordOf high low) = high := by
  apply BitVec.eq_of_getLsbD_eq
  intro i hi
  have : i < 8 := hi
  simp only [wordOf, highByte, BitVec.getLsbD_append, BitVec.getLsbD_extractLsb']
  simp [this]

theorem lowByte_wordOf (high low : Byte) : lowByte (wordOf high low) = low := by
  apply BitVec.eq_of_getLsbD_eq
  intro i hi
  have : i < 8 := hi
  simp only [wordOf, lowByte, BitVec.getLsbD_append, BitVec.getLsbD_extractLsb']
  simp [this]

theorem highWord_dwordOf (high low : Word) : highWord (dwordOf high low) = high := by
  apply BitVec.eq_of_getLsbD_eq
  intro i hi
  have : i < 16 := hi
  simp only [dwordOf, highWord, BitVec.getLsbD_append, BitVec.getLsbD_extractLsb']
  simp [this]

theorem lowWord_dwordOf (high low : Word) : lowWord (dwordOf high low) = low := by
  apply BitVec.eq_of_getLsbD_eq
  intro i hi
  have : i < 16 := hi
  simp only [dwordOf, lowWord, BitVec.getLsbD_append, BitVec.getLsbD_extractLsb']
  simp [this]

theorem toNat_nat1 {n : Nat} (h : n < 256) : (nat1 n).toNat = n := by
  simp only [nat1, BitVec.toNat_ofNat]
  omega

theorem nat1_toNat (b : Byte) : nat1 b.toNat = b := by simp [nat1]

/-- A number below 65536 in a two-byte field reads back as itself. -/
theorem natOf2_nat2 {n : Nat} (h : n < 65536) :
    natOf2 (highByte (BitVec.ofNat 16 n)) (lowByte (BitVec.ofNat 16 n)) = n := by
  simp only [natOf2, wordOf_high_low, BitVec.toNat_ofNat]
  omega

/-- A number below 2^32 in a four-byte field reads back as itself. -/
theorem natOf4_nat4 {n : Nat} (h : n < 4294967296) :
    natOf4 (highByte (highWord (BitVec.ofNat 32 n))) (lowByte (highWord (BitVec.ofNat 32 n)))
      (highByte (lowWord (BitVec.ofNat 32 n))) (lowByte (lowWord (BitVec.ofNat 32 n))) = n := by
  simp only [natOf4, wordOf_high_low, dwordOf_high_low, BitVec.toNat_ofNat]
  omega

@[simp] theorem length_bytes16 (w : Word) : (bytes16 w).length = 2 := rfl

@[simp] theorem length_bytes32 (d : DWord) : (bytes32 d).length = 4 := rfl

@[simp] theorem length_nat2 (n : Nat) : (nat2 n).length = 2 := rfl

@[simp] theorem length_nat4 (n : Nat) : (nat4 n).length = 4 := rfl

@[simp] theorem length_wordBytes (ws : List Word) : (wordBytes ws).length = 2 * ws.length := by
  induction ws with
  | nil => rfl
  | cons w ws ih =>
    simp only [wordBytes, List.flatMap_cons, List.length_append, length_bytes16,
      List.length_cons] at ih ⊢
    omega

/-- The 16-bit values sent are the 16-bit values read. -/
theorem wordsOf_wordBytes (ws : List Word) : wordsOf (wordBytes ws) = ws := by
  induction ws with
  | nil => rfl
  | cons w ws ih =>
    simp only [wordBytes, List.flatMap_cons, bytes16, List.cons_append, List.nil_append, wordsOf,
      wordOf_high_low] at ih ⊢
    rw [ih]

end Sys2Proof.Machine
end

