-- ==== Sys2Proof/Laws/Frame.lean ====
section
/-!
SUPPORT. What the shared operations of requests, lines and scans are made of. `Closed R` says that a
relation of states holds across each of their few elementary updates, under what is known where the update
is made; then it holds across every shared operation, one lemma each. `Traffic` is such a relation: it says
that only the transmit queue, the host counters, the slots, the legs, the lines, the stations, the scan
runtime and the mirror differ. The drain test alone is none of these operations, for its swap.
-/

namespace Sys2Proof.Machine

/-- Nothing but traffic has changed. -/
structure Traffic (s t : State) : Prop where
  supply : t.supply = s.supply
  resetLow : t.resetLow = s.resetLow
  bridge : t.bridge = s.bridge
  uptime : t.uptime = s.uptime
  framer : t.framer = s.framer
  link : t.link = s.link
  sending : t.sending = s.sending
  active : t.active = s.active
  generation : t.generation = s.generation
  session : t.session = s.session
  staging : t.staging = s.staging
  operation : t.operation = s.operation
  store : t.store = s.store
  committed : t.committed = s.committed
  freeCount : t.freeCount = s.freeCount
  pending : t.pending = s.pending

theorem Traffic.refl (s : State) : Traffic s s :=
  ⟨rfl, rfl, rfl, rfl, rfl, rfl, rfl, rfl, rfl, rfl, rfl, rfl, rfl, rfl, rfl, rfl⟩

theorem Traffic.trans {s t u : State} (h : Traffic s t) (k : Traffic t u) : Traffic s u :=
  ⟨k.supply.trans h.supply, k.resetLow.trans h.resetLow, k.bridge.trans h.bridge,
    k.uptime.trans h.uptime, k.framer.trans h.framer, k.link.trans h.link,
    k.sending.trans h.sending, k.active.trans h.active, k.generation.trans h.generation,
    k.session.trans h.session, k.staging.trans h.staging, k.operation.trans h.operation,
    k.store.trans h.store, k.committed.trans h.committed, k.freeCount.trans h.freeCount,
    k.pending.trans h.pending⟩

theorem Traffic.foldl {α : Type} {f : State → α → State} (hf : ∀ s a, Traffic s (f s a))
    (l : List α) (s : State) : Traffic s (l.foldl f s) := by
  induction l generalizing s with
  | nil => exact .refl s
  | cons a l ih => exact (hf s a).trans (ih _)

/-! ## What the giving back of work leaves alone -/

theorem State.untake_slots (s : State) (l : LineNo) : (s.untake l).slots = s.slots := by
  unfold State.untake
  split
  · rfl
  · rename_i w _
    cases w <;> rfl

theorem State.withdrawn_slots (s : State) (p : LineNo → Work → Bool) :
    (s.withdrawn p).slots = s.slots := by
  unfold State.withdrawn
  induction s.joining p generalizing s with
  | nil => rfl
  | cons l ls ih => exact (ih _).trans (s.untake_slots l)

/-! ## Elementary updates -/

/-- Two requests that differ in nothing the request table is ordered by. -/
def Request.sameSeat (r q : Request) : Prop :=
  q.phase = r.phase ∧ q.source = r.source ∧ q.tag = r.tag ∧ q.legs = r.legs

theorem Request.sameSeat_refl (r : Request) : r.sameSeat r := ⟨rfl, rfl, rfl, rfl⟩

theorem Request.sameSeat_offer (r : Request) (f : Failure) : r.sameSeat (r.offer f) := by
  unfold Request.offer
  (repeat' split) <;> exact ⟨rfl, rfl, rfl, rfl⟩

/-- An admitted request has filled its slot and its legs, and nothing more has happened (R37 to R39). -/
def State.entered (s : State) (kind : RequestKind) (f : Frame) (slot : Nat) (p : Plan) :
    State × Request :=
  let r0 := p.served.foldl s.serveSegment (newRequest kind f p.fields)
  match kind with
  | .fetch => (s.freeRecords.zip p.legs).foldl (admitFetchLeg slot) (s, r0)
  | _ => admitStoreLegs slot s r0 (s.freeRecords.zip p.legs)

/-- A relation that holds across the elementary updates of requests, lines and scans. -/
structure Closed (R : State → State → Prop) : Prop where
  refl : ∀ s, R s s
  trans : ∀ {s t u}, R s t → R t u → R s u
  countHost : ∀ s f, R s (s.countHost f)
  scan : ∀ s i f, R s (s.modScan i f)
  prompt : ∀ s d t p, promptCount s.txQueue < 7 → R s (s.enqueue ⟨.prompt, d, t, p⟩)
  slot : ∀ s k r q, (k, r) ∈ s.slots → r.sameSeat q → R s (s.putSlot k q)
  leg : ∀ s i g h, s.legs.get i = some g → h.owner = g.owner → R s (s.putLeg i h)
  modLeg : ∀ s i f, (∀ g, (f g).owner = g.owner) → R s (s.modLeg i f)
  cancelLeg : ∀ s k i, (s.legs.get i = none ∨ ∃ r, s.slots.get k = some r ∧ i ∈ r.legs) →
    R s (State.cancelLeg k s i)
  complete : ∀ s k, R s (s.completeIfDone k)
  line : ∀ s l f, (∀ n : Line, (f n).streak ≤ max 4 n.streak) → R s (s.modLine l f)
  record : ∀ s l n f, (∀ r : StationRecord, (f r).station = r.station) → R s (s.modRecord l n f)
  write : ∀ s k v, R s (s.writeCells k v)
  invalidate : ∀ s k n, R s (s.invalidateCells k n)
  enter : ∀ s kind f slot p, s.admission kind f = .ok p → s.freeSlot = some slot →
    R s ((s.entered kind f slot p).1.putSlot slot (s.entered kind f slot p).2)

namespace Closed

variable {R : State → State → Prop}

theorem foldl (c : Closed R) {α : Type} {f : State → α → State} (hf : ∀ s a, R s (f s a))
    (l : List α) (s : State) : R s (l.foldl f s) := by
  induction l generalizing s with
  | nil => exact c.refl s
  | cons a l ih => exact c.trans (hf s a) (ih _)

/-- A line update that leaves the streak count alone. -/
theorem line' (c : Closed R) (s : State) (l : LineNo) (f : Line → Line)
    (h : ∀ n, (f n).streak = n.streak) : R s (s.modLine l f) :=
  c.line s l f (fun n => by rw [h]; exact Nat.le_max_right _ _)

theorem countLine (c : Closed R) (s : State) (l : LineNo) (f : LineCounters → LineCounters) :
    R s (s.countLine l f) := c.line' s l _ (by intro; rfl)

theorem enterGuard (c : Closed R) (s : State) (l : LineNo) : R s (s.enterGuard l) :=
  c.line' s l _ (by intro; rfl)

/-! ## The transmit queue -/

theorem pushPrompt (c : Closed R) (s : State) (d t : Byte) (p : Payload) :
    R s (s.pushPrompt d t p) := by
  unfold State.pushPrompt
  split
  · exact c.prompt s d t p ‹_›
  · exact c.countHost s _

theorem pushRefusal (c : Closed R) (s : State) (d t : Byte) (r : Reply) :
    R s (s.pushRefusal d t r) := by
  unfold State.pushRefusal
  split
  · exact c.trans (c.prompt s d t _ ‹_›) (c.countHost _ _)
  · exact c.pushPrompt s d t _

/-! ## Lines taking work -/

theorem noteAttempt (c : Closed R) (s : State) (l : LineNo) (w : Work) (tag : Byte) :
    R s (s.noteAttempt l w tag) := by
  cases w with
  | leg i => exact c.modLeg s i _ (by intro; rfl)
  | scan i => exact c.scan s i _
  | probe n t d =>
    exact c.line' s l (fun x => { x with current := some (.probe n (some tag) d) }) (by intro; rfl)

theorem startAttempt (c : Closed R) (s : State) (l : LineNo) (w : Work) :
    R s (s.startAttempt l w) :=
  c.trans (c.noteAttempt s l w _) (c.line' _ l _ (by intro; rfl))

theorem take (c : Closed R) (s : State) (l : LineNo) : R s (s.take l) := by
  unfold State.take
  split
  · refine c.trans (c.trans (c.line' s l _ ?_) (c.record _ l _ _ ?_)) (c.startAttempt _ l _) <;>
      exact fun _ => rfl
  · refine c.trans (c.trans (c.line s l _ ?_) (c.modLeg _ _ _ (by intro; rfl)))
      (c.startAttempt _ l _)
    exact fun n => Nat.le_trans (Nat.min_le_left _ _) (Nat.le_max_left _ _)
  · refine c.trans (c.trans (c.line s l _ ?_) (c.scan _ _ _)) (c.startAttempt _ l _)
    exact fun n => Nat.zero_le _
  · exact c.line' s l _ (by intro; rfl)

theorem kick (c : Closed R) (s : State) (l : LineNo) : R s (s.kick l) := by
  unfold State.kick
  split
  · exact c.trans (c.take s l) (c.line' _ l _ (by intro; rfl))
  · exact c.refl s

/-! ## Events that fall together with the joining of work -/

theorem giveBack (c : Closed R) (s : State) (l : LineNo) (w : Work) : R s (s.giveBack l w) := by
  cases w with
  | leg i => exact c.modLeg s i _ (by intro; rfl)
  | scan i => exact c.scan s i _
  | probe n t d => exact c.record s l n (fun r => { r with probe := .listed }) (by intro; rfl)

theorem untake (c : Closed R) (s : State) (l : LineNo) : R s (s.untake l) := by
  unfold State.untake
  split
  · exact c.refl s
  · exact c.trans (c.line' s l _ (by intro; rfl)) (c.giveBack _ l _)

theorem withdrawn (c : Closed R) (s : State) (p : LineNo → Work → Bool) : R s (s.withdrawn p) :=
  c.foldl c.untake _ s

/-- Across an event that falls together with the joining of work, when across the event itself. -/
theorem together (c : Closed R) (s : State) (p : LineNo → Work → Bool) (event : State → State)
    (h : R (s.withdrawn p) (event (s.withdrawn p))) : R s (s.together p event) :=
  c.trans (c.trans (c.withdrawn s p) h) (c.foldl c.kick _ _)

theorem joinDemand (c : Closed R) (s : State) (l : LineNo) (i : Nat) : R s (s.joinDemand l i) :=
  c.line' s l _ (by intro; rfl)

theorem joinScan (c : Closed R) (s : State) (l : LineNo) (i : Nat) : R s (s.joinScan l i) :=
  c.trans (c.trans (c.line' s l _ (by intro; rfl)) (c.scan _ i _)) (c.kick _ l)

theorem scanDue (c : Closed R) (s : State) (i : Nat) (e : ScanEntry) (r : ScanRun) :
    R s (s.scanDue i e r) := by
  unfold State.scanDue
  split
  · split
    · exact c.trans (c.scan s i _) (c.scan _ i _)
    · exact c.trans (c.scan s i _) (c.joinScan _ _ i)
  · exact c.trans (c.scan s i _) (c.scan _ i _)

theorem listProbe (c : Closed R) (s : State) (l : LineNo) (n : Nat) : R s (s.listProbe l n) :=
  c.trans (c.trans (c.record s l n _ (by intro; rfl)) (c.line' _ l _ (by intro; rfl))) (c.kick _ l)

theorem emptyScanQueue (c : Closed R) (s : State) (l : LineNo) : R s (s.emptyScanQueue l) :=
  c.trans (c.line' s l _ (by intro; rfl)) (c.foldl (fun s i => c.scan s i _) _ _)

theorem stopScans (c : Closed R) (s : State) : R s s.stopScans := c.foldl c.emptyScanQueue _ s

/-! ## Requests -/

theorem cancelLegs (c : Closed R) (s : State) (k : Nat) (p : Leg → Bool) :
    R s (s.cancelLegs k p) := by
  unfold State.cancelLegs
  split
  · exact c.refl s
  · rename_i r hr
    have h : ∀ i ∈ s.legsWhere r p,
        s.legs.get i = none ∨ ∃ q, s.slots.get k = some q ∧ i ∈ q.legs :=
      fun i hi => .inr ⟨r, hr, (List.mem_filter.1 hi).1⟩
    generalize s.legsWhere r p = l at h
    clear hr
    induction l generalizing s with
    | nil => exact c.refl s
    | cons i l ih =>
      refine c.trans (c.cancelLeg s k i (h i List.mem_cons_self)) (ih _ ?_)
      intro j hj
      unfold State.cancelLeg
      split
      · exact h j (List.mem_cons_of_mem _ hj)
      · by_cases hij : j = i
        · left
          rw [hij]
          exact Sparse.get_del_same i _
        · rcases h j (List.mem_cons_of_mem _ hj) with h | ⟨q, hq, hm⟩
          · left
            exact (Sparse.get_del_ne _ hij).trans h
          · right
            refine ⟨{ q with legs := q.legs.filter (fun x => x != i) }, ?_, ?_⟩
            · show (s.slots.modify k _).get k = _
              rw [Sparse.get_modify, if_pos rfl, hq]
              rfl
            · exact List.mem_filter.2 ⟨hm, by simpa using hij⟩

theorem fetchFailure (c : Closed R) (s : State) (k : Nat) (r : Request) (g : Leg) (st : Status)
    (h : (k, r) ∈ s.slots) : R s (s.fetchFailure k r g st) := by
  unfold State.fetchFailure
  refine c.trans ?_ (c.complete _ k)
  split
  · exact c.trans (c.slot s k r _ h (r.sameSeat_offer _)) (c.cancelLegs _ k _)
  · exact c.slot s k r _ h (r.sameSeat_offer _)

theorem storeFailure (c : Closed R) (s : State) (k : Nat) (r : Request) (g : Leg) (st : Status)
    (h : (k, r) ∈ s.slots) : R s (s.storeFailure k r g st) :=
  c.trans (c.trans (c.slot s k r _ h (r.sameSeat_offer _)) (c.cancelLegs _ k _)) (c.complete _ k)

theorem legFailure (c : Closed R) (s : State) (g : Leg) (st : Status) :
    R s (s.legFailure g st) := by
  unfold State.legFailure
  split
  · exact c.refl s
  · rename_i h
    split
    · exact c.fetchFailure s _ _ g st (Sparse.mem_of_get h)
    · exact c.storeFailure s _ _ g st (Sparse.mem_of_get h)

theorem failQueued (c : Closed R) (s : State) (i : Nat) : R s (s.failQueued i) := by
  unfold State.failQueued
  split
  · exact c.refl s
  · rename_i g h
    split
    · exact c.trans (c.trans (c.line' s _ _ (by intro; rfl)) (c.leg _ i g _ h (by rfl)))
        (c.legFailure _ _ _)
    · exact c.refl s

theorem release (c : Closed R) (s : State) (k : Nat) (r : Request) (hr : (k, r) ∈ s.slots) :
    R s (s.release k r) := by
  unfold State.release
  split
  · exact c.refl s
  · split
    · exact c.refl s
    · rename_i i _ _ g hg
      split
      · simp only []
        have h1 := c.slot s k r { r with nextRelease := r.nextRelease + 1 } hr ⟨rfl, rfl, rfl, rfl⟩
        split
        · refine c.trans (c.trans h1 (c.leg _ i g _ hg (by rfl))) (c.storeFailure _ k _ _ _ ?_)
          exact Sparse.mem_of_get (Sparse.get_put_same k _ _)
        · exact c.trans (c.trans (c.trans h1 (c.leg _ i g _ hg (by rfl))) (c.joinDemand _ _ _))
            (c.kick _ _)
      · exact c.refl s

theorem legMirror (c : Closed R) (s : State) (g : Leg) : R s (s.legMirror g) := by
  unfold State.legMirror
  split
  · exact c.refl s
  · split
    · exact c.write s _ _
    · split
      · exact c.invalidate s _ _
      · exact c.refl s
    · exact c.refl s

theorem legDone (c : Closed R) (s : State) (g : Leg) : R s (s.legDone g) := by
  unfold State.legDone
  split
  · exact c.refl s
  · rename_i r h
    have hm := Sparse.mem_of_get h
    split
    · refine c.trans (c.slot s _ r _ hm ?_) (c.complete _ _)
      unfold State.takeValues
      (repeat' split) <;> exact ⟨rfl, rfl, rfl, rfl⟩
    · refine c.trans ?_ (c.complete _ _)
      split
      · exact c.refl s
      · exact c.release s _ _ hm

theorem legEnd (c : Closed R) (s : State) (i : Nat) (o : LegOutcome) : R s (s.legEnd i o) := by
  unfold State.legEnd
  split
  · exact c.refl s
  · rename_i g hg
    have ho : (g.ended o).owner = g.owner := by
      unfold Leg.ended
      (repeat' split) <;> rfl
    have h : R s ((s.putLeg i (g.ended o)).legMirror (g.ended o)) :=
      c.trans (c.leg s i g _ hg ho) (c.legMirror _ _)
    simp only []
    split
    · exact c.trans h (c.legDone _ _)
    · exact c.trans h (c.legFailure _ _ _)

/-! ## Admission -/

theorem kickFor (c : Closed R) (s : State) (i : Nat) : R s (s.kickFor i) := by
  unfold State.kickFor
  split
  · exact c.refl s
  · split
    · exact c.kick s _
    · exact c.refl s

theorem dataRequest (c : Closed R) (s : State) (kind : RequestKind) (f : Frame) :
    R s (s.dataRequest kind f) := by
  unfold State.dataRequest
  split
  · exact c.pushRefusal s _ _ _
  · rename_i p hp
    split
    · exact c.refl s
    · rename_i slot hs
      have h := c.trans (c.enter s kind f slot p hp hs)
        (c.foldl c.kickFor (s.entered kind f slot p).2.legs _)
      have h2 := c.trans h (c.complete _ slot)
      cases kind <;> exact h2

/-! ## The end of work on a line -/

theorem scanDone (c : Closed R) (s : State) (i : Nat) (v : List Word) : R s (s.scanDone i v) := by
  unfold State.scanDone
  split
  · exact c.scan s i _
  · exact c.trans (c.write s _ _) (c.scan _ i _)

theorem handOver (c : Closed R) (s : State) (w : Work) (o : LegOutcome) : R s (s.handOver w o) := by
  unfold State.handOver
  split
  · exact c.legEnd s _ _
  · exact c.scanDone s _ _
  · exact c.scan s _ _
  · exact c.refl s

theorem dropWork (c : Closed R) (s : State) (l : LineNo) (w : Work) : R s (s.dropWork l w) := by
  unfold State.dropWork
  refine c.trans ?_ (c.enterGuard _ l)
  split
  · exact c.trans (c.line' s l _ (by intro; rfl)) (c.countLine _ l _)
  · exact c.line' s l _ (by intro; rfl)

theorem finishWork (c : Closed R) (s : State) (l : LineNo) (w : Work) (o : LegOutcome) :
    R s (s.finishWork l w o) := c.trans (c.dropWork s l w) (c.handOver _ w o)

theorem withdrawScans (c : Closed R) (s : State) (l : LineNo) (n : Nat) :
    R s (s.withdrawScans l n) :=
  c.trans (c.line' s l _ (by intro; rfl)) (c.foldl (fun s i => c.scan s i _) _ _)

theorem invalidateStation (c : Closed R) (s : State) (l : LineNo) (n : Nat) :
    R s (s.invalidateStation l n) := by
  refine c.foldl (fun s e => ?_) _ _
  split
  · exact c.invalidate s _ _
  · exact c.refl s

theorem offlineSweep (c : Closed R) (s : State) (l : LineNo) (n : Nat) :
    R s (s.offlineSweep l n) :=
  c.trans (c.trans (c.foldl c.failQueued _ s) (c.withdrawScans _ l n)) (c.invalidateStation _ l n)

theorem closeAttempt (c : Closed R) (s : State) (l : LineNo) : R s (s.closeAttempt l) :=
  c.line' s l _ (by intro; rfl)

theorem failedAttempt_station (now : Uptime) (settings : LineSettings) (r : StationRecord) :
    (r.failedAttempt now settings).station = r.station := by
  unfold StationRecord.failedAttempt
  split <;> rfl

theorem failedProbe_station (now : Uptime) (settings : LineSettings) (r : StationRecord) :
    (r.failedProbe now settings).station = r.station := by
  unfold StationRecord.failedProbe
  split <;> rfl

theorem report (c : Closed R) (s : State) (l : LineNo) (n : Nat) (r : AttemptResult) :
    R s (s.report l n r) := by
  unfold State.report
  split
  · exact c.record s l n _ (failedAttempt_station _ _)
  · exact c.record s l n _ (by intro; rfl)

theorem probeResult (c : Closed R) (s : State) (l : LineNo) (n : Nat) (d : Bool)
    (r : AttemptResult) : R s (s.probeResult l n d r) := by
  unfold State.probeResult
  split
  · exact c.refl s
  · split
    · exact c.record s l n _ (failedProbe_station _ _)
    · exact c.record s l n _ (by intro; rfl)

/-- The end of an attempt, which a drain test may follow. -/
theorem attemptEnd (c : Closed R) (s : State) (l : LineNo) (r : AttemptResult) :
    ∃ u, R s u ∧ (s.attemptEnd l r = u ∨ s.attemptEnd l r = u.drainTest) := by
  unfold State.attemptEnd
  split
  · exact ⟨s, c.refl s, .inl rfl⟩
  · rename_i w hw
    have h1 : R s ((s.closeAttempt l).countLine l (countResult r)) :=
      c.trans (c.closeAttempt s l) (c.countLine _ l _)
    have key : ∀ n off, ∃ u, R s u ∧
        (State.afterAttempt (State.report ((s.closeAttempt l).countLine l (countResult r)) l n r)
          l w n off r = u ∨
        State.afterAttempt (State.report ((s.closeAttempt l).countLine l (countResult r)) l n r)
          l w n off r = u.drainTest) := by
      intro n off
      have h2 := c.trans h1 (c.report _ l n r)
      generalize State.report ((s.closeAttempt l).countLine l (countResult r)) l n r = t at h2
      unfold State.afterAttempt
      have hf : ∀ o, R s (t.finishWork l w o) := fun o => c.trans h2 (c.finishWork t l w o)
      simp only []
      split
      · exact ⟨_, hf _, .inr rfl⟩
      · exact ⟨_, hf _, .inr rfl⟩
      · split
        · exact ⟨_, hf _, .inr rfl⟩
        · exact ⟨_, c.trans h2 (c.line' t l _ (by intro; rfl)), .inl rfl⟩
      · split
        · exact ⟨_, c.trans (hf _) (c.offlineSweep _ l _), .inr rfl⟩
        · split
          · exact ⟨_, hf _, .inr rfl⟩
          · exact ⟨_, c.trans h2 (c.enterGuard t l), .inl rfl⟩
    simp only []
    split
    · exact ⟨_, c.trans (c.trans h1 (c.dropWork _ l _)) (c.probeResult _ l _ _ r), .inl rfl⟩
    · exact key _ _

theorem endReception (c : Closed R) (s : State) (l : LineNo) : R s (s.endReception l) :=
  c.line' s l _ (by intro; rfl)

theorem countStray (c : Closed R) (s : State) (l : LineNo) : R s (s.countStray l) :=
  c.countLine s l _

/-- A field frame's effect, which a drain test may follow. -/
theorem fieldFrame (c : Closed R) (s : State) (l : LineNo) (f : Frame) :
    ∃ u, R s u ∧ (s.fieldFrame l f = u ∨ s.fieldFrame l f = u.drainTest) := by
  have hstray : R s ((s.endReception l).countStray l) :=
    c.trans (c.endReception s l) (c.countStray _ l)
  unfold State.fieldFrame
  split
  · exact ⟨s, c.refl s, .inl rfl⟩
  · unfold State.awaitedFrame
    split
    · exact c.attemptEnd s l _
    · split
      · exact ⟨s, c.refl s, .inl rfl⟩
      · split
        · exact c.attemptEnd s l _
        · exact ⟨_, hstray, .inl rfl⟩
  · exact ⟨_, hstray, .inl rfl⟩

theorem fieldAbandon (c : Closed R) (s : State) (l : LineNo) :
    ∃ u, R s u ∧ (s.fieldAbandon l = u ∨ s.fieldAbandon l = u.drainTest) := by
  unfold State.fieldAbandon
  split
  · exact ⟨s, c.refl s, .inl rfl⟩
  · exact c.attemptEnd s l _
  · exact ⟨_, c.endReception s l, .inl rfl⟩

theorem transmitted (c : Closed R) (s : State) (l : LineNo) (n : Nat) (w : Work) :
    ∃ u, R s u ∧ (s.transmitted l n w = u ∨ s.transmitted l n w = u.drainTest) := by
  unfold State.transmitted
  split
  · exact ⟨_, c.trans (c.closeAttempt s l) (c.finishWork _ l w _), .inr rfl⟩
  · exact ⟨_, c.line' s l _ (by intro; rfl), .inl rfl⟩

theorem guardOver (c : Closed R) (s : State) (l : LineNo) : R s (s.guardOver l) := by
  unfold State.guardOver
  split
  · exact c.startAttempt s l _
  · exact c.take s l

theorem backoffOver (c : Closed R) (s : State) (l : LineNo) : R s (s.backoffOver l) := by
  unfold State.backoffOver
  split
  · exact c.line' s l _ (by intro; rfl)
  · exact c.enterGuard s l

theorem startReception (c : Closed R) (s : State) (l : LineNo) :
    R s (s.modLine l Line.startReception) := by
  refine c.line' s l _ (fun n => ?_)
  unfold Line.startReception
  split <;> rfl

/-- A CANCEL's effect on an ACTIVE slot. -/
theorem cancelActive (c : Closed R) (s : State) (k : Nat) (r : Request) (f : Frame)
    (hm : (k, r) ∈ s.slots) : R s (s.cancelActive k r f) := by
  refine c.trans (c.trans (c.trans (c.slot s k r _ hm ?_) (c.cancelLegs _ _ _))
    (c.pushPrompt _ _ _ _)) (c.complete _ _)
  unfold State.cancelMark
  simp only []
  split
  · exact ⟨rfl, rfl, rfl, rfl⟩
  · exact Request.sameSeat_offer { r with cancelRequested := true } _

/-- A CANCEL's effect, which a drain test may follow. -/
theorem cancelRequest (c : Closed R) (s : State) (f : Frame) :
    ∃ u, R s u ∧ (s.cancelRequest f = u ∨ s.cancelRequest f = u.drainTest) := by
  unfold State.cancelRequest
  split
  · exact ⟨_, c.pushPrompt s _ _ _, .inl rfl⟩
  · rename_i k r h
    have hm : (k, r) ∈ s.slots := List.mem_of_find?_eq_some h
    split
    · exact ⟨_, c.pushPrompt s _ _ _, .inl rfl⟩
    · split
      · exact ⟨_, c.pushPrompt s _ _ _, .inl rfl⟩
      · refine ⟨_, c.together s _ _ (c.cancelActive _ k r f ?_), .inr rfl⟩
        rw [State.withdrawn_slots]
        exact hm

theorem resetRecord (c : Closed R) (s : State) (l : LineNo) (n : Nat) :
    R s (s.resetRecord l n) := by
  unfold State.resetRecord
  simp only []
  split
  · exact c.trans (c.record s l n _ (by intro; rfl)) (c.line' _ l _ (by intro; rfl))
  · exact c.record s l n _ (by intro; rfl)

theorem resetStation (c : Closed R) (s : State) (l : LineNo) (n : Nat) :
    R s (s.resetStation l n) := c.together s _ _ (c.resetRecord _ l n)

theorem clearGroup (c : Closed R) (s : State) (g : StatsGroup) : R s (s.clearGroup g) := by
  unfold State.clearGroup
  split
  · exact c.countHost s _
  · exact c.countLine s _ _
  · exact c.scan s _ _

end Closed

/-! ## Traffic -/

theorem traffic_of_update (s : State) (q : List TxFrame) (c : HostCounters) (k : Sparse Request)
    (g : Sparse Leg) (n : Four Line) (r : Four (List StationRecord)) (u : Sparse ScanRun)
    (m : Sparse MirrorCell) :
    Traffic s { s with
      txQueue := q, hostCounters := c, slots := k, legs := g, lines := n, stations := r, scans := u,
      mirror := m } :=
  ⟨rfl, rfl, rfl, rfl, rfl, rfl, rfl, rfl, rfl, rfl, rfl, rfl, rfl, rfl, rfl, rfl⟩

theorem traffic_releaseSlot (s : State) (k : Nat) : Traffic s (s.releaseSlot k) := by
  unfold State.releaseSlot
  split
  · exact .refl s
  · exact traffic_of_update s _ _ _ _ _ _ _ _

theorem traffic_admitFetchLegs (slot : Nat) (bound : List (Nat × LegPlan)) (s : State)
    (r : Request) : Traffic s (bound.foldl (admitFetchLeg slot) (s, r)).1 := by
  induction bound generalizing s r with
  | nil => exact .refl s
  | cons b bound ih =>
    refine Traffic.trans ?_ (ih (admitFetchLeg slot (s, r) b).1 _)
    unfold admitFetchLeg
    simp only []
    (repeat' split) <;> exact traffic_of_update s _ _ _ _ _ _ _ _

theorem traffic_admitStoreLegs (slot : Nat) (s : State) (r : Request)
    (bound : List (Nat × LegPlan)) : Traffic s (admitStoreLegs slot s r bound).1 := by
  unfold admitStoreLegs
  split
  · exact .refl s
  · split
    · exact traffic_of_update s _ _ _ _ _ _ _ _
    · exact (traffic_of_update s _ _ _ _ _ _ _ _).trans
        (Traffic.foldl (fun s b => traffic_of_update s _ _ _ _ _ _ _ _) _ _)

/-- Traffic holds across every shared operation. -/
theorem traffic : Closed Traffic where
  refl := .refl
  trans := .trans
  countHost s _ := traffic_of_update s _ _ _ _ _ _ _ _
  scan s _ _ := traffic_of_update s _ _ _ _ _ _ _ _
  prompt s _ _ _ _ := traffic_of_update s _ _ _ _ _ _ _ _
  slot s _ _ _ _ _ := traffic_of_update s _ _ _ _ _ _ _ _
  leg s _ _ _ _ _ := traffic_of_update s _ _ _ _ _ _ _ _
  modLeg s _ _ _ := traffic_of_update s _ _ _ _ _ _ _ _
  cancelLeg s k i _ := by
    unfold State.cancelLeg
    split
    · exact .refl s
    · exact traffic_of_update s _ _ _ _ _ _ _ _
  complete s k := by
    unfold State.completeIfDone
    (repeat' split) <;> exact traffic_of_update s _ _ _ _ _ _ _ _
  line s _ _ _ := traffic_of_update s _ _ _ _ _ _ _ _
  record s _ _ _ _ := traffic_of_update s _ _ _ _ _ _ _ _
  write s _ _ := traffic_of_update s _ _ _ _ _ _ _ _
  invalidate s _ _ := traffic_of_update s _ _ _ _ _ _ _ _
  enter s kind f slot p _ _ := by
    refine Traffic.trans ?_ (traffic_of_update _ _ _ _ _ _ _ _ _)
    cases kind
    · exact traffic_admitFetchLegs slot _ s _
    · exact traffic_admitStoreLegs slot s _ _
    · exact traffic_admitStoreLegs slot s _ _

/-- The drain test changes nothing or makes the swap (R141). -/
theorem drainTest_cases (s : State) :
    s.drainTest = s ∨ ∃ dest tag drain, s.operation = .activate dest tag drain ∧
      s.bridge = .draining ∧ s.drained = true ∧ s.drainTest = s.swap dest tag := by
  unfold State.drainTest
  split
  · rename_i dest tag drain h
    split
    · rename_i hd
      exact .inr ⟨dest, tag, drain, h, hd.1, hd.2, rfl⟩
    · exact .inl rfl
  · exact .inl rfl

end Sys2Proof.Machine
end

