-- ==== Sys2Proof/Laws/Images.lean ====
section
/-!
SUPPORT. Images: their lengths, what a slot shows once a whole image with its completion mark stands in it,
and what an area of a line record gives.
-/

namespace Sys2Proof.Machine

/-! ## Lengths (R149, R169) -/

theorem length_encodeMapEntry (e : MapEntry) : (encodeMapEntry e).length = 25 := by
  rcases e with ⟨_, _, _, _, _, _, _, _, _, b, a, c⟩
  rcases b with _ | b <;> rcases a with _ | a <;> rcases c with _ | c <;> rfl

theorem length_flatMap_encodeMapEntry (entries : List MapEntry) :
    (entries.flatMap encodeMapEntry).length = 25 * entries.length := by
  induction entries with
  | nil => rfl
  | cons e es ih =>
    rw [List.flatMap_cons, List.length_append, ih, length_encodeMapEntry, List.length_cons]
    omega

theorem length_flatMap_scanPlaceBytes (m : Sparse ScanEntry) (places : List Nat) :
    (places.flatMap (scanPlaceBytes m)).length = 10 * places.length := by
  induction places with
  | nil => rfl
  | cons p ps ih =>
    have : (scanPlaceBytes m p).length = 10 := by unfold scanPlaceBytes; split <;> rfl
    rw [List.flatMap_cons, List.length_append, ih, this, List.length_cons]
    omega

theorem length_tableBytes {t : Tables} (h : t.map.length ≤ 256) : (tableBytes t).length = 7101 := by
  have h1 : ((t.map.take 256).flatMap encodeMapEntry).length = 25 * t.map.length := by
    rw [length_flatMap_encodeMapEntry, List.length_take]; omega
  have h2 : (t.lines.toList.flatMap encodeLine).length = 56 := rfl
  have h3 : (encodeBridge t.bridge).length = 3 := rfl
  simp only [tableBytes, List.length_append, length_nat2, h1, List.length_replicate,
    length_flatMap_scanPlaceBytes, h2, h3, List.length_range]
  omega

theorem length_imageBytes (q : DWord) (g : Word) {t : Tables} (h : t.map.length ≤ 256) :
    (imageBytes q g t).length = 7109 := by
  simp [imageBytes, length_tableBytes h]

/-! ## Reading runs of bytes -/

theorem Sparse.readFrom_add {α : Type} (d : α) (m : Sparse α) (a k b : Nat) :
    m.readFrom d k (a + b) = m.readFrom d k a ++ m.readFrom d (k + a) b := by
  induction a generalizing k with
  | zero => simp [Sparse.readFrom]
  | succ a ih =>
    rw [show a + 1 + b = (a + b) + 1 by omega]
    simp only [Sparse.readFrom, ih, List.cons_append]
    rw [show k + 1 + a = k + (a + 1) by omega]

theorem Sparse.readFrom_write_before (a : Byte) (m : Sparse Byte) (n j k : Nat) (h : j < k) :
    (m.write 0 j a).readFrom 0 k n = m.readFrom 0 k n := by
  induction n generalizing k with
  | zero => rfl
  | succ n ih =>
    simp only [Sparse.readFrom]
    rw [ih (k + 1) (by omega), Sparse.read_write_ne _ _ _ (by omega)]

/-! ## A whole image (R149) -/

/-- A slot that holds a marked image shows its sequence number and generation, and its tables' bytes. -/
theorem slotView_imageBytes (q : DWord) (g : Word) {t : Tables} (ht : t.map.length ≤ 256)
    (m : Sparse Byte) (h0 : m.read 0 0 = completeMark)
    (h1 : m.readFrom 0 1 7109 = imageBytes q g t) :
    slotView m = some ⟨q, g⟩ ∧ m.readFrom 0 7 7101 = tableBytes t := by
  have hlt := length_tableBytes ht
  generalize hb : bytes32 q ++ bytes16 g ++ tableBytes t = body
  have hbl : body.length = 7107 := by subst hb; simp [hlt]
  have hi : imageBytes q g t = body ++ bytes16 (checkOf (completeMark :: body)) := by
    subst hb; rfl
  rw [hi] at h1
  have hsp := Sparse.readFrom_add (0 : Byte) m 7107 1 2
  rw [show 7107 + 2 = 7109 from rfl, h1, show 1 + 7107 = 7108 from rfl] at hsp
  have hs1 : m.readFrom 0 1 7107 = body := (List.append_inj hsp.symm (by simp [hbl])).1
  have hs2 : m.readFrom 0 7108 2 = bytes16 (checkOf (completeMark :: body)) :=
    (List.append_inj hsp.symm (by simp [hbl])).2
  have hv : slotValid m = true := by
    simp only [slotValid, h0, decide_true, Bool.true_and]
    rw [hs1, hs2]
    exact decide_eq_true rfl
  have hsp2 := Sparse.readFrom_add (0 : Byte) m 6 1 7101
  rw [show 6 + 7101 = 7107 from rfl, hs1, show 1 + 6 = 7 from rfl, ← hb, List.append_assoc,
    ← List.append_assoc] at hsp2
  have h6 := List.append_inj hsp2 (by simp)
  refine ⟨?_, h6.2.symm⟩
  have hr : ∀ i, i < 6 → m.read 0 (1 + i) = (bytes32 q ++ bytes16 g).getD i 0 := fun i hi => by
    rw [← Sparse.getD_readFrom 0 m 1 6 i hi, h6.1.symm]
  have e1 := hr 0 (by omega)
  have e2 := hr 1 (by omega)
  have e3 := hr 2 (by omega)
  have e4 := hr 3 (by omega)
  have e5 := hr 4 (by omega)
  have e6 := hr 5 (by omega)
  simp only [slotView, hv, if_true]
  simp only [Nat.add_zero, Nat.reduceAdd] at e1 e2 e3 e4 e5 e6
  rw [e1, e2, e3, e4, e5, e6]
  simp only [bytes32, bytes16, List.cons_append, List.nil_append, List.getD_cons_zero,
    List.getD_cons_succ, wordOf_high_low, dwordOf_high_low]

/-! ## The line record of an area (R169, log entry 19) -/

theorem loadLine_of_decode {area : List Byte} {r : LineSettings} (h : decodeLine area = some r)
    (hr : r.bitRate ≠ .b230400) : loadLine area = r := by
  simp [loadLine, h, hr, Option.filter]

/-- A line record with the bridge's bit rate is a free value. -/
theorem loadLine_of_bridge_rate {area : List Byte} {r : LineSettings} (h : decodeLine area = some r)
    (hr : r.bitRate = .b230400) : loadLine area = Config.foreignLine area := by
  simp [loadLine, h, hr, Option.filter]

end Sys2Proof.Machine
end

