-- ==== Sys2Proof/Laws/Management.lean ====
section
/-!
SUPPORT. What a MGMT frame can do: the dispatch of a command's frame, the idle timer, the four checks, and
the operation itself.
-/

namespace Sys2Proof.Machine

/-! ## Dispatch -/

theorem onKind_eq {s : State} {byte : Byte} {f : Frame} {kind : FrameKind}
    (h : s.dispatched byte = some (f, kind)) (act : Frame → State → State) :
    onKind kind act byte s = act f s.frameTaken := by
  simp [onKind, h]

/-- A kind's command dispatches a frame of its kind, or changes nothing. -/
theorem onKind_cases (kind : FrameKind) (act : Frame → State → State) (byte : Byte) (s : State) :
    onKind kind act byte s = s ∨
      ∃ f, s.dispatched byte = some (f, kind) ∧ onKind kind act byte s = act f s.frameTaken := by
  unfold onKind
  split
  · rename_i f k h
    split
    · rename_i hk
      exact .inr ⟨f, by rw [h, hk], rfl⟩
    · exact .inl rfl
  · exact .inl rfl

theorem onMgmt_eq {s : State} {byte : Byte} {f : Frame} (h : s.dispatched byte = some (f, .mgmt))
    (select : Frame → Bool) (act : Frame → State → State) :
    onMgmt select act byte s = if select f then act f s.frameTaken else s := by
  simp [onMgmt, onKind, h]

/-- A management row's command takes a MGMT frame that its selector picks, or changes nothing. -/
theorem onMgmt_cases (select : Frame → Bool) (act : Frame → State → State) (byte : Byte)
    (s : State) :
    onMgmt select act byte s = s ∨
      ∃ f, s.dispatched byte = some (f, .mgmt) ∧ select f = true ∧
        onMgmt select act byte s = act f s.frameTaken := by
  rcases onKind_cases .mgmt (fun f t => if select f then act f t else s) byte s with h | ⟨f, hf, h⟩
  · exact .inl h
  · by_cases hs : select f = true
    · exact .inr ⟨f, hf, hs, h.trans (by simp [hs])⟩
    · exact .inl (h.trans (by simp [hs]))

/-! ## The idle timer -/

/-- The owner's frame changes the session's expiry alone (R130). -/
theorem touchSession_eq (s : State) (source : Byte) :
    ∃ o, s.touchSession source = { s with session := o } ∧
      (s.session = none → o = none) ∧
      (∀ n, s.session = some n → ∃ x, o = some { n with expiry := x }) ∧
      (s.operation ≠ .none → o = s.session) := by
  unfold State.touchSession
  split
  · rename_i h
    cases hs : s.session with
    | none =>
      refine ⟨none, ?_, fun _ => rfl, fun n hn => (nomatch hn), fun _ => rfl⟩
      rcases s with ⟨⟩
      simp only at hs
      subst hs
      rfl
    | some n =>
      refine ⟨some { n with expiry := some (after s.uptime (n.timeout * 1000)) }, ?_,
        fun hn => (nomatch hn), fun m hm => ?_, fun ho => absurd h.1 ho⟩
      · simp [State.startIdleTimer, hs]
      · cases hm; exact ⟨_, rfl⟩
  · exact ⟨s.session, rfl, fun h => h, fun n hn => ⟨n.expiry, by rw [hn]⟩, fun _ => rfl⟩

@[simp] theorem ownedBy_touchSession (s : State) (x y : Byte) :
    (s.touchSession x).ownedBy y = s.ownedBy y := by
  obtain ⟨o, ho, hn, hs, -⟩ := touchSession_eq s x
  rw [ho]
  unfold State.ownedBy
  cases h : s.session with
  | none => simp only [hn h]
  | some n =>
    obtain ⟨e, he⟩ := hs n h
    simp only [he]

theorem ownedBy_served (s : State) (f : Frame) (y : Byte) :
    (s.served f).ownedBy y = s.ownedBy y :=
  ownedBy_touchSession s.frameTaken f.source y

/-- The owner's frame restarts the idle timer while no operation is pending (R130). -/
theorem served_owner {s : State} {f : Frame} {o : Session} (h1 : s.session = some o)
    (h2 : o.owner = f.source) (h3 : s.operation = .none) :
    s.served f = { s.frameTaken with
      session := some { o with expiry := some (after s.uptime (o.timeout * 1000)) } } := by
  simp [State.served, State.touchSession, State.ownedBy, h1, h2, h3, State.startIdleTimer]

/-! ## The checks -/

theorem serve_refused {α : Type} {n : Needs} {read : State → List Byte → Option α}
    {act : α → Frame → State → State} {f : Frame} {s : State} {st : Status}
    (h : (s.touchSession f.source).mgmtCheck n f.source
      (read (s.touchSession f.source) (mgmtArgs f.body)).isSome = some st) :
    serve n read act f s = (s.touchSession f.source).answer f st [] := by
  simp [serve, h]

/-- An operation whose checks pass and whose arguments are good is carried out (R126). -/
theorem serve_ok {α : Type} {n : Needs} {read : State → List Byte → Option α}
    {act : α → Frame → State → State} {f : Frame} {s : State} {a : α}
    (hr : read (s.touchSession f.source) (mgmtArgs f.body) = some a)
    (h1 : s.operation = .none ∨ n.whilePending = true)
    (h2 : n.closing = false ∨ closingHeld s.txQueue = false)
    (h3 : n.session = false ∨ s.ownedBy f.source = true) :
    serve n read act f s = act a f (s.touchSession f.source) := by
  have : (s.touchSession f.source).mgmtCheck n f.source true = none := by
    simp only [State.mgmtCheck, ownedBy_touchSession, State.touchSession_operation,
      State.touchSession_txQueue]
    rw [if_neg, if_neg, if_neg]
    · rfl
    · rcases h3 with h | h <;> simp [h]
    · rcases h2 with h | h <;> simp [h]
    · rcases h1 with h | h <;> simp [h]
  simp [serve, hr, this]

/-- Everything a management operation can do: a refusal, or its effect with checks 1 to 4 passed. -/
theorem serve_cases {α : Type} (n : Needs) (read : State → List Byte → Option α)
    (act : α → Frame → State → State) (f : Frame) (s : State) :
    (∃ st, serve n read act f s = (s.touchSession f.source).answer f st []) ∨
    (∃ a, read (s.touchSession f.source) (mgmtArgs f.body) = some a ∧
      (s.operation = .none ∨ n.whilePending = true) ∧
      (n.closing = false ∨ closingHeld s.txQueue = false) ∧
      (n.session = false ∨ s.ownedBy f.source = true) ∧
      serve n read act f s = act a f (s.touchSession f.source)) := by
  by_cases h1 : s.operation = .none ∨ n.whilePending = true
  · by_cases h2 : n.closing = false ∨ closingHeld s.txQueue = false
    · by_cases h3 : n.session = false ∨ s.ownedBy f.source = true
      · cases hr : read (s.touchSession f.source) (mgmtArgs f.body) with
        | none =>
          left
          refine ⟨.badArgument, serve_refused ?_⟩
          simp only [State.mgmtCheck, ownedBy_touchSession, State.touchSession_operation,
            State.touchSession_txQueue, hr]
          rw [if_neg, if_neg, if_neg]
          · rfl
          · rcases h3 with h | h <;> simp [h]
          · rcases h2 with h | h <;> simp [h]
          · rcases h1 with h | h <;> simp [h]
        | some a => exact .inr ⟨a, rfl, h1, h2, h3, serve_ok hr h1 h2 h3⟩
      · left
        refine ⟨.notOwner, serve_refused ?_⟩
        simp only [State.mgmtCheck, ownedBy_touchSession, State.touchSession_operation,
          State.touchSession_txQueue]
        rw [if_neg, if_neg, if_pos]
        · simpa using h3
        · rcases h2 with h | h <;> simp [h]
        · rcases h1 with h | h <;> simp [h]
    · left
      refine ⟨.mgmtBusy, serve_refused ?_⟩
      simp only [State.mgmtCheck, ownedBy_touchSession, State.touchSession_operation,
        State.touchSession_txQueue]
      rw [if_neg, if_pos]
      · simpa using h2
      · rcases h1 with h | h <;> simp [h]
  · left
    refine ⟨.mgmtBusy, serve_refused ?_⟩
    simp only [State.mgmtCheck, ownedBy_touchSession, State.touchSession_operation,
      State.touchSession_txQueue]
    rw [if_pos]
    simpa using h1

/-! ## Operation codes -/

/-- The code of an operation (R170). -/
def MgmtOp.code : MgmtOp → Byte
  | .sessionOpen => 0x01#8
  | .sessionClose => 0x02#8
  | .stageCopyActive => 0x03#8
  | .stageClear => 0x04#8
  | .stagePutMap => 0x05#8
  | .stageDeleteMap => 0x06#8
  | .stagePutScan => 0x07#8
  | .stageDeleteScan => 0x08#8
  | .stagePutLine => 0x09#8
  | .stagePutBridge => 0x0A#8
  | .validate => 0x0B#8
  | .activate => 0x0C#8
  | .commit => 0x0D#8
  | .restart => 0x0E#8
  | .stationReset => 0x0F#8
  | .stats => 0x10#8
  | .status => 0x11#8
  | .readActive => 0x12#8
  | .readStage => 0x13#8
  | .stationList => 0x14#8
  | .scanInfo => 0x15#8

theorem code_of_mgmtOpOfCode {c : Byte} {op : MgmtOp} (h : mgmtOpOfCode c = some op) :
    c = op.code := by
  have hc : c = BitVec.ofNat 8 c.toNat := by simp
  have hlt : c.toNat < 256 := c.isLt
  rw [hc]
  unfold mgmtOpOfCode at h
  split at h <;> first
    | (cases h; simp_all [MgmtOp.code])
    | simp at h

/-- A frame of an operation echoes the operation's code (R124). -/
theorem mgmtCode_of_mgmtOp {body : List Byte} {op : MgmtOp} (h : mgmtOp body = some op) :
    mgmtCode body = op.code := by
  cases body with
  | nil => simp [mgmtOp] at h
  | cons c rest => exact code_of_mgmtOpOfCode h

end Sys2Proof.Machine
end

