-- ==== Sys2Proof/Laws/Ledger.lean ====
section
/-!
SUPPORT. What any command can do to the part's ledger: the supply and pin, the bridge state, the tables,
the session, the staging area, the pending operation and the image store. Traffic never touches it;
`exec_ledger` lists every way in which a command does.
-/

namespace Sys2Proof.Machine

/-- The fields of the state that traffic never changes, but for the framer, the link and the uptime. -/
structure Ledger where
  supply : Bool
  resetLow : Bool
  bridge : BridgeState
  active : Tables
  generation : Word
  session : Option Session
  staging : Staging
  operation : PendingOp
  store : ImageStore
  committed : Option Word
  freeCount : Nat
  pending : List Instr

/-- The ledger of a state. -/
def State.ledger (s : State) : Ledger where
  supply := s.supply
  resetLow := s.resetLow
  bridge := s.bridge
  active := s.active
  generation := s.generation
  session := s.session
  staging := s.staging
  operation := s.operation
  store := s.store
  committed := s.committed
  freeCount := s.freeCount
  pending := s.pending

theorem Traffic.ledger {s t : State} (h : Traffic s t) : t.ledger = s.ledger := by
  simp only [State.ledger, h.supply, h.resetLow, h.bridge, h.active, h.generation, h.session,
    h.staging, h.operation, h.store, h.committed, h.freeCount, h.pending]

/-- The session with its idle timer at another value. -/
def Retimed (a b : Option Session) : Prop :=
  (a = none → b = none) ∧ ∀ o, a = some o → ∃ x, b = some { o with expiry := x }

theorem Retimed.refl (a : Option Session) : Retimed a a :=
  ⟨fun h => h, fun o h => ⟨o.expiry, h⟩⟩

/-- Every way in which a command can change the ledger. -/
inductive LedgerStep (i : Instr) (s t : State) : Prop
  /-- Nothing changes but the idle timer, which changes only while no operation is pending. -/
  | calm (x : Option Session) (hx : Retimed s.session x) (hq : s.operation ≠ .none → x = s.session)
      (h : t.ledger = { s.ledger with session := x })
  /-- A session is opened or renewed. -/
  | opened (hq : s.operation = .none) (o : Session)
      (ho : hostAddress o.owner = true ∧ 5 ≤ o.timeout ∧ o.timeout ≤ 600)
      (h : t.ledger = { s.ledger with session := some o })
  /-- A session ends and the staging area reverts. -/
  | closed (hq : s.operation = .none ∨ ∃ o, s.session = some o ∧ o.expiry ≠ none)
      (h : t.ledger = { s.ledger with session := none, staging := copyOf s.active })
  /-- The owner edits or validates the staging area. -/
  | edited (f : Frame) (byte : Byte) (hi : isEdit byte i) (hd : s.dispatched byte = some (f, .mgmt))
      (ho : s.ownerMay f) (x : Option Session) (hx : Retimed s.session x) (g : Staging)
      (h : t.ledger = { s.ledger with session := x, staging := g })
  /-- An ACTIVATE begins. -/
  | draining (hq : s.operation = .none) (hm : s.staging.mark = true) (o : Session)
      (ho : s.session = some o) (dest tag : Byte) (drain : Uptime)
      (h : t.ledger = { s.ledger with
        bridge := .draining
        operation := .activate dest tag drain
        session := some { o with expiry := none } })
  /-- The drain test makes the swap in a state `u` under the tables of `s`, for a pending ACTIVATE or for
  the one that begins here. -/
  | swapped (u : State) (x : Option Session) (hx : Retimed s.session x)
      (hm : s.operation.isActivate = true ∨ s.staging.mark = true) (ht : t = u.drainTest)
      (hb : u.bridge = .draining) (ho : ∃ dest tag drain, u.operation = .activate dest tag drain)
      (hd : u.drained = true)
      (hu : u.active = s.active ∧ u.generation = s.generation ∧ u.staging = s.staging)
      (h : t.ledger = { s.ledger with
        bridge := .running
        active := s.staging.tables
        generation := s.generation + 1#16
        operation := .none
        session := x })
  /-- A drain ends by its timer. -/
  | timedOut (ha : s.operation.isActivate = true) (x : Option Session) (hx : Retimed s.session x)
      (h : t.ledger = { s.ledger with bridge := .running, operation := .none, session := x })
  /-- A COMMIT begins. -/
  | committing (hq : s.operation = .none) (o : Session) (ho : s.session = some o) (dest tag : Byte)
      (h : t.ledger = { s.ledger with
        operation := .commit dest tag
          { target := s.store.target
            sequence := s.store.nextSequence
            generation := s.generation
            content := imageBytes s.store.nextSequence s.generation s.active
            written := false
            fault := false }
        session := some { o with expiry := none }
        store := (s.store.setView s.store.target none).writeMark s.store.target 0x00#8 })
  /-- The write of a COMMIT ends. -/
  | written (dest tag : Byte) (job : CommitJob) (ho : s.operation = .commit dest tag job)
      (fault : Bool) (cells : List Host.Cell)
      (h : t.ledger = { s.ledger with
        operation := .commit dest tag { job with written := true, fault := fault }
        store := s.store.setSlot job.target
          (writeImage job.content cells (s.store.slot job.target)) })
  /-- A COMMIT succeeds. -/
  | verified (dest tag : Byte) (job : CommitJob) (ho : s.operation = .commit dest tag job)
      (hg : commitGood s.store job = true) (x : Option Session) (hx : Retimed s.session x)
      (h : t.ledger = { s.ledger with
        operation := .none
        store := (s.store.writeMark job.target completeMark).setView job.target
          (some ⟨job.sequence, job.generation⟩)
        committed := some job.generation
        session := x })
  /-- A COMMIT fails. -/
  | unverified (dest tag : Byte) (job : CommitJob) (ho : s.operation = .commit dest tag job)
      (x : Option Session) (hx : Retimed s.session x)
      (h : t.ledger = { s.ledger with operation := .none, session := x })
  /-- A RESTART WARM is taken as its closing MREPLY has been sent. -/
  | warm (f : TxFrame) (rest : List TxFrame) (hf : s.txQueue = f :: rest)
      (hc : f.cls = .closing .restartWarm)
      (h : t.ledger = { s.ledger with
        session := none, staging := copyOf s.active, operation := .none })
  /-- The part stops: RESET, power, or the beginning of a cold start. -/
  | halted (x : Option Session) (hx : Retimed s.session x) (supply resetLow : Bool)
      (bridge : BridgeState) (store : ImageStore)
      (hp : bridge = .starting ∨ (supply && !resetLow) = false)
      (hs : store = s.cutCommit.store ∨ store = s.cutCommit.store.rebuilt)
      (h : t.ledger = { s.ledger with
        supply := supply
        resetLow := resetLow
        bridge := bridge
        operation := .none
        store := store
        freeCount := s.cutCommit.freeCount
        session := x })
  /-- The supply or the pin changes while the part already stands still. -/
  | pins (supply resetLow : Bool) (hp : (supply && !resetLow) = false)
      (h : t.ledger = { s.ledger with supply := supply, resetLow := resetLow })
  /-- Start-up ends. -/
  | running (hi : i = .enterRunning) (hb : s.bridge = .starting)
      (h : t.ledger = { s.ledger with
        bridge := .running
        active := s.store.selection.1
        generation := s.store.selection.2.1
        committed := s.store.selection.2.2
        session := none
        staging := copyOf s.store.selection.1
        operation := .none })

/-! ## How the shared operations bear on it -/

theorem Traffic.calm {i : Instr} {s t : State} (h : Traffic s t) : LedgerStep i s t :=
  .calm s.session (.refl _) (fun _ => rfl) h.ledger

/-- A state whose ledger is as before. -/
theorem calm_of_ledger {i : Instr} {s t : State} (h : t.ledger = s.ledger) : LedgerStep i s t :=
  .calm s.session (.refl _) (fun _ => rfl) h

theorem touchSession_retimed (s : State) (x : Byte) :
    Retimed s.session (s.touchSession x).session ∧
      (s.operation ≠ .none → (s.touchSession x).session = s.session) ∧
      (s.touchSession x).ledger = { s.ledger with session := (s.touchSession x).session } := by
  obtain ⟨o, h, h1, h2, h3⟩ := touchSession_eq s x
  rw [h]
  exact ⟨⟨h1, h2⟩, h3, rfl⟩

theorem answer_ledger (s : State) (f : Frame) (st : Status) (r : List Byte) :
    (s.answer f st r).ledger = s.ledger := (traffic.pushPrompt s _ _ _).ledger

/-- A refused or answered frame moves the idle timer alone. -/
theorem calm_of_touch {i : Instr} {s t : State} (x : Byte)
    (h : t.ledger = (s.frameTaken.touchSession x).ledger) : LedgerStep i s t := by
  obtain ⟨h1, h2, h3⟩ := touchSession_retimed s.frameTaken x
  exact .calm _ h1 h2 (h.trans h3)

theorem onMgmt_ledger {i : Instr} {sel : Frame → Bool} {act : Frame → State → State} {byte : Byte}
    {s : State}
    (h : ∀ f, s.dispatched byte = some (f, .mgmt) → LedgerStep i s (act f s.frameTaken)) :
    LedgerStep i s (onMgmt sel act byte s) := by
  rcases onMgmt_cases sel act byte s with h' | ⟨f, hf, -, h'⟩
  · rw [h']; exact calm_of_ledger rfl
  · rw [h']; exact h f hf

/-- A management operation: a refusal, or its effect under what its checks say. -/
theorem mgmt_ledger {i : Instr} {α : Type} {sel : Frame → Bool} {n : Needs}
    {read : State → List Byte → Option α} {act : α → Frame → State → State} {byte : Byte}
    {s : State}
    (h : ∀ a f, s.dispatched byte = some (f, .mgmt) →
      read (s.frameTaken.touchSession f.source) (mgmtArgs f.body) = some a →
      (s.operation = .none ∨ n.whilePending = true) →
      (n.session = false ∨ s.ownedBy f.source = true) →
      LedgerStep i s (act a f (s.frameTaken.touchSession f.source))) :
    LedgerStep i s (onMgmt sel (serve n read act) byte s) := by
  refine onMgmt_ledger fun f hf => ?_
  rcases serve_cases n read act f s.frameTaken with ⟨st, h'⟩ | ⟨a, h0, h1, -, h3, h'⟩
  · rw [h']; exact calm_of_touch _ (answer_ledger _ _ _ _)
  · rw [h']; exact h a f hf h0 h1 h3

/-- An operation that only answers. -/
theorem readOut_ledger {i : Instr} {α : Type} {sel : Frame → Bool} {n : Needs}
    {read : State → List Byte → Option α} {act : α → Frame → State → State} {byte : Byte}
    {s : State} (h : ∀ a f t, (act a f t).ledger = t.ledger) :
    LedgerStep i s (onMgmt sel (serve n read act) byte s) :=
  mgmt_ledger fun _ _ _ _ _ _ => calm_of_touch _ (h _ _ _)

/-- A staging edit or VALIDATE. -/
theorem edit_ledger {i : Instr} {α : Type} {sel : Frame → Bool}
    {read : State → List Byte → Option α} {act : α → Frame → State → State} {byte : Byte}
    {s : State} (hi : isEdit byte i)
    (h : ∀ a f t, ∃ g, (act a f t).ledger = { t.ledger with staging := g }) :
    LedgerStep i s (onMgmt sel (serve needsOwner read act) byte s) := by
  refine mgmt_ledger fun a f hf _ h1 h3 => ?_
  obtain ⟨g, hg⟩ := h a f (s.frameTaken.touchSession f.source)
  obtain ⟨k1, -, k3⟩ := touchSession_retimed s.frameTaken f.source
  rw [k3] at hg
  refine .edited f byte hi hf ⟨?_, ?_⟩ _ k1 g hg
  · rcases h1 with h1 | h1
    · exact h1
    · cases h1
  · rcases h3 with h3 | h3
    · cases h3
    · exact h3

theorem Retimed.mapExpiry (a : Option Session) (x : Option Uptime) :
    Retimed a (a.map (fun o => { o with expiry := x })) := by
  cases a with
  | none => exact ⟨fun _ => rfl, fun o h => (nomatch h)⟩
  | some n => exact ⟨fun h => (nomatch h), fun o h => by cases h; exact ⟨x, rfl⟩⟩

theorem startIdleTimer_retimed (s : State) : Retimed s.session s.startIdleTimer.session := by
  unfold State.startIdleTimer
  cases h : s.session with
  | none => exact ⟨fun _ => h, fun o ho => (nomatch ho)⟩
  | some n => exact ⟨fun h => (nomatch h), fun o ho => by cases ho; exact ⟨_, rfl⟩⟩

theorem stopIdleTimer_retimed (s : State) : Retimed s.session s.stopIdleTimer.session := by
  unfold State.stopIdleTimer
  cases h : s.session with
  | none => exact ⟨fun _ => h, fun o ho => (nomatch ho)⟩
  | some n => exact ⟨fun h => (nomatch h), fun o ho => by cases ho; exact ⟨_, rfl⟩⟩

theorem endOperation_retimed {s u : State} (h : u.session = s.session) :
    Retimed s.session u.endOperation.session :=
  h ▸ startIdleTimer_retimed { u with operation := .none }

theorem endOperation_ledger (s : State) : s.endOperation.ledger =
    { s.ledger with operation := .none, session := s.endOperation.session } := by
  unfold State.endOperation State.startIdleTimer
  split <;> rfl

theorem swapTables_ledger (s : State) (d t : Byte) :
    ∃ x, Retimed s.session x ∧ (s.swapTables d t).ledger = { s.ledger with
      bridge := .running
      active := s.staging.tables
      generation := s.generation + 1#16
      operation := .none
      session := x } := by
  refine ⟨(s.swapTables d t).session, ?_, ?_⟩
  · exact endOperation_retimed rfl
  · simp only [State.swapTables, State.endOperation, State.startIdleTimer]
    split <;> rfl

theorem swapTables_slots (s : State) (d t : Byte) : (s.swapTables d t).slots = s.slots := by
  simp only [State.swapTables, State.endOperation, State.startIdleTimer]
  split <;> rfl

theorem swapTables_legs (s : State) (d t : Byte) : (s.swapTables d t).legs = s.legs := by
  simp only [State.swapTables, State.endOperation, State.startIdleTimer]
  split <;> rfl

theorem swapTables_scans (s : State) (d t : Byte) :
    (s.swapTables d t).scans = startedRuns s.uptime s.staging.tables.scan s.scans := by
  simp only [State.swapTables, State.endOperation, State.startIdleTimer]
  split <;> rfl

/-- A swap is a change of tables between what lines give back and what they take: traffic both. -/
theorem swap_around (s : State) (d t : Byte) :
    ∃ v, Traffic s v ∧ Traffic (v.swapTables d t) (s.swap d t) :=
  ⟨_, traffic.withdrawn s _, traffic.foldl traffic.kick _ _⟩

theorem swap_ledger (s : State) (d t : Byte) :
    ∃ x, Retimed s.session x ∧ (s.swap d t).ledger = { s.ledger with
      bridge := .running
      active := s.staging.tables
      generation := s.generation + 1#16
      operation := .none
      session := x } := by
  obtain ⟨v, hv, hk⟩ := swap_around s d t
  obtain ⟨x, hx, h⟩ := swapTables_ledger v d t
  refine ⟨x, hv.session ▸ hx, ?_⟩
  rw [hk.ledger, h, hv.ledger, hv.staging, hv.generation]

/-- Traffic, and perhaps a drain test after it. -/
theorem drained_ledger {i : Instr} {s u t : State} (hu : u.ledger = s.ledger)
    (h : t = u ∨ t = u.drainTest) : LedgerStep i s t := by
  rcases h with rfl | rfl
  · exact calm_of_ledger hu
  · rcases drainTest_cases u with h | ⟨d, tg, x, h1, h2, h3, h⟩
    · rw [h]; exact calm_of_ledger hu
    · obtain ⟨y, hy, hl⟩ := swap_ledger u d tg
      have hf := hu
      simp only [State.ledger, Ledger.mk.injEq] at hf
      rw [hf.2.2.2.2.2.1] at hy
      refine .swapped u y hy (.inl (by rw [← hf.2.2.2.2.2.2.2.1, h1]; rfl)) rfl h2 ⟨_, _, _, h1⟩ h3
        ⟨hf.2.2.2.1, hf.2.2.2.2.1, hf.2.2.2.2.2.2.1⟩ ?_
      rw [h, hl, hu, hf.2.2.2.2.2.2.1, hf.2.2.2.2.1]

theorem stageEdit_ledger (g : Staging) (f : Frame) (t : State) :
    (stageEdit g f t).ledger = { t.ledger with staging := { g with mark := false } } :=
  answer_ledger { t with staging := { g with mark := false } } f .ok []

theorem cutCommit_eq (s : State) :
    s.cutCommit = { s with store := s.cutCommit.store, freeCount := s.cutCommit.freeCount } := by
  simp only [State.cutCommit]
  (repeat' split) <;> rfl

theorem halt_ledger (s : State) : ∃ x, Retimed s.session x ∧ s.halt.ledger = { s.ledger with
    operation := .none
    store := s.cutCommit.store
    freeCount := s.cutCommit.freeCount
    session := x } := by
  refine ⟨s.halt.session, ?_, ?_⟩
  · unfold State.halt
    rw [cutCommit_eq]
    exact stopIdleTimer_retimed
      { s with store := s.cutCommit.store, freeCount := s.cutCommit.freeCount }
  · unfold State.halt
    rw [cutCommit_eq]
    simp only [State.stopIdleTimer]
    split <;> rfl

/-- Stopping leaves the supply and the pin as they are. -/
theorem halt_pins (s : State) : s.halt.supply = s.supply ∧ s.halt.resetLow = s.resetLow ∧
    s.halt.bridge = s.bridge := by
  obtain ⟨x, -, h⟩ := halt_ledger s
  exact ⟨congrArg Ledger.supply h, congrArg Ledger.resetLow h, congrArg Ledger.bridge h⟩

theorem cutCommit_congr {s u : State} (h1 : u.operation = s.operation) (h2 : u.store = s.store)
    (h3 : u.freeCount = s.freeCount) : u.cutCommit.store = s.cutCommit.store ∧
      u.cutCommit.freeCount = s.cutCommit.freeCount := by
  unfold State.cutCommit
  rw [h1]
  split
  · split
    · exact ⟨h2, h3⟩
    · simp only [h2, h3, and_self]
  · exact ⟨h2, h3⟩

/-- The part stops, and perhaps begins a cold start. -/
theorem halted_ledger {i : Instr} {s u t : State} (supply resetLow : Bool) (bridge : BridgeState)
    (store : ImageStore) {a b : Bool}
    (hu : u.ledger = { s.ledger with supply := a, resetLow := b })
    (hp : bridge = .starting ∨ (supply && !resetLow) = false)
    (hs : store = u.halt.store ∨ store = u.halt.store.rebuilt)
    (h : t.ledger = { u.halt.ledger with
      supply := supply, resetLow := resetLow, bridge := bridge, store := store }) :
    LedgerStep i s t := by
  obtain ⟨x, hx, hl⟩ := halt_ledger u
  have hf := hu
  simp only [State.ledger, Ledger.mk.injEq] at hf
  obtain ⟨hc1, hc2⟩ := cutCommit_congr hf.2.2.2.2.2.2.2.1 hf.2.2.2.2.2.2.2.2.1
    hf.2.2.2.2.2.2.2.2.2.2.1
  have hst : u.halt.store = s.cutCommit.store := by
    rw [← hc1]
    exact congrArg Ledger.store hl
  rw [hf.2.2.2.2.2.1] at hx
  rw [hst] at hs
  refine .halted x hx supply resetLow bridge store hp hs ?_
  rw [h, hl, hu, hc2]

/-! ## Every command -/

theorem host_of_dispatched {s : State} {byte : Byte} {f : Frame} {k : FrameKind}
    (h : s.dispatched byte = some (f, k)) : hostAddress f.source = true := by
  unfold State.dispatched State.arrival at h
  split at h
  · rename_i g kind ha
    split at ha
    · injection h with h
      injection ha with ha
      injection h with h1 h2
      injection ha with h3 h4
      subst h1 h3
      unfold judgeFrame at h4
      split at h4
      · cases h4
      · split at h4
        · cases h4
        · split at h4
          · cases h4
          · rename_i hn
            simp only [Bool.or_eq_true, not_or, Bool.not_eq_true'] at hn
            simpa using hn.1
    · cases ha
  · cases h

theorem retimed_some {a b : Option Session} {o : Session} (h : Retimed a b) (ho : b = some o) :
    ∃ n, a = some n ∧ o.owner = n.owner ∧ o.timeout = n.timeout := by
  cases ha : a with
  | none => rw [h.1 ha] at ho; cases ho
  | some n =>
    obtain ⟨x, hx⟩ := h.2 n ha
    rw [hx] at ho
    cases ho
    exact ⟨n, rfl, rfl, rfl⟩

theorem sessionOpenArg_range {args : List Byte} {n : Nat} (h : sessionOpenArg args = some n) :
    5 ≤ n ∧ n ≤ 600 := by
  unfold sessionOpenArg at h
  split at h
  · simp only [] at h
    split at h
    · cases h; omega
    · split at h
      · cases h; omega
      · cases h
  · cases h

/-- The session of an owner stands. -/
theorem session_of_owned {s : State} {x : Byte} (h : s.ownedBy x = true) :
    ∃ o, s.session = some o ∧ o.owner = x := by
  unfold State.ownedBy at h
  split at h
  · rename_i n hn; exact ⟨n, hn, by simpa using h⟩
  · cases h

theorem exec_ledger_activate (byte : Byte) (s : State) :
    LedgerStep (.activate byte) s
      (onMgmt (isOp .activate) (serve needsClosing (fun _ => activateArg) activate) byte s) := by
  refine mgmt_ledger fun a f hf h0 h1 h3 => ?_
  have hq : s.operation = .none := by rcases h1 with h1 | h1 <;> [exact h1; cases h1]
  obtain ⟨o, ho, -⟩ := session_of_owned (by rcases h3 with h3 | h3 <;> [cases h3; exact h3])
  unfold activate
  split
  · rename_i hm
    have hm : s.staging.mark = true := by simpa using hm
    obtain ⟨k1, -, k3⟩ := touchSession_retimed s.frameTaken f.source
    generalize s.frameTaken.touchSession f.source = v at k1 k3
    unfold State.enterDraining
    obtain ⟨n, hn⟩ := k1.2 o ho
    have hb : ∀ d, (State.stopIdleTimer { v with
        bridge := .draining, operation := .activate f.source f.tag d }).ledger =
        { s.ledger with
          bridge := .draining
          operation := .activate f.source f.tag d
          session := some { o with expiry := none } } := by
      intro d
      have k4 : v.ledger = { s.ledger with session := some { o with expiry := n } } := by
        rw [k3, hn]; rfl
      simp only [State.ledger, Ledger.mk.injEq] at k4
      simp only [State.stopIdleTimer, hn, State.ledger, Ledger.mk.injEq]
      simp only [k4, and_self]
    generalize hbase : State.stopIdleTimer _ = base
    have hbl := hb (after v.uptime a)
    rw [hbase] at hbl
    have hst := traffic.together base (fun _ w => w.isScan) _ (traffic.stopScans _)
    generalize base.together _ State.stopScans = u at hst
    have ht := hst.ledger.trans hbl
    rcases drainTest_cases u with h | ⟨d, tg, x, h1', h2', h3', h⟩
    · rw [h]
      exact .draining hq hm o ho _ _ _ ht
    · obtain ⟨y, hy, hl⟩ := swap_ledger u d tg
      simp only [State.ledger, Ledger.mk.injEq] at ht
      have hr : Retimed s.session y := by
        rw [ht.2.2.2.2.2.1] at hy
        rw [ho]
        refine ⟨fun hn => (nomatch hn), fun p hp => ?_⟩
        cases hp
        obtain ⟨z, hz⟩ := hy.2 _ rfl
        exact ⟨z, hz⟩
      refine .swapped u y hr (.inr hm) rfl h2' ⟨_, _, _, h1'⟩ h3'
        ⟨ht.2.2.2.1, ht.2.2.2.2.1, ht.2.2.2.2.2.2.1⟩ ?_
      rw [h, hl]
      simp only [State.ledger, Ledger.mk.injEq]
      simp only [ht, and_self]
  · exact calm_of_touch _ (answer_ledger _ _ _ _)

theorem exec_ledger {i : Instr} {s t : State} (h : exec i s = .next t) : LedgerStep i s t := by
  have next_inj : ∀ {a b : State},
      (Host.Outcome.next a : Host.Outcome State Fault Refusal) = .next b → a = b :=
    fun h => by cases h; rfl
  have onData : ∀ {kind : FrameKind} {act : Frame → State → State} {byte : Byte},
      (∀ f t, Traffic t (act f t)) → LedgerStep i s (onKind kind act byte s) := by
    intro kind act byte ha
    rcases onKind_cases kind act byte s with h | ⟨f, -, h⟩ <;> rw [h]
    · exact calm_of_ledger rfl
    · exact calm_of_ledger (ha f _).ledger
  have quiet : ∀ {u : State}, u.ledger = s.ledger → LedgerStep i s u := calm_of_ledger
  have same : LedgerStep i s s := calm_of_ledger rfl
  cases i <;> simp only [exec] at h
  case hostBadLength b =>
    simp only [execHostBadLength] at h; split at h <;> (have h := next_inj h; subst h)
    · exact quiet rfl
    · exact same
  case hostGapTimerExpiry =>
    simp only [execHostGapTimerExpiry] at h; split at h <;> (have h := next_inj h; subst h)
    · exact quiet rfl
    · exact same
  case hostFrameRejected b =>
    simp only [execHostFrameRejected] at h; split at h <;> (have h := next_inj h; subst h)
    · exact same
    · exact quiet rfl
    · exact same
  case hostByteReceived b =>
    simp only [execHostByteReceived] at h; split at h <;> (have h := next_inj h; subst h)
    · simp only [State.keepByte]; (repeat' split) <;> exact quiet rfl
    · exact same
  case fetch b =>
    have h := next_inj h; subst h; exact onData fun f t => traffic.dataRequest t .fetch f
  case store b =>
    have h := next_inj h; subst h; exact onData fun f t => traffic.dataRequest t .store f
  case storeSet b =>
    have h := next_inj h; subst h; exact onData fun f t => traffic.dataRequest t .storeSet f
  case cancel b =>
    have h := next_inj h; subst h
    rcases onKind_cases .cancel (fun f t => t.cancelRequest f) b s with h | ⟨f, -, h⟩ <;> rw [h]
    · exact same
    · obtain ⟨u, hu, hc⟩ := traffic.cancelRequest s.frameTaken f
      exact drained_ledger hu.ledger hc
  case mgmtBadOperation b =>
    have h := next_inj h; subst h
    exact onMgmt_ledger fun f _ => calm_of_touch _ (answer_ledger _ _ _ _)
  case sessionOpen b =>
    have h := next_inj h; subst h
    refine mgmt_ledger fun a f hf h0 h1 _ => ?_
    have hq : s.operation = .none := by rcases h1 with h1 | h1 <;> [exact h1; cases h1]
    have opened : ∀ st r, LedgerStep (.sessionOpen b) s
        (((s.frameTaken.touchSession f.source).openSession f.source a).answer f st r) := by
      intro st r
      obtain ⟨-, -, k3⟩ := touchSession_retimed s.frameTaken f.source
      refine .opened hq ⟨f.source, a, some (after s.uptime (a * 1000))⟩
        ⟨host_of_dispatched hf, sessionOpenArg_range h0⟩ ?_
      rw [answer_ledger]
      obtain ⟨o, h, -⟩ := touchSession_eq s.frameTaken f.source
      rw [h]
      rfl
    simp only [sessionOpen]
    split
    · split
      · exact opened _ _
      · exact calm_of_touch _ (answer_ledger _ _ _ _)
    · exact opened _ _
  case sessionClose b =>
    have h := next_inj h; subst h
    refine mgmt_ledger fun a f hf h0 h1 _ => ?_
    have hq : s.operation = .none := by rcases h1 with h1 | h1 <;> [exact h1; cases h1]
    refine .closed (.inl hq) ?_
    rw [answer_ledger]
    obtain ⟨o, h, -⟩ := touchSession_eq s.frameTaken f.source
    rw [h]
    rfl
  case stageCopyActive b =>
    have h := next_inj h; subst h
    exact edit_ledger (byte := b) (by simp [isEdit]) fun a f t => ⟨_, answer_ledger { t with staging := copyOf t.active } _ _ _⟩
  case stageClear b =>
    have h := next_inj h; subst h
    exact edit_ledger (byte := b) (by simp [isEdit]) fun a f t => ⟨_, stageEdit_ledger _ f t⟩
  case stagePutMap b =>
    have h := next_inj h; subst h
    exact edit_ledger (byte := b) (by simp [isEdit]) fun a f t => ⟨_, stageEdit_ledger _ f t⟩
  case stageDeleteMap b =>
    have h := next_inj h; subst h
    exact edit_ledger (byte := b) (by simp [isEdit]) fun a f t => ⟨_, stageEdit_ledger _ f t⟩
  case stagePutScan b =>
    have h := next_inj h; subst h
    exact edit_ledger (byte := b) (by simp [isEdit]) fun a f t => ⟨_, stageEdit_ledger _ f t⟩
  case stageDeleteScan b =>
    have h := next_inj h; subst h
    exact edit_ledger (byte := b) (by simp [isEdit]) fun a f t => ⟨_, stageEdit_ledger _ f t⟩
  case stagePutLine b =>
    have h := next_inj h; subst h
    exact edit_ledger (byte := b) (by simp [isEdit]) fun a f t => ⟨_, stageEdit_ledger _ f t⟩
  case stagePutBridge b =>
    have h := next_inj h; subst h
    exact edit_ledger (byte := b) (by simp [isEdit]) fun a f t => ⟨_, stageEdit_ledger _ f t⟩
  case validate b =>
    have h := next_inj h; subst h
    refine edit_ledger (byte := b) (by simp [isEdit]) fun a f t => ?_
    simp only [validateStaging]
    split
    · exact ⟨_, answer_ledger { t with staging := { t.staging with mark := false } } _ _ _⟩
    · exact ⟨_, answer_ledger { t with staging := { t.staging with mark := true } } _ _ _⟩
  case activate b => have h := next_inj h; subst h; exact exec_ledger_activate b s
  case drainTimerExpiry =>
    simp only [execDrainTimerExpiry] at h
    split at h
    · rename_i d tg x ho
      split at h <;> (have h := next_inj h; subst h)
      · refine .timedOut (by rw [ho]; rfl) (s.drainTimedOut d tg).session ?_ ?_
        · exact endOperation_retimed (s := s) rfl
        · unfold State.drainTimedOut
          rw [endOperation_ledger]
          rfl
      · exact same
    · have h := next_inj h; subst h; exact same
  case commit b =>
    have h := next_inj h; subst h
    refine mgmt_ledger fun a f hf h0 h1 h3 => ?_
    have hq : s.operation = .none := by rcases h1 with h1 | h1 <;> [exact h1; cases h1]
    obtain ⟨o, ho, -⟩ := session_of_owned (by rcases h3 with h3 | h3 <;> [cases h3; exact h3])
    refine .committing hq o ho f.source f.tag ?_
    obtain ⟨p, h, -, h2, -⟩ := touchSession_eq s.frameTaken f.source
    obtain ⟨x, hx⟩ := h2 o ho
    rw [h, hx]
    rfl
  case commitWriteEnd fault cells =>
    simp only [execCommitWriteEnd] at h
    split at h
    · rename_i d tg job hs ho
      split at h <;> (have h := next_inj h; subst h)
      · exact same
      · exact .written d tg job ho fault cells rfl
    · have h := next_inj h; subst h; exact same
  case commitVerifyResult =>
    simp only [execCommitVerifyResult] at h
    split at h
    · rename_i d tg job hs ho
      split at h
      · split at h <;> (have h := next_inj h; subst h)
        · rename_i hg
          refine .verified d tg job ho hg (s.commitDone d tg job).session ?_ ?_
          · exact endOperation_retimed (s := s) rfl
          · unfold State.commitDone
            rw [endOperation_ledger]
            rfl
        · refine .unverified d tg job ho (s.commitFailed d tg job).session ?_ ?_
          · exact endOperation_retimed (s := s) rfl
          · unfold State.commitFailed
            rw [endOperation_ledger]
            rfl
      · have h := next_inj h; subst h; exact same
    · have h := next_inj h; subst h; exact same
  case restartWarm b => have h := next_inj h; subst h; exact readOut_ledger fun _ _ _ => rfl
  case restartCold b => have h := next_inj h; subst h; exact readOut_ledger fun _ _ _ => rfl
  case stationReset b =>
    have h := next_inj h; subst h
    exact readOut_ledger fun a f t =>
      (answer_ledger _ _ _ _).trans (traffic.resetStation t _ _).ledger
  case statsRead b =>
    have h := next_inj h; subst h
    refine onMgmt_ledger fun f hf => ?_
    simp only [statsRead]
    split
    · rcases serve_cases needsNothing statsArgs (fun a f t => t.answer f .ok (t.statsResults f a)) f s.frameTaken with ⟨st, h'⟩ | ⟨a, h0, h1, -, h3, h'⟩
      · rw [h']; exact calm_of_touch _ (answer_ledger _ _ _ _)
      · rw [h']; exact calm_of_touch _ (answer_ledger _ _ _ _)
    · exact calm_of_touch _ (answer_ledger _ _ _ _)
  case statsClear b =>
    have h := next_inj h; subst h
    refine onMgmt_ledger fun f hf => ?_
    simp only [statsClear]
    split
    · rcases serve_cases needsOwner statsArgs (fun a f t => (t.clearGroup a).answer f .ok (t.statsResults f a)) f s.frameTaken with ⟨st, h'⟩ | ⟨a, h0, h1, -, h3, h'⟩
      · rw [h']; exact calm_of_touch _ (answer_ledger _ _ _ _)
      · rw [h']
        exact calm_of_touch _ ((answer_ledger _ _ _ _).trans (traffic.clearGroup _ _).ledger)
    · exact calm_of_touch _ (answer_ledger _ _ _ _)
  case status b => have h := next_inj h; subst h; exact readOut_ledger fun a f t => answer_ledger _ _ _ _
  case readActive b => have h := next_inj h; subst h; exact readOut_ledger fun a f t => answer_ledger _ _ _ _
  case readStage b => have h := next_inj h; subst h; exact readOut_ledger fun a f t => answer_ledger _ _ _ _
  case stationList b => have h := next_inj h; subst h; exact readOut_ledger fun a f t => answer_ledger _ _ _ _
  case scanInfo b => have h := next_inj h; subst h; exact readOut_ledger fun a f t => answer_ledger _ _ _ _
  case idleTimerExpiry =>
    simp only [execIdleTimerExpiry] at h
    split at h <;> (have h := next_inj h; subst h)
    · rename_i he
      refine .closed (.inr ?_) rfl
      simp only [Bool.and_eq_true] at he
      cases ho : s.session with
      | none => rw [ho] at he; simp [expired] at he
      | some o =>
        refine ⟨o, rfl, fun hn => ?_⟩
        rw [ho] at he
        simp [expired, hn] at he
    · exact same
  case transmitStart =>
    simp only [execTransmitStart] at h; split at h <;> (have h := next_inj h; subst h) <;> exact quiet rfl
  case transmitEnd =>
    simp only [execTransmitEnd] at h
    split at h
    · rename_i f rest hs1 hs2 hs3
      have h := next_inj h; subst h
      cases hc : f.cls with
      | slotReply k =>
        exact quiet (traffic_releaseSlot { s with sending := none, txQueue := rest } k).ledger
      | prompt => exact quiet rfl
      | closing k =>
        cases k with
        | swap => simp only [State.frameSent, State.switchLink]; split <;> exact quiet rfl
        | drainTimeout => exact quiet rfl
        | commit => exact quiet rfl
        | restartWarm => exact .warm f rest hs3 hc rfl
        | restartCold =>
          exact halted_ledger (u := { s with sending := none, txQueue := rest }) _ _ .starting _
            (a := s.supply) (b := s.resetLow) rfl (.inl rfl) (.inr rfl) rfl
    · have h := next_inj h; subst h; exact same
  case guardTimeExpiry l =>
    simp only [execGuardTimeExpiry] at h
    split at h
    · split at h <;> (have h := next_inj h; subst h)
      · exact (traffic.guardOver s l).calm
      · exact same
    · have h := next_inj h; subst h; exact same
  case fieldTransmissionEnd l =>
    simp only [execFieldTransmissionEnd] at h
    split at h <;> (have h := next_inj h; subst h)
    · obtain ⟨u, hu, hc⟩ := traffic.transmitted s l ‹Nat› ‹Work›
      exact drained_ledger hu.ledger hc
    · exact same
  case fieldReceptionStart l =>
    simp only [execFieldReceptionStart] at h
    split at h <;> (have h := next_inj h; subst h) <;> exact quiet rfl
  case fieldFrameReceived l b =>
    simp only [execFieldFrameReceived] at h
    split at h
    · split at h <;> (have h := next_inj h; subst h)
      · obtain ⟨u, hu, hc⟩ := traffic.fieldFrame s l ‹Frame›
        exact drained_ledger hu.ledger hc
      · exact same
    · have h := next_inj h; subst h; exact same
  case fieldGapAbandon l =>
    simp only [execFieldGapAbandon] at h
    split at h <;> (have h := next_inj h; subst h)
    · obtain ⟨u, hu, hc⟩ := traffic.fieldAbandon s l
      exact drained_ledger hu.ledger hc
    · exact same
  case replyTimerExpiry l =>
    simp only [execReplyTimerExpiry] at h
    split at h
    · split at h <;> (have h := next_inj h; subst h)
      · obtain ⟨u, hu, hc⟩ := traffic.attemptEnd s l .timeout
        exact drained_ledger hu.ledger hc
      · exact same
    · have h := next_inj h; subst h; exact same
  case busyBackoffExpiry l =>
    simp only [execBusyBackoffExpiry] at h
    split at h
    · split at h <;> (have h := next_inj h; subst h)
      · exact (traffic.backoffOver s l).calm
      · exact same
    · have h := next_inj h; subst h; exact same
  case scanDueExpiry p =>
    simp only [execScanDueExpiry] at h
    split at h
    · split at h <;> (have h := next_inj h; subst h)
      · exact (traffic.scanDue s p _ _).calm
      · exact same
    · have h := next_inj h; subst h; exact same
  case probeTimerExpiry l n =>
    simp only [execProbeTimerExpiry] at h
    split at h
    · split at h <;> (have h := next_inj h; subst h)
      · exact (traffic.listProbe s l n).calm
      · exact same
    · have h := next_inj h; subst h; exact same
  case resetPinEvent =>
    simp only [execResetPinEvent] at h
    (repeat' split at h) <;> (have h := next_inj h; subst h)
    · exact same
    · exact halted_ledger (u := s) s.halt.supply true s.halt.bridge _ (a := s.supply)
        (b := s.resetLow) rfl (.inr (by simp)) (.inl rfl) rfl
    · exact .pins s.supply true (by simp) rfl
  case resetPinRelease =>
    simp only [execResetPinRelease] at h
    (repeat' split at h) <;> (have h := next_inj h; subst h)
    · exact same
    · exact halted_ledger (u := { s with resetLow := false }) _ _ .starting _
        (a := s.supply) (b := false) rfl (.inl rfl) (.inr rfl) rfl
    · exact .pins s.supply false (by simp_all) rfl
  case powerOn =>
    simp only [execPowerOn] at h
    (repeat' split at h) <;> (have h := next_inj h; subst h)
    · exact same
    · exact .pins true s.resetLow (by simp_all) rfl
    · exact halted_ledger (u := { s with supply := true }) _ _ .starting _
        (a := true) (b := s.resetLow) rfl (.inl rfl) (.inr rfl) rfl
  case powerLoss =>
    simp only [execPowerLoss] at h
    (repeat' split at h) <;> (have h := next_inj h; subst h)
    · exact .pins false s.resetLow (by simp_all) rfl
    · exact halted_ledger (u := s) false s.halt.resetLow s.halt.bridge _ (a := s.supply)
        (b := s.resetLow) rfl (.inr rfl) (.inl rfl) rfl
    · exact same
  case enterRunning =>
    simp only [execEnterRunning] at h
    split at h <;> (have h := next_inj h; subst h)
    · rename_i hb
      simp only [Bool.and_eq_true, decide_eq_true_eq] at hb
      exact .running rfl hb.2 rfl
    · exact same

end Sys2Proof.Machine
end

