-- ==== Sys2Proof/Laws/Ops.lean ====
section
/-!
SUPPORT. What each shared operation can do, said once: the cases of an operation, each with the state it
gives, so that a proof cites the cases and unfolds nothing.
-/

namespace Sys2Proof.Machine

/-! ## Finite maps -/

@[simp] theorem Sparse.put_put {α : Type} (k : Nat) (a b : α) (m : Sparse α) :
    (m.put k a).put k b = m.put k b := by
  induction m with
  | nil => simp [Sparse.put]
  | cons e m ih =>
    obtain ⟨j, c⟩ := e
    simp only [Sparse.put]
    split
    · simp [Sparse.put]
    · split
      · simp [Sparse.put]
      · rename_i h1 h2
        simp [Sparse.put, h1, h2, ih]

theorem Sparse.modify_modify {α : Type} (k : Nat) (f g : α → α) (m : Sparse α) :
    (m.modify k f).modify k g = m.modify k (fun a => g (f a)) := by
  induction m with
  | nil => rfl
  | cons e m ih =>
    obtain ⟨j, c⟩ := e
    by_cases h : j = k
    · simp [Sparse.modify, h]
    · simp [Sparse.modify, h, ih]

/-- Two updates of a key agree when they agree on the value listed there. -/
theorem Sparse.modify_congr {α : Type} {k : Nat} {f g : α → α} {m : Sparse α}
    (h : ∀ a, m.get k = some a → f a = g a) : m.modify k f = m.modify k g := by
  induction m with
  | nil => rfl
  | cons e m ih =>
    obtain ⟨j, c⟩ := e
    by_cases hj : j = k
    · simp [Sparse.modify, hj, h c (by simp [Sparse.get, hj])]
    · simp only [Sparse.modify, if_neg hj]
      rw [ih (fun a ha => h a (by simpa [Sparse.get, hj] using ha))]

theorem Sparse.get_filter_key {α : Type} (p : Nat → Bool) (m : Sparse α) (k : Nat) :
    Sparse.get (m.filter (fun e => p e.1)) k = if p k then m.get k else none := by
  induction m with
  | nil => simp
  | cons e m ih =>
    obtain ⟨j, a⟩ := e
    by_cases hp : p j = true
    · rw [List.filter_cons_of_pos (by simpa using hp)]
      by_cases hj : j = k
      · subst hj
        simp [Sparse.get, hp]
      · simp only [Sparse.get, if_neg hj]
        exact ih
    · rw [List.filter_cons_of_neg (by simpa using hp), ih]
      by_cases hj : j = k
      · subst hj
        simp [hp]
      · simp [Sparse.get, hj]

/-! ## Transmit queue -/

/-- A prompt frame joins, or is dropped and counted (R118). -/
theorem pushPrompt_cases (s : State) (d t : Byte) (p : Payload) :
    (promptCount s.txQueue < 7 ∧
      s.pushPrompt d t p = { s with txQueue := s.txQueue ++ [⟨.prompt, d, t, p⟩] }) ∨
    (7 ≤ promptCount s.txQueue ∧
      s.pushPrompt d t p = { s with hostCounters := { s.hostCounters with
        repliesDropped := satInc s.hostCounters.repliesDropped } }) := by
  unfold State.pushPrompt
  split
  · exact .inl ⟨‹_›, rfl⟩
  · exact .inr ⟨by omega, rfl⟩

/-- A refusal joins and is counted, or is dropped and counted (R35, R118). -/
theorem pushRefusal_cases (s : State) (d t : Byte) (r : Reply) :
    (promptCount s.txQueue < 7 ∧
      s.pushRefusal d t r = { s with
        txQueue := s.txQueue ++ [⟨.prompt, d, t, .reply r⟩]
        hostCounters := { s.hostCounters with
          refusalsSent := satInc s.hostCounters.refusalsSent } }) ∨
    (7 ≤ promptCount s.txQueue ∧
      s.pushRefusal d t r = { s with hostCounters := { s.hostCounters with
        repliesDropped := satInc s.hostCounters.repliesDropped } }) := by
  unfold State.pushRefusal State.pushPrompt
  split
  · exact .inl ⟨‹_›, rfl⟩
  · exact .inr ⟨by omega, rfl⟩

/-- A slot is freed with its records, or was FREE (R57). -/
theorem releaseSlot_cases (s : State) (k : Nat) :
    (s.slots.get k = none ∧ s.releaseSlot k = s) ∨
    (∃ r, s.slots.get k = some r ∧ s.releaseSlot k = { s with
      slots := s.slots.del k
      legs := s.legs.filter (fun e => !r.legs.contains e.1) }) := by
  unfold State.releaseSlot
  split
  · exact .inl ⟨‹_›, rfl⟩
  · exact .inr ⟨_, ‹_›, rfl⟩

/-! ## Requests -/

/-- The completion test (R49, R53): the reply joins, or nothing happens. -/
theorem completeIfDone_cases (s : State) (k : Nat) :
    (∃ r, s.slots.get k = some r ∧ r.phase = .active ∧ s.unfinished r = false ∧
      s.completeIfDone k = { s with
        txQueue := s.txQueue ++ [⟨.slotReply k, r.source, r.tag, .reply r.reply⟩]
        slots := s.slots.put k { r with phase := .replying } }) ∨
    (s.completeIfDone k = s ∧
      ∀ r, s.slots.get k = some r → r.phase ≠ .active ∨ s.unfinished r = true) := by
  unfold State.completeIfDone
  split
  · rename_i h
    exact .inr ⟨rfl, fun r hr => by rw [h] at hr; cases hr⟩
  · rename_i r h
    split
    · rename_i hd
      exact .inl ⟨r, h, hd.1, hd.2, rfl⟩
    · rename_i hd
      refine .inr ⟨rfl, fun q hq => ?_⟩
      rw [h] at hq
      cases hq
      by_cases h1 : r.phase = .active
      · right
        by_contra h2
        exact hd ⟨h1, by simpa using h2⟩
      · exact .inl h1

/-- A leg that becomes CANCELLED (R42): its record is free, and it is in no queue and no leg list. -/
theorem cancelLeg_cases (k : Nat) (s : State) (i : Nat) :
    (s.legs.get i = none ∧ State.cancelLeg k s i = s) ∨
    (∃ g, s.legs.get i = some g ∧ State.cancelLeg k s i = { s with
      lines := s.lines.set g.line { s.lines.get g.line with
        demand := (s.lines.get g.line).demand.filter (fun j => j != i) }
      slots := s.slots.modify k (fun r => { r with legs := r.legs.filter (fun j => j != i) })
      legs := s.legs.del i }) := by
  unfold State.cancelLeg
  split
  · exact .inl ⟨‹_›, rfl⟩
  · exact .inr ⟨_, ‹_›, rfl⟩

/-- The first-failure record after an offer (R44). -/
theorem offer_cases (r : Request) (f : Failure) :
    (r.admitsFailure f.position = true ∧ r.offer f = { r with failure := some f }) ∨
    (r.admitsFailure f.position = false ∧ r.offer f = r) := by
  unfold Request.offer Request.admitsFailure
  cases h : r.failure with
  | none => exact .inl ⟨rfl, rfl⟩
  | some old =>
    by_cases hp : f.position < old.position
    · exact .inl ⟨by simpa using hp, by simp [hp]⟩
    · exact .inr ⟨by simpa using hp, by simp [hp]⟩

/-! ## Lines -/

/-- What the arbiter can take (R66). -/
theorem arbiter_cases (n : Line) :
    (∃ p rest, n.probes = p :: rest ∧
      (n.previous ≠ .probe ∨ (n.scans = [] ∧ n.demand = [])) ∧ arbiter n = some (.probe p)) ∨
    (∃ i rest, n.demand = i :: rest ∧ (n.scans = [] ∨ n.streak < 4) ∧
      (n.probes = [] ∨ n.previous = .probe) ∧ arbiter n = some (.demand i)) ∨
    (∃ i rest, n.scans = i :: rest ∧ (n.demand = [] ∨ 4 ≤ n.streak) ∧
      (n.probes = [] ∨ n.previous = .probe) ∧ arbiter n = some (.scan i)) ∨
    (n.probes = [] ∧ n.demand = [] ∧ n.scans = [] ∧ arbiter n = none) := by
  unfold arbiter probeFirst demandNext
  rcases hp : n.probes with _ | ⟨p, ps⟩ <;> rcases hd : n.demand with _ | ⟨d, ds⟩ <;>
    rcases hs : n.scans with _ | ⟨c, cs⟩ <;> by_cases hq : n.previous = .probe <;>
    by_cases hk : n.streak < 4 <;>
    simp_all [Nat.not_lt.mpr, Nat.not_le.mpr]

/-- An IDLE enabled line takes; any other stays as it is (R63, R66). -/
theorem kick_cases (s : State) (l : LineNo) :
    ((s.settings l).enabled = true ∧ (s.lines.get l).phase = .idle ∧
      s.kick l = (s.take l).modLine l (fun n => { n with
        joined := n.current.map (fun _ => s.uptime) })) ∨
    (((s.settings l).enabled = false ∨ (s.lines.get l).phase ≠ .idle) ∧ s.kick l = s) := by
  unfold State.kick
  split
  · rename_i h
    simp only [Bool.and_eq_true, decide_eq_true_eq] at h
    exact .inl ⟨h.1, h.2, rfl⟩
  · rename_i h
    refine .inr ⟨?_, rfl⟩
    by_contra hn
    simp only [not_or, Bool.not_eq_false, not_not] at hn
    exact h (by simp [hn.1, hn.2])

/-- What a line has just taken (log entry 25). -/
theorem justTaken_eq {n : Line} {now : Uptime} {w : Work} :
    n.justTaken now = some w ↔ (∃ frame timeout, n.phase = .sending frame timeout) ∧
      n.current = some w ∧ n.joined = some now := by
  unfold Line.justTaken
  split
  · rename_i hp hc hj
    rw [hc, hj]
    constructor
    · intro h
      split at h <;> simp_all
    · rintro ⟨-, hw, hj⟩
      simp_all
  · rename_i hn
    constructor
    · intro h; cases h
    · rintro ⟨⟨frame, timeout, hp⟩, hc, hj⟩
      exact absurd hj (hn frame timeout w now hp hc)

/-- A line that has just taken work gives it back; any other stays as it is. -/
theorem untake_cases (s : State) (l : LineNo) :
    (∃ w, (s.lines.get l).justTaken s.uptime = some w ∧
      s.untake l = (s.modLine l (Line.untaken w)).giveBack l w) ∨
    ((s.lines.get l).justTaken s.uptime = none ∧ s.untake l = s) := by
  unfold State.untake
  split
  · exact .inr ⟨‹_›, rfl⟩
  · exact .inl ⟨_, ‹_›, rfl⟩

/-- An event with which no joining of such work falls together is itself alone. -/
theorem together_of_none {s : State} {p : LineNo → Work → Bool} (event : State → State)
    (h : ∀ l, s.justTook p l = false) : s.together p event = event s := by
  have hn : s.joining p = [] := List.filter_eq_nil_iff.2 fun l _ => by simp [h l]
  simp only [State.together, State.withdrawn, hn, List.foldl_nil]

/-- The line's side of an attempt's beginning (R68), whatever the work. -/
theorem startAttempt_leg (s : State) (l : LineNo) (i : Nat) : s.startAttempt l (.leg i) = { s with
    legs := s.legs.modify i (fun g =>
      { g with attempts := g.attempts + 1, tag := some (s.lines.get l).nextTag })
    lines := s.lines.set l (beginSending (s.settings l)
      (s.workFrame l (.leg i) (s.lines.get l).nextTag) false (s.lines.get l)) } := rfl

theorem startAttempt_scan (s : State) (l : LineNo) (i : Nat) : s.startAttempt l (.scan i) = { s with
    scans := s.scans.modify i (fun c => { c with state :=
      match c.state with
      | .inFlight n _ => .inFlight (n + 1) (some (s.lines.get l).nextTag)
      | .finishing n _ => .finishing (n + 1) (some (s.lines.get l).nextTag)
      | other => other })
    lines := s.lines.set l (beginSending (s.settings l)
      (s.workFrame l (.scan i) (s.lines.get l).nextTag) false (s.lines.get l)) } := rfl

/-- The line's side of the end of a leg (R76). -/
theorem dropWork_leg (s : State) (l : LineNo) (i : Nat) : s.dropWork l (.leg i) = { s with
    lines := s.lines.set l { s.lines.get l with
      phase := .guard (some (after s.uptime (s.settings l).guardTime))
      current := none
      counters := { (s.lines.get l).counters with
        legsServed := satInc (s.lines.get l).counters.legsServed } } } := by
  simp only [State.dropWork, State.countLine, State.enterGuard, State.modLine, Four.get_set_same,
    Four.set_set, State.settings]

/-- The line's side of the end of a scan fetch (R76). -/
theorem dropWork_scan (s : State) (l : LineNo) (i : Nat) : s.dropWork l (.scan i) = { s with
    lines := s.lines.set l { s.lines.get l with
      phase := .guard (some (after s.uptime (s.settings l).guardTime))
      current := none } } := by
  simp only [State.dropWork, State.enterGuard, State.modLine, Four.get_set_same, Four.set_set,
    State.settings]

/-- The end of a leg on its line: the leg's record, the mirror, and the owner's side (R43). -/
theorem legEnd_cases (s : State) (i : Nat) (o : LegOutcome) :
    (s.legs.get i = none ∧ s.legEnd i o = s) ∨
    (∃ g, s.legs.get i = some g ∧
      ((∃ v, o = .done v ∧
        s.legEnd i o = ((s.putLeg i (g.ended o)).legMirror (g.ended o)).legDone (g.ended o)) ∨
       (∃ st rc, o = .failed st rc ∧
        s.legEnd i o = ((s.putLeg i (g.ended o)).legMirror (g.ended o)).legFailure (g.ended o) st))) := by
  unfold State.legEnd
  split
  · exact .inl ⟨‹_›, rfl⟩
  · rename_i g hg
    refine .inr ⟨g, hg, ?_⟩
    cases o with
    | done v => exact .inl ⟨v, rfl, rfl⟩
    | failed st rc => exact .inr ⟨st, rc, rfl, rfl⟩

/-- An accepted reply ends the attempt with its judgement (R71, R72). -/
theorem awaitedFrame_accepted {s : State} {l : LineNo} {w : Work} {f : Frame}
    (hc : (s.lines.get l).current = some w) (hg : f.checkGood = true) (ha : s.accepts w f = true) :
    s.awaitedFrame l f =
      s.attemptEnd l (judgeReply (s.workShape w).1 (s.workShape w).2 f.body) := by
  simp [State.awaitedFrame, hg, hc, ha]

/-- An entry that is not QUEUED is WAITING at a drain's end by its timer (R101). -/
theorem restarted_code {c : ScanState} (h : c ≠ .queued) : c.restarted.code = 0#8 := by
  cases c <;> first | rfl | exact absurd rfl h

/-- At a drain's end by its timer a fetch that is in flight on its line stays so, and no other is (R101). -/
theorem restarted_flying (r : ScanRun) (next : Uptime) :
    { r with
      state := r.state.restarted
      nextDue := next }.flying = r.flying := by
  rcases r with ⟨_ | _ | _ | _, _⟩ <;> rfl

end Sys2Proof.Machine
end

