-- ==== Sys2Proof/Laws/Requests.lean ====
section
/-!
SUPPORT. What a request's own operations can do, said once: the cancellation of legs (R42), the taking of a
leg's failure (R44, R48, R52), the release of the next leg and the completion test (R49, R51, R53), in the
words of Safety.lean.
-/

namespace Sys2Proof.Machine

/-- What a fold of cancellations over leg records leaves (R42): the records are free and stand in no queue
and no leg list of the slot; nothing else has changed. -/
theorem foldl_cancelLeg (k : Nat) : ∀ (ids : List Nat) (s : State),
    let t := ids.foldl (State.cancelLeg k) s
    let out (i : Nat) : Bool := ids.contains i && (s.legs.get i).isSome
    t = { s with slots := t.slots, legs := t.legs, lines := t.lines } ∧
    (∀ i, t.legs.get i = if out i then none else s.legs.get i) ∧
    t.slots.get k = (s.slots.get k).map
      (fun r => { r with legs := r.legs.filter (fun i => !out i) }) ∧
    (∀ j, j ≠ k → t.slots.get j = s.slots.get j) ∧
    (∀ l, t.lines.get l = { s.lines.get l with
      demand := (s.lines.get l).demand.filter (fun i =>
        !(ids.contains i && (s.legs.get i).any (fun h => decide (h.line = l)))) }) := by
  intro ids
  induction ids with
  | nil =>
    intro s
    refine ⟨rfl, fun i => by simp, ?_, fun j _ => rfl, fun l => ?_⟩
    · simp
    · simp
  | cons i ids ih =>
    intro s
    obtain ⟨h1, h2, h3, h4, h5⟩ := ih (State.cancelLeg k s i)
    simp only [List.foldl_cons]
    rcases cancelLeg_cases k s i with ⟨hn, hc⟩ | ⟨g, hg, hc⟩
    · rw [hc] at h1 h2 h3 h4 h5 ⊢
      have ho : ∀ j, ((i :: ids).contains j && (s.legs.get j).isSome) =
          (ids.contains j && (s.legs.get j).isSome) := by
        intro j
        by_cases hj : j = i
        · subst hj; simp [hn]
        · simp [hj]
      have ho2 : ∀ (l : LineNo) j,
          ((i :: ids).contains j && (s.legs.get j).any (fun h => decide (h.line = l))) =
          (ids.contains j && (s.legs.get j).any (fun h => decide (h.line = l))) := by
        intro l j
        by_cases hj : j = i
        · subst hj; simp [hn]
        · simp [hj]
      simp only [ho, ho2]
      exact ⟨h1, h2, h3, h4, h5⟩
    · have hgl : ∀ j, (State.cancelLeg k s i).legs.get j = if j = i then none else s.legs.get j := by
        intro j; rw [hc]; exact Sparse.get_del i j s.legs
      have hline : ∀ l, (State.cancelLeg k s i).lines.get l = { s.lines.get l with
          demand := (s.lines.get l).demand.filter
            (fun j => !(decide (j = i) && decide (g.line = l))) } := by
        intro l; rw [hc]
        show (s.lines.set g.line _).get l = _
        rw [Four.get_set]
        split
        · rename_i hl; subst hl; simp [bne, Bool.beq_eq_decide_eq]
        · rename_i hl
          have hl2 : decide (g.line = l) = false := decide_eq_false (fun e => hl e.symm)
          simp only [hl2, Bool.and_false, Bool.not_false, List.filter_true]
      have hslot : (State.cancelLeg k s i).slots.get k = (s.slots.get k).map
          (fun r => { r with legs := r.legs.filter (fun j => j != i) }) := by
        rw [hc]; show (s.slots.modify k _).get k = _
        rw [Sparse.get_modify, if_pos rfl]
      refine ⟨?_, ?_, ?_, ?_, ?_⟩
      · rw [h1, hc]
      · intro j
        have e := h2 j
        simp only [hgl] at e
        rw [e]
        by_cases hj : j = i
        · subst hj; simp [hg]
        · simp [hj]
      · rw [h3, hslot]
        cases s.slots.get k with
        | none => rfl
        | some r =>
          simp only [Option.map_some, List.filter_filter]
          congr 2
          apply List.filter_congr
          intro j _
          rw [hgl j]
          by_cases hj : j = i
          · subst hj; simp [hg]
          · simp [hj]
      · intro j hj
        rw [h4 j hj, hc]
        show (s.slots.modify k _).get j = _
        rw [Sparse.get_modify, if_neg hj]
      · intro l
        rw [h5 l, hline l]
        simp only [List.filter_filter]
        congr 1
        apply List.filter_congr
        intro j _
        rw [hgl j]
        by_cases hj : j = i
        · subst hj; simp [hg]
        · simp [hj]

/-- Slot `k` holds request `r`, and its leg list and the pool agree (R28). -/
structure Owns (s : State) (k : Nat) (r : Request) : Prop where
  slot : s.slots.get k = some r
  owned : ∀ i g, s.legs.get i = some g → g.owner = k → i ∈ r.legs
  listed : ∀ i ∈ r.legs, ∃ g, s.legs.get i = some g ∧ g.owner = k

theorem RequestLaw.owns {s : State} (h : RequestLaw s) {k : Nat} {r : Request}
    (hr : s.slots.get k = some r) : Owns s k r where
  slot := hr
  owned i g hg ho := by
    obtain ⟨q, hq, hi⟩ := h.owned i g hg
    rw [ho, hr] at hq
    cases hq
    exact hi
  listed i hi := (h.listed k r hr).2 i hi

/-- Cancelling the legs of a slot of which `p` holds: every one of them and no other leaves the pool, the leg
list and its demand queue (R42, R48, R52, R59). -/
theorem cancelLegs_spec {s : State} {k : Nat} {r : Request} (o : Owns s k r) (p : Leg → Bool) :
    let t := s.cancelLegs k p
    let out (i : Nat) : Bool := (s.legs.get i).any (fun h => decide (h.owner = k) && p h)
    t = { s with slots := t.slots, legs := t.legs, lines := t.lines } ∧
    (∀ i, t.legs.get i = if out i then none else s.legs.get i) ∧
    t.slots.get k = some { r with legs := r.legs.filter (fun i => !out i) } ∧
    (∀ j, j ≠ k → t.slots.get j = s.slots.get j) ∧
    (∀ l, t.lines.get l = { s.lines.get l with
      demand := (s.lines.get l).demand.filter (fun i =>
        !(out i && (s.legs.get i).any (fun h => decide (h.line = l)))) }) := by
  have e : s.cancelLegs k p = (s.legsWhere r p).foldl (State.cancelLeg k) s := by
    simp only [State.cancelLegs, o.slot]
  have hc : ∀ i, ((s.legsWhere r p).contains i && (s.legs.get i).isSome) =
      (s.legs.get i).any (fun h => decide (h.owner = k) && p h) := by
    intro i
    cases hg : s.legs.get i with
    | none => simp
    | some g =>
      rw [Bool.eq_iff_iff]
      simp only [State.legsWhere, Option.isSome_some, Bool.and_true, List.contains_iff_mem,
        List.mem_filter, hg, Option.map_some, Option.getD_some, Option.any_some, Bool.and_eq_true,
        decide_eq_true_eq]
      constructor
      · rintro ⟨hi, hp⟩
        obtain ⟨h, hh, ho⟩ := o.listed i hi
        rw [hg] at hh
        cases hh
        exact ⟨ho, hp⟩
      · rintro ⟨ho, hp⟩
        exact ⟨o.owned i g hg ho, hp⟩
  have hl : ∀ (l : LineNo) i, ((s.legsWhere r p).contains i &&
      (s.legs.get i).any (fun h => decide (h.line = l))) =
      ((s.legs.get i).any (fun h => decide (h.owner = k) && p h) &&
        (s.legs.get i).any (fun h => decide (h.line = l))) := by
    intro l i
    rw [← hc i]
    cases s.legs.get i <;> simp
  obtain ⟨h1, h2, h3, h4, h5⟩ := foldl_cancelLeg k (s.legsWhere r p) s
  simp only [hc, hl] at h2 h3 h5
  rw [e]
  refine ⟨h1, h2, ?_, h4, h5⟩
  rw [h3, o.slot]
  rfl

/-- Whether the failure of a leg enters the record of its request (R44). -/
def Request.enters (r : Request) (g : Leg) : Bool :=
  r.failure.all (fun old => decide (g.position < old.position))

/-- Whether a leg is cancelled when its owner takes the failure of another leg (R48, R52). -/
def Request.drops (r : Request) (g h : Leg) : Bool :=
  decide (h.owner = g.owner) &&
    match r.kind with
    | .fetch => r.enters g && decide (h.state = .queued) && decide (g.position < h.position)
    | _ => decide (h.state = .held)

/-- A slot takes the failure of one of its legs, whatever its phase: the record, the cancelled legs, and for
an ACTIVE slot the completion test (R44, R48, R49, R52, R53). -/
theorem legFailure_spec {s : State} {r : Request} {g : Leg} (status : Status)
    (o : Owns s g.owner r) :
    let t := s.legFailure g status
    let out (i : Nat) : Bool := (s.legs.get i).any (r.drops g)
    ∃ q, t.slots.get g.owner = some q ∧
      t = { s with
        slots := t.slots
        legs := t.legs
        lines := t.lines
        txQueue := t.txQueue } ∧
      q = { r with
        failure := (r.offer (r.entryOf g status)).failure
        legs := r.legs.filter (fun i => !out i)
        phase := q.phase } ∧
      (∀ j, j ≠ g.owner → t.slots.get j = s.slots.get j) ∧
      (∀ i, t.legs.get i = if out i then none else s.legs.get i) ∧
      (∀ l, t.lines.get l = { s.lines.get l with
        demand := (s.lines.get l).demand.filter (fun i =>
          !(out i && (s.legs.get i).any (fun h => decide (h.line = l)))) }) ∧
      (r.phase ≠ .active → q.phase = r.phase ∧ t.txQueue = s.txQueue) ∧
      (r.phase = .active →
        (q.phase = .replying ↔
          ∀ i ∈ q.legs, ∀ h, s.legs.get i = some h → h.state.unfinished = false) ∧
        t.txQueue = s.txQueue ++ (if q.phase = .replying then
          [⟨.slotReply g.owner, r.source, r.tag, .reply q.reply⟩] else [])) := by
  -- the state after the offer and the cancellations
  have key : ∀ (p : Leg → Bool) (f : Option Failure) (u : State),
      u = s.putSlot g.owner { r with failure := f } →
      ∀ out : Nat → Bool,
        (∀ i, out i = (s.legs.get i).any (fun h => decide (h.owner = g.owner) && p h)) →
      let t := (u.cancelLegs g.owner p).completeIfDone g.owner
      ∃ q, t.slots.get g.owner = some q ∧
        t = { s with
          slots := t.slots
          legs := t.legs
          lines := t.lines
          txQueue := t.txQueue } ∧
        q = { r with
          failure := f
          legs := r.legs.filter (fun i => !out i)
          phase := q.phase } ∧
        (∀ j, j ≠ g.owner → t.slots.get j = s.slots.get j) ∧
        (∀ i, t.legs.get i = if out i then none else s.legs.get i) ∧
        (∀ l, t.lines.get l = { s.lines.get l with
          demand := (s.lines.get l).demand.filter (fun i =>
            !(out i && (s.legs.get i).any (fun h => decide (h.line = l)))) }) ∧
        (r.phase ≠ .active → q.phase = r.phase ∧ t.txQueue = s.txQueue) ∧
        (r.phase = .active →
          (q.phase = .replying ↔
            ∀ i ∈ q.legs, ∀ h, s.legs.get i = some h → h.state.unfinished = false) ∧
          t.txQueue = s.txQueue ++ (if q.phase = .replying then
            [⟨.slotReply g.owner, r.source, r.tag, .reply q.reply⟩] else [])) := by
    intro p f u hu out hout
    have ou : Owns u g.owner { r with failure := f } := by
      subst hu
      exact ⟨Sparse.get_put_same _ _ _, o.owned, o.listed⟩
    obtain ⟨h1, h2, h3, h4, h5⟩ := cancelLegs_spec ou p
    have hul : u.legs = s.legs := by subst hu; rfl
    have hun : u.lines = s.lines := by subst hu; rfl
    simp only [hul, hun, ← hout] at h2 h3 h5
    have h4' : ∀ j, j ≠ g.owner → (u.cancelLegs g.owner p).slots.get j = s.slots.get j := by
      intro j hj
      rw [h4 j hj]
      subst hu
      exact Sparse.get_put_ne _ _ hj
    have h1' : u.cancelLegs g.owner p = { s with
        slots := (u.cancelLegs g.owner p).slots
        legs := (u.cancelLegs g.owner p).legs
        lines := (u.cancelLegs g.owner p).lines } := by
      conv_lhs => rw [h1]
      subst hu
      rfl
    generalize u.cancelLegs g.owner p = v at h1' h2 h3 h4' h5
    obtain ⟨vs, vl, vn, rfl⟩ : ∃ vs vl vn, v = { s with slots := vs, legs := vl, lines := vn } :=
      ⟨_, _, _, h1'⟩
    generalize hv : ({ s with slots := vs, legs := vl, lines := vn } : State) = v at h1' h2 h3 h4' h5 ⊢
    have hunf : v.unfinished { r with failure := f, legs := r.legs.filter (fun i => !out i) } = false ↔
        ∀ i ∈ r.legs.filter (fun i => !out i), ∀ h, s.legs.get i = some h →
          h.state.unfinished = false := by
      simp only [State.unfinished, List.any_eq_false]
      constructor
      · intro hh i hi h hg
        have := hh i hi
        rw [h2 i] at this
        have ho : out i = false := by simpa using (List.mem_filter.1 hi).2
        simpa [ho, hg] using this
      · intro hh i hi
        rw [h2 i]
        have ho : out i = false := by simpa using (List.mem_filter.1 hi).2
        cases hg : s.legs.get i with
        | none => simp [ho]
        | some h => simp [ho, hh i hi h hg]
    rcases completeIfDone_cases v g.owner with ⟨q, hq, hph, hu, hc⟩ | ⟨hc, hno⟩
    · rw [h3] at hq
      cases hq
      refine ⟨_, by rw [hc]; exact Sparse.get_put_same _ _ _, ?_, rfl, ?_, ?_, ?_, ?_, ?_⟩
      · rw [hc, ← hv]
      · intro j hj
        rw [hc]
        exact (Sparse.get_put_ne _ _ hj).trans (h4' j hj)
      · intro i; rw [hc]; exact h2 i
      · intro l; rw [hc]; exact h5 l
      · exact fun hn => absurd hph hn
      · refine fun _ => ⟨⟨fun _ => hunf.1 hu, fun _ => rfl⟩, ?_⟩
        rw [hc, if_pos rfl, ← hv]
        rfl
    · refine ⟨_, by rw [hc]; exact h3, ?_, by rfl, ?_, ?_, ?_, ?_, ?_⟩
      · rw [hc, ← hv]
      · intro j hj; rw [hc]; exact h4' j hj
      · intro i; rw [hc]; exact h2 i
      · intro l; rw [hc]; exact h5 l
      · exact fun _ => ⟨rfl, by rw [hc, ← hv]⟩
      · intro ha
        refine ⟨⟨fun h => ?_, fun h => ?_⟩, ?_⟩
        · rw [show _ = SlotPhase.active from ha] at h; cases h
        · rcases hno _ h3 with h' | h'
          · exact absurd ha h'
          · rw [hunf.2 h] at h'; cases h'
        · rw [hc, if_neg (by rw [show _ = SlotPhase.active from ha]; simp), List.append_nil, ← hv]
  have hentry : r.legFailure g status = r.entryOf g status := by
    cases hk : r.kind <;> simp only [Request.legFailure, Request.entryOf, Request.itemAt, hk]
  have henters : r.admitsFailure g.position =
      r.failure.all (fun old => decide (g.position < old.position)) := by
    unfold Request.admitsFailure
    cases r.failure <;> rfl
  have hoffer : r.offer (r.legFailure g status) =
      { r with failure := (r.offer (r.entryOf g status)).failure } := by
    rw [hentry]
    rcases offer_cases r (r.entryOf g status) with ⟨-, e⟩ | ⟨-, e⟩ <;> rw [e]
  have hn : ∀ u : State, u.cancelLegs g.owner (fun _ => false) = u := by
    intro u
    unfold State.cancelLegs
    split
    · rfl
    · rename_i q _
      have : u.legsWhere q (fun _ => false) = [] := by
        unfold State.legsWhere
        rw [List.filter_eq_nil_iff]
        intro i _
        cases u.legs.get i <;> simp
      rw [this]
      rfl
  have hf : ∃ p : Leg → Bool, s.legFailure g status =
      (((s.putSlot g.owner (r.offer (r.legFailure g status))).cancelLegs g.owner p).completeIfDone
        g.owner) ∧ ∀ h : Leg, p h = match r.kind with
        | .fetch => r.failure.all (fun old => decide (g.position < old.position)) &&
            decide (h.state = .queued) && decide (g.position < h.position)
        | _ => decide (h.state = .held) := by
    simp only [State.legFailure, o.slot]
    cases hk : r.kind with
    | fetch =>
      simp only [State.fetchFailure, henters]
      cases r.failure.all (fun old => decide (g.position < old.position)) with
      | false => exact ⟨fun _ => false, by rw [hn]; rfl, fun h => rfl⟩
      | true => exact ⟨_, rfl, fun h => rfl⟩
    | store => exact ⟨_, rfl, fun h => rfl⟩
    | storeSet => exact ⟨_, rfl, fun h => rfl⟩
  obtain ⟨p, hp, hpv⟩ := hf
  rw [hp]
  intro t out
  refine key p _ _ (by rw [hoffer]) out (fun i => ?_)
  have hd : ∀ h, r.drops g h = (decide (h.owner = g.owner) && p h) := by
    intro h
    rw [hpv h, Request.drops, Request.enters]
  simp only [out, show r.drops g = _ from funext hd]

/-- The record after an offer (R44). -/
theorem Request.offer_failure (r : Request) (g : Leg) (status : Status) :
    (r.offer (r.entryOf g status)).failure =
      (if r.enters g = true then some (r.entryOf g status) else r.failure) := by
  have he : r.admitsFailure (r.entryOf g status).position = r.enters g := by
    unfold Request.admitsFailure Request.enters Request.entryOf
    cases r.failure <;> rfl
  rcases offer_cases r (r.entryOf g status) with ⟨h, e⟩ | ⟨h, e⟩
  · rw [e, ← he, if_pos h]
  · rw [e, ← he, h, if_neg (by simp)]

/-- An ACTIVE slot takes the failure of one of its legs: what `LegFailureTaken` says and nothing else. -/
theorem legFailure_taken {s : State} {r : Request} {g : Leg} (status : Status)
    (o : Owns s g.owner r) (ha : r.phase = .active) :
    LegFailureTaken s (s.legFailure g status) g.owner r g status := by
  obtain ⟨q, h1, h2, h3, h4, h5, h6, -, h7⟩ := legFailure_spec status o
  rw [r.offer_failure g status] at h3
  have hd : ∀ i, (s.legs.get i).any (r.drops g) = (s.legs.get i).any (fun h =>
      decide (h.owner = g.owner) && match r.kind with
        | .fetch => (r.failure.all (fun old => decide (g.position < old.position))) &&
            decide (h.state = .queued) && decide (g.position < h.position)
        | _ => decide (h.state = .held)) := by
    intro i
    unfold Request.drops Request.enters
    cases r.kind <;> rfl
  simp only [hd] at h3 h5 h6
  refine ⟨q, h1, h2, ?_, h4, ?_, ?_, (h7 ha).1, (h7 ha).2⟩
  · rw [h3]; cases r.kind <;> rfl
  · exact fun i => (h5 i).trans (by cases r.kind <;> rfl)
  · exact fun l => (h6 l).trans (by cases r.kind <;> rfl)

/-- Beginning an attempt, or taking work, leaves the request table and every unfinished leg unfinished. -/
theorem kick_unfinished (s : State) (l : LineNo) :
    (s.kick l).slots = s.slots ∧
    ∀ i g, s.legs.get i = some g → g.state.unfinished = true →
      ∃ h, (s.kick l).legs.get i = some h ∧ h.state.unfinished = true := by
  have att : ∀ (t : State) (w : Work), (t.startAttempt l w).slots = t.slots ∧
      ∀ i g, t.legs.get i = some g → g.state.unfinished = true →
        ∃ h, (t.startAttempt l w).legs.get i = some h ∧ h.state.unfinished = true := by
    intro t w
    cases w with
    | leg j =>
      refine ⟨rfl, fun i g hg hu => ?_⟩
      show ∃ h, (t.legs.modify j _).get i = some h ∧ _
      rw [Sparse.get_modify, hg]
      split <;> exact ⟨_, rfl, hu⟩
    | scan j => exact ⟨rfl, fun i g hg hu => ⟨g, hg, hu⟩⟩
    | probe a b c => exact ⟨rfl, fun i g hg hu => ⟨g, hg, hu⟩⟩
  unfold State.kick State.take
  split
  · split
    · exact att _ _
    · rename_i j _
      refine ⟨(att _ _).1, fun i g hg hu => ?_⟩
      have : ∃ h, (s.takeDemand l j).legs.get i = some h ∧ h.state.unfinished = true := by
        show ∃ h, (s.legs.modify j _).get i = some h ∧ _
        rw [Sparse.get_modify, hg]
        split
        · exact ⟨_, rfl, rfl⟩
        · exact ⟨_, rfl, hu⟩
      obtain ⟨h, hh, hu'⟩ := this
      exact (att _ _).2 i h hh hu'
    · exact att _ _
    · exact ⟨rfl, fun i g hg hu => ⟨g, hg, hu⟩⟩
  · exact ⟨rfl, fun i g hg hu => ⟨g, hg, hu⟩⟩

/-- A line that is not IDLE takes nothing. -/
theorem kick_of_not_idle {s : State} {l : LineNo} (h : (s.lines.get l).phase ≠ .idle) :
    s.kick l = s := by
  unfold State.kick
  rw [if_neg]
  simp [h]

/-- A request with an unfinished leg does not complete (R49, R53). -/
theorem completeIfDone_unfinished {s : State} {k : Nat} {r : Request} (hr : s.slots.get k = some r)
    (h : ∃ i ∈ r.legs, ∃ g, s.legs.get i = some g ∧ g.state.unfinished = true) :
    s.completeIfDone k = s := by
  have hu : s.unfinished r = true := by
    obtain ⟨i, hi, g, hg, hu⟩ := h
    simp only [State.unfinished, List.any_eq_true]
    exact ⟨i, hi, by rw [hg]; exact hu⟩
  simp [State.completeIfDone, hr, hu]

/-- A request with no unfinished leg completes (R49, R53). -/
theorem completeIfDone_finished {s : State} {k : Nat} {r : Request} (hr : s.slots.get k = some r)
    (ha : r.phase = .active)
    (h : ∀ i ∈ r.legs, ∀ g, s.legs.get i = some g → g.state.unfinished = false) :
    s.completeIfDone k = { s with
      slots := s.slots.put k { r with phase := .replying }
      txQueue := s.txQueue ++ [⟨.slotReply k, r.source, r.tag, .reply r.reply⟩] } := by
  have hu : s.unfinished r = false := by
    simp only [State.unfinished, List.any_eq_false]
    intro i hi
    cases hg : s.legs.get i with
    | none => simp
    | some g => simp [h i hi g hg]
  simp only [State.completeIfDone, hr, ha, hu, and_self, if_true]
  rfl

/-- The completion test after a failure has been taken finds nothing more to do. -/
theorem LegFailureTaken.settled {u t : State} {k : Nat} {r : Request} {g : Leg} {status : Status}
    (h : LegFailureTaken u t k r g status) : t.completeIfDone k = t := by
  obtain ⟨q, hq, -, hqe, -, hl, -, hp, -⟩ := h
  by_cases hr : q.phase = .replying
  · simp [State.completeIfDone, hq, hr]
  · have := mt hp.2 hr
    push Not at this
    obtain ⟨i, hi, x, hx, hu⟩ := this
    refine completeIfDone_unfinished hq ⟨i, hi, x, ?_, by simpa using hu⟩
    rw [hl i, if_neg]
    · exact hx
    · rw [hqe] at hi
      simpa using (List.mem_filter.1 hi).2

/-- What the DONE of a store leg does in its owner: what `StoreGoesOn` says and nothing else (R51, R53). -/
theorem legDone_goesOn {u : State} {g : Leg} {r : Request} (hr : u.slots.get g.owner = some r)
    (hk : r.kind ≠ .fetch) (ha : r.phase = .active) :
    StoreGoesOn (.next (u.legDone g).drainTest) u g.owner r := by
  have e : u.legDone g =
      (if r.cancelRequested then u else u.release g.owner r).completeIfDone g.owner := by
    simp only [State.legDone, hr]
  rw [e]
  refine ⟨?_, ?_⟩
  · intro j h hc hj hh hs r1
    rw [hc, if_neg (by simp)]
    refine ⟨?_, ?_⟩
    · intro hoff released
      have ht : ∀ v : State, v.stations = u.stations → v.turnsAway h.line h.station = false := by
        intro v hv
        simp only [State.turnsAway, State.offline, State.record, hv]
        rcases hoff with h0 | h0
        · simp [h0]
        · simp only [State.offline, State.record] at h0
          simp only [h0, Bool.and_false]
      have hrel : u.release g.owner r = released.kick h.line := by
        simp only [State.release, hj, hh, hs, if_true]
        rw [ht _ rfl, if_neg (by simp)]
        rfl
      rw [hrel]
      have hju : released.legs.get j = some { h with state := .queued } := Sparse.get_put_same _ _ _
      obtain ⟨k1, k2⟩ := kick_unfinished released h.line
      have hjr : j ∈ r1.legs := List.mem_of_getElem? hj
      rw [completeIfDone_unfinished (r := r1)
        (by rw [k1]; exact Sparse.get_put_same _ _ _) ⟨j, hjr, k2 j _ hju rfl⟩]
      split
      · rfl
      · rename_i hp
        rw [kick_of_not_idle]
        show (((u.lines.set h.line _).get h.line).phase ≠ .idle)
        rw [Four.get_set_same]
        exact hp
    · intro h0 hoff hl
      have hrel : u.release g.owner r =
          (({ u with
            slots := u.slots.put g.owner r1
            legs := u.legs.put j h.failedOffline } : State).storeFailure g.owner r1 h.failedOffline
              .stationOffline) := by
        simp only [State.release, hj, hh, hs, if_true]
        have : u.turnsAway h.line h.station = true := by
          simp only [State.turnsAway, h0, ne_eq, not_false_iff, decide_true, Bool.true_and]
          exact hoff
        rw [this, if_pos rfl]
        rfl
      rw [hrel]
      have hjr : j ∈ r.legs := List.mem_of_getElem? hj
      have ho : h.owner = g.owner := by
        obtain ⟨x, hx, ho⟩ := (hl.owns hr).listed j hjr
        rw [hh] at hx
        cases hx
        exact ho
      generalize hv : ({ u with
          slots := u.slots.put g.owner r1
          legs := u.legs.put j h.failedOffline } : State) = v
      have hvs : v.slots.get g.owner = some r1 := by subst hv; exact Sparse.get_put_same _ _ _
      have hvl : ∀ i, v.legs.get i = if i = j then some h.failedOffline else u.legs.get i := by
        intro i; subst hv; exact Sparse.get_put _ _ _ _
      have ov : Owns v h.failedOffline.owner r1 := by
        refine ⟨by rw [show h.failedOffline.owner = g.owner from ho]; exact hvs, ?_, ?_⟩
        · intro i x hx hxo
          rw [hvl i] at hx
          split at hx
          · rename_i hi; rw [hi]; exact hjr
          · exact (hl.owns hr).owned i x hx (hxo.trans ho)
        · intro i hi
          rw [hvl i]
          split
          · exact ⟨_, rfl, rfl⟩
          · obtain ⟨x, hx, hxo⟩ := (hl.owns hr).listed i hi
            exact ⟨x, hx, hxo.trans ho.symm⟩
      have taken := legFailure_taken .stationOffline ov ha
      rw [show h.failedOffline.owner = g.owner from ho] at taken
      have hlf : v.legFailure h.failedOffline .stationOffline =
          v.storeFailure g.owner r1 h.failedOffline .stationOffline := by
        simp only [State.legFailure, show h.failedOffline.owner = g.owner from ho, hvs]
        cases hk' : r1.kind with
        | fetch => exact absurd hk' hk
        | store => rfl
        | storeSet => rfl
      rw [hlf] at taken
      rw [taken.settled]
      exact ⟨_, rfl, taken⟩
  · intro hno
    have hu : (if r.cancelRequested then u else u.release g.owner r) = u := by
      split
      · rfl
      · rename_i hc
        rcases hno with hno | hno
        · exact absurd hno hc
        · unfold State.release
          split
          · rfl
          · rename_i i hi
            split
            · rfl
            · rename_i x hx
              rw [if_neg (hno i x hi hx)]
    rw [hu]
    exact ⟨fun h => by rw [completeIfDone_finished hr ha h],
      fun h => by rw [completeIfDone_unfinished hr h]⟩

end Sys2Proof.Machine
end

