-- ==== Sys2Proof/Laws/Sweep.lean ====
section
/-!
SUPPORT. What a run of leg failures in one event can do, and the rest of the OFFLINE transition (R44, R46,
R48, R52, R84, R85). `Swept` says it of states whose slots and records agree (R28), with the failures in
their order; `Culls` says of any state what they leave alone.
-/

namespace Sys2Proof.Machine

/-- A failed leg whose entry an event offers: the leg as it stands FAILED, and its status. -/
abbrev Offer := Leg × Status

/-- The entries offered to a slot, in order. -/
def entriesOf (k : Nat) (r : Request) (events : List Offer) : List Failure :=
  (events.filter (fun e => decide (e.1.owner = k))).map (fun e => r.entryOf e.1 e.2)

theorem Request.entryOf_congr {r q : Request} {f : Option Failure} {ids : List Nat} {p : SlotPhase}
    (h : q = { r with failure := f, legs := ids, phase := p }) (g : Leg) (st : Status) :
    q.entryOf g st = r.entryOf g st := by
  subst h; rfl

theorem Request.offer_congr {r q : Request} (h : q.failure = r.failure) (f : Failure) :
    (q.offer f).failure = (r.offer f).failure := by
  unfold Request.offer
  rw [h]
  cases hr : r.failure with
  | none => rfl
  | some old => simp only; split <;> simp [hr, h]

theorem foldl_offer_failure (fs : List Failure) : ∀ {r q : Request}, q.failure = r.failure →
    (fs.foldl Request.offer q).failure = (fs.foldl Request.offer r).failure := by
  induction fs with
  | nil => intro r q h; exact h
  | cons f fs ih => intro r q h; exact ih (Request.offer_congr h f)

theorem Request.offer_le (r : Request) (f : Failure) :
    (∃ y, (r.offer f).failure = some y ∧ y.position ≤ f.position) ∧
    (∀ o, r.failure = some o → ∃ y, (r.offer f).failure = some y ∧ y.position ≤ o.position) := by
  unfold Request.offer
  cases hr : r.failure with
  | none => exact ⟨⟨f, rfl, le_refl _⟩, by simp⟩
  | some old =>
    simp only
    split
    · exact ⟨⟨f, rfl, le_refl _⟩, fun o ho => ⟨f, rfl, by cases ho; omega⟩⟩
    · exact ⟨⟨old, hr, by omega⟩, fun o ho => ⟨old, hr, by cases ho; omega⟩⟩

theorem foldl_offer_le (fs : List Failure) : ∀ (r : Request),
    (∀ o, r.failure = some o →
      ∃ y, (fs.foldl Request.offer r).failure = some y ∧ y.position ≤ o.position) ∧
    (∀ f ∈ fs, ∃ y, (fs.foldl Request.offer r).failure = some y ∧ y.position ≤ f.position) := by
  induction fs with
  | nil => intro r; exact ⟨fun o ho => ⟨o, ho, le_refl _⟩, by simp⟩
  | cons f fs ih =>
    intro r
    obtain ⟨h1, h2⟩ := ih (r.offer f)
    obtain ⟨⟨y, hy, hyf⟩, ho⟩ := Request.offer_le r f
    refine ⟨fun o hro => ?_, fun g hg => ?_⟩
    · obtain ⟨z, hz, hzo⟩ := ho o hro
      obtain ⟨x, hx, hxz⟩ := h1 z hz
      exact ⟨x, hx, by omega⟩
    · rcases List.mem_cons.1 hg with rfl | hg
      · obtain ⟨x, hx, hxy⟩ := h1 y hy
        exact ⟨x, hx, by omega⟩
      · exact h2 g hg

/-- What a run of leg failures in one event has made of `s`: `events` are the failures in order, those of legs
already cancelled or failed among them, which change nothing. -/
structure Swept (s t : State) (events : List Offer) : Prop where
  frame : t = { s with slots := t.slots, legs := t.legs, lines := t.lines, txQueue := t.txQueue }
  line : ∀ l, t.lines.get l = { s.lines.get l with demand := (t.lines.get l).demand } ∧
    (t.lines.get l).demand.Sublist (s.lines.get l).demand
  owned : ∀ i g, t.legs.get i = some g → ∃ r, t.slots.get g.owner = some r ∧ i ∈ r.legs
  listed : ∀ k r, t.slots.get k = some r → ∀ i ∈ r.legs, ∃ g, t.legs.get i = some g ∧ g.owner = k
  slot : ∀ k r, s.slots.get k = some r → ∃ q, t.slots.get k = some q ∧
    q = { r with failure := q.failure, legs := q.legs, phase := q.phase } ∧
    q.failure = ((entriesOf k r events).foldl Request.offer r).failure ∧
    (entriesOf k r events = [] → q = r) ∧
    (r.phase ≠ .active → q.phase = r.phase) ∧
    (entriesOf k r events ≠ [] → r.phase = .active →
      (q.phase = .replying ↔
        ∀ i ∈ q.legs, ∀ h, t.legs.get i = some h → h.state.unfinished = false) ∧
      (q.phase = .replying → ⟨.slotReply k, r.source, r.tag, .reply q.reply⟩ ∈ t.txQueue))
  free : ∀ k, s.slots.get k = none → t.slots.get k = none
  noleg : ∀ i, s.legs.get i = none → t.legs.get i = none
  leg : ∀ i h, s.legs.get i = some h →
    t.legs.get i = some h ∨
    (t.legs.get i = some h.failedOffline ∧ h.state = .queued ∧
      (h.failedOffline, Status.stationOffline) ∈ events) ∨
    (t.legs.get i = none ∧ (h.state = .queued ∨ h.state = .held) ∧
      (∃ e ∈ events, e.1.owner = h.owner) ∧
      (h.state = .queued → ∃ e ∈ events, e.1.owner = h.owner ∧ e.1.position < h.position))

theorem Swept.refl {s : State}
    (ho : ∀ i g, s.legs.get i = some g → ∃ r, s.slots.get g.owner = some r ∧ i ∈ r.legs)
    (hl : ∀ k r, s.slots.get k = some r → ∀ i ∈ r.legs, ∃ g, s.legs.get i = some g ∧ g.owner = k) :
    Swept s s [] where
  frame := rfl
  line _ := ⟨rfl, List.Sublist.refl _⟩
  owned := ho
  listed := hl
  slot _ r h := ⟨r, h, rfl, rfl, fun _ => rfl, fun _ => rfl, fun h => absurd rfl h⟩
  free _ h := h
  noleg _ h := h
  leg _ _ h := .inl h

theorem entriesOf_append (k : Nat) (r : Request) (a b : List Offer) :
    entriesOf k r (a ++ b) = entriesOf k r a ++ entriesOf k r b := by
  simp [entriesOf]

/-- The owner of a leg that is about to fail: its slot, which an unfinished leg keeps ACTIVE. -/
theorem Swept.owner {s t t1 : State} {events : List Offer} (w : Swept s t events) {j : Nat}
    {g h0 : Leg} (h1 : t1.slots = t.slots)
    (hl : ∀ i, t1.legs.get i = if i = j then some g else t.legs.get i)
    (hj : t.legs.get j = some h0) (ho : g.owner = h0.owner)
    (hs : events = [] ∨ h0.state = .queued) :
    ∃ r q, s.slots.get g.owner = some r ∧ t.slots.get g.owner = some q ∧ j ∈ q.legs ∧
      Owns t1 g.owner q ∧ q = { r with failure := q.failure, legs := q.legs, phase := q.phase } ∧
      q.failure = ((entriesOf g.owner r events).foldl Request.offer r).failure ∧
      (r.phase ≠ .active → q.phase = r.phase) ∧ (r.phase = .active → q.phase = .active) := by
  obtain ⟨q, hq, hjq⟩ := w.owned j h0 hj
  rw [← ho] at hq
  obtain ⟨r, hr⟩ : ∃ r, s.slots.get g.owner = some r := by
    cases hr : s.slots.get g.owner with
    | none => rw [w.free _ hr] at hq; cases hq
    | some r => exact ⟨r, rfl⟩
  obtain ⟨q0, hq0, hqe, hqf, hqn, hqp, hqa⟩ := w.slot _ r hr
  rw [hq] at hq0
  cases hq0
  refine ⟨r, q, hr, hq, hjq, ⟨by rw [h1]; exact hq, ?_, ?_⟩, hqe, hqf, hqp, ?_⟩
  · intro i x hx hxo
    rw [hl i] at hx
    split at hx
    · rename_i hi; rw [hi]; exact hjq
    · obtain ⟨q', hq', hi⟩ := w.owned i x hx
      rw [hxo, hq] at hq'
      cases hq'
      exact hi
  · intro i hi
    rw [hl i]
    split
    · exact ⟨g, rfl, rfl⟩
    · exact w.listed _ q hq i hi
  · intro ha
    rcases hs with he | hqu
    · rw [hqn (by rw [he]; rfl)]; exact ha
    · by_cases he : entriesOf g.owner r events = []
      · rw [hqn he]; exact ha
      · cases hp : q.phase with
        | active => rfl
        | replying =>
          have := (hqa he ha).1.1 hp j hjq h0 hj
          rw [hqu] at this
          cases this

/-- One failure more: the leg `g` of record `j` stands FAILED in `t1`, and its owner takes it. -/
theorem Swept.step {s t t1 : State} {events : List Offer} (w : Swept s t events) {j : Nat}
    {g h0 : Leg} {st : Status}
    (h1 : t1 = { t with legs := t1.legs, lines := t1.lines })
    (hl : ∀ i, t1.legs.get i = if i = j then some g else t.legs.get i)
    (hn : ∀ l, t1.lines.get l = { t.lines.get l with demand := (t1.lines.get l).demand } ∧
      (t1.lines.get l).demand.Sublist (t.lines.get l).demand)
    (hj : t.legs.get j = some h0) (ho : g.owner = h0.owner) (hf : g.state = .failed)
    (hs : (h0 = g ∧ events = []) ∨
      (h0.state = .queued ∧ g = h0.failedOffline ∧ st = .stationOffline ∧ s.legs.get j = some h0)) :
    Swept s (t1.legFailure g st) (events ++ [(g, st)]) ∧
      (t1.legFailure g st).legs.get j = some g := by
  have hts : t1.slots = t.slots := by rw [h1]
  have htq : t1.txQueue = t.txQueue := by rw [h1]
  obtain ⟨r, q, hr, hq, hjq, o, hqe, hqf, hqp, hqa⟩ :=
    w.owner hts hl hj ho (hs.elim (fun h => .inl h.2) (fun h => .inr h.1))
  obtain ⟨p, s1, s2, s3, s4, s5, s6, s7, s8⟩ := legFailure_spec st o
  generalize t1.legFailure g st = t' at s1 s2 s4 s5 s6 s7 s8
  have hout : ∀ i, (t1.legs.get i).any (q.drops g) = true → ∃ x, t1.legs.get i = some x ∧
      x.owner = g.owner ∧
      ((x.state = .queued ∧ g.position < x.position) ∨ x.state = .held) := by
    intro i hi
    cases hx : t1.legs.get i with
    | none => rw [hx] at hi; cases hi
    | some x =>
      rw [hx] at hi
      have hi : q.drops g x = true := hi
      unfold Request.drops at hi
      rw [Bool.and_eq_true] at hi
      refine ⟨x, rfl, of_decide_eq_true hi.1, ?_⟩
      have h2 := hi.2
      cases hk : q.kind with
      | fetch =>
        rw [hk] at h2
        simp only [Bool.and_eq_true, decide_eq_true_eq] at h2
        exact .inl ⟨h2.1.2, h2.2⟩
      | store => rw [hk] at h2; exact .inr (of_decide_eq_true h2)
      | storeSet => rw [hk] at h2; exact .inr (of_decide_eq_true h2)
  have hkeep : ∀ i x, t1.legs.get i = some x → x.owner ≠ g.owner → t'.legs.get i = some x := by
    intro i x hx hxo
    rw [s5 i, if_neg]
    · exact hx
    · intro hh
      obtain ⟨y, hy, hyo, -⟩ := hout i hh
      rw [hx] at hy; cases hy
      exact hxo hyo
  have hsame : ∀ i ∈ p.legs, t'.legs.get i = t1.legs.get i := by
    intro i hi
    rw [s3] at hi
    have := (List.mem_filter.1 hi).2
    rw [s5 i, if_neg (by simpa using this)]
  have hother : ∀ m r', t.slots.get m = some r' → m ≠ g.owner → ∀ i ∈ r'.legs,
      t'.legs.get i = t.legs.get i := by
    intro m r' hm hne i hi
    obtain ⟨x, hx, hxo⟩ := w.listed m r' hm i hi
    have hij : i ≠ j := by
      intro e
      rw [e, hj] at hx
      cases hx
      exact hne (hxo.symm.trans ho.symm)
    rw [hx]
    exact hkeep i x (by rw [hl i, if_neg hij]; exact hx) (by rw [hxo]; exact hne)
  have htx : ∀ f, f ∈ t.txQueue → f ∈ t'.txQueue := by
    intro f hf
    by_cases ha : q.phase = .active
    · rw [(s8 ha).2, htq]; exact List.mem_append_left _ hf
    · rw [(s7 ha).2, htq]; exact hf
  have hti : t'.legs.get j = some g := by
    rw [s5 j, if_neg, hl j, if_pos rfl]
    intro hh
    obtain ⟨x, hx, -, hxs⟩ := hout j hh
    rw [hl j, if_pos rfl] at hx
    cases hx
    rw [hf] at hxs
    rcases hxs with ⟨hxs, -⟩ | hxs <;> cases hxs
  refine ⟨⟨?_, ?_, ?_, ?_, ?_, ?_, ?_, ?_⟩, hti⟩
  · have e : t1 = { s with
        slots := t1.slots
        legs := t1.legs
        lines := t1.lines
        txQueue := t1.txQueue } := by
      have := w.frame
      conv_lhs => rw [h1, this]
      rw [hts, htq]
    conv_lhs => rw [s2, e]
  · intro l
    have e : t'.lines.get l = { s.lines.get l with demand := (t'.lines.get l).demand } := by
      rw [s6 l, (hn l).1, (w.line l).1]
    refine ⟨e, ?_⟩
    rw [s6 l]
    exact List.filter_sublist.trans ((hn l).2.trans (w.line l).2)
  · intro i x hx
    rw [s5 i] at hx
    split at hx
    · cases hx
    · rename_i hno
      by_cases hxo : x.owner = g.owner
      · refine ⟨p, by rw [hxo]; exact s1, ?_⟩
        rw [s3]
        exact List.mem_filter.2 ⟨o.owned i x hx hxo, by simpa using hno⟩
      · rw [hl i] at hx
        split at hx
        · cases hx; exact absurd rfl hxo
        · obtain ⟨r', hr', hi⟩ := w.owned i x hx
          exact ⟨r', by rw [s4 _ hxo, hts]; exact hr', hi⟩
  · intro m r' hm i hi
    by_cases hmk : m = g.owner
    · subst hmk
      rw [s1] at hm
      cases hm
      rw [hsame i hi]
      rw [s3] at hi
      exact o.listed i (List.mem_filter.1 hi).1
    · rw [s4 m hmk, hts] at hm
      rw [hother m r' hm hmk i hi]
      exact w.listed m r' hm i hi
  · intro m r' hm
    by_cases hmk : m = g.owner
    · subst hmk
      rw [hr] at hm
      cases hm
      have hent : entriesOf g.owner r (events ++ [(g, st)]) =
          entriesOf g.owner r events ++ [r.entryOf g st] := by
        rw [entriesOf_append]; simp [entriesOf]
      refine ⟨p, s1, ?_, ?_, ?_, ?_, ?_⟩
      · rw [s3, hqe]
      · rw [hent, List.foldl_append, List.foldl_cons, List.foldl_nil, s3]
        simp only
        rw [Request.entryOf_congr hqe g st]
        exact Request.offer_congr hqf _
      · rw [hent]; simp
      · intro ha
        rw [(s7 (by rw [hqp ha]; exact ha)).1, hqp ha]
      · intro _ ha
        have hqact : q.phase = .active := hqa ha
        obtain ⟨a1, a2⟩ := s8 hqact
        refine ⟨?_, ?_⟩
        · rw [a1]
          constructor
          · intro h i hi x hx; exact h i hi x (by rw [← hsame i hi]; exact hx)
          · intro h i hi x hx; exact h i hi x (by rw [hsame i hi]; exact hx)
        · intro hp
          rw [a2, if_pos hp]
          apply List.mem_append_right
          rw [show q.source = r.source by rw [hqe], show q.tag = r.tag by rw [hqe]]
          exact List.mem_singleton.2 rfl
    · obtain ⟨q', e1, e2, e3, e4, e5, e6⟩ := w.slot m r' hm
      have hent : entriesOf m r' (events ++ [(g, st)]) = entriesOf m r' events := by
        rw [entriesOf_append]; simp [entriesOf, Ne.symm hmk]
      rw [hent]
      refine ⟨q', by rw [s4 m hmk, hts]; exact e1, e2, e3, e4, e5, ?_⟩
      intro hne ha
      obtain ⟨b1, b2⟩ := e6 hne ha
      refine ⟨?_, fun hp => htx _ (b2 hp)⟩
      rw [b1]
      constructor
      · intro h i hi x hx; exact h i hi x (by rw [← hother m q' e1 hmk i hi]; exact hx)
      · intro h i hi x hx; exact h i hi x (by rw [hother m q' e1 hmk i hi]; exact hx)
  · intro m hm
    have : m ≠ g.owner := by intro e; rw [e, hr] at hm; cases hm
    rw [s4 m this, hts]
    exact w.free m hm
  · intro i hi
    have ht := w.noleg i hi
    have hij : i ≠ j := by intro e; rw [e, hj] at ht; cases ht
    rw [s5 i, hl i, if_neg hij, ht]
    simp
  · intro i h hi
    have hmem : ∀ e ∈ events, e ∈ events ++ [(g, st)] := fun e he => List.mem_append_left _ he
    by_cases hij : i = j
    · subst hij
      rcases hs with ⟨e, he⟩ | ⟨hqu, hg, hst, hsj⟩
      · subst e
        rcases w.leg i h hi with hw | ⟨hw, hw2, hw3⟩ | ⟨hw, -⟩
        · rw [hj] at hw; left; rw [hti, hw]
        · rw [hj] at hw; right; left; exact ⟨by rw [hti, hw], hw2, hmem _ hw3⟩
        · rw [hj] at hw; cases hw
      · rw [hsj] at hi
        cases hi
        subst hst
        right; left
        refine ⟨by rw [hti, hg], hqu, ?_⟩
        rw [hg]
        exact List.mem_append_right _ (List.mem_singleton.2 rfl)
    · have ht1 : t1.legs.get i = t.legs.get i := by rw [hl i, if_neg hij]
      rcases w.leg i h hi with hw | ⟨hw, hw2, hw3⟩ | ⟨hw, hw2, ⟨e, he, heo⟩, hw4⟩
      · by_cases hd : (t1.legs.get i).any (q.drops g) = true
        · obtain ⟨x, hx, hxo, hxs⟩ := hout i hd
          rw [ht1, hw] at hx
          cases hx
          right; right
          refine ⟨by rw [s5 i, if_pos hd], ?_,
            ⟨(g, st), List.mem_append_right _ (List.mem_singleton.2 rfl), hxo.symm⟩, ?_⟩
          · rcases hxs with ⟨hxs, -⟩ | hxs
            · exact .inl hxs
            · exact .inr hxs
          · intro hqu
            rcases hxs with ⟨-, hxp⟩ | hxs
            · exact ⟨(g, st), List.mem_append_right _ (List.mem_singleton.2 rfl), hxo.symm, hxp⟩
            · rw [hxs] at hqu; cases hqu
        · left
          rw [s5 i, if_neg hd, ht1, hw]
      · right; left
        refine ⟨?_, hw2, hmem _ hw3⟩
        rw [s5 i, if_neg, ht1, hw]
        intro hd
        obtain ⟨x, hx, -, hxs⟩ := hout i hd
        rw [ht1, hw] at hx
        cases hx
        rcases hxs with ⟨hxs, -⟩ | hxs <;> cases hxs
      · right; right
        refine ⟨by rw [s5 i, ht1, hw]; simp, hw2, ⟨e, hmem _ he, heo⟩, fun hqu => ?_⟩
        obtain ⟨e', he', hx⟩ := hw4 hqu
        exact ⟨e', hmem _ he', hx⟩

/-- A failure that changes nothing: its owner's record already lies at or below it in this event. -/
theorem Swept.idle {s t : State} {events : List Offer} (w : Swept s t events) {g : Leg} {st : Status}
    {e : Offer} (he : e ∈ events) (ho : e.1.owner = g.owner) (hp : e.1.position ≤ g.position) :
    Swept s t (events ++ [(g, st)]) := by
  have hmem : ∀ e ∈ events, e ∈ events ++ [(g, st)] := fun e he => List.mem_append_left _ he
  refine ⟨w.frame, w.line, w.owned, w.listed, ?_, w.free, w.noleg, ?_⟩
  · intro m r hm
    obtain ⟨q, e1, e2, e3, e4, e5, e6⟩ := w.slot m r hm
    by_cases hmk : m = g.owner
    · have hent : entriesOf m r (events ++ [(g, st)]) =
          entriesOf m r events ++ [r.entryOf g st] := by
        rw [entriesOf_append]; simp [entriesOf, hmk]
      have hin : r.entryOf e.1 e.2 ∈ entriesOf m r events :=
        List.mem_map.2 ⟨e, List.mem_filter.2 ⟨he, by simp [ho, hmk]⟩, rfl⟩
      have hne : entriesOf m r events ≠ [] := List.ne_nil_of_mem hin
      refine ⟨q, e1, e2, ?_, ?_, e5, fun _ ha => e6 hne ha⟩
      · rw [hent, List.foldl_append, List.foldl_cons, List.foldl_nil, e3]
        obtain ⟨y, hy, hyp⟩ := (foldl_offer_le (entriesOf m r events) r).2 _ hin
        generalize (entriesOf m r events).foldl Request.offer r = z at hy
        unfold Request.offer
        rw [hy]
        simp only
        rw [if_neg]
        · rw [hy]
        · have h1 : (r.entryOf e.1 e.2).position = e.1.position := rfl
          have h2 : (r.entryOf g st).position = g.position := rfl
          omega
      · rw [hent]; simp
    · have hent : entriesOf m r (events ++ [(g, st)]) = entriesOf m r events := by
        rw [entriesOf_append]; simp [entriesOf, Ne.symm hmk]
      rw [hent]
      exact ⟨q, e1, e2, e3, e4, e5, e6⟩
  · intro i h hi
    rcases w.leg i h hi with hw | ⟨hw, hw2, hw3⟩ | ⟨hw, hw2, ⟨e, he, heo⟩, hw4⟩
    · exact .inl hw
    · exact .inr (.inl ⟨hw, hw2, hmem _ hw3⟩)
    · refine .inr (.inr ⟨hw, hw2, ⟨e, hmem _ he, heo⟩, fun hqu => ?_⟩)
      obtain ⟨e', he', hx⟩ := hw4 hqu
      exact ⟨e', hmem _ he', hx⟩

/-- A leg that is not QUEUED any more is passed over. -/
theorem failQueued_dead {t : State} {i : Nat} (h : ∀ g, t.legs.get i = some g → g.state ≠ .queued) :
    t.failQueued i = t := by
  unfold State.failQueued
  split
  · rfl
  · rename_i g hg
    rw [if_neg (h g hg)]

/-- One leg of the OFFLINE sweep, QUEUED in `s`. -/
theorem Swept.failQueued {s t : State} {events : List Offer} (w : Swept s t events) {i : Nat} {h : Leg}
    (hi : s.legs.get i = some h) (hq : h.state = .queued) :
    Swept s (t.failQueued i) (events ++ [(h.failedOffline, .stationOffline)]) ∧
    (t.failQueued i).legs.get i ≠ some h ∧
    ((∀ e ∈ events, e.1.owner = h.owner → h.position ≤ e.1.position) →
      (t.failQueued i).legs.get i = some h.failedOffline) := by
  have hne : h.failedOffline ≠ h := by
    intro e
    have := congrArg Leg.state e
    rw [hq] at this
    cases this
  rcases w.leg i h hi with hw | ⟨hw, -, hw3⟩ | ⟨hw, -, -, hw4⟩
  · have e : t.failQueued i = (({ t with
        lines := t.lines.set h.line { t.lines.get h.line with
          demand := (t.lines.get h.line).demand.filter (fun j => j != i) }
        legs := t.legs.put i h.failedOffline } : State).legFailure h.failedOffline .stationOffline) := by
      unfold State.failQueued
      rw [hw]
      simp only [hq, if_true]
      rfl
    rw [e]
    have step := w.step (t1 := { t with
        lines := t.lines.set h.line { t.lines.get h.line with
          demand := (t.lines.get h.line).demand.filter (fun j => j != i) }
        legs := t.legs.put i h.failedOffline }) (j := i) (g := h.failedOffline) (h0 := h)
      (st := .stationOffline) rfl (fun k => Sparse.get_put _ _ _ _) (fun l => by
        show (t.lines.set h.line _).get l = _ ∧ ((t.lines.set h.line _).get l).demand.Sublist _
        rw [Four.get_set]
        split
        · rename_i hl; subst hl; exact ⟨rfl, List.filter_sublist⟩
        · exact ⟨rfl, List.Sublist.refl _⟩) hw rfl rfl (.inr ⟨hq, rfl, rfl, hi⟩)
    exact ⟨step.1, by rw [step.2]; intro e; exact hne (Option.some.inj e), fun _ => step.2⟩
  · have ht : t.failQueued i = t := failQueued_dead (fun g hg => by
      rw [hw] at hg; cases hg; intro e; cases e)
    rw [ht]
    exact ⟨w.idle hw3 rfl (le_refl _), by rw [hw]; intro e; exact hne (Option.some.inj e), fun _ => hw⟩
  · have ht : t.failQueued i = t := failQueued_dead (fun g hg => by rw [hw] at hg; cases hg)
    rw [ht]
    obtain ⟨e, he, heo, hep⟩ := hw4 hq
    refine ⟨w.idle he heo (by show e.1.position ≤ h.position; omega), by rw [hw]; simp, fun hh => ?_⟩
    have := hh e he heo
    omega

/-- The events of a run of QUEUED legs that fail STATION_OFFLINE. -/
def offersOf (s : State) (ids : List Nat) : List Offer :=
  (ids.filterMap s.legs.get).map (fun h => (h.failedOffline, .stationOffline))

/-- The sweep over legs that were QUEUED in `s`. -/
theorem Swept.sweep {s : State} : ∀ (ids : List Nat) {t : State} {events : List Offer},
    Swept s t events → (∀ i ∈ ids, ∃ h, s.legs.get i = some h ∧ h.state = .queued) →
    Swept s (ids.foldl State.failQueued t) (events ++ offersOf s ids) := by
  intro ids
  induction ids with
  | nil => intro t events w _; simpa [offersOf] using w
  | cons i ids ih =>
    intro t events w hq
    obtain ⟨h, hi, hs⟩ := hq i List.mem_cons_self
    have := ih (w.failQueued hi hs).1 (fun j hj => hq j (List.mem_cons_of_mem _ hj))
    have e : offersOf s (i :: ids) = (h.failedOffline, .stationOffline) :: offersOf s ids := by
      simp [offersOf, hi]
    rw [e]
    simpa [List.append_assoc] using this

/-- A leg that is not QUEUED is never QUEUED again in the sweep, and a FAILED one stays as it is. -/
theorem Swept.final {s t : State} {events : List Offer} (w : Swept s t events) {i : Nat} :
    (∀ h, s.legs.get i = some h → h.state = .failed → t.legs.get i = some h) := by
  intro h hi hf
  rcases w.leg i h hi with hw | ⟨-, hw, -⟩ | ⟨-, hw, -⟩
  · exact hw
  · rw [hf] at hw; cases hw
  · rw [hf] at hw; rcases hw with hw | hw <;> cases hw

/-- In the sweep, dead legs may be left out of the list. -/
theorem foldl_failQueued_filter (p : Nat → Bool) : ∀ (ids : List Nat) (t : State),
    (∀ i g, t.legs.get i = some g → ∃ r, t.slots.get g.owner = some r ∧ i ∈ r.legs) →
    (∀ k r, t.slots.get k = some r → ∀ i ∈ r.legs, ∃ g, t.legs.get i = some g ∧ g.owner = k) →
    (∀ i ∈ ids, p i = false → ∀ g, t.legs.get i = some g → g.state ≠ .queued) →
    ids.foldl State.failQueued t = (ids.filter p).foldl State.failQueued t := by
  intro ids
  induction ids with
  | nil => intro t _ _ _; rfl
  | cons i ids ih =>
    intro t ho hl hd
    have hdead : t.failQueued i = t ∨ ∃ h, t.legs.get i = some h ∧ h.state = .queued := by
      cases hg : t.legs.get i with
      | none => exact .inl (failQueued_dead (fun g h => by rw [hg] at h; cases h))
      | some g =>
        by_cases hq : g.state = .queued
        · exact .inr ⟨g, rfl, hq⟩
        · exact .inl (failQueued_dead (fun x h => by rw [hg] at h; cases h; exact hq))
    cases hp : p i with
    | false =>
      have : t.failQueued i = t := failQueued_dead (hd i List.mem_cons_self hp)
      rw [List.foldl_cons, this, List.filter_cons, hp]
      exact ih t ho hl (fun j hj => hd j (List.mem_cons_of_mem _ hj))
    | true =>
      rw [List.foldl_cons, List.filter_cons, if_pos hp, List.foldl_cons]
      rcases hdead with hdead | ⟨h, hh, hq⟩
      · rw [hdead]
        exact ih t ho hl (fun j hj => hd j (List.mem_cons_of_mem _ hj))
      · obtain ⟨w, -, -⟩ := (Swept.refl ho hl).failQueued hh hq
        refine ih _ w.owned w.listed (fun j hj hpj g hg => ?_)
        have hdj := hd j (List.mem_cons_of_mem _ hj) hpj
        cases hjj : t.legs.get j with
        | none => rw [w.noleg j hjj] at hg; cases hg
        | some x =>
          rcases w.leg j x hjj with hw | ⟨hw, -⟩ | ⟨hw, -⟩
          · rw [hw] at hg; cases hg; exact hdj _ hjj
          · rw [hw] at hg; cases hg; intro e; cases e
          · rw [hw] at hg; cases hg

/-- What leg failures can change at most, in any state: slots, leg records, demand queues and the transmit
queue; a FAILED leg stays, and no leg becomes QUEUED. -/
structure Culls (s t : State) : Prop where
  frame : t = { s with slots := t.slots, legs := t.legs, lines := t.lines, txQueue := t.txQueue }
  line : ∀ l, t.lines.get l = { s.lines.get l with demand := (t.lines.get l).demand } ∧
    (t.lines.get l).demand.Sublist (s.lines.get l).demand
  failed : ∀ i g, s.legs.get i = some g → g.state = .failed → t.legs.get i = some g
  queued : ∀ i g, t.legs.get i = some g → g.state = .queued → s.legs.get i = some g

namespace Culls

theorem refl (s : State) : Culls s s :=
  ⟨rfl, fun _ => ⟨rfl, List.Sublist.refl _⟩, fun _ _ h _ => h, fun _ _ h _ => h⟩

theorem trans {s t u : State} (a : Culls s t) (b : Culls t u) : Culls s u where
  frame := by
    have h := b.frame
    rw [a.frame] at h
    exact h
  line l := ⟨by rw [(b.line l).1, (a.line l).1], (b.line l).2.trans (a.line l).2⟩
  failed i g h hf := b.failed i g (a.failed i g h hf) hf
  queued i g h hq := a.queued i g (b.queued i g h hq) hq

theorem slot (s : State) (k : Nat) (r : Request) : Culls s (s.putSlot k r) :=
  ⟨rfl, fun _ => ⟨rfl, List.Sublist.refl _⟩, fun _ _ h _ => h, fun _ _ h _ => h⟩

theorem complete (s : State) (k : Nat) : Culls s (s.completeIfDone k) := by
  rcases completeIfDone_cases s k with ⟨r, -, -, -, h⟩ | ⟨h, -⟩
  · rw [h]; exact ⟨rfl, fun _ => ⟨rfl, List.Sublist.refl _⟩, fun _ _ h _ => h, fun _ _ h _ => h⟩
  · rw [h]; exact refl s

theorem cancel (s : State) (k : Nat) (p : Leg → Bool) (hp : ∀ g, p g = true → g.state ≠ .failed) :
    Culls s (s.cancelLegs k p) := by
  unfold State.cancelLegs
  split
  · exact refl s
  · rename_i r _
    obtain ⟨h1, h2, -, -, h5⟩ := foldl_cancelLeg k (s.legsWhere r p) s
    refine ⟨by rw [h1], fun l => ?_, fun i g hg hf => ?_, fun i g hg _ => ?_⟩
    · rw [h5 l]; exact ⟨rfl, List.filter_sublist⟩
    · have e := h2 i
      simp only at e
      rw [e, if_neg]
      · exact hg
      · intro hh
        rw [Bool.and_eq_true] at hh
        have hm : i ∈ s.legsWhere r p := by simpa using hh.1
        have := (List.mem_filter.1 hm).2
        rw [hg] at this
        exact hp g this hf
    · have e := h2 i
      simp only at e
      rw [e] at hg
      split at hg
      · cases hg
      · exact hg

theorem fetchFailure (s : State) (k : Nat) (r : Request) (g : Leg) (st : Status) :
    Culls s (s.fetchFailure k r g st) := by
  unfold State.fetchFailure
  refine trans ?_ (complete _ k)
  split
  · refine trans (slot s k _) (cancel _ k _ ?_)
    intro h hh e
    simp [e] at hh
  · exact slot s k _

theorem storeFailure (s : State) (k : Nat) (r : Request) (g : Leg) (st : Status) :
    Culls s (s.storeFailure k r g st) := by
  refine trans (trans (slot s k _) (cancel _ k _ ?_)) (complete _ k)
  intro h hh e
  simp [e] at hh

theorem legFailure (s : State) (g : Leg) (st : Status) : Culls s (s.legFailure g st) := by
  unfold State.legFailure
  split
  · exact refl s
  · split
    · exact fetchFailure ..
    · exact storeFailure ..

theorem failQueued (s : State) (i : Nat) : Culls s (s.failQueued i) := by
  unfold State.failQueued
  split
  · exact refl s
  · rename_i g hg
    split
    · rename_i hq
      refine trans ?_ (legFailure _ _ _)
      refine ⟨rfl, fun l => ?_, fun j x hx hf => ?_, fun j x hx hxq => ?_⟩
      · have e : ∀ v : State, v.lines = s.lines.set g.line { s.lines.get g.line with
            demand := (s.lines.get g.line).demand.filter (fun j => j != i) } →
            v.lines.get l = { s.lines.get l with demand := (v.lines.get l).demand } ∧
              (v.lines.get l).demand.Sublist (s.lines.get l).demand := by
          intro v hv
          rw [hv, Four.get_set]
          split
          · rename_i hl; subst hl; exact ⟨rfl, List.filter_sublist⟩
          · exact ⟨rfl, List.Sublist.refl _⟩
        exact e _ rfl
      · show (s.legs.put i _).get j = _
        rw [Sparse.get_put, if_neg]
        · exact hx
        · intro e; rw [e, hg] at hx; cases hx; rw [hq] at hf; cases hf
      · have hx : (s.legs.put i _).get j = some x := hx
        rw [Sparse.get_put] at hx
        split at hx
        · cases hx; cases hxq
        · exact hx
    · exact refl s

theorem foldl (ids : List Nat) : ∀ s : State, Culls s (ids.foldl State.failQueued s) := by
  induction ids with
  | nil => exact refl
  | cons i ids ih => exact fun s => trans (failQueued s i) (ih _)

end Culls

/-- A leg in the sweep's list is not QUEUED after it. -/
theorem foldl_failQueued_not_queued {i : Nat} {g : Leg} : ∀ (ids : List Nat) (s : State), i ∈ ids →
    (ids.foldl State.failQueued s).legs.get i = some g → g.state ≠ .queued := by
  intro ids
  induction ids with
  | nil => intro s h; cases h
  | cons j ids ih =>
    intro s hi hg hq
    rcases List.mem_cons.1 hi with rfl | hi
    · have hg' := (Culls.foldl ids (s.failQueued i)).queued i g hg hq
      have hs := (Culls.failQueued s i).queued i g hg' hq
      have h2 : (s.failQueued i).legs.get i = some (g.fail .stationOffline none false) := by
        unfold State.failQueued
        rw [hs]
        simp only [hq, if_true]
        exact (Culls.legFailure _ _ _).failed i _ (Sparse.get_put_same _ _ _) rfl
      rw [h2] at hg'
      have := congrArg Leg.state (Option.some.inj hg')
      rw [hq] at this
      cases this
    · exact ih _ hi hg hq

/-- A leg that stands after a failure has been taken stood so before. -/
theorem legFailure_within (s : State) (g : Leg) (st : Status) :
    ∀ i x, (s.legFailure g st).legs.get i = some x → s.legs.get i = some x := by
  have hc : ∀ (u : State) k p i x, (u.cancelLegs k p).legs.get i = some x →
      u.legs.get i = some x := by
    intro u k p i x h
    unfold State.cancelLegs at h
    split at h
    · exact h
    · rename_i r _
      have e := (foldl_cancelLeg k (u.legsWhere r p) u).2.1 i
      simp only at e
      rw [e] at h
      split at h
      · cases h
      · exact h
  have hd : ∀ (u : State) k, (u.completeIfDone k).legs = u.legs := by
    intro u k
    rcases completeIfDone_cases u k with ⟨r, -, -, -, h⟩ | ⟨h, -⟩ <;> rw [h]
  intro i x h
  unfold State.legFailure at h
  split at h
  · exact h
  · split at h
    · unfold State.fetchFailure at h
      rw [hd] at h
      split at h
      · exact hc (s.putSlot g.owner _) _ _ _ _ h
      · exact h
    · unfold State.storeFailure at h
      rw [hd] at h
      exact hc (s.putSlot g.owner _) _ _ _ _ h

/-- The sweep leaves the legs that are not in its list, or takes them out of the pool. -/
theorem foldl_failQueued_within {i : Nat} {x : Leg} : ∀ (ids : List Nat) (s : State), i ∉ ids →
    (ids.foldl State.failQueued s).legs.get i = some x → s.legs.get i = some x := by
  intro ids
  induction ids with
  | nil => intro s _ h; exact h
  | cons j ids ih =>
    intro s hn h
    have h := ih _ (fun hh => hn (List.mem_cons_of_mem _ hh)) h
    have hij : i ≠ j := fun e => hn (e ▸ List.mem_cons_self)
    unfold State.failQueued at h
    split at h
    · exact h
    · split at h
      · have h := legFailure_within _ _ _ _ _ h
        have h : (s.legs.put j _).get i = some x := h
        rw [Sparse.get_put, if_neg hij] at h
        exact h
      · exact h

/-- The cells of a station's regions go invalid and keep their values and stamps; nothing else changes. -/
theorem invalidateStation_spec (s : State) (l : LineNo) (station : Nat) :
    (∃ m, s.invalidateStation l station = { s with mirror := m }) ∧
    ∀ a,
      ((∃ i e, (i, e) ∈ s.active.scan ∧ e.line = l ∧ e.station = station ∧ e.mirrorBase ≤ a ∧
          a < e.mirrorBase + e.count) →
        (s.invalidateStation l station).cell a = { s.cell a with valid := false }) ∧
      (¬(∃ i e, (i, e) ∈ s.active.scan ∧ e.line = l ∧ e.station = station ∧ e.mirrorBase ≤ a ∧
          a < e.mirrorBase + e.count) →
        (s.invalidateStation l station).cell a = s.cell a) := by
  unfold State.invalidateStation
  generalize s.active.scan = es
  induction es generalizing s with
  | nil =>
    exact ⟨⟨s.mirror, rfl⟩, fun a => ⟨fun ⟨i, e, h, _⟩ => absurd h List.not_mem_nil, fun _ => rfl⟩⟩
  | cons x es ih =>
    rw [List.foldl_cons]
    obtain ⟨⟨m, hm⟩, hc⟩ := ih (if x.2.line = l ∧ x.2.station = station then
      s.invalidateCells x.2.mirrorBase x.2.count else s)
    have hfst : ∀ a, (if x.2.line = l ∧ x.2.station = station then
        s.invalidateCells x.2.mirrorBase x.2.count else s).cell a =
        if (x.2.line = l ∧ x.2.station = station) ∧ x.2.mirrorBase ≤ a ∧
            a < x.2.mirrorBase + x.2.count then
          { s.cell a with valid := false } else s.cell a := by
      intro a
      by_cases h : x.2.line = l ∧ x.2.station = station
      · rw [if_pos h]
        rw [State.cell_invalidateCells]
        by_cases h2 : x.2.mirrorBase ≤ a ∧ a < x.2.mirrorBase + x.2.count
        · rw [if_pos h2, if_pos ⟨h, h2⟩]
        · rw [if_neg h2, if_neg (fun e => h2 e.2)]
      · rw [if_neg h, if_neg (fun e => h e.1)]
    refine ⟨⟨m, ?_⟩, fun a => ⟨?_, ?_⟩⟩
    · rw [hm]
      split <;> rfl
    · rintro ⟨i, e, he, h1, h2, h3, h4⟩
      by_cases hrest : ∃ i e, (i, e) ∈ es ∧ e.line = l ∧ e.station = station ∧ e.mirrorBase ≤ a ∧
          a < e.mirrorBase + e.count
      · rw [(hc a).1 hrest, hfst a]
        split <;> rfl
      · rw [(hc a).2 hrest, hfst a]
        rcases List.mem_cons.1 he with rfl | he
        · rw [if_pos ⟨⟨h1, h2⟩, h3, h4⟩]
        · exact absurd ⟨i, e, he, h1, h2, h3, h4⟩ hrest
    · intro hno
      rw [(hc a).2 (fun ⟨i, e, he, h⟩ => hno ⟨i, e, List.mem_cons_of_mem _ he, h⟩), hfst a, if_neg]
      rintro ⟨⟨h1, h2⟩, h3, h4⟩
      exact hno ⟨x.1, x.2, List.mem_cons_self, h1, h2, h3, h4⟩

/-- The withdrawn entries wait, uncounted, out of the queue (R85). -/
theorem withdrawScans_spec (s : State) (l : LineNo) (station : Nat) :
    ∃ m, s.withdrawScans l station = { s with
      lines := s.lines.set l { s.lines.get l with
        scans := (s.lines.get l).scans.filter (fun i => !s.scanOf l station i) }
      scans := m } ∧
    ∀ i, m.get i = (s.scans.get i).map (fun y =>
      if i ∈ (s.lines.get l).scans ∧ s.scanOf l station i = true then { y with state := .waiting }
      else y) := by
  have fold : ∀ (ids : List Nat) (u : State),
      ∃ m, ids.foldl (fun t i => t.modScan i (fun r => { r with state := .waiting })) u =
        { u with scans := m } ∧
      ∀ i, m.get i = (u.scans.get i).map
        (fun y => if i ∈ ids then { y with state := .waiting } else y) := by
    intro ids
    induction ids with
    | nil => intro u; exact ⟨u.scans, rfl, fun i => by simp⟩
    | cons j ids ih =>
      intro u
      obtain ⟨m, h1, h2⟩ := ih (u.modScan j (fun r => { r with state := .waiting }))
      refine ⟨m, by rw [List.foldl_cons, h1]; rfl, fun i => ?_⟩
      rw [h2 i]
      show ((u.scans.modify j _).get i).map _ = _
      rw [Sparse.get_modify]
      by_cases hij : i = j
      · subst hij
        rw [if_pos rfl, Option.map_map]
        congr 1
        funext y
        simp
      · rw [if_neg hij]
        congr 1
        funext y
        simp [hij]
  unfold State.withdrawScans
  obtain ⟨m, h1, h2⟩ := fold ((s.lines.get l).scans.filter (s.scanOf l station))
    (s.modLine l (fun n => { n with scans := n.scans.filter (fun i => !s.scanOf l station i) }))
  refine ⟨m, ?_, fun i => ?_⟩
  · simp only
    rw [h1]
    rfl
  · rw [h2 i]
    show (s.scans.get i).map _ = _
    congr 1
    funext y
    simp only [List.mem_filter]

end Sys2Proof.Machine
end

