-- ==== Sys2Proof/Laws/Replies.lean ====
section
/-!
SUPPORT. The order in which the requests that leg failures complete in one event place their replies (R54,
R56, R84): behind what the transmit queue holds, each slot at the last of its legs that fails.
-/

namespace Sys2Proof.Machine

theorem lastOfEach_append (as : List Nat) (a : Nat) :
    lastOfEach (as ++ [a]) = (lastOfEach as).filter (fun b => b != a) ++ [a] := by
  induction as with
  | nil => rfl
  | cons b bs ih =>
    rw [List.cons_append, lastOfEach, lastOfEach]
    by_cases hb : b = a
    · subst hb
      rw [if_pos (by simp), ih]
      split <;> simp
    · by_cases hm : bs.contains b = true
      · rw [if_pos (by simpa using Or.inl hm), if_pos hm, ih]
      · rw [if_neg (by simpa [hb] using hm), if_neg hm, ih, List.filter_cons, if_pos (by simp [hb]),
          List.cons_append]

theorem filterMap_filter_ne {α : Type} (f f' : Nat → Option α) (a : Nat) (ha : f a = none)
    (h : ∀ b, b ≠ a → f' b = f b) (as : List Nat) :
    (as.filter (fun b => b != a)).filterMap f' = as.filterMap f := by
  induction as with
  | nil => rfl
  | cons b bs ih =>
    by_cases hb : b = a
    · subst hb
      rw [List.filter_cons, if_neg (by simp), ih, List.filterMap_cons, ha]
    · rw [List.filter_cons, if_pos (by simp [hb]), List.filterMap_cons, List.filterMap_cons, ih,
        h b hb]

/-- The transmit queue of `t` is that of `s` and, behind it, the replies of the slots that have completed
since, in the order of the last failures of `owners`. -/
def RepliesInOrder (s t : State) (owners : List Nat) : Prop :=
  t.txQueue = s.txQueue ++ (lastOfEach owners).filterMap (s.completedReply t)

theorem RepliesInOrder.refl (s : State) : RepliesInOrder s s [] := by simp [RepliesInOrder, lastOfEach]

/-- One failure more. -/
theorem RepliesInOrder.step {s t t1 : State} {events : List Offer} {owners : List Nat}
    (w : Swept s t events) (h : RepliesInOrder s t owners) {j : Nat} {g h0 : Leg} (st : Status)
    (hts : t1.slots = t.slots) (htq : t1.txQueue = t.txQueue)
    (hl : ∀ i, t1.legs.get i = if i = j then some g else t.legs.get i)
    (hj : t.legs.get j = some h0) (ho : g.owner = h0.owner)
    (hs : events = [] ∨ h0.state = .queued) :
    RepliesInOrder s (t1.legFailure g st) (owners ++ [g.owner]) := by
  obtain ⟨r, q, hr, hq, -, o, hqe, -, hqp, hqa⟩ := w.owner hts hl hj ho hs
  obtain ⟨p, s1, -, -, s4, -, -, s7, s8⟩ := legFailure_spec st o
  generalize t1.legFailure g st = u at s1 s4 s7 s8 ⊢
  have hother : ∀ k, k ≠ g.owner → s.completedReply u k = s.completedReply t k := by
    intro k hk
    simp only [State.completedReply, s4 k hk, hts]
  have hbefore : s.completedReply t g.owner = none := by
    simp only [State.completedReply, hr, hq]
    rw [if_neg]
    rintro ⟨h1, h2⟩
    rw [hqa h1] at h2
    cases h2
  have hnow : u.txQueue = t.txQueue ++ (s.completedReply u g.owner).toList := by
    simp only [State.completedReply, hr, s1]
    by_cases ha : r.phase = .active
    · rw [(s8 (hqa ha)).2, htq, show q.source = r.source by rw [hqe],
        show q.tag = r.tag by rw [hqe]]
      by_cases hp : p.phase = .replying <;> simp [ha, hp]
    · have hq' : q.phase ≠ .active := by rw [hqp ha]; exact ha
      rw [(s7 hq').2, htq, if_neg (fun e => ha e.1)]
      simp
  have hone : [g.owner].filterMap (s.completedReply u) = (s.completedReply u g.owner).toList := by
    rw [List.filterMap_cons, List.filterMap_nil]
    cases s.completedReply u g.owner <;> rfl
  unfold RepliesInOrder at h ⊢
  rw [hnow, h, lastOfEach_append, List.filterMap_append,
    filterMap_filter_ne (s.completedReply t) (s.completedReply u) g.owner hbefore hother,
    List.append_assoc, hone]

/-- A record that holds no leg takes none in the sweep. -/
theorem foldl_failQueued_none {i : Nat} : ∀ (ids : List Nat) (t : State), t.legs.get i = none →
    (ids.foldl State.failQueued t).legs.get i = none := by
  intro ids
  induction ids with
  | nil => intro t h; exact h
  | cons j ids ih =>
    intro t h
    refine ih _ ?_
    by_cases hij : i = j
    · subst hij
      rw [failQueued_dead (fun g hg => by rw [h] at hg; cases hg)]
      exact h
    · cases hx : (t.failQueued j).legs.get i with
      | none => rfl
      | some x =>
        have := foldl_failQueued_within [j] t (by simpa using hij) hx
        rw [h] at this
        cases this

/-- A QUEUED leg of the sweep stands FAILED from its turn on. -/
theorem failQueued_failed {t : State} {i : Nat} {h : Leg} (hi : t.legs.get i = some h)
    (hq : h.state = .queued) (ids : List Nat) :
    (ids.foldl State.failQueued (t.failQueued i)).legs.get i = some h.failedOffline := by
  refine (Culls.foldl ids _).failed i _ ?_ rfl
  unfold State.failQueued
  rw [hi]
  simp only [hq, if_true]
  exact (Culls.legFailure _ _ _).failed i _ (Sparse.get_put_same _ _ _) rfl

/-- The sweep over distinct legs that were QUEUED in `s` and have not failed yet: those that it leaves in
the pool have failed in their order. -/
theorem RepliesInOrder.sweep {s : State} : ∀ (ids : List Nat) {t : State} {events : List Offer}
    {owners : List Nat}, Swept s t events → RepliesInOrder s t owners → ids.Nodup →
    (∀ i ∈ ids, ∃ h, s.legs.get i = some h ∧ h.state = .queued ∧
      t.legs.get i ≠ some h.failedOffline) →
    RepliesInOrder s (ids.foldl State.failQueued t) (owners ++
      (ids.filter (fun i => ((ids.foldl State.failQueued t).legs.get i).isSome)).filterMap
        (fun i => (s.legs.get i).map Leg.owner)) := by
  intro ids
  induction ids with
  | nil => intro t events owners _ h _ _; simpa using h
  | cons i ids ih =>
    intro t events owners w h hd hq
    obtain ⟨g, hi, hs, hne⟩ := hq i List.mem_cons_self
    obtain ⟨hin, hd⟩ := List.nodup_cons.1 hd
    have hrest : ∀ j ∈ ids, ∃ x, s.legs.get j = some x ∧ x.state = .queued ∧
        (t.failQueued i).legs.get j ≠ some x.failedOffline := by
      intro j hj
      obtain ⟨x, hx, hxq, hxn⟩ := hq j (List.mem_cons_of_mem _ hj)
      refine ⟨x, hx, hxq, fun e => hxn ?_⟩
      exact foldl_failQueued_within [i] t (by simpa using fun e : j = i => hin (e ▸ hj)) e
    rw [List.foldl_cons, List.filter_cons]
    have w1 := (w.failQueued hi hs).1
    rcases w.leg i g hi with hw | ⟨hw, -⟩ | ⟨hw, -⟩
    · have h1 : RepliesInOrder s (t.failQueued i) (owners ++ [g.owner]) := by
        have e : t.failQueued i = (({ t with
            lines := t.lines.set g.line { t.lines.get g.line with
              demand := (t.lines.get g.line).demand.filter (fun j => j != i) }
            legs := t.legs.put i g.failedOffline } : State).legFailure g.failedOffline
              .stationOffline) := by
          unfold State.failQueued
          rw [hw]
          simp only [hs, if_true]
          rfl
        rw [e]
        exact h.step w .stationOffline rfl rfl (fun k => Sparse.get_put _ _ _ _) hw rfl (.inr hs)
      rw [failQueued_failed hw hs ids]
      simpa [hi] using ih w1 h1 hd hrest
    · exact absurd hw hne
    · have e : t.failQueued i = t := failQueued_dead (fun x hx => by rw [hw] at hx; cases hx)
      rw [e] at hrest ⊢
      rw [foldl_failQueued_none ids t hw]
      simpa using ih w h hd hrest

theorem nodup_eraseDups (ids : List Nat) : ids.eraseDups.Nodup := by
  induction hn : ids.length using Nat.strong_induction_on generalizing ids with
  | _ n ih =>
    cases ids with
    | nil => simp
    | cons i ids =>
      rw [List.eraseDups_cons, List.nodup_cons]
      refine ⟨by simp [List.mem_eraseDups], ih _ ?_ _ rfl⟩
      have := List.length_filter_le (fun b => !(b == i)) ids
      simp only [List.length_cons] at hn
      omega

/-- In the sweep a leg's second turn does nothing. -/
theorem foldl_failQueued_eraseDups (ids : List Nat) (t : State)
    (ho : ∀ i g, t.legs.get i = some g → ∃ r, t.slots.get g.owner = some r ∧ i ∈ r.legs)
    (hl : ∀ k r, t.slots.get k = some r → ∀ i ∈ r.legs, ∃ g, t.legs.get i = some g ∧ g.owner = k) :
    ids.foldl State.failQueued t = ids.eraseDups.foldl State.failQueued t := by
  induction hn : ids.length using Nat.strong_induction_on generalizing ids t with
  | _ n ih =>
    cases ids with
    | nil => rfl
    | cons i ids =>
      rw [List.eraseDups_cons, List.foldl_cons, List.foldl_cons]
      have hdone : ∀ g, (t.failQueued i).legs.get i = some g → g.state ≠ .queued := by
        intro g hg
        exact foldl_failQueued_not_queued [i] t (by simp) hg
      have hw : (∀ k g, (t.failQueued i).legs.get k = some g →
            ∃ r, (t.failQueued i).slots.get g.owner = some r ∧ k ∈ r.legs) ∧
          (∀ k r, (t.failQueued i).slots.get k = some r →
            ∀ j ∈ r.legs, ∃ g, (t.failQueued i).legs.get j = some g ∧ g.owner = k) := by
        cases hg : t.legs.get i with
        | none =>
          rw [failQueued_dead (fun g h => by rw [hg] at h; cases h)]
          exact ⟨ho, hl⟩
        | some g =>
          by_cases hq : g.state = .queued
          · have w := ((Swept.refl ho hl).failQueued hg hq).1
            exact ⟨w.owned, w.listed⟩
          · rw [failQueued_dead (fun x h => by rw [hg] at h; cases h; exact hq)]
            exact ⟨ho, hl⟩
      rw [foldl_failQueued_filter (fun b => !(b == i)) ids _ hw.1 hw.2]
      · refine ih (ids.filter (fun b => !(b == i))).length ?_ _ _ hw.1 hw.2 rfl
        have := List.length_filter_le (fun b => !(b == i)) ids
        simp only [List.length_cons] at hn
        omega
      · intro j _ hj g hg
        have hji : j = i := by simpa using hj
        subst hji
        exact hdone g hg

end Sys2Proof.Machine
end

