-- ==== Sys2Proof/Laws/Steps.lean ====
section
/-!
SUPPORT. What any command can do to the transmit queue, the request table, the lines, the stations and the
mirror. `ClosedStep R` adds to `Closed R` the updates that end operations, swaps, restarts and resets are
made of; a relation so closed holds across every command (`exec_closed`).
-/

namespace Sys2Proof.Machine

/-- The parts that these relations speak of are as before. -/
structure Rest (s t : State) : Prop where
  txQueue : t.txQueue = s.txQueue
  slots : t.slots = s.slots
  legs : t.legs = s.legs
  lines : t.lines = s.lines
  stations : t.stations = s.stations
  mirror : t.mirror = s.mirror
  operation : t.operation = s.operation

/-- A relation that holds across everything a command is made of. -/
structure ClosedStep (R : State → State → Prop) : Prop extends Closed R where
  rest : ∀ s t, Rest s t → R s t
  /-- An operation begins (R125). -/
  begin : ∀ s o, s.operation = .none → closingHeld s.txQueue = false →
    R s { s with operation := o }
  /-- A pending operation goes on. -/
  goOn : ∀ s o, s.operation ≠ .none → R s { s with operation := o }
  /-- A pending operation ends with its closing MREPLY (R119). -/
  finish : ∀ s f, s.operation ≠ .none → f.isClosing = true →
    R s { s with operation := .none, txQueue := s.txQueue ++ [f] }
  /-- The closing MREPLY of a RESTART joins (R159). -/
  restart : ∀ s f, s.operation = .none → closingHeld s.txQueue = false → f.isClosing = true →
    R s { s with txQueue := s.txQueue ++ [f] }
  /-- Lines, stations and mirror at a swap (R142). -/
  swap : ∀ (s : State) (t : Tables), R s { s with
    lines := Four.build (fun l =>
      swapLine s.uptime (t.lines.get l) (keepsRecord t l (s.stations.get l)) (s.lines.get l))
    stations := Four.build (fun l => t.carriedRecords l (s.stations.get l))
    mirror := s.invalidateMirror.mirror }
  /-- The head of the transmit queue leaves (R120). -/
  pop : ∀ s f rest, s.txQueue = f :: rest → f.replySlot = none → R s { s with txQueue := rest }
  /-- The head leaves and frees its slot (R57). -/
  popReply : ∀ s f rest k, s.txQueue = f :: rest → f.replySlot = some k →
    R s ({ s with txQueue := rest }.releaseSlot k)
  /-- The warm restart (R160). -/
  warm : ∀ s, R s s.warmRestart
  /-- The part stops (R155). -/
  halt : ∀ s, R s { s with
    txQueue := [], operation := .none, lines := Four.build (fun l => (s.lines.get l).halted) }
  /-- Start-up ends (R158). -/
  cold : ∀ s t g c, R s (s.coldValues t g c)

variable {R : State → State → Prop}

theorem Rest.refl (s : State) : Rest s s := (by constructor <;> rfl)

namespace ClosedStep

/-- An update of fields that these relations do not speak of. -/
theorem aside (c : ClosedStep R) {s t : State} (h : Rest s t) : R s t := c.rest s t h

theorem touch (c : ClosedStep R) (s : State) (x : Byte) : R s (s.touchSession x) := by
  obtain ⟨o, h, -⟩ := touchSession_eq s x
  rw [h]
  exact c.aside (by constructor <;> rfl)

theorem taken (c : ClosedStep R) (s : State) : R s s.frameTaken :=
  c.aside (by constructor <;> rfl)

theorem answer (c : ClosedStep R) (s : State) (f : Frame) (st : Status) (r : List Byte) :
    R s (s.answer f st r) := c.pushPrompt s _ _ _

/-- An answer after an update of fields that these relations do not speak of. -/
theorem answered (c : ClosedStep R) {s t : State} (h : Rest s t) (f : Frame) (st : Status)
    (r : List Byte) : R s (t.answer f st r) := c.trans (c.aside h) (c.answer t f st r)

theorem onMgmt (c : ClosedStep R) {sel : Frame → Bool} {act : Frame → State → State} {byte : Byte}
    {s : State} (h : ∀ f t, R t (act f t)) : R s (Machine.onMgmt sel act byte s) := by
  rcases onMgmt_cases sel act byte s with h' | ⟨f, -, -, h'⟩
  · rw [h']; exact c.refl s
  · rw [h']; exact c.trans (c.taken s) (h f _)

theorem serve (c : ClosedStep R) {α : Type} {n : Needs} {read : State → List Byte → Option α}
    {act : α → Frame → State → State} {f : Frame} {s : State}
    (h : ∀ a t, (t.operation = .none ∨ n.whilePending = true) →
      (n.closing = false ∨ closingHeld t.txQueue = false) → R t (act a f t)) :
    R s (Machine.serve n read act f s) := by
  rcases serve_cases n read act f s with ⟨st, h'⟩ | ⟨a, -, h1, h2, -, h'⟩
  · rw [h']; exact c.trans (c.touch _ _) (c.answer _ _ _ _)
  · rw [h']
    exact c.trans (c.touch _ _) (h a _ (by simpa using h1) (by simpa using h2))

theorem finishOp (c : ClosedStep R) {s t : State} (kind : ClosingKind) (d tg : Byte) (p : Payload)
    (hs : s.operation ≠ .none) (h : Rest s t) :
    R s ((t.pushClosing kind d tg p).endOperation) := by
  refine c.trans (c.aside h) ?_
  have h1 := c.finish t ⟨.closing kind, d, tg, p⟩ (by rw [h.operation]; exact hs) rfl
  refine c.trans h1 (c.aside ?_)
  unfold State.endOperation State.startIdleTimer
  split <;> exact ⟨rfl, rfl, rfl, rfl, rfl, rfl, rfl⟩

theorem drainTest (c : ClosedStep R) (s : State) : R s s.drainTest := by
  rcases drainTest_cases s with h | ⟨d, t, x, ho, -, -, h⟩
  · rw [h]; exact c.refl s
  · rw [h]
    refine c.together s _ _ ?_
    have hv := (traffic.withdrawn s (s.losesRecord s.staging.tables)).operation
    generalize s.withdrawn _ = v at hv
    refine c.trans (c.swap v v.staging.tables) ?_
    generalize hu : ({ v with lines := _, stations := _, mirror := _ } : State) = u
    have hr : Rest u (v.installTables v.staging.tables) := by
      subst hu; exact ⟨rfl, rfl, rfl, rfl, rfl, rfl, rfl⟩
    exact c.finishOp .swap d t _ (by subst hu; show v.operation ≠ _; rw [hv, ho]; simp) hr

theorem drained (c : ClosedStep R) {s t u : State} (hu : R s u) (h : t = u ∨ t = u.drainTest) :
    R s t := by
  rcases h with rfl | rfl
  · exact hu
  · exact c.trans hu (c.drainTest u)

theorem stop (c : ClosedStep R) (s : State) : R s s.halt := by
  refine c.trans (c.halt s) (c.aside ?_)
  unfold State.halt
  rw [cutCommit_eq]
  simp only [State.stopIdleTimer]
  split <;> exact ⟨rfl, rfl, rfl, rfl, rfl, rfl, rfl⟩

theorem startCold (c : ClosedStep R) (s : State) : R s s.beginColdStart :=
  c.trans (c.stop s) (c.aside (by constructor <;> rfl))

theorem data (c : ClosedStep R) {kind : FrameKind} {act : Frame → State → State} {byte : Byte}
    {s : State} (h : ∀ f t, R t (act f t)) : R s (onKind kind act byte s) := by
  rcases onKind_cases kind act byte s with h' | ⟨f, -, h'⟩ <;> rw [h']
  · exact c.refl s
  · exact c.trans (c.taken s) (h f _)

theorem sent (c : ClosedStep R) (s : State) (f : TxFrame) (rest : List TxFrame)
    (h : s.txQueue = f :: rest) :
    R s ({ s with sending := none, txQueue := rest }.frameSent f.cls) := by
  have h0 : R s { s with sending := none } := c.aside (by constructor <;> rfl)
  have h1 : f.replySlot = none → R s { s with sending := none, txQueue := rest } := fun hf =>
    c.trans h0 (c.pop { s with sending := none } f rest h hf)
  cases hc : f.cls with
  | slotReply k =>
    exact c.trans h0 (c.popReply { s with sending := none } f rest k h (by simp [TxFrame.replySlot, hc]))
  | prompt => exact h1 (by simp [TxFrame.replySlot, hc])
  | closing k =>
    have h1 := h1 (by simp [TxFrame.replySlot, hc])
    cases k with
    | swap =>
      refine c.trans h1 (c.aside ?_)
      simp only [State.frameSent, State.switchLink]
      split <;> exact ⟨rfl, rfl, rfl, rfl, rfl, rfl, rfl⟩
    | drainTimeout => exact h1
    | commit => exact h1
    | restartWarm => exact c.trans h1 (c.warm _)
    | restartCold => exact c.trans h1 (c.startCold _)

end ClosedStep

theorem exec_closed (c : ClosedStep R) {i : Instr} {s t : State} (h : exec i s = .next t) :
    R s t := by
  have next_inj : ∀ {a b : State},
      (Host.Outcome.next a : Host.Outcome State Fault Refusal) = .next b → a = b :=
    fun h => by cases h; rfl
  have same : R s s := c.refl s
  cases i <;> simp only [exec] at h
  case hostBadLength b =>
    simp only [execHostBadLength] at h; split at h <;> (have h := next_inj h; subst h) <;>
      exact c.aside (by constructor <;> rfl)
  case hostGapTimerExpiry =>
    simp only [execHostGapTimerExpiry] at h; split at h <;> (have h := next_inj h; subst h) <;>
      exact c.aside (by constructor <;> rfl)
  case hostFrameRejected b =>
    simp only [execHostFrameRejected] at h; split at h <;> (have h := next_inj h; subst h) <;>
      exact c.aside (by constructor <;> rfl)
  case hostByteReceived b =>
    simp only [execHostByteReceived] at h; split at h <;> (have h := next_inj h; subst h)
    · simp only [State.keepByte]
      (repeat' split) <;> exact c.aside (by constructor <;> rfl)
    · exact same
  case fetch b => have h := next_inj h; subst h; exact c.data fun f t => c.dataRequest t .fetch f
  case store b => have h := next_inj h; subst h; exact c.data fun f t => c.dataRequest t .store f
  case storeSet b =>
    have h := next_inj h; subst h; exact c.data fun f t => c.dataRequest t .storeSet f
  case cancel b =>
    have h := next_inj h; subst h
    refine c.data fun f t => ?_
    obtain ⟨u, hu, hc⟩ := c.cancelRequest t f
    exact c.drained hu hc
  case mgmtBadOperation b =>
    have h := next_inj h; subst h
    exact c.onMgmt fun f t => c.trans (c.touch _ _) (c.answer _ _ _ _)
  case sessionOpen b =>
    have h := next_inj h; subst h
    refine c.onMgmt fun f t => c.serve fun a u _ _ => ?_
    simp only [sessionOpen]
    (repeat' split) <;> exact c.answered (by constructor <;> rfl) _ _ _
  case sessionClose b =>
    have h := next_inj h; subst h
    exact c.onMgmt fun f t => c.serve fun a u _ _ =>
      c.answered (t := u.closeSession) (by constructor <;> rfl) _ _ _
  case stageCopyActive b =>
    have h := next_inj h; subst h
    exact c.onMgmt fun f t => c.serve fun a u _ _ =>
      c.answered (t := { u with staging := copyOf u.active })
        (by constructor <;> rfl) _ _ _
  case stageClear b =>
    have h := next_inj h; subst h
    exact c.onMgmt fun f t => c.serve fun a u _ _ =>
      c.answered (by constructor <;> rfl) _ _ _
  case stagePutMap b =>
    have h := next_inj h; subst h
    exact c.onMgmt fun f t => c.serve fun a u _ _ =>
      c.answered (by constructor <;> rfl) _ _ _
  case stageDeleteMap b =>
    have h := next_inj h; subst h
    exact c.onMgmt fun f t => c.serve fun a u _ _ =>
      c.answered (by constructor <;> rfl) _ _ _
  case stagePutScan b =>
    have h := next_inj h; subst h
    exact c.onMgmt fun f t => c.serve fun a u _ _ =>
      c.answered (by constructor <;> rfl) _ _ _
  case stageDeleteScan b =>
    have h := next_inj h; subst h
    exact c.onMgmt fun f t => c.serve fun a u _ _ =>
      c.answered (by constructor <;> rfl) _ _ _
  case stagePutLine b =>
    have h := next_inj h; subst h
    exact c.onMgmt fun f t => c.serve fun a u _ _ =>
      c.answered (by constructor <;> rfl) _ _ _
  case stagePutBridge b =>
    have h := next_inj h; subst h
    exact c.onMgmt fun f t => c.serve fun a u _ _ =>
      c.answered (by constructor <;> rfl) _ _ _
  case validate b =>
    have h := next_inj h; subst h
    refine c.onMgmt fun f t => c.serve fun a u _ _ => ?_
    simp only [validateStaging]
    split <;> exact c.answered (by constructor <;> rfl) _ _ _
  case activate b =>
    have h := next_inj h; subst h
    refine c.onMgmt fun f t => c.serve fun a u h1 h2 => ?_
    simp only [activate]
    split
    · refine c.trans ?_ (c.drainTest _)
      unfold State.enterDraining
      refine c.trans (c.trans (c.begin u (.activate f.source f.tag (after u.uptime a)) ?_ ?_)
        (c.aside ?_)) (c.together _ _ _ (c.stopScans _))
      · rcases h1 with h1 | h1 <;> [exact h1; cases h1]
      · rcases h2 with h2 | h2 <;> [cases h2; exact h2]
      · unfold State.stopIdleTimer
        split <;> exact ⟨rfl, rfl, rfl, rfl, rfl, rfl, rfl⟩
    · exact c.answer _ _ _ _
  case drainTimerExpiry =>
    simp only [execDrainTimerExpiry] at h
    split at h
    · rename_i ho
      split at h <;> (have h := next_inj h; subst h)
      · exact c.finishOp .drainTimeout _ _ _ (by rw [ho]; simp) (by constructor <;> rfl)
      · exact same
    · have h := next_inj h; subst h; exact same
  case commit b =>
    have h := next_inj h; subst h
    refine c.onMgmt fun f t => c.serve fun a u h1 h2 => ?_
    refine c.trans (c.begin u (u.beginCommit f.source f.tag).operation ?_ ?_) (c.aside ?_)
    · rcases h1 with h1 | h1 <;> [exact h1; cases h1]
    · rcases h2 with h2 | h2 <;> [cases h2; exact h2]
    · unfold State.beginCommit State.stopIdleTimer
      simp only []
      split <;> exact ⟨rfl, rfl, rfl, rfl, rfl, rfl, rfl⟩
  case commitWriteEnd fault cells =>
    simp only [execCommitWriteEnd] at h
    split at h
    · rename_i d tg job hs ho
      split at h <;> (have h := next_inj h; subst h)
      · exact same
      · exact c.trans (c.goOn s (.commit d tg { job with written := true, fault := fault })
          (by rw [ho]; simp)) (c.aside (by constructor <;> rfl))
    · have h := next_inj h; subst h; exact same
  case commitVerifyResult =>
    simp only [execCommitVerifyResult] at h
    split at h
    · rename_i d tg job hs ho
      have hne : s.operation ≠ .none := by rw [ho]; simp
      split at h
      · split at h <;> (have h := next_inj h; subst h)
        · exact c.finishOp .commit _ _ _ hne (by constructor <;> rfl)
        · exact c.finishOp .commit _ _ _ hne (.refl s)
      · have h := next_inj h; subst h; exact same
    · have h := next_inj h; subst h; exact same
  case restartWarm b =>
    have h := next_inj h; subst h
    refine c.onMgmt fun f t => c.serve fun a u h1 h2 => c.restart u _ ?_ ?_ rfl
    · rcases h1 with h1 | h1 <;> [exact h1; cases h1]
    · rcases h2 with h2 | h2 <;> [cases h2; exact h2]
  case restartCold b =>
    have h := next_inj h; subst h
    refine c.onMgmt fun f t => c.serve fun a u h1 h2 => c.restart u _ ?_ ?_ rfl
    · rcases h1 with h1 | h1 <;> [exact h1; cases h1]
    · rcases h2 with h2 | h2 <;> [cases h2; exact h2]
  case stationReset b =>
    have h := next_inj h; subst h
    exact c.onMgmt fun f t => c.serve fun a u _ _ =>
      c.trans (c.resetStation u a.1 a.2) (c.answer _ _ _ _)
  case statsRead b =>
    have h := next_inj h; subst h
    refine c.onMgmt fun f t => ?_
    simp only [statsRead]
    split
    · exact c.serve fun a u _ _ => c.answer _ _ _ _
    · exact c.trans (c.touch _ _) (c.answer _ _ _ _)
  case statsClear b =>
    have h := next_inj h; subst h
    refine c.onMgmt fun f t => ?_
    simp only [statsClear]
    split
    · exact c.serve fun a u _ _ => c.trans (c.clearGroup u a) (c.answer _ _ _ _)
    · exact c.trans (c.touch _ _) (c.answer _ _ _ _)
  case status b =>
    have h := next_inj h; subst h
    exact c.onMgmt fun f t => c.serve fun a u _ _ => c.answer _ _ _ _
  case readActive b =>
    have h := next_inj h; subst h
    exact c.onMgmt fun f t => c.serve fun a u _ _ => c.answer _ _ _ _
  case readStage b =>
    have h := next_inj h; subst h
    exact c.onMgmt fun f t => c.serve fun a u _ _ => c.answer _ _ _ _
  case stationList b =>
    have h := next_inj h; subst h
    exact c.onMgmt fun f t => c.serve fun a u _ _ => c.answer _ _ _ _
  case scanInfo b =>
    have h := next_inj h; subst h
    exact c.onMgmt fun f t => c.serve fun a u _ _ => c.answer _ _ _ _
  case idleTimerExpiry =>
    simp only [execIdleTimerExpiry] at h
    split at h <;> (have h := next_inj h; subst h) <;>
      exact c.aside (by constructor <;> rfl)
  case transmitStart =>
    simp only [execTransmitStart] at h
    split at h <;> (have h := next_inj h; subst h) <;>
      exact c.aside (by constructor <;> rfl)
  case transmitEnd =>
    simp only [execTransmitEnd] at h
    split at h
    · rename_i hs2 hs3
      have h := next_inj h; subst h
      exact c.sent s _ _ hs3
    · have h := next_inj h; subst h; exact same
  case guardTimeExpiry l =>
    simp only [execGuardTimeExpiry] at h
    (repeat' split at h) <;> (have h := next_inj h; subst h)
    · exact c.guardOver s l
    · exact same
    · exact same
  case fieldTransmissionEnd l =>
    simp only [execFieldTransmissionEnd] at h
    split at h <;> (have h := next_inj h; subst h)
    · obtain ⟨u, hu, hc⟩ := c.transmitted s l ‹Nat› ‹Work›
      exact c.drained hu hc
    · exact same
  case fieldReceptionStart l =>
    simp only [execFieldReceptionStart] at h
    split at h <;> (have h := next_inj h; subst h)
    · exact c.startReception s l
    · exact same
  case fieldFrameReceived l b =>
    simp only [execFieldFrameReceived] at h
    (repeat' split at h) <;> (have h := next_inj h; subst h)
    · obtain ⟨u, hu, hc⟩ := c.fieldFrame s l ‹Frame›
      exact c.drained hu hc
    · exact same
    · exact same
  case fieldGapAbandon l =>
    simp only [execFieldGapAbandon] at h
    split at h <;> (have h := next_inj h; subst h)
    · obtain ⟨u, hu, hc⟩ := c.fieldAbandon s l
      exact c.drained hu hc
    · exact same
  case replyTimerExpiry l =>
    simp only [execReplyTimerExpiry] at h
    (repeat' split at h) <;> (have h := next_inj h; subst h)
    · obtain ⟨u, hu, hc⟩ := c.attemptEnd s l .timeout
      exact c.drained hu hc
    · exact same
    · exact same
  case busyBackoffExpiry l =>
    simp only [execBusyBackoffExpiry] at h
    (repeat' split at h) <;> (have h := next_inj h; subst h)
    · exact c.backoffOver s l
    · exact same
    · exact same
  case scanDueExpiry p =>
    simp only [execScanDueExpiry] at h
    (repeat' split at h) <;> (have h := next_inj h; subst h)
    · exact c.scanDue s p _ _
    · exact same
    · exact same
  case probeTimerExpiry l n =>
    simp only [execProbeTimerExpiry] at h
    (repeat' split at h) <;> (have h := next_inj h; subst h)
    · exact c.listProbe s l n
    · exact same
    · exact same
  case resetPinEvent =>
    simp only [execResetPinEvent] at h
    (repeat' split at h) <;> (have h := next_inj h; subst h)
    · exact same
    · exact c.trans (c.stop s) (c.aside (by constructor <;> rfl))
    · exact c.aside (by constructor <;> rfl)
  case resetPinRelease =>
    simp only [execResetPinRelease] at h
    (repeat' split at h) <;> (have h := next_inj h; subst h)
    · exact same
    · exact c.trans (c.aside (by constructor <;> rfl)) (c.startCold { s with resetLow := false })
    · exact c.aside (by constructor <;> rfl)
  case powerOn =>
    simp only [execPowerOn] at h
    (repeat' split at h) <;> (have h := next_inj h; subst h)
    · exact same
    · exact c.aside (by constructor <;> rfl)
    · exact c.trans (c.aside (by constructor <;> rfl)) (c.startCold { s with supply := true })
  case powerLoss =>
    simp only [execPowerLoss] at h
    (repeat' split at h) <;> (have h := next_inj h; subst h)
    · exact c.aside (by constructor <;> rfl)
    · exact c.trans (c.stop s) (c.aside (by constructor <;> rfl))
    · exact same
  case enterRunning =>
    simp only [execEnterRunning] at h
    split at h <;> (have h := next_inj h; subst h)
    · exact c.cold s _ _ _
    · exact same

/-- A step: a command on the rest of the queue, or one millisecond. -/
theorem step_closed (c : ClosedStep R) {s t : State} (h : step s = .next t) : R s t := by
  unfold step at h
  split at h
  · injection h with h
    subst h
    refine c.aside ?_
    unfold State.tick
    split <;> exact ⟨rfl, rfl, rfl, rfl, rfl, rfl, rfl⟩
  · exact c.trans (c.aside (by constructor <;> rfl)) (exec_closed c h)

end Sys2Proof.Machine
end

