-- ==== Sys2Proof/Laws/Together.lean ====
section
/-!
SUPPORT. What the giving back of work can do, for the events that fall together with its joining (R61, R90,
R97, R147, log entry 25): which fields it touches for each kind of work, and that it reads no others.
-/

namespace Sys2Proof.Machine

/-- Giving work back lowers no counter of the line (R165). -/
@[simp] theorem untaken_counters (w : Work) (n : Line) : (n.untaken w).counters = n.counters := rfl

/-- Giving work back takes no field tag back (R68). -/
@[simp] theorem untaken_nextTag (w : Work) (n : Line) : (n.untaken w).nextTag = n.nextTag := rfl

theorem untake_line_ne (s : State) {l m : LineNo} (h : m ≠ l) :
    (s.untake l).lines.get m = s.lines.get m := by
  rcases untake_cases s l with ⟨w, -, hu⟩ | ⟨-, hu⟩ <;> rw [hu]
  cases w <;>
    simp [State.giveBack, State.modLine, State.modLeg, State.modScan, State.modRecord, Four.get_set_ne, h]

theorem untake_uptime (s : State) (l : LineNo) : (s.untake l).uptime = s.uptime := by
  rcases untake_cases s l with ⟨w, -, hu⟩ | ⟨-, hu⟩ <;> rw [hu]
  cases w <;> rfl

theorem untake_justTook (s : State) {l m : LineNo} (h : m ≠ l) (p : LineNo → Work → Bool) :
    (s.untake l).justTook p m = s.justTook p m := by
  simp only [State.justTook, untake_line_ne s h, untake_uptime]

/-- What holds at first, and across each line that gives back work of which `p` holds, holds in the end. -/
theorem withdrawn_induction {P : State → Prop} (s : State) (p : LineNo → Work → Bool) (h0 : P s)
    (hs : ∀ t l w, P t → (t.lines.get l).justTaken t.uptime = some w → p l w = true →
      P ((t.modLine l (Line.untaken w)).giveBack l w)) : P (s.withdrawn p) := by
  unfold State.withdrawn
  have hj : ∀ l ∈ s.joining p, s.justTook p l = true := fun l hl => (List.mem_filter.1 hl).2
  have hn : (s.joining p).Nodup := List.Nodup.filter _ (by decide)
  generalize s.joining p = ls at hj hn
  induction ls generalizing s with
  | nil => exact h0
  | cons l ls ih =>
    rw [List.nodup_cons] at hn
    refine ih _ ?_ (fun m hm => ?_) hn.2
    · have hl := hj l List.mem_cons_self
      rcases untake_cases s l with ⟨w, hw, hu⟩ | ⟨hw, -⟩
      · rw [hu]
        exact hs s l w h0 hw (by simpa [State.justTook, hw] using hl)
      · simp [State.justTook, hw] at hl
    · rw [untake_justTook]
      · exact hj m (List.mem_cons_of_mem _ hm)
      · rintro rfl
        exact hn.1 hm

/-- A released leg given back touches its line and its record, and keeps the record's owner. -/
theorem withdrawn_legs (s : State) (p : LineNo → Work → Bool)
    (hp : ∀ l w, p l w = true → ∃ i, w = .leg i) :
    s.withdrawn p = { s with
      lines := (s.withdrawn p).lines
      legs := (s.withdrawn p).legs } ∧
    ∀ i, ((s.withdrawn p).legs.get i).map Leg.owner = (s.legs.get i).map Leg.owner := by
  refine withdrawn_induction (P := fun t => t = { s with lines := t.lines, legs := t.legs } ∧
    ∀ i, (t.legs.get i).map Leg.owner = (s.legs.get i).map Leg.owner) s p ⟨rfl, fun _ => rfl⟩ ?_
  rintro t l w ⟨h1, h2⟩ - hw
  obtain ⟨i, rfl⟩ := hp l w hw
  refine ⟨by rw [h1]; rfl, fun k => ?_⟩
  rw [← h2 k]
  show ((t.legs.modify i _).get k).map _ = _
  rw [Sparse.get_modify]
  split
  · cases t.legs.get k <;> rfl
  · rfl

/-- A scan entry given back touches its line and its runtime record. -/
theorem withdrawn_scans (s : State) (p : LineNo → Work → Bool)
    (hp : ∀ l w, p l w = true → w.isScan = true) :
    s.withdrawn p = { s with
      lines := (s.withdrawn p).lines
      scans := (s.withdrawn p).scans } := by
  refine withdrawn_induction (P := fun t => t = { s with lines := t.lines, scans := t.scans }) s p rfl ?_
  intro t l w h _ hw
  have := hp l w hw
  cases w with
  | scan i => rw [h]; rfl
  | _ => cases this

/-- A station given back touches its line and its record. -/
theorem withdrawn_probes (s : State) (p : LineNo → Work → Bool)
    (hp : ∀ l w, p l w = true → w.isProbe = true) :
    s.withdrawn p = { s with
      lines := (s.withdrawn p).lines
      stations := (s.withdrawn p).stations } := by
  refine withdrawn_induction (P := fun t => t = { s with lines := t.lines, stations := t.stations }) s p
    rfl ?_
  intro t l w h _ hw
  have := hp l w hw
  cases w with
  | probe n tag d => rw [h]; rfl
  | _ => cases this

/-- Two states that agree in all that the giving back of work reads or touches. -/
structure SameWork (s t : State) : Prop where
  lines : t.lines = s.lines
  uptime : t.uptime = s.uptime
  scans : t.scans = s.scans
  legs : t.legs = s.legs
  stations : t.stations = s.stations

theorem SameWork.joining {s t : State} (h : SameWork s t) (p : LineNo → Work → Bool) :
    t.joining p = s.joining p := by
  have : t.justTook p = s.justTook p := by
    funext l
    simp only [State.justTook, h.lines, h.uptime]
  simp only [State.joining, this]

theorem SameWork.untake {s t : State} (h : SameWork s t) (l : LineNo) :
    SameWork (s.untake l) (t.untake l) := by
  unfold State.untake
  rw [h.lines, h.uptime]
  split
  · exact h
  · rename_i w _
    cases w <;> constructor <;>
      simp [State.giveBack, State.modLine, State.modLeg, State.modScan, State.modRecord, h.lines,
        h.uptime, h.scans, h.legs, h.stations]

theorem SameWork.withdrawn {s t : State} (h : SameWork s t) (p : LineNo → Work → Bool) :
    SameWork (s.withdrawn p) (t.withdrawn p) := by
  unfold State.withdrawn
  rw [h.joining]
  generalize s.joining p = ls
  induction ls generalizing s t with
  | nil => exact h
  | cons l ls ih => exact ih (h.untake l)

end Sys2Proof.Machine
end

