-- ==== Sys2Proof/Tests/Slice0.lean ====
section
/-!
SUPPORT. Tests of the model: values and worked cases taken from the spec, ill-formed commands that
WellFormed refuses, and for every statement of the certificates with hypotheses a concrete case that
meets them, clause by clause.
-/

namespace Sys2Proof.Tests

open Sys2Proof.Machine

set_option Elab.async false

/-! ## Helpers -/

/-- The map table of section 1.4. -/
def exampleMap : List MapEntry :=
  [⟨1000, 10, .u16, 0, 5, 300, .highFirst, .ro, .mirror, some ⟨2, 0⟩, some 2000, none⟩,
   ⟨1010, 20, .s32, 1, 12, 40, .lowFirst, .rw, .live, none, none, none⟩,
   ⟨1030, 100, .u16, 2, 7, 0, .highFirst, .ro, .live, none, none, some ⟨1, 10, 0⟩⟩,
   ⟨2000, 4, .u8, 3, 0, 16, .highFirst, .wo, .live, none, none, none⟩]

/-- The tables of section 8.7. -/
def exampleTables : Tables :=
  ⟨exampleMap, [(2, ⟨0, 5, 300, 10, 1000, 200⟩)], Four.fill defaultLine, defaultBridge⟩

/-- A part that runs those tables under generation 7, at uptime 0. -/
def bench : State := State.reset.coldValues exampleTables 7 (some 7)

/-- The counted bytes of a frame to the bridge's address 100. -/
def sent (source kind tag : Byte) (body : List Byte) : List Byte :=
  countedBytes 100#8 source kind tag body

/-- A part whose framer lacks the last byte of that frame. -/
def arrive (s : State) (source kind tag : Byte) (body : List Byte) : State :=
  { s with framer := ⟨.check (nat1 (body.length + 4)) (sent source kind tag body).tail
      (some (highByte (checkOf (sent source kind tag body)))), some (after s.uptime 10)⟩ }

/-- The last byte of that frame. -/
def lastOf (source kind tag : Byte) (body : List Byte) : Byte :=
  lowByte (checkOf (sent source kind tag body))

/-- The frame itself. -/
def frame (source kind tag : Byte) (body : List Byte) : Frame :=
  ⟨100#8, source, kind, tag, body, true⟩

/-- A part with an open session of station 3. -/
def owned (s : State) : State := { s with session := some ⟨3#8, 60, some 60000#32⟩ }

/-! ## Values of the spec -/

/-- R167: over the nine bytes 31h to 39h the check is 29B1h. -/
theorem test_check_value :
    checkOf [0x31#8, 0x32#8, 0x33#8, 0x34#8, 0x35#8, 0x36#8, 0x37#8, 0x38#8, 0x39#8] = 0x29B1#16 := by
  decide +kernel

/-- The reads of section 1.7. -/
theorem test_reads :
    let e (t : RemoteType) (o : WordOrder) (c : Option Scale) : MapEntry :=
      ⟨0, 2, t, 0, 5, 0, o, .rw, .live, none, none, c⟩
    convertRead (e .u16 .highFirst (some ⟨1, 10, 0⟩)) [2345#16] = ([0x00EA#16], false) ∧
    convertRead (e .s16 .highFirst (some ⟨1, 2, 0⟩)) [0xFFF9#16] = ([0xFFFD#16], false) ∧
    convertRead (e .u8 .highFirst none) [0x12AB#16] = ([0x00AB#16], false) ∧
    convertRead (e .s8 .highFirst none) [0x12AB#16] = ([0xFFAB#16], false) ∧
    convertRead (e .s32 .lowFirst none) [0x0001#16, 0xFFFE#16] = ([0xFFFE#16, 0x0001#16], false) ∧
    convertRead (e .u16 .highFirst (some ⟨100, 1, 0⟩)) [1000#16] = ([0xFFFF#16], true) ∧
    convertRead (e .u16 .highFirst (some ⟨1, 1, -500⟩)) [200#16] = ([0x0000#16], true) ∧
    convertRead (e .s8 .highFirst (some ⟨1000, 1, 0⟩)) [0x007F#16] = ([0x7FFF#16], true) ∧
    convertRead (e .f32 .highFirst none) [0x3FC0#16, 0x0000#16] =
      ([0x3FC0#16, 0x0000#16], false) := by
  decide +kernel

/-- The stores of section 1.7; a number in the last place is the offset of a range failure. -/
theorem test_stores :
    let e (t : RemoteType) (o : WordOrder) (c : Option Scale) : MapEntry :=
      ⟨0, 2, t, 0, 5, 0, o, .rw, .live, none, none, c⟩
    let store (e : MapEntry) (ws : List Word) : List Word ⊕ Nat :=
      match convertStore e ws with
      | .ok rs => .inl rs
      | .error k => .inr k
    store (e .u16 .highFirst (some ⟨1, 10, 0⟩)) [0x00EA#16] = .inl [0x0924#16] ∧
    store (e .s16 .highFirst (some ⟨3, 2, 100⟩)) [0x0007#16] = .inl [0xFFC2#16] ∧
    store (e .s8 .highFirst none) [0xFF85#16] = .inl [0x0085#16] ∧
    store (e .u8 .highFirst none) [0x0100#16] = .inr 0 ∧
    store (e .u32 .highFirst none) [0x0012#16, 0x3456#16] = .inl [0x0012#16, 0x3456#16] ∧
    store (e .u32 .lowFirst none) [0x0012#16, 0x3456#16] = .inl [0x3456#16, 0x0012#16] ∧
    store (e .s32 .highFirst (some ⟨1000, 1, 0⟩)) [0xFFFF#16, 0xFFFD#16] = .inl [0#16, 0#16] ∧
    store (e .u32 .highFirst (some ⟨1, 1000, 0⟩)) [0x004C#16, 0x4B40#16] = .inr 0 := by
  decide +kernel

/-- What admission decides: the refusal status and its item, or the legs' first registers, counts and
positions. -/
inductive Judged where
  | refused (status : Status) (item : Nat)
  | admitted (legs : List (Nat × Nat × Nat))
deriving DecidableEq, Repr

/-- What admission decides of a request. -/
def judged (s : State) (kind : RequestKind) (source tag : Byte) (body : List Byte) : Judged :=
  match s.admission kind ⟨100#8, source, (dataKind kind).code, tag, body, true⟩ with
  | .error e => .refused e.1 e.2
  | .ok p => .admitted (p.legs.map (fun g => (g.first, g.count, g.position)))

/-- The admissions of section 1.4: their statuses, items and legs. -/
theorem test_admissions :
    judged bench .fetch 3#8 1#8 (nat2 1000 ++ [40#8]) = .admitted [(40, 20, 10), (0, 10, 30)] ∧
    judged bench .fetch 3#8 1#8 (nat2 1012 ++ [118#8]) =
      .admitted [(42, 18, 0), (0, 60, 18), (60, 40, 78)] ∧
    judged bench .fetch 3#8 1#8 (nat2 1030 ++ [118#8]) = .refused .hole 1130 ∧
    judged bench .fetch 3#8 1#8 (nat2 1011 ++ [4#8]) = .refused .splitPair 1011 ∧
    judged bench .fetch 3#8 1#8 (nat2 2000 ++ [2#8]) = .refused .access 2000 ∧
    judged bench .storeSet 3#8 1#8
      (3#8 :: nat2 2001 ++ nat2 7 ++ nat2 1050 ++ nat2 40 ++ nat2 2001 ++ nat2 9) =
      .refused .access 1050 := by
  decide +kernel

/-- The takes of the example of section 4.4, under the streak counts of that table. -/
theorem test_arbiter :
    let line (streak : Nat) (demand scans probes : List Nat) : Line :=
      { Line.fresh .b19200 .even with
        streak := streak, demand := demand, scans := scans, probes := probes, previous := .demand }
    arbiter (line 3 [4, 5, 6] [7, 9] []) = some (.demand 4) ∧
    arbiter (line 4 [5, 6] [7, 9] []) = some (.scan 7) ∧
    arbiter (line 1 [6] [9] [14]) = some (.probe 14) ∧
    arbiter { line 1 [6] [9] [15] with previous := .probe } = some (.demand 6) ∧
    arbiter (line 2 [] [9] []) = some (.scan 9) ∧
    arbiter (line 0 [] [] []) = none ∧
    arbiter { line 0 [] [] [15] with previous := .probe } = some (.probe 15) := by
  decide +kernel

/-- R150: the order of sequence numbers, across the wrap and when equal. -/
theorem test_newer_slot :
    newerB 12#32 13#32 = true ∧ newerB 12#32 11#32 = false ∧ newerB 0xFFFFFFFF#32 0#32 = true ∧
      newerB 5#32 5#32 = false ∧ newerB 0#32 0x7FFFFFFF#32 = true ∧
      newerB 0#32 0x80000000#32 = false := by
  decide +kernel

/-- R168, R55: the largest OK and non-OK FETCH replies have bodies of 239 and 244 bytes. -/
theorem test_largest_replies :
    (replyBody ⟨.ok, false, false, false, 118, none, List.replicate 118 0⟩).length = 239 ∧
      (replyBody ⟨.timeout, false, false, false, 117, some ⟨0, none, 0, none, 0, false⟩,
        List.replicate 117 0⟩).length = 244 := by
  decide +kernel

/-! ## Ill-formed commands -/

/-- Each check of WellFormed refuses a command just outside its range and passes one just inside. -/
theorem test_wellFormed_checks :
    (Instr.hostBadLength 4#8).wellFormed = false ∧ (Instr.hostBadLength 3#8).wellFormed = true ∧
    (Instr.hostBadLength 250#8).wellFormed = false ∧ (Instr.hostBadLength 251#8).wellFormed = true ∧
    (Instr.fieldFrameReceived 0 []).wellFormed = false ∧
    (Instr.fieldFrameReceived 0 [3#8, 0#8, 0#8, 0#8, 0#8, 0#8]).wellFormed = false ∧
    (Instr.fieldFrameReceived 0 [4#8, 0#8, 0#8, 0#8, 0#8, 0#8]).wellFormed = false ∧
    (Instr.fieldFrameReceived 0 [4#8, 0#8, 0#8, 0#8, 0#8, 0#8, 0#8]).wellFormed = true ∧
    (Instr.commitWriteEnd false [(0, 1#8)]).wellFormed = false ∧
    (Instr.commitWriteEnd false [(7110, 1#8)]).wellFormed = false ∧
    (Instr.commitWriteEnd false [(1, 1#8), (7109, 1#8)]).wellFormed = true ∧
    (Instr.scanDueExpiry 64).wellFormed = false ∧ (Instr.scanDueExpiry 63).wellFormed = true ∧
    (Instr.probeTimerExpiry 0 0).wellFormed = false ∧
    (Instr.probeTimerExpiry 0 127).wellFormed = false ∧
    (Instr.probeTimerExpiry 0 126).wellFormed = true := by
  decide +kernel


/-! ## Host link: the cases the statements speak of -/

/-- A state with a framer. -/
def framing (f : FramerState) : State := { State.reset with framer := ⟨f, some 0#32⟩ }

theorem witness_StepRunsFrontCommandElseTicks :
    { State.reset with pending := [.transmitStart, .transmitEnd] }.pending =
      .transmitStart :: [.transmitEnd] ∧
    State.reset.pending = [] ∧ State.reset.powered = true ∧
    { State.reset with supply := false }.pending = [] ∧
    { State.reset with supply := false }.powered = false := by
  decide +kernel

/-- Each clause, at the ends of the length byte's ranges and with one byte and two bytes of the frame
still to come. -/
theorem witness_FramerTakesBytes :
    { State.reset with supply := false }.serving = false ∧
    State.reset.serving = true ∧ State.reset.framer.state = .hunt ∧
    (framing .header).serving = true ∧ (framing .header).framer.state = .header ∧
    (4 ≤ (4#8).toNat ∧ (4#8).toNat ≤ 250) ∧ (4 ≤ (250#8).toNat ∧ (250#8).toNat ≤ 250) ∧
    (3#8).toNat < 4 ∧ 250 < (251#8).toNat ∧
    (framing (.body 4#8 [1#8, 2#8])).framer.state = .body 4#8 [1#8, 2#8] ∧
    [1#8, 2#8].length + 1 < (4#8).toNat ∧
    (framing (.body 4#8 [1#8, 2#8, 3#8])).framer.state = .body 4#8 [1#8, 2#8, 3#8] ∧
    ¬ [1#8, 2#8, 3#8].length + 1 < (4#8).toNat ∧
    (framing (.check 4#8 [1#8, 2#8, 3#8, 4#8] none)).framer.state =
      .check 4#8 [1#8, 2#8, 3#8, 4#8] none ∧
    (framing .header).framer.state ≠ .hunt ∧ (framing .header).framer.gap = some 0#32 ∧
    reached (framing .header).uptime 0#32 = true := by
  decide +kernel

/-- Frames that fail each test, the source test at 0, at 127 and at the bridge's own address, and frames
of each accepted kind from the lowest and the highest station. -/
theorem witness_HostFrameJudgedInOrder :
    (arrive bench 3#8 0x21#8 1#8 []).byteEvent (lastOf 3#8 0x21#8 1#8 [] + 1#8) =
      some (.completes ⟨100#8, 3#8, 0x21#8, 1#8, [], false⟩) ∧
    { arrive bench 3#8 0x21#8 1#8 [] with link := { bench.link with address := 40#8 } }.byteEvent
      (lastOf 3#8 0x21#8 1#8 []) = some (.completes (frame 3#8 0x21#8 1#8 [])) ∧
    (frame 3#8 0x21#8 1#8 []).dest ≠ 40#8 ∧
    (arrive bench 0#8 0x21#8 1#8 []).byteEvent (lastOf 0#8 0x21#8 1#8 []) =
      some (.completes (frame 0#8 0x21#8 1#8 [])) ∧
    (arrive bench 127#8 0x21#8 1#8 []).byteEvent (lastOf 127#8 0x21#8 1#8 []) =
      some (.completes (frame 127#8 0x21#8 1#8 [])) ∧
    (arrive bench 100#8 0x21#8 1#8 []).byteEvent (lastOf 100#8 0x21#8 1#8 []) =
      some (.completes (frame 100#8 0x21#8 1#8 [])) ∧
    bench.link.address = 100#8 ∧
    (arrive bench 3#8 0x41#8 1#8 []).byteEvent (lastOf 3#8 0x41#8 1#8 []) =
      some (.completes (frame 3#8 0x41#8 1#8 [])) ∧
    0x41#8 ∉ [0x21#8, 0x22#8, 0x23#8, 0x28#8, 0x30#8] ∧
    (arrive bench 1#8 0x30#8 1#8 []).byteEvent (lastOf 1#8 0x30#8 1#8 []) =
      some (.completes (frame 1#8 0x30#8 1#8 [])) ∧
    (arrive bench 126#8 0x28#8 255#8 []).byteEvent (lastOf 126#8 0x28#8 255#8 []) =
      some (.completes (frame 126#8 0x28#8 255#8 [])) := by
  decide +kernel

/-- The longest body, from a part in HUNT with the frame's bytes waiting. -/
theorem witness_FramerReadsEveryFrame :
    ∃ (s : State) (last : Byte), s.serving = true ∧ s.framer.state = .hunt ∧
      (List.replicate 246 0#8).length ≤ 246 ∧
      (wireFrame 100#8 3#8 .mgmt 7#8 (List.replicate 246 0#8)).getLast? = some last ∧
      s.pending =
        (wireFrame 100#8 3#8 .mgmt 7#8 (List.replicate 246 0#8)).dropLast.map .hostByteReceived :=
  ⟨{ State.reset with pending :=
      (wireFrame 100#8 3#8 .mgmt 7#8 (List.replicate 246 0#8)).dropLast.map .hostByteReceived },
    _, by rfl, by rfl, by rw [List.length_replicate],
    List.getLast?_eq_some_getLast (List.cons_ne_nil _ _), rfl⟩

/-! ## Requests in the table -/

/-- A FETCH of station 3, tag 9, in a phase and with leg records. -/
def fetching (phase : SlotPhase) (legs : List Nat) : Request :=
  { newRequest .fetch (frame 3#8 0x21#8 9#8 []) ⟨1012, 118, [], []⟩ with
    phase := phase, legs := legs }

/-- A STORE of station 4, tag 7, ACTIVE with leg records. -/
def storing (legs : List Nat) : Request :=
  { newRequest .store (frame 4#8 0x22#8 7#8 []) ⟨1010, 4, [], []⟩ with legs := legs }

/-- A leg of a slot in a state: two registers at 42 of station 12 on line 1. -/
def leg (direction : Direction) (slot : Nat) (state : LegState) : Leg :=
  newLeg slot ⟨1, 12, 42, 2, direction, [1#16, 2#16], 0, 1⟩ state

/-- The transmit queue holds a frame of a class, in transmission or not. -/
def sending (c : FrameClass) (now : Bool) : State :=
  { bench with
    txQueue := [⟨c, 3#8, 9#8, .ack .ok⟩]
    sending := if now then some [0xC3#8] else none
    slots := [(0, fetching .replying [])] }

theorem witness_TransmitterSendsQueueHead :
    (sending (.slotReply 0) false).serving = true ∧
    (sending (.slotReply 0) false).txQueue = ⟨.slotReply 0, 3#8, 9#8, .ack .ok⟩ :: [] ∧
    (sending (.slotReply 0) false).sending = none ∧
    (sending .prompt true).sending = some [0xC3#8] ∧
    (sending .prompt true).txQueue = ⟨.prompt, 3#8, 9#8, .ack .ok⟩ :: [] ∧
    (sending (.closing .drainTimeout) true).txQueue =
      ⟨.closing .drainTimeout, 3#8, 9#8, .ack .ok⟩ :: [] ∧
    (sending (.closing .commit) true).txQueue = ⟨.closing .commit, 3#8, 9#8, .ack .ok⟩ :: [] ∧
    (sending (.slotReply 0) true).sending = some [0xC3#8] ∧
    (sending (.slotReply 0) true).slots.get 0 = some (fetching .replying []) := by
  decide +kernel

theorem witness_SettingsSwitchAfterSwapReply :
    (sending (.closing .swap) true).serving = true ∧
    (sending (.closing .swap) true).sending = some [0xC3#8] ∧
    (sending (.closing .swap) true).txQueue = ⟨.closing .swap, 3#8, 9#8, .ack .ok⟩ :: [] := by
  decide +kernel

/-- A state with no COMMIT pending and empty stores keeps the law of the stores. -/
theorem storeLaw_of_empty (s : State) (h : s.operation = .none) (hm : s.mirror = [])
    (ha : s.store.slotA = []) (hb : s.store.slotB = []) : StoreLaw s where
  slotA := by rw [ha]; rfl
  slotB := by rw [hb]; rfl
  rising := by rw [hm]; exact List.Pairwise.nil
  listed := by rw [hm]; simp
  content := by rw [h]; simp

theorem witness_WarmRestartKeepsConfiguration :
    StoreLaw (sending (.closing .restartWarm) true) ∧
    (sending (.closing .restartWarm) true).serving = true ∧
    (sending (.closing .restartWarm) true).sending = some [0xC3#8] ∧
    (sending (.closing .restartWarm) true).txQueue =
      ⟨.closing .restartWarm, 3#8, 9#8, .ack .ok⟩ :: [] :=
  ⟨storeLaw_of_empty _ rfl rfl rfl rfl, by decide, rfl, rfl⟩

/-- Six and seven prompt frames. -/
theorem witness_PromptFrameJoinsOrIsDropped :
    promptCount (List.replicate 6 ⟨.prompt, 3#8, 9#8, .ack .ok⟩) < 7 ∧
    7 ≤ promptCount (List.replicate 7 ⟨.prompt, 3#8, 9#8, .ack .ok⟩) := by
  decide +kernel

/-! ## Admission -/

/-- What a plan holds, for plans that admission accepts. -/
def planned (s : State) (kind : RequestKind) (f : Frame) (p : Plan → Bool) : Bool :=
  match s.admission kind f with
  | .ok plan => p plan
  | .error _ => false

theorem planned_spec {s : State} {kind : RequestKind} {f : Frame} {p : Plan → Bool}
    (h : planned s kind f p = true) : ∃ plan, s.admission kind f = .ok plan ∧ p plan = true := by
  unfold planned at h
  split at h
  · exact ⟨_, ‹_›, h⟩
  · exact absurd h (by decide)

/-- A part whose map is 65 entries of one item each from item 0. -/
def fragmented : State :=
  let entry (k : Nat) : MapEntry := ⟨k, 1, .u16, 1, 12, k, .highFirst, .rw, .live, none, none, none⟩
  { bench with active := { exampleTables with map := (List.range 65).map entry } }

/-- A part with slots 0 to n - 1 held by requests of tags 0 to n - 1 of station 3, and records 0 to
m - 1 of slot 0. -/
def crowded (n m : Nat) : State :=
  { bench with
    slots := (List.range n).map (fun k => (k, { fetching .active [] with tag := nat1 k }))
    legs := (List.range m).map (fun k => (k, leg .fetch 0 .queued)) }

/-- Each check's case, and the lookup, conversion and room that each later check presupposes: the answers
are those of R30. A request of 64 legs at 64 free records passes where one of 65 does not. -/
theorem witness_AdmissionChecksInOrder :
    (arrive bench 3#8 0x21#8 1#8 (nat2 1030 ++ [118#8])).dispatched
      (lastOf 3#8 0x21#8 1#8 (nat2 1030 ++ [118#8])) =
        some (frame 3#8 0x21#8 1#8 (nat2 1030 ++ [118#8]), .fetch) ∧
    judged { bench with bridge := .draining } .fetch 3#8 1#8 [] = .refused .reconfig 0 ∧
    judged bench .fetch 3#8 1#8 (nat2 1030 ++ [0#8]) = .refused .badCount 1030 ∧
    judged bench .fetch 3#8 1#8 (nat2 65418 ++ [119#8]) = .refused .badCount 65418 ∧
    judged State.reset .fetch 3#8 1#8 (nat2 65418 ++ [118#8]) = .refused .noMap 65418 ∧
    judged bench .fetch 3#8 1#8 (nat2 1030 ++ [118#8]) = .refused .hole 1130 ∧
    judged bench .store 3#8 1#8 (nat2 1030 ++ [1#8] ++ nat2 5) = .refused .access 1030 ∧
    judged bench .storeSet 3#8 1#8 (1#8 :: nat2 1010 ++ nat2 5) = .refused .splitPair 1010 ∧
    judged bench .store 3#8 1#8 (nat2 2000 ++ [2#8] ++ nat2 255 ++ nat2 256) =
      .refused .range 2001 ∧
    judged fragmented .fetch 3#8 1#8 (nat2 0 ++ [65#8]) = .refused .tooFragmented 0 ∧
    planned fragmented .fetch (frame 3#8 0x21#8 1#8 (nat2 0 ++ [64#8]))
      (fun p => decide (p.legs.length = 64)) = true ∧
    judged (crowded 8 0) .fetch 3#8 7#8 (nat2 1030 ++ [5#8]) = .refused .duplicateTag 1030 ∧
    judged (crowded 8 0) .fetch 3#8 8#8 (nat2 1030 ++ [5#8]) = .refused .full 1030 ∧
    judged (crowded 7 62) .fetch 3#8 8#8 (nat2 1012 ++ [118#8]) = .refused .legShortage 1012 ∧
    judged (crowded 7 61) .fetch 3#8 8#8 (nat2 1012 ++ [118#8]) =
      .admitted [(42, 18, 0), (0, 60, 18), (60, 40, 78)] := by
  decide +kernel

/-- The mirror cells of items 1000 to 1009, valid. -/
def mirrored : State :=
  { bench with mirror := (List.range 10).map (fun k => (200 + k, ⟨BitVec.ofNat 16 k, true, 0#32⟩)) }

/-- The FETCH of section 2.7, arrival 5. -/
theorem witness_MirrorServedFetchCompletesAtOnce :
    ∃ p, (arrive mirrored 5#8 0x21#8 1#8 (nat2 1000 ++ [10#8])).dispatched
        (lastOf 5#8 0x21#8 1#8 (nat2 1000 ++ [10#8])) =
          some (frame 5#8 0x21#8 1#8 (nat2 1000 ++ [10#8]), .fetch) ∧
      (arrive mirrored 5#8 0x21#8 1#8 (nat2 1000 ++ [10#8])).frameTaken.admission .fetch
        (frame 5#8 0x21#8 1#8 (nat2 1000 ++ [10#8])) = .ok p ∧ p.legs = [] ∧
      (arrive mirrored 5#8 0x21#8 1#8 (nat2 1000 ++ [10#8])).freeSlot = some 0 := by
  obtain ⟨p, hp, hl⟩ := planned_spec (s := (arrive mirrored 5#8 0x21#8 1#8
    (nat2 1000 ++ [10#8])).frameTaken) (kind := .fetch)
    (f := frame 5#8 0x21#8 1#8 (nat2 1000 ++ [10#8])) (p := fun p => decide (p.legs = []))
    (by decide +kernel)
  exact ⟨p, by decide +kernel, hp, of_decide_eq_true hl, by decide +kernel⟩

/-- A part whose station 12 on line 1 is OFFLINE. -/
def isolated : State :=
  { bench with stations := bench.stations.set 1 [⟨12, .offline, 3, .waiting 5000#32⟩] }

/-- A part whose map has ten items of station 7 on line 2 before those of the example. -/
def preceded (s : State) : State :=
  { s with active := { s.active with map :=
      ⟨990, 10, .u16, 2, 7, 0, .highFirst, .ro, .live, none, none, none⟩ :: exampleMap } }

/-- The record of a FETCH once its mirror segments have been served. -/
def servedRecord (s : State) (f : Frame) (p : Plan) : Option Failure :=
  (p.served.foldl s.frameTaken.serveSegment (newRequest .fetch f p.fields)).failure

/-- The premises of an admitted FETCH of station 3, tag 20, whose first `n` legs are QUEUED: either all
beyond lie after the NO_DATA point, or the first beyond goes to an OFFLINE station. -/
def fetchCase (base : State) (body : List Byte) (n : Nat) (away : Bool) : Prop :=
  let s := arrive base 3#8 0x21#8 20#8 body
  let f := frame 3#8 0x21#8 20#8 body
  ∃ p queued beyond, s.dispatched (lastOf 3#8 0x21#8 20#8 body) = some (f, .fetch) ∧
    s.frameTaken.admission .fetch f = .ok p ∧ s.freeSlot = some 0 ∧ p.legs = queued ++ beyond ∧
    queued.length = n ∧
    (∀ q ∈ queued, (q.station = 0 ∨ s.offline q.line q.station = false) ∧
      ∀ x, servedRecord s f p = some x → q.position ≤ x.position) ∧
    if away then
      ∃ q rest i, beyond = q :: rest ∧ s.freeRecords[queued.length]? = some i ∧ q.station ≠ 0 ∧
        s.offline q.line q.station = true ∧
        ∀ x, servedRecord s f p = some x → q.position ≤ x.position
    else ∀ q ∈ beyond, ∃ x, servedRecord s f p = some x ∧ x.position < q.position

/-- What `fetchCase` asks of a plan, decided. -/
def fetchPlan (s : State) (f : Frame) (n : Nat) (away : Bool) (p : Plan) : Bool :=
  let before (q : LegPlan) : Bool := (servedRecord s f p).all (fun x => decide (q.position ≤ x.position))
  decide ((p.legs.take n).length = n) &&
  (p.legs.take n).all (fun q =>
    (decide (q.station = 0) || !s.offline q.line q.station) && before q) &&
  if away then
    match p.legs.drop n with
    | [] => false
    | q :: _ => (s.freeRecords[n]?).isSome && decide (q.station ≠ 0) && s.offline q.line q.station &&
        before q
  else (p.legs.drop n).all (fun q =>
    (servedRecord s f p).any (fun x => decide (x.position < q.position)))

theorem fetchCase_intro {base : State} {body : List Byte} {n : Nat} {away : Bool}
    (h1 : (arrive base 3#8 0x21#8 20#8 body).dispatched (lastOf 3#8 0x21#8 20#8 body) =
      some (frame 3#8 0x21#8 20#8 body, .fetch))
    (h2 : (arrive base 3#8 0x21#8 20#8 body).freeSlot = some 0)
    (h3 : planned (arrive base 3#8 0x21#8 20#8 body).frameTaken .fetch (frame 3#8 0x21#8 20#8 body)
      (fetchPlan (arrive base 3#8 0x21#8 20#8 body) (frame 3#8 0x21#8 20#8 body) n away) = true) :
    fetchCase base body n away := by
  obtain ⟨p, hp, hl⟩ := planned_spec h3
  simp only [fetchPlan, Bool.and_eq_true, decide_eq_true_eq, List.all_eq_true] at hl
  obtain ⟨⟨hn, hq⟩, hb⟩ := hl
  have before : ∀ {o : Option Failure} {k : Nat},
      o.all (fun x => decide (k ≤ x.position)) = true → ∀ x, o = some x → k ≤ x.position := by
    intro o k h x hx
    subst hx
    exact of_decide_eq_true h
  refine ⟨p, p.legs.take n, p.legs.drop n, h1, hp, h2, (List.take_append_drop n _).symm, hn,
    fun q hm => ?_, ?_⟩
  · have h := hq q hm
    refine ⟨?_, before h.2⟩
    simpa using h.1
  · cases away with
    | false =>
      intro q hm
      simp only [Bool.false_eq_true, if_false, List.all_eq_true] at hb
      obtain ⟨x, hx, hlt⟩ := (Option.any_eq_true _ _).1 (hb q hm)
      exact ⟨x, hx, of_decide_eq_true hlt⟩
    | true =>
      simp only [if_true] at hb ⊢
      cases hd : p.legs.drop n with
      | nil => rw [hd] at hb; cases hb
      | cons q rest =>
        rw [hd] at hb
        simp only [Bool.and_eq_true, decide_eq_true_eq] at hb
        obtain ⟨⟨⟨hi, h0⟩, ho⟩, hx⟩ := hb
        obtain ⟨i, hi⟩ := Option.isSome_iff_exists.1 hi
        exact ⟨q, rest, i, rfl, by rw [hn]; exact hi, h0, ho, before hx⟩

/-- The FETCH of section 3.7, which the mirror serves in part and whose two legs are QUEUED; NO_DATA before
every leg and between the two; and the first leg to an OFFLINE station, at the front and after a QUEUED
one. -/
theorem witness_AdmittedFetchQueuesItsLegs :
    fetchCase mirrored (nat2 1000 ++ [40#8]) 2 false ∧
    fetchCase bench (nat2 1000 ++ [40#8]) 0 false ∧
    fetchCase (preceded bench) (nat2 990 ++ [30#8]) 1 false ∧
    fetchCase { isolated with mirror := mirrored.mirror } (nat2 1000 ++ [40#8]) 0 true ∧
    fetchCase (preceded { isolated with mirror := mirrored.mirror }) (nat2 990 ++ [50#8]) 1 true :=
  ⟨fetchCase_intro (by decide +kernel) (by decide +kernel) (by decide +kernel),
   fetchCase_intro (by decide +kernel) (by decide +kernel) (by decide +kernel),
   fetchCase_intro (by decide +kernel) (by decide +kernel) (by decide +kernel),
   fetchCase_intro (by decide +kernel) (by decide +kernel) (by decide +kernel),
   fetchCase_intro (by decide +kernel) (by decide +kernel) (by decide +kernel)⟩

/-- The tests of an admitted store with legs: its frame, its plan, its slot, its first leg's line. -/
def storeCase (s : State) (kind : RequestKind) (code : Byte) (body : List Byte)
    (away : Bool) : Prop :=
  ∃ p i q rest, kind ≠ .fetch ∧
    (arrive s 4#8 code 7#8 body).dispatched (lastOf 4#8 code 7#8 body) =
      some (frame 4#8 code 7#8 body, dataKind kind) ∧
    (arrive s 4#8 code 7#8 body).frameTaken.admission kind (frame 4#8 code 7#8 body) = .ok p ∧
    (arrive s 4#8 code 7#8 body).freeSlot = some 0 ∧
    (arrive s 4#8 code 7#8 body).freeRecords.zip p.legs = (i, q) :: rest ∧
    (arrive s 4#8 code 7#8 body).turnsAway q.line q.station = away

theorem storeCase_intro {s : State} {kind : RequestKind} {code : Byte} {body : List Byte}
    {away : Bool} (h1 : kind ≠ .fetch)
    (h2 : (arrive s 4#8 code 7#8 body).dispatched (lastOf 4#8 code 7#8 body) =
      some (frame 4#8 code 7#8 body, dataKind kind))
    (h3 : (arrive s 4#8 code 7#8 body).freeSlot = some 0)
    (h4 : planned (arrive s 4#8 code 7#8 body).frameTaken kind (frame 4#8 code 7#8 body) (fun p =>
      (((arrive s 4#8 code 7#8 body).freeRecords.zip p.legs).head?.map (fun b =>
        decide ((arrive s 4#8 code 7#8 body).turnsAway b.2.line b.2.station = away))).getD false) =
          true) :
    storeCase s kind code body away := by
  obtain ⟨p, hp, hl⟩ := planned_spec h4
  rcases hz : (arrive s 4#8 code 7#8 body).freeRecords.zip p.legs with _ | ⟨⟨i, q⟩, rest⟩
  · rw [hz] at hl
    exact absurd hl (by simp)
  · rw [hz] at hl
    exact ⟨p, i, q, rest, h1, h2, hp, h3, hz, by simpa using hl⟩

/-- A STORE of two legs and a STORE_SET of two, to an ONLINE and to an OFFLINE station. -/
theorem witness_AdmittedStoreQueuesFirstLeg :
    storeCase bench .store 0x22#8 (nat2 1010 ++ [4#8] ++ nat2 0 ++ nat2 1 ++ nat2 0 ++ nat2 2)
      false ∧
    storeCase bench .storeSet 0x23#8 (2#8 :: nat2 2000 ++ nat2 1 ++ nat2 2001 ++ nat2 2) false ∧
    storeCase isolated .store 0x22#8 (nat2 1010 ++ [2#8] ++ nat2 0 ++ nat2 1) true :=
  ⟨storeCase_intro (by decide) (by decide +kernel) (by decide +kernel) (by decide +kernel),
   storeCase_intro (by decide) (by decide +kernel) (by decide +kernel) (by decide +kernel),
   storeCase_intro (by decide) (by decide +kernel) (by decide +kernel) (by decide +kernel)⟩

/-- A part whose line 1 is disabled. -/
def disabled : State :=
  let lines := exampleTables.lines.set 1 { defaultLine with enabled := false }
  { bench with active := { exampleTables with lines := lines } }

/-- A part with one line engine replaced. -/
def onLine (s : State) (l : LineNo) (n : Line) : State := { s with lines := s.lines.set l n }

/-- An IDLE enabled line, a disabled line, and a line in GUARD. -/
theorem witness_IdleLineTakesAtOnce :
    bench.serving = true ∧ (bench.lines.get 1).current = none ∧ (bench.settings 1).enabled = true ∧
    (bench.lines.get 1).phase = .idle ∧
    (disabled.settings 1).enabled = false ∧
    ((onLine bench 1 { bench.lines.get 1 with phase := .guard none }).lines.get 1).phase ≠ .idle := by
  decide +kernel

/-! ## Requests in progress: the cases the statements speak of -/

/-- A decidable form of the law of the request table. -/
theorem requestLaw_of_lists (s : State) (h1 : sparseWf 8 s.slots = true)
    (h2 : sparseWf 64 s.legs = true)
    (h3 : ∀ a ∈ s.slots, ∀ b ∈ s.slots, a.2.source = b.2.source → a.2.tag = b.2.tag → a.1 = b.1)
    (h4 : ∀ e ∈ s.legs, ((s.slots.get e.2.owner).map (fun r => decide (e.1 ∈ r.legs))).getD false =
      true)
    (h5 : ∀ e ∈ s.slots, e.2.legs.Nodup ∧ ∀ i ∈ e.2.legs, (s.legs.get i).map Leg.owner = some e.1) :
    RequestLaw s where
  slots := h1
  records := h2
  tags j k q r hq hr hs ht := h3 (j, q) (Sparse.mem_of_get hq) (k, r) (Sparse.mem_of_get hr) hs ht
  owned i g hg := by
    have := h4 (i, g) (Sparse.mem_of_get hg)
    cases hr : s.slots.get g.owner with
    | none => simp [hr] at this
    | some r => exact ⟨r, rfl, by simpa [hr] using this⟩
  listed k r hr := by
    have h := h5 (k, r) (Sparse.mem_of_get hr)
    refine ⟨h.1, fun i hi => ?_⟩
    have := h.2 i hi
    cases hg : s.legs.get i with
    | none => simp [hg] at this
    | some g => exact ⟨g, rfl, by simpa [hg] using this⟩

/-- A part that holds station 3's request of tag 9 in slot 0, and a CANCEL of it arriving. -/
def cancelling (r : Request) (legs : Sparse Leg) : State :=
  arrive { bench with slots := [(0, r)], legs := legs } 3#8 0x28#8 9#8 []

/-- A FETCH with a leg in flight and one waiting, one with both waiting, and a STORE_SET with one HELD. -/
theorem witness_CancelAnswersAndStopsWaitingLegs :
    (arrive bench 3#8 0x28#8 9#8 []).dispatched (lastOf 3#8 0x28#8 9#8 []) =
      some (frame 3#8 0x28#8 9#8 [], .cancel) ∧
    (arrive bench 3#8 0x28#8 9#8 []).slotOf 3#8 9#8 = none ∧
    (cancelling (fetching .replying []) []).dispatched (lastOf 3#8 0x28#8 9#8 []) =
      some (frame 3#8 0x28#8 9#8 [], .cancel) ∧
    (cancelling (fetching .replying []) []).slotOf 3#8 9#8 = some (0, fetching .replying []) ∧
    (let r : Request := { fetching .active [0] with cancelRequested := true }
     (cancelling r [(0, leg .fetch 0 .inFlight)]).slotOf 3#8 9#8 = some (0, r) ∧
      r.phase = .active ∧ r.cancelRequested = true) ∧
    (∀ legs ∈ [[(0, leg .fetch 0 .inFlight), (1, leg .fetch 0 .queued)],
        [(0, leg .fetch 0 .queued), (1, leg .fetch 0 .queued)],
        [(0, leg .store 0 .done), (1, leg .store 0 .held)]],
      let s := cancelling (fetching .active [0, 1]) legs
      RequestLaw s ∧
        s.dispatched (lastOf 3#8 0x28#8 9#8 []) = some (frame 3#8 0x28#8 9#8 [], .cancel) ∧
        s.slotOf 3#8 9#8 = some (0, fetching .active [0, 1]) ∧
        (fetching .active [0, 1]).phase = .active ∧
        (fetching .active [0, 1]).cancelRequested = false) := by
  refine ⟨by decide +kernel, by decide +kernel, by decide +kernel, by decide +kernel,
    by decide +kernel, fun legs h => ?_⟩
  simp only [List.mem_cons, List.not_mem_nil, or_false] at h
  rcases h with rfl | rfl | rfl
  all_goals exact ⟨requestLaw_of_lists _ (by decide +kernel) (by decide +kernel) (by decide +kernel)
    (by decide +kernel) (by decide +kernel), by decide +kernel, by decide +kernel, by decide +kernel⟩

/-- Runs that the example map covers from an entry's first item and from its last, an empty run, and a
run that leaves it at the hole 1130; pairs in no order with an item twice, no pairs, and pairs whose last
item and whose first item nothing covers. -/
theorem witness_LookupCoversTheRun :
    ((lookupRun exampleMap 1000 40 1000 40).toOption.map (List.map Segment.count)) =
      some [10, 20, 10] ∧
    ((lookupRun exampleMap 1129 1 1129 1).toOption.map (List.map Segment.count)) = some [1] ∧
    ((lookupRun exampleMap 1000 0 1000 0).toOption.map (List.map Segment.count)) = some [] ∧
    (match lookupRun exampleMap 1030 118 1030 118 with
      | .error hole => decide (hole = 1130)
      | .ok _ => false) = true ∧
    ((lookupPairs exampleMap 0 [2003, 1000, 2003]).toOption.map
      (List.map (fun g => (g.mapPosition, g.register, g.offset)))) =
      some [(3, 19, 0), (0, 300, 1), (3, 19, 2)] ∧
    ((lookupPairs exampleMap 0 []).toOption.map (List.map Segment.count)) = some [] ∧
    (∀ e ∈ [[1129, 2000, 1999], [2004, 1999]],
      (match lookupPairs exampleMap 0 e with
        | .error hole => decide (hole = 1999 ∨ hole = 2004)
        | .ok _ => false) = true) := by
  decide +kernel

/-- Segments of 60, 61 and 118 registers. -/
theorem test_cuts :
    let cut (n : Nat) : List Nat := (cutSegment .fetch
      ⟨2, ⟨1030, 118, .u16, 2, 7, 0, .highFirst, .ro, .live, none, none, none⟩, 1030, n, 0, 0⟩
        []).map LegPlan.count
    cut 60 = [60] ∧ cut 61 = [60, 1] ∧ cut 118 = [60, 58] := by
  decide +kernel

/-- A request without a failure. -/
theorem witness_FirstFailureIsTheLowest :
    (fetching .active []).failure = none ∧
    [(fetching .active []).cancelFailure 5, (fetching .active []).cancelFailure 2] ≠ [] := by
  decide +kernel

/-- An entry of each type, scaled and not. -/
def typed (t : RemoteType) (c : Option Scale) : MapEntry :=
  ⟨0, 2, t, 0, 5, 0, .highFirst, .rw, .live, none, none, c⟩

theorem witness_ScaledReadsTruncateAndClamp :
    (∀ t : RemoteType, (typed t (some ⟨1, 10, -5⟩)).scale = some ⟨1, 10, -5⟩ ∧
      (typed t none).type = t) := by
  intro t; exact ⟨rfl, rfl⟩

/-- A 16-bit entry at both ends of what it takes, and a 32-bit one in each order. -/
theorem witness_UnscaledStoreReadsBack :
    (typed .s8 none).scale = none ∧ (typed .s8 none).type.wide = false ∧
    (convertStore (typed .s8 none) [0xFF80#16, 0x007F#16]).toOption = some [0x0080#16, 0x007F#16] ∧
    (typed .f32 none).type.wide = true ∧ [0x3FC0#16, 0x0001#16].length % 2 = 0 ∧
    (convertStore (typed .f32 none) [0x3FC0#16, 0x0001#16]).toOption =
      some [0x3FC0#16, 0x0001#16] := by
  decide +kernel

/-! ## Field lines: the cases the statements speak of -/

/-- A part whose line is changed. -/
def withLine (s : State) (l : LineNo) (f : Line → Line) : State := onLine s l (f (s.lines.get l))

/-- A part with two legs of slot 0 to station 12 on line 1, the first in a state. -/
def working (direction : Direction) (state : LegState) : State :=
  { bench with
    legs := [(0, { leg direction 0 state with tag := some 5#8, attempts := 1 }),
      (1, leg direction 0 .held)]
    slots := [(0, if direction = .fetch then fetching .active [0] else storing [0, 1])] }

/-- A part whose scan entry 2 is in flight. -/
def scanning : State :=
  { bench with scans := [(2, ⟨.inFlight 1 (some 5#8), 1000#32, 0, 0, 0, 0⟩)] }

/-- A part whose line goes on with the fetch of scan entry 2 that a drain's timer left to it. -/
def finishing : State :=
  { bench with scans := [(2, ⟨.finishing 1 (some 5#8), 1000#32, 0, 0, 0, 0⟩)] }

/-- Station 5 of line 0 OFFLINE, its probe at a stage. -/
def unreachable (p : ProbeStage) : State :=
  { bench with stations := bench.stations.set 0 [⟨5, .offline, 3, p⟩] }

/-- Line 0's GUARD runs out with work waiting in its three lists. -/
def choosing (s : State) (demand scans probes : List Nat) (previous : Take) (streak : Nat) : State :=
  withLine s 0 (fun n => { n with
    phase := .guard (some s.uptime)
    demand := demand
    scans := scans
    probes := probes
    previous := previous
    streak := streak })

/-- The next attempt of a leg and of a scan, and every order of the arbiter: a probe after another kind of
take and after a probe with nothing else, demand at streak 3, scan at streak 4, and nothing. -/
theorem witness_GuardExpiryAttemptsOrTakes :
    (let s := withLine (working .fetch .inFlight) 1
        (fun n => { n with phase := .guard (some 0#32), current := some (.leg 0) })
     s.serving = true ∧ (s.lines.get 1).phase = .guard (some 0#32) ∧
      reached s.uptime 0#32 = true ∧ (s.lines.get 1).current = some (.leg 0) ∧
      (s.legs.get 0).isSome = true) ∧
    (let s := withLine scanning 0
        (fun n => { n with phase := .guard (some 0#32), current := some (.scan 2) })
     s.serving = true ∧ (s.lines.get 0).phase = .guard (some 0#32) ∧
      (s.lines.get 0).current = some (.scan 2) ∧ (s.active.scan.get 2).isSome = true ∧
      (s.scans.get 2).map ScanRun.state = some (.inFlight 1 (some 5#8))) ∧
    (let s := withLine finishing 0
        (fun n => { n with phase := .guard (some 0#32), current := some (.scan 2) })
     (s.lines.get 0).current = some (.scan 2) ∧ (s.active.scan.get 2).isSome = true ∧
      (s.scans.get 2).map ScanRun.state = some (.finishing 1 (some 5#8))) ∧
    (∀ e ∈ [(Take.demand, [0], [2]), (.probe, [], [])],
      let s := choosing (unreachable .listed) e.2.1 e.2.2 [5] e.1 0
      s.serving = true ∧ (s.lines.get 0).phase = .guard (some s.uptime) ∧
        (s.lines.get 0).current = none ∧ (s.lines.get 0).probes = 5 :: [] ∧
        ((s.lines.get 0).previous ≠ .probe ∨
          ((s.lines.get 0).demand = [] ∧ (s.lines.get 0).scans = []))) ∧
    (∀ e ∈ [(Take.scan, [2], 3, ([] : List Nat)), (.probe, [], 4, [5])],
      let s := choosing (working .fetch .queued) [0] e.2.1 e.2.2.2 e.1 e.2.2.1
      ((s.lines.get 0).probes = [] ∨ (s.lines.get 0).previous = .probe) ∧
        (s.lines.get 0).demand = 0 :: [] ∧
        ((s.lines.get 0).scans = [] ∨ (s.lines.get 0).streak < 4) ∧
        (s.legs.get 0).isSome = true ∧ (s.lines.get 0).current = none) ∧
    (∀ e ∈ [([0], 4), (([] : List Nat), 0)],
      let s := choosing (working .fetch .queued) e.1 [2] [] .demand e.2
      (s.lines.get 0).probes = [] ∧ ((s.lines.get 0).demand = [] ∨ 4 ≤ (s.lines.get 0).streak) ∧
        (s.lines.get 0).scans = 2 :: [] ∧ (s.active.scan.get 2).isSome = true ∧
        (s.lines.get 0).current = none) ∧
    (let s := choosing bench [] [] [] .none 0
     (s.lines.get 0).probes = [] ∧ (s.lines.get 0).demand = [] ∧ (s.lines.get 0).scans = [] ∧
      (s.lines.get 0).current = none) := by
  decide +kernel

/-- A leg of each direction. -/
theorem witness_AttemptFramesCarryTheWork :
    (leg .fetch 0 .queued).direction = .fetch ∧ (leg .store 0 .queued).direction = .store := by
  decide +kernel

/-- A decidable statement about a leg that a record may hold. -/
theorem forall_leg {s : State} {o : Option Nat} {p : Leg → Bool}
    (h : (o.bind s.legs.get).all p = true) :
    ∀ j g, o = some j → s.legs.get j = some g → p g = true := by
  intro j g hj hg
  simpa [hj, hg] using h

/-- What the last four cases of `StoreGoesOn` ask of the state after a leg's DONE: the next leg to release
is HELD and may be released, or its station is OFFLINE; or nothing is released, with no leg unfinished or
with one. -/
inductive Continuation where
  | released | offline | complete | waiting
deriving DecidableEq, Repr

/-- The premises of a case of `StoreGoesOn`. -/
def Continuation.holds (u : State) (r : Request) : Continuation → Prop
  | .released => ∃ j h, r.cancelRequested = false ∧ r.legs[r.nextRelease]? = some j ∧
      u.legs.get j = some h ∧ h.state = .held ∧ (h.station = 0 ∨ u.offline h.line h.station = false)
  | .offline => ∃ j h, r.cancelRequested = false ∧ r.legs[r.nextRelease]? = some j ∧
      u.legs.get j = some h ∧ h.state = .held ∧ h.station ≠ 0 ∧ u.offline h.line h.station = true ∧
      RequestLaw u
  | .complete => (r.cancelRequested = true ∨
      ∀ j h, r.legs[r.nextRelease]? = some j → u.legs.get j = some h → h.state ≠ .held) ∧
      ∀ j ∈ r.legs, ∀ h, u.legs.get j = some h → h.state.unfinished = false
  | .waiting => (r.cancelRequested = true ∨
      ∀ j h, r.legs[r.nextRelease]? = some j → u.legs.get j = some h → h.state ≠ .held) ∧
      ∃ j ∈ r.legs, ∃ h, u.legs.get j = some h ∧ h.state.unfinished = true

/-- The state after a store leg's DONE, its station told or not. -/
def afterStore (s : State) (l : LineNo) (i : Nat) (g : Leg) (told : Bool) : State := { s with
  legs := s.legs.put i { g with state := .done }
  mirror := match s.legCell g with
    | some m => s.mirror.writeFrom blankCell m (g.values.map (fun w => ⟨w, true, s.uptime⟩))
    | none => s.mirror
  stations := if told then
      s.stations.set l ((s.stations.get l).map (fun x =>
        if x.station = g.station then { x with health := .online, failures := 0, probe := .none }
        else x))
    else s.stations
  lines := s.lines.set l { (s.lines.get l).rested (s.settings l) s.uptime with
    current := none
    counters := { (s.lines.get l).counters with
      legsServed := satInc (s.lines.get l).counters.legsServed } } }

/-- Whether nothing is left to release, and whether a leg is unfinished. -/
def resting (u : State) (r : Request) (unfinished : Bool) : Bool :=
  (r.cancelRequested ||
    (r.legs[r.nextRelease]?.bind u.legs.get).all (fun h => decide (h.state ≠ .held))) &&
  (r.legs.any (fun j => (u.legs.get j).any (fun h => h.state.unfinished)) == unfinished)

theorem resting_spec {u : State} {r : Request} {b : Bool} (h : resting u r b = true) :
    (if b then Continuation.waiting else .complete).holds u r := by
  simp only [resting, Bool.and_eq_true, Bool.or_eq_true, beq_iff_eq] at h
  have hr : r.cancelRequested = true ∨
      ∀ j h, r.legs[r.nextRelease]? = some j → u.legs.get j = some h → h.state ≠ .held :=
    h.1.imp_right (fun h j g hj hg => of_decide_eq_true (forall_leg h j g hj hg))
  cases b with
  | true =>
    obtain ⟨j, hj, g, hg, hu⟩ := by
      simpa only [List.any_eq_true, Option.any_eq_true] using h.2
    exact ⟨hr, j, hj, g, hg, hu⟩
  | false =>
    refine ⟨hr, fun j hj g hg => ?_⟩
    have := List.any_eq_false.1 h.2 j hj
    simpa [hg] using this

/-- A store leg of two registers in flight: on line 1 to station 12, or on line 3 to every station. -/
def flying (broadcast : Bool) : Leg :=
  let g : Leg := { leg .store 0 .inFlight with tag := some 5#8, attempts := 1 }
  if broadcast then { g with line := 3, station := 0 } else g

/-- A second leg of the request in a state, to a station on a line. -/
def second (state : LegState) (line : LineNo) (station : Nat) : Leg :=
  { leg .store 0 state with line := line, station := station }

/-- A part whose slot 0 holds a store request with a leg in flight, and stations 12 and 13 on line 1, the
latter OFFLINE. -/
def storeRunning (broadcast : Bool) (r : Request) (others : Sparse Leg) : State :=
  { bench with
    legs := (0, flying broadcast) :: others
    slots := [(0, r)]
    stations := bench.stations.set 1
      [⟨12, .online, 0, .none⟩, ⟨13, .offline, 3, .waiting 5000#32⟩] }

/-- Requests and second legs for each continuation: the next leg to the same line, to an IDLE line, to every
station, and to an OFFLINE one; the last leg, and a leg of a request being cancelled; a leg unfinished. -/
def continuations : List (Request × Sparse Leg × Continuation) :=
  [(storing [0, 1], [(1, second .held 1 12)], .released),
   (storing [0, 1], [(1, second .held 2 7)], .released),
   (storing [0, 1], [(1, second .held 3 0)], .released),
   (storing [0, 1], [(1, second .held 1 13)], .offline),
   (storing [0], [], .complete),
   ({ storing [0] with cancelRequested := true }, [], .complete),
   (storing [0, 1], [(1, second .inFlight 2 7)], .waiting)]

/-- A broadcast store leg at the end of its transmission. -/
def broadcasting (r : Request) (others : Sparse Leg) : State :=
  withLine (storeRunning true r others) 3
    (fun n => { n with phase := .sending [0xC3#8] 1000, current := some (.leg 0) })

theorem witness_TransmissionEndAwaitsReplyOrEndsBroadcast :
    (let s := withLine (working .fetch .inFlight) 1
        (fun n => { n with phase := .sending [0xC3#8] 1000, current := some (.leg 0) })
     s.serving = true ∧ (s.lines.get 1).phase = .sending [0xC3#8] 1000 ∧
      (s.lines.get 1).current = some (.leg 0) ∧ s.broadcast (.leg 0) = false) ∧
    (∀ e ∈ continuations, let s := broadcasting e.1 e.2.1
     (s.serving = true ∧ (s.lines.get 3).phase = .sending [0xC3#8] 1000 ∧
      (s.lines.get 3).current = some (.leg 0) ∧ s.legs.get 0 = some (flying true) ∧
      (flying true).direction = .store ∧ (flying true).station = 0 ∧ (flying true).owner = 0 ∧
      s.slots.get 0 = some e.1 ∧ e.1.kind ≠ .fetch ∧ e.1.phase = .active) ∧
      e.2.2.holds (afterStore s 3 0 (flying true) false) e.1) := by
  refine ⟨by decide +kernel, fun e he => ?_⟩
  simp only [continuations, List.mem_cons, List.not_mem_nil, or_false] at he
  rcases he with rfl | rfl | rfl | rfl | rfl | rfl | rfl
  · exact ⟨by decide +kernel, 1, second .held 1 12, by decide +kernel⟩
  · exact ⟨by decide +kernel, 1, second .held 2 7, by decide +kernel⟩
  · exact ⟨by decide +kernel, 1, second .held 3 0, by decide +kernel⟩
  · exact ⟨by decide +kernel, 1, second .held 1 13, by decide +kernel, by decide +kernel,
      by decide +kernel, by decide +kernel, by decide +kernel, by decide +kernel,
      requestLaw_of_lists _ (by decide +kernel) (by decide +kernel) (by decide +kernel)
        (by decide +kernel) (by decide +kernel)⟩
  · exact ⟨by decide +kernel, resting_spec (b := false) (by decide +kernel)⟩
  · exact ⟨by decide +kernel, resting_spec (b := false) (by decide +kernel)⟩
  · exact ⟨by decide +kernel, resting_spec (b := true) (by decide +kernel)⟩

/-- A line in each state, and a disabled one. -/
theorem witness_ReceptionHoldsGuardTime :
    bench.serving = true ∧ (bench.settings 1).enabled = true ∧ (bench.lines.get 1).phase = .idle ∧
    (∀ p ∈ [LinePhase.guard (some 0#32), .guard none, .awaiting 0#32, .backoff 0#32,
        .sending [0xC3#8] 1000],
      let s := withLine bench 1 (fun n => { n with phase := p })
      s.serving = true ∧ (s.settings 1).enabled = true ∧ (s.lines.get 1).phase = p) ∧
    (disabled.settings 1).enabled = false := by
  decide +kernel

/-- The bytes of a reply from a field station, from its length byte on. -/
def replyBytes (station tag : Byte) (body : List Byte) : List Byte :=
  (wireFrame 127#8 station .reply tag body).tail

/-- A line that awaits the reply to its work while a frame is being received. -/
def awaitingOn (s : State) (l : LineNo) (w : Work) : State :=
  withLine s l (fun n => { n with phase := .awaiting s.uptime, receiving := true, current := some w })

theorem hearing_intro {s : State} {l : LineNo} {w : Work}
    (h : s.serving = true ∧ (s.settings l).enabled = true) :
    (awaitingOn s l w).hearing l w := by
  refine ⟨h.1, h.2, ?_, ⟨s.uptime, ?_⟩, ?_⟩ <;> simp [awaitingOn, withLine, onLine]

theorem overdue_intro {s : State} {l : LineNo} {w : Work} (h : s.serving = true) :
    (awaitingOn s l w).replyOverdue l w := by
  refine ⟨h, ?_, s.uptime, ?_, ?_⟩ <;> simp [awaitingOn, withLine, onLine, reached]

theorem replied_intro {s : State} {w : Work} {bytes body : List Byte} (tag : Byte)
    (h : fieldFrameOf bytes = some ⟨127#8, nat1 (s.workStation w), 0x41#8, tag, body, true⟩ ∧
      s.workTag w = some tag) : s.replied w bytes body :=
  ⟨_, tag, h.1, rfl, rfl, rfl, rfl, h.2, rfl, rfl⟩

theorem answeredBy_intro {s : State} {w : Work} {bytes rest : List Byte} {status : Byte}
    (tag : Byte)
    (h : fieldFrameOf bytes =
        some ⟨127#8, nat1 (s.workStation w), 0x41#8, tag, status :: rest, true⟩ ∧
      s.workTag w = some tag) : s.answeredBy w bytes status rest :=
  replied_intro tag h

/-- A frame of tag 5 from station 12 heard in each of the three states, and the ways not to match: another
destination, source, kind or tag. -/
theorem witness_StraysAreCountedAndDiscarded :
    fieldFrameOf (replyBytes 12#8 5#8 [3#8, 0#8, 0#8]) =
      some ⟨127#8, 12#8, 0x41#8, 5#8, [3#8, 0#8, 0#8], true⟩ ∧
    (∀ p ∈ [LinePhase.guard none, .backoff 0#32],
      let s := withLine bench 1 (fun n => { n with phase := p, receiving := true })
      s.serving = true ∧ (s.settings 1).enabled = true ∧ (s.lines.get 1).receiving = true ∧
        (s.lines.get 1).phase = p) ∧
    (let s := awaitingOn (working .fetch .inFlight) 1 (.leg 0)
     s.serving = true ∧ (s.settings 1).enabled = true ∧ (s.lines.get 1).receiving = true ∧
      (s.lines.get 1).phase = .awaiting s.uptime ∧ (s.lines.get 1).current = some (.leg 0) ∧
      s.workTag (.leg 0) = some 5#8 ∧ nat1 (s.workStation (.leg 0)) = 12#8) := by
  decide +kernel

/-- Scan entry 2 in flight on line 0 and its reply of ten values. -/
theorem witness_ScanReplyFillsItsRegion :
    let s := awaitingOn scanning 0 (.scan 2)
    s.hearing 0 (.scan 2) ∧ s.active.scan.get 2 = some ⟨0, 5, 300, 10, 1000, 200⟩ ∧
      s.answeredBy (.scan 2)
        (replyBytes 5#8 5#8 (0x00#8 :: 0x00#8 :: nat1 10 :: List.replicate 20 1#8))
        0x00#8 (0x00#8 :: nat1 10 :: List.replicate 20 1#8) ∧
      (List.replicate 20 1#8).length = 2 * 10 :=
  ⟨hearing_intro (by decide), by decide, answeredBy_intro 5#8 (by decide +kernel),
    by decide⟩

/-- A fetch leg of two registers in flight on line 1, of a request that is or is not being cancelled. -/
theorem witness_FetchLegDoneFillsBuffer :
    ∀ cancelled : Bool,
      let r : Request := { fetching .active [0] with cancelRequested := cancelled }
      let g : Leg := { leg .fetch 0 .inFlight with tag := some 5#8, attempts := 1 }
      let s := awaitingOn { working .fetch .inFlight with slots := [(0, r)] } 1 (.leg 0)
      s.hearing 1 (.leg 0) ∧ s.legs.get 0 = some g ∧ g.direction = .fetch ∧
        g.count ≤ 60 ∧ g.owner = 0 ∧ s.slots.get 0 = some r ∧ r.kind = .fetch ∧ r.phase = .active ∧
        (s.active.map[g.mapPosition]?).isSome = true ∧
        s.answeredBy (.leg 0) (replyBytes 12#8 5#8 [0#8, 0#8, 2#8, 1#8, 2#8, 3#8, 4#8]) 0x00#8
          (0#8 :: nat1 g.count :: [1#8, 2#8, 3#8, 4#8]) ∧
        [1#8, 2#8, 3#8, 4#8].length = 2 * g.count :=
  fun cancelled => ⟨hearing_intro (by cases cancelled <;> decide),
    by cases cancelled <;> decide, by decide, by decide, by decide, by cases cancelled <;> decide,
    by cases cancelled <;> decide, by cases cancelled <;> decide, by cases cancelled <;> decide,
    answeredBy_intro 5#8 (by cases cancelled <;> decide +kernel), by decide⟩

/-- A store leg in flight on line 1, its good reply, and each way its request goes on. -/
theorem witness_StoreLegDoneReleasesNext :
    ∀ e ∈ continuations, let s := awaitingOn (storeRunning false e.1 e.2.1) 1 (.leg 0)
      (s.hearing 1 (.leg 0) ∧
        s.answeredBy (.leg 0) (replyBytes 12#8 5#8 [0#8, 0#8, 2#8]) 0x00#8
          [0#8, nat1 (flying false).count]) ∧
      (s.legs.get 0 = some (flying false) ∧ (flying false).direction = .store ∧
        (flying false).count ≤ 60 ∧ (flying false).owner = 0 ∧ s.slots.get 0 = some e.1 ∧
        e.1.kind ≠ .fetch ∧ e.1.phase = .active) ∧
      e.2.2.holds (afterStore s 1 0 (flying false) true) e.1 := by
  intro e he
  simp only [continuations, List.mem_cons, List.not_mem_nil, or_false] at he
  rcases he with rfl | rfl | rfl | rfl | rfl | rfl | rfl
  all_goals
    refine ⟨⟨hearing_intro (by decide), answeredBy_intro 5#8 (by decide +kernel)⟩,
      by decide +kernel, ?_⟩
  · exact ⟨1, second .held 1 12, by decide +kernel⟩
  · exact ⟨1, second .held 2 7, by decide +kernel⟩
  · exact ⟨1, second .held 3 0, by decide +kernel⟩
  · exact ⟨1, second .held 1 13, by decide +kernel, by decide +kernel, by decide +kernel,
      by decide +kernel, by decide +kernel, by decide +kernel,
      requestLaw_of_lists _ (by decide +kernel) (by decide +kernel) (by decide +kernel)
        (by decide +kernel) (by decide +kernel)⟩
  · exact resting_spec (b := false) (by decide +kernel)
  · exact resting_spec (b := false) (by decide +kernel)
  · exact resting_spec (b := true) (by decide +kernel)

/-- A part with a leg of slot 0 in flight to station 12 on line 1, at an attempt of three, a second leg
that waits, and station records for line 1; the line awaits its reply. -/
def attempting (d : Direction) (attempt : Nat) (records : List StationRecord) : State :=
  withLine (awaitingOn { bench with
      legs := [(0, { leg d 0 .inFlight with tag := some 5#8, attempts := attempt }),
        (1, leg d 0 (if d = .fetch then .queued else .held))]
      slots := [(0, if d = .fetch then fetching .active [0, 1] else storing [0, 1])]
      stations := bench.stations.set 1 records } 1 (.leg 0)) 1
    (fun n => { n with demand := if d = .fetch then [1] else [] })

/-- A part whose scan entry 2 is in flight to station 5 on line 0, at an attempt of three. -/
def polling (attempt : Nat) (records : List StationRecord) : State :=
  awaitingOn { bench with
    scans := [(2, ⟨.inFlight attempt (some 5#8), 1000#32, 0, 0, 0, 0⟩)]
    stations := bench.stations.set 0 records } 0 (.scan 2)

/-- Bodies of accepted replies that are no success: a remote code each, one with an odd byte behind; two
statuses that R72 does not name; a wrong count; and three too short for status, flags and count. -/
def failingBodies : List (List Byte) :=
  [[1#8, 0#8, 0#8], [2#8, 0#8, 0#8, 9#8], [3#8, 0#8, 0#8], [4#8, 0#8, 0#8], [255#8],
    [0#8, 0#8, 61#8], [], [1#8], [3#8, 0#8]]

/-- Every way in which an attempt fails, its replies from a station under tag 5. -/
def failsEveryWay (s : State) (l : LineNo) (w : Work) (station : Byte) : Prop :=
  (∀ e ∈ failingBodies.zip [AttemptResult.remoteFault .noRegister, .remoteFault .refused, .busy,
      .lineError, .lineError, .lineError, .lineError, .lineError, .lineError],
    AttemptFails s l w (.fieldFrameReceived l (replyBytes station 5#8 e.1)) e.2) ∧
  AttemptFails s l w (.fieldFrameReceived l [4#8, 127#8, station, 0x41#8, 5#8, 0#8, 0#8]) .lineError ∧
  AttemptFails s l w (.fieldGapAbandon l) .lineError ∧
  AttemptFails s l w (.replyTimerExpiry l) .timeout

theorem failsEveryWay_intro {s : State} {l : LineNo} {w : Work} {station : Byte} (h : s.hearing l w)
    (ho : s.replyOverdue l w) (hw : (s.workShape w).2 ≠ 61)
    (hr : (∀ body ∈ failingBodies, fieldFrameOf (replyBytes station 5#8 body) =
          some ⟨127#8, nat1 (s.workStation w), 0x41#8, 5#8, body, true⟩) ∧
      s.workTag w = some 5#8)
    (hb : fieldFrameOf [4#8, 127#8, station, 0x41#8, 5#8, 0#8, 0#8] =
      some ⟨127#8, station, 0x41#8, 5#8, [], false⟩) : failsEveryWay s l w station := by
  have a {body : List Byte} (hm : body ∈ failingBodies) :
      s.replied w (replyBytes station 5#8 body) body := replied_intro 5#8 ⟨hr.1 _ hm, hr.2⟩
  have wrong : ¬s.rightShape w [0#8, 61#8] := fun ⟨_, _, _, h, hc, _⟩ => by
    cases h
    exact hw hc.symm
  refine ⟨fun e he => ?_, .badCheck _ _ h hb rfl, .abandoned h, .overdue ho⟩
  simp only [failingBodies, List.zip_cons_cons, List.zip_nil_left, List.mem_cons, List.not_mem_nil,
    or_false] at he
  rcases he with rfl | rfl | rfl | rfl | rfl | rfl | rfl | rfl | rfl
  · exact .noRegister _ [] _ _ h (a (by decide))
  · exact .refused _ [9#8] _ _ h (a (by decide))
  · exact .busy _ [] _ _ h (a (by decide))
  · exact .otherStatus _ _ 4#8 h (a (by decide)) (by decide)
  · exact .otherStatus _ _ 255#8 h (a (by decide)) (by decide)
  · exact .wrongShape _ _ h (a (by decide)) wrong
  all_goals exact .short _ _ h (a (by decide)) (by decide)

theorem attempting_fails (d : Direction) (attempt : Nat) (records : List StationRecord) :
    (attempting d attempt records).hearing 1 (.leg 0) ∧
      (attempting d attempt records).replyOverdue 1 (.leg 0) := by
  exact ⟨⟨rfl, rfl, rfl, ⟨0#32, rfl⟩, rfl⟩, rfl, rfl, 0#32, rfl,
    show reached 0#32 0#32 = true by decide⟩

theorem polling_fails (attempt : Nat) (records : List StationRecord) :
    (polling attempt records).hearing 0 (.scan 2) ∧
      (polling attempt records).replyOverdue 0 (.scan 2) := by
  exact ⟨⟨rfl, rfl, rfl, ⟨0#32, rfl⟩, rfl⟩, rfl, rfl, 0#32, rfl,
    show reached 0#32 0#32 = true by decide⟩

/-- A station record that an attempt's failure leaves short of OFFLINE, and one that it drives there. -/
def nearly (station : Nat) : List StationRecord := [⟨station, .suspect, 1, .none⟩]
def doomed (station : Nat) : List StationRecord := [⟨station, .suspect, 2, .none⟩]

/-- The first and the last attempt of three of a leg and of a scan fetch, failing in every way: kept at the
first two, FAILED at the third, and at once for a remote fault; a station one failure short of its
threshold and at it; and station records of each kind. -/
theorem witness_FailedAttemptKeepsTheWork :
    (∀ d ∈ [Direction.fetch, .store], ∀ n ∈ [1, 2, 3],
      let s := attempting d n (nearly 12)
      failsEveryWay s 1 (.leg 0) 12#8 ∧
      ((Work.leg 0).isProbe = false ∧ s.drivesOffline 1 (s.workStation (.leg 0)) = false ∧
        (s.workAttempts (.leg 0) ≤ (s.settings 1).retryLimit ↔ n ≠ 3) ∧
        ((s.settings 1).retryLimit + 1 ≤ s.workAttempts (.leg 0) ↔ n = 3)) ∧
      RequestLaw s ∧ ∃ g r, s.legs.get 0 = some g ∧ g.owner = 0 ∧ s.slots.get 0 = some r ∧
        r.phase = .active) ∧
    (∀ n ∈ [1, 2, 3], let s := polling n (nearly 5)
      failsEveryWay s 0 (.scan 2) 5#8 ∧
      ((Work.scan 2).isProbe = false ∧ s.drivesOffline 0 (s.workStation (.scan 2)) = false ∧
        (s.workAttempts (.scan 2) ≤ (s.settings 0).retryLimit ↔ n ≠ 3) ∧
        ((s.settings 0).retryLimit + 1 ≤ s.workAttempts (.scan 2) ↔ n = 3))) ∧
    (∀ s : State, s.endsFailed 1 (.leg 0) (.remoteFault .noRegister) ∧
      s.endsFailed 1 (.leg 0) (.remoteFault .refused)) ∧
    (defaultLine.offlineThreshold = 3 ∧ 1 + 1 < defaultLine.offlineThreshold ∧
      defaultLine.offlineThreshold ≤ 2 + 1) ∧
    (⟨12, .offline, 3, .probing⟩ : StationRecord).health = .offline ∧
    (⟨12, .online, 0, .none⟩ : StationRecord).health ≠ .offline := by
  refine ⟨fun d hd n hn => ?_, fun n hn => ?_, fun s => ⟨trivial, trivial⟩, by decide, by decide,
    by decide⟩
  · simp only [List.mem_cons, List.not_mem_nil, or_false] at hd hn
    rcases hd with rfl | rfl <;> rcases hn with rfl | rfl | rfl
    all_goals exact ⟨failsEveryWay_intro (attempting_fails ..).1 (attempting_fails ..).2
      (by decide +kernel) (by decide +kernel) (by decide +kernel), by decide +kernel,
      requestLaw_of_lists _ (by decide +kernel) (by decide +kernel) (by decide +kernel)
        (by decide +kernel) (by decide +kernel), _, _, rfl, by decide +kernel, rfl, by decide +kernel⟩
  · simp only [List.mem_cons, List.not_mem_nil, or_false] at hn
    rcases hn with rfl | rfl | rfl
    all_goals exact ⟨failsEveryWay_intro (polling_fails ..).1 (polling_fails ..).2
      (by decide +kernel) (by decide +kernel) (by decide +kernel), by decide +kernel⟩

/-- A part with a leg of slot 0 in flight to station 12 on line 1 and four that wait there: one of its own
request to the same station, one of its own to station 13, and two of slot 1 to station 12, the lower
behind the higher. -/
def besieged (d : Direction) : State :=
  let s := withLine (attempting d 1 (doomed 12 ++ [⟨13, .online, 0, .none⟩])) 1
    (fun n => { n with demand := [1, 2, 3, 4] })
  let other (position station : Nat) (k : Nat) : Leg :=
    { leg .fetch k .queued with position := position, station := station }
  { s with
    slots := [(0, if d = .fetch then fetching .active [0, 1, 2] else storing [0, 1, 2]),
      (1, { fetching .active [3, 4] with tag := 10#8 })]
    legs := [(0, { leg d 0 .inFlight with tag := some 5#8, attempts := 1, position := 20 }),
      (1, other 10 12 0), (2, other 30 13 0), (3, other 10 12 1), (4, other 4 12 1)] }

/-- A station two failures on, under a threshold of three: a leg's attempt to it runs out of time or is
abandoned, with QUEUED legs of two requests to it in the demand queue, a lower failure after a higher; and
a scan fetch's attempt, with its entry's region. -/
theorem witness_TimeoutDrivesStationOffline :
    (∀ d ∈ [Direction.fetch, .store], let s := besieged d
      AttemptFails s 1 (.leg 0) (.replyTimerExpiry 1) .timeout ∧
      AttemptFails s 1 (.leg 0) (.fieldGapAbandon 1) .lineError ∧
      ((Work.leg 0).isProbe = false ∧
        s.record 1 (s.workStation (.leg 0)) = some ⟨12, .suspect, 2, .none⟩ ∧
        (s.settings 1).offlineThreshold ≤ 2 + 1 ∧
        (s.lines.get 1).demand = [] ++ 1 :: [2, 3, 4] ∧
        (∀ e ∈ [(1, 12, 0, 10), (2, 13, 0, 30), (3, 12, 1, 10), (4, 12, 1, 4)],
          (s.legs.get e.1).map (fun h => (h.station, h.owner, h.position)) = some e.2 ∧
          (s.legs.get e.1).map Leg.state = some .queued)) ∧
      RequestLaw s) ∧
    (let s := polling 1 (doomed 5)
     AttemptFails s 0 (.scan 2) (.replyTimerExpiry 0) .timeout ∧
     AttemptFails s 0 (.scan 2) (.fieldGapAbandon 0) .lineError ∧
     (Work.scan 2).isProbe = false ∧
     s.record 0 (s.workStation (.scan 2)) = some ⟨5, .suspect, 2, .none⟩ ∧
     (s.settings 0).offlineThreshold ≤ 2 + 1 ∧
     (2, ⟨0, 5, 300, 10, 1000, 200⟩) ∈ s.active.scan) := by
  constructor
  · intro d hd
    simp only [List.mem_cons, List.not_mem_nil, or_false] at hd
    rcases hd with rfl | rfl
    all_goals exact ⟨.overdue ⟨by decide +kernel, rfl, 0#32, rfl, by decide +kernel⟩,
      .abandoned ⟨by decide +kernel, by decide +kernel, rfl, ⟨0#32, rfl⟩, rfl⟩, by decide +kernel,
      requestLaw_of_lists _ (by decide +kernel) (by decide +kernel) (by decide +kernel)
        (by decide +kernel) (by decide +kernel)⟩
  · exact ⟨.overdue (polling_fails ..).2, .abandoned (polling_fails ..).1, by decide +kernel⟩

/-- R84: the replies of the requests that an OFFLINE transition ends stand behind what the queue holds, in
the order of the legs that fail. -/
theorem test_offline_replies_in_order :
    (match exec (.replyTimerExpiry 1)
        { besieged .fetch with txQueue := [⟨.prompt, 3#8, 9#8, .ack .ok⟩] } with
      | .next t => t.txQueue.map TxFrame.cls
      | _ => []) = [.prompt, .slotReply 0, .slotReply 1] := by
  decide +kernel

/-- A BUSY answer to a first attempt, and a backoff that has run out. -/
theorem witness_BusyAnswerBacksOff :
    (let s := awaitingOn (working .fetch .inFlight) 1 (.leg 0)
     s.hearing 1 (.leg 0) ∧ (Work.leg 0).isProbe = false ∧
      s.workAttempts (.leg 0) ≤ (s.settings 1).retryLimit ∧
      s.answeredBy (.leg 0) (replyBytes 12#8 5#8 [3#8, 0#8, 0#8]) 0x03#8 [0#8, 0#8]) ∧
    (∀ receiving : Bool,
      let s := withLine bench 1
        (fun n => { n with phase := .backoff 0#32, receiving := receiving })
      s.serving = true ∧ (s.lines.get 1).phase = .backoff 0#32 ∧ reached s.uptime 0#32 = true) :=
  ⟨⟨hearing_intro (by decide), by decide, by decide +kernel,
    answeredBy_intro 5#8 (by decide +kernel)⟩, by decide +kernel⟩

/-- Scan entry 2 due: busy, WAITING with its station OFFLINE, and WAITING with its station not OFFLINE. -/
theorem witness_ScanDueQueuesOrCounts :
    let due (s : State) (c : ScanState) : State :=
      { s with uptime := 1000#32, scans := [(2, ⟨c, 1000#32, 0, 0, 0, 0⟩)] }
    ∀ e ∈ [(bench, ScanState.queued), (bench, .inFlight 1 none),
        (bench, .finishing 1 none), (unreachable (.waiting 5000#32), .waiting), (bench, .waiting)],
      (due e.1 e.2).powered = true ∧ (due e.1 e.2).bridge = .running ∧
        (due e.1 e.2).active.scan.get 2 = some ⟨0, 5, 300, 10, 1000, 200⟩ ∧
        (due e.1 e.2).scans.get 2 = some ⟨e.2, 1000#32, 0, 0, 0, 0⟩ ∧
        reached (due e.1 e.2).uptime 1000#32 = true ∧
        ((due e.1 e.2).offline 0 5 = true ↔ e.1 = unreachable (.waiting 5000#32)) := by
  decide +kernel

/-- A part whose probe of station 5 awaits its reply on line 0, its record at a probe stage. -/
def probing (p : ProbeStage) (discard : Bool) : State :=
  awaitingOn (unreachable p) 0 (.probe 5 (some 5#8) discard)

/-- A probe timer that has run out; a probe, its record kept or removed by a swap, that is answered OK and
that ends in every other way; a record that is OFFLINE at that end, and one that a STATION_RESET has put in
UNKNOWN. -/
theorem witness_ProbesReachOfflineStations :
    (let s := unreachable (.waiting 0#32)
     s.record 0 5 = some ⟨5, .offline, 3, .waiting 0#32⟩ ∧ s.serving = true ∧
      reached s.uptime 0#32 = true) ∧
    (∀ discard : Bool, let s := probing .probing discard
      s.hearing 0 (.probe 5 (some 5#8) discard) ∧
      s.answeredBy (.probe 5 (some 5#8) discard) (replyBytes 5#8 5#8 [0#8, 0#8, 1#8, 2#8, 3#8])
        0x00#8 [0#8, 1#8, 2#8, 3#8] ∧
      failsEveryWay s 0 (.probe 5 (some 5#8) discard) 5#8) ∧
    ((unreachable .probing).record 0 5).map StationRecord.health = some .offline ∧
    ({ bench with stations := bench.stations.set 0 [⟨5, .unknown, 0, .none⟩] }.record 0 5).map
      StationRecord.health = some .unknown := by
  refine ⟨by decide +kernel, fun discard => ?_, by decide +kernel, by decide +kernel⟩
  have h : (probing .probing discard).hearing 0 (.probe 5 (some 5#8) discard) :=
    hearing_intro (by decide)
  exact ⟨h, answeredBy_intro 5#8 (by cases discard <;> decide +kernel),
    failsEveryWay_intro h (overdue_intro (by decide)) (by cases discard <;> decide)
      (by cases discard <;> decide +kernel) (by decide +kernel)⟩

/-! ## Management: the cases the statements speak of -/

/-- A part to which station 3 sends a MGMT frame of a body, tag 1, its last byte still to come. -/
def managed (s : State) (body : List Byte) : State := arrive s 3#8 0x30#8 1#8 body

/-- The MGMT frame is dispatched with its last byte. -/
def taken (s : State) (body : List Byte) : Prop :=
  (managed s body).dispatched (lastOf 3#8 0x30#8 1#8 body) =
    some (frame 3#8 0x30#8 1#8 body, .mgmt)

/-- What an operation of the owner presupposes. -/
def ownersOwn (s : State) (body : List Byte) : Prop :=
  taken s body ∧ (managed s body).ownerMay (frame 3#8 0x30#8 1#8 body)

theorem ownersOwn_intro {s : State} {body : List Byte}
    (h : (managed s body).dispatched (lastOf 3#8 0x30#8 1#8 body) =
        some (frame 3#8 0x30#8 1#8 body, .mgmt) ∧
      s.operation = .none ∧ s.ownedBy 3#8 = true) : ownersOwn s body :=
  ⟨h.1, h.2.1, h.2.2⟩

/-- A COMMIT in progress that writes generation 7 into slot A as image 1. -/
def committing (s : State) (written : Bool) : State :=
  { s with operation :=
      .commit 3#8 1#8 ⟨.a, 1#32, 7#16, imageBytes 1#32 7#16 exampleTables, written, false⟩ }

/-- For every operation a frame of it with bad arguments; a part with an operation pending, one whose
closing place is held, one whose session another station owns; and frames of no operation. -/
theorem witness_ManagementChecksInOrder :
    taken bench [] ∧ mgmtOp [] = none ∧ taken bench [0x16#8] ∧ mgmtOp [0x16#8] = none ∧
    taken bench [0x10#8, 0#8] ∧ mgmtOp [0x10#8, 0#8] = some .stats ∧
    statsClearOption (mgmtArgs [0x10#8, 0#8]) = none ∧
    (∀ e ∈ mgmtRows.zip [[0x01#8], [0x02#8, 0#8], [0x03#8, 0#8], [0x04#8, 0#8], [0x05#8], [0x06#8],
        [0x07#8], [0x08#8, 64#8], [0x09#8], [0x0A#8], [0x0B#8, 0#8], [0x0C#8, 0#8], [0x0D#8, 0#8],
        [0x0E#8], [0x0E#8, 2#8], [0x0F#8, 0#8, 6#8], [0x10#8, 3#8, 0#8, 1#8],
        [0x10#8, 1#8, 4#8, 0#8], [0x11#8, 0#8], [0x12#8], [0x13#8, 1#8, 64#8], [0x14#8, 4#8],
        [0x15#8, 64#8]],
      e.1.takes (frame 3#8 0x30#8 1#8 e.2) = true ∧
        e.1.argsGood bench (mgmtArgs e.2) = false) ∧
    (committing (owned bench) false).operation ≠ .none ∧
    closingHeld (sending (.closing .commit) false).txQueue = true ∧ closingHeld bench.txQueue = false ∧
    { bench with session := some ⟨4#8, 60, none⟩ }.ownedBy 3#8 = false ∧
    (owned bench).ownedBy 3#8 = true ∧ (owned bench).operation = .none := by
  unfold taken
  decide +kernel

/-- Each clause, SESSION_OPEN with the least and the greatest timeout. -/
theorem witness_SessionOpensRenewsAndReverts :
    taken bench [0x01#8, 0#8, 5#8] ∧ mgmtOp [0x01#8, 0#8, 5#8] = some .sessionOpen ∧
    sessionOpenArg (mgmtArgs [0x01#8, 0#8, 5#8]) = some 5 ∧ bench.session = none ∧
    taken (owned bench) [0x01#8, 2#8, 0x58#8] ∧ (owned bench).ownedBy 3#8 = true ∧
    sessionOpenArg (mgmtArgs [0x01#8, 2#8, 0x58#8]) = some 600 ∧
    taken { bench with session := some ⟨4#8, 60, none⟩ } [0x01#8, 0#8, 5#8] ∧
    taken (owned bench) [0x02#8] ∧ mgmtOp [0x02#8] = some .sessionClose ∧
    mgmtArgs [0x02#8] = [] ∧ (owned bench).operation = .none ∧
    { owned bench with uptime := 60000#32 }.serving = true ∧
    (owned bench).session = some ⟨3#8, 60, some 60000#32⟩ ∧
    reached 60000#32 60000#32 = true ∧ (committing (owned bench) false).operation ≠ .none := by
  unfold taken
  decide +kernel

/-- Each edit at its bounds. -/
theorem witness_StagingEditsTakeEffect :
    ∀ e ∈ [([0x03#8], MgmtOp.stageCopyActive), ([0x04#8], .stageClear),
        (0x05#8 :: 255#8 :: encodeMapEntry ⟨0, 1, .u8, 3, 126, 65535, .lowFirst, .wo, .live,
          none, none, some ⟨1000, 1, -32768⟩⟩, .stagePutMap),
        ([0x06#8, 255#8], .stageDeleteMap),
        (0x07#8 :: 63#8 :: encodeScanEntry ⟨3, 126, 65476, 60, 60000, 1988⟩, .stagePutScan),
        ([0x08#8, 63#8], .stageDeleteScan),
        (0x09#8 :: 3#8 :: encodeLine defaultLine, .stagePutLine),
        (0x0A#8 :: encodeBridge defaultBridge, .stagePutBridge)],
      ownersOwn (owned bench) e.1 ∧ mgmtOp e.1 = some e.2 ∧
        match e.2 with
        | .stagePutMap => (putMapArgs (mgmtArgs e.1)).map Prod.fst = some 255
        | .stageDeleteMap => placeArg 256 (mgmtArgs e.1) = some 255
        | .stagePutScan => (putScanArgs (mgmtArgs e.1)).map Prod.fst = some 63
        | .stageDeleteScan => placeArg 64 (mgmtArgs e.1) = some 63
        | .stagePutLine => putLineArgs (mgmtArgs e.1) = some (3, defaultLine)
        | .stagePutBridge => putBridgeArgs (mgmtArgs e.1) = some defaultBridge
        | _ => mgmtArgs e.1 = [] := by
  intro e he
  simp only [List.mem_cons, List.not_mem_nil, or_false] at he
  rcases he with rfl | rfl | rfl | rfl | rfl | rfl | rfl | rfl
  all_goals exact ⟨ownersOwn_intro (by decide +kernel), by decide +kernel, by decide +kernel⟩

/-- A staging area whose second map entry overlaps its first. -/
def overlapping : Staging :=
  { copyOf exampleTables with map := [(0, typed .u16 none), (1, typed .u16 none)] }

theorem witness_ValidateAnswersFirstFailure :
    ownersOwn (owned bench) [0x0B#8] ∧ mgmtOp [0x0B#8] = some .validate ∧
    mgmtArgs [0x0B#8] = [] ∧ validation (owned bench).staging = none ∧
    ownersOwn { owned bench with staging := overlapping } [0x0B#8] ∧
    (validation overlapping).isSome = true :=
  ⟨ownersOwn_intro (by decide +kernel), by decide +kernel, by decide +kernel, by decide +kernel,
    ownersOwn_intro (by decide +kernel), by decide +kernel⟩

theorem witness_ValidationAcceptsConsistentStaging :
    sparseWf 256 (copyOf exampleTables).map = true ∧ sparseWf 64 (copyOf exampleTables).scan = true ∧
    sparseWf 256 overlapping.map = true ∧ sparseWf 64 overlapping.scan = true := by
  decide +kernel

/-! ## Activation, image store, restart and start-up -/

/-- ACTIVATE with the least and the greatest drain timeout, the mark clear and set. -/
theorem witness_ActivateBeginsItsDrain :
    ∀ mark : Bool, ∀ e ∈ [([0x0C#8, 0x00#8, 0x64#8], 100), ([0x0C#8, 0xEA#8, 0x60#8], 60000)],
      let s := { owned bench with staging := { copyOf exampleTables with mark := mark } }
      taken s e.1 ∧ s.operation = .none ∧ s.session = some ⟨3#8, 60, some 60000#32⟩ ∧
        closingHeld s.txQueue = false ∧ mgmtOp e.1 = some .activate ∧
        activateArg (mgmtArgs e.1) = some e.2 ∧ s.staging.mark = mark := by
  unfold taken
  decide +kernel

/-- A DRAINING part. -/
def draining (s : State) : State :=
  { s with bridge := .draining, operation := .activate 3#8 1#8 10000#32 }

theorem storeLaw_draining {s : State} (hm : s.mirror = []) (ha : s.store.slotA = [])
    (hb : s.store.slotB = []) : StoreLaw (draining s) where
  slotA := by show storeWf _ _ s.store.slotA = true; rw [ha]; rfl
  slotB := by show storeWf _ _ s.store.slotB = true; rw [hb]; rfl
  rising := by show (s.mirror.map Prod.fst).Pairwise _; rw [hm]; exact List.Pairwise.nil
  listed := by show ∀ e ∈ s.mirror, _; rw [hm]; simp
  content := by intro _ _ _ h; exact absurd h (by simp [draining])

/-- A slot ACTIVE, a scan entry IN_FLIGHT, and a drained part; enabled lines in and out of an attempt, and
a line that the staged tables disable; a probe in progress, and a LISTED station, whose record the swap keeps
or removes; and a frame partly received in GUARD under another bit rate and under the new one. -/
theorem witness_DrainedBridgeSwapsTables :
    StoreLaw (draining bench) ∧ (draining bench).operation = .activate 3#8 1#8 10000#32 ∧
    (draining bench).bridge = .draining ∧
    (∃ e ∈ (draining (working .fetch .queued)).slots, e.2.phase = .active) ∧
    (∃ e ∈ (draining scanning).scans, e.2.flying = true) ∧
    (∀ e ∈ (draining bench).slots, e.2.phase ≠ .active) ∧
    (∀ e ∈ (draining bench).scans, e.2.flying = false) ∧
    ((draining bench).drainTest.settings 0).enabled = true ∧
    ((draining { bench with staging := copyOf disabled.active }).drainTest.settings 1).enabled =
      false ∧
    (∀ e ∈ [(LinePhase.sending [0xC3#8] 1000, true), (.awaiting 0#32, true), (.idle, false)],
      let s := draining (withLine (unreachable .probing) 0 (fun n => { n with
        phase := e.1
        current := if e.2 then some (.probe 5 none false) else none }))
      ((s.lines.get 0).phase).attempting = e.2 ∧ (s.drainTest.settings 0).enabled = true) ∧
    (∀ kept : Bool,
      let s := draining { withLine (unreachable .probing) 0 (fun n => { n with
          phase := .awaiting 0#32
          current := some (.probe 5 none false)
          probes := [5] }) with
        staging := if kept then copyOf exampleTables else copyOf { exampleTables with
          map := []
          scan := [] } }
      ((s.lines.get 0).phase).attempting = true ∧ (s.drainTest.settings 0).enabled = true ∧
        (s.record 0 5).isSome = true ∧ (s.drainTest.record 0 5).isSome = kept) ∧
    (∀ e ∈ [(BitRate.b9600, true), (.b19200, false)],
      let s := draining (withLine bench 0 (fun n => { n with
        phase := .guard none
        receiving := true
        wire := ⟨e.1, .even⟩ }))
      (s.lines.get 0).phase.attempting = false ∧ (s.drainTest.settings 0).enabled = true ∧
        (s.lines.get 0).receiving = true ∧
        ((s.lines.get 0).wire ≠ ⟨(s.drainTest.settings 0).bitRate, (s.drainTest.settings 0).parity⟩ ↔
          e.2 = true)) :=
  ⟨storeLaw_draining rfl rfl rfl, rfl, rfl, by decide +kernel, by decide +kernel, by decide +kernel,
    by decide +kernel, by decide +kernel, by decide +kernel, by decide +kernel, by decide +kernel,
    by decide +kernel⟩

theorem witness_DrainTimeoutKeepsTables :
    ∀ t ∈ [working .fetch .inFlight, scanning],
      let s := { draining t with uptime := 10000#32 }
      s.powered = true ∧ s.bridge = .draining ∧ s.operation = .activate 3#8 1#8 10000#32 ∧
        reached s.uptime 10000#32 = true := by
  decide +kernel

/-- A part whose slots have these views. -/
def viewed (a b : Option SlotView) : State :=
  { owned bench with store := { bench.store with viewA := a, viewB := b } }

/-- The five cases of the image store, the two-image ones at the ends of the ranges of the difference. -/
theorem witness_CommitBeginsOnTheOlderSlot :
    (∀ e ∈ [((none : Option SlotView), (none : Option SlotView)), (some ⟨5#32, 1#16⟩, none),
        (none, some ⟨5#32, 1#16⟩), (some ⟨5#32, 1#16⟩, some ⟨6#32, 1#16⟩),
        (some ⟨5#32, 1#16⟩, some ⟨0x80000004#32, 1#16⟩), (some ⟨5#32, 1#16⟩, some ⟨5#32, 1#16⟩),
        (some ⟨5#32, 1#16⟩, some ⟨0x80000005#32, 1#16⟩)],
      let s := viewed e.1 e.2
      taken s [0x0D#8] ∧ s.operation = .none ∧ s.session = some ⟨3#8, 60, some 60000#32⟩ ∧
        closingHeld s.txQueue = false ∧ mgmtOp [0x0D#8] = some .commit ∧
        mgmtArgs [0x0D#8] = [] ∧ s.store.viewA = e.1 ∧ s.store.viewB = e.2) ∧
    (1 ≤ (6#32 - 5#32).toNat ∧ (0x80000004#32 - 5#32).toNat ≤ 0x7FFFFFFF) ∧
    (5#32 - 5#32).toNat = 0 ∧ 0x7FFFFFFF < (0x80000005#32 - 5#32).toNat := by
  unfold taken
  decide +kernel

/-- A COMMIT of generation 7 into slot A as image 1, over a slot's bytes, with or without a fault. -/
def verifying (slot : Sparse Byte) (fault : Bool) : State :=
  { committing bench true with
    store := { bench.store with slotA := slot }
    operation :=
      .commit 3#8 1#8 ⟨.a, 1#32, 7#16, imageBytes 1#32 7#16 exampleTables, true, fault⟩ }

/-- The bytes of slot A after the write of image 1 of the example's tables. -/
def writtenSlot : Sparse Byte := Sparse.writeFrom 0 1 (imageBytes 1#32 7#16 exampleTables) []

theorem readFrom_writtenSlot :
    writtenSlot.readFrom 0 1 7109 = imageBytes 1#32 7#16 exampleTables := by
  have h : (imageBytes 1#32 7#16 exampleTables).length = 7109 := length_imageBytes _ _ (by decide)
  have e := Sparse.readFrom_writeFrom 0 (imageBytes 1#32 7#16 exampleTables) 1 []
  rw [h] at e
  exact e

/-- A sound write has ended. -/
theorem verifying_good {slot : Sparse Byte}
    (h : slot.readFrom 0 1 7109 = imageBytes 1#32 7#16 exampleTables) :
    ∃ job, (verifying slot false).serving = true ∧
      (verifying slot false).operation = .commit 3#8 1#8 job ∧ job.written = true ∧
      job.fault = false ∧
      ((verifying slot false).store.slot job.target).readFrom 0 1 7109 = job.content :=
  ⟨_, rfl, rfl, rfl, rfl, h⟩

/-- A COMMIT before its write, whose report names cells at both ends of the content, one of them twice, and
just outside it; after a sound write, and after one that the store reports as failed. -/
theorem witness_CommitWritesThenVerifies :
    (∃ job, (committing bench false).serving = true ∧
      (committing bench false).operation = .commit 3#8 1#8 job ∧ job.written = false) ∧
    (let cells : List Host.Cell := [(0, 1#8), (1, 2#8), (7109, 3#8), (7110, 4#8), (1, 5#8)]
     let named (n : Nat) : Option Host.Cell := cells.reverse.find? (fun x => decide (x.1 = n))
     named 0 = some (0, 1#8) ∧ named 1 = some (1, 5#8) ∧ named 7109 = some (7109, 3#8) ∧
      named 7110 = some (7110, 4#8) ∧ named 2 = none) ∧
    (∃ slot job, (verifying slot false).serving = true ∧
      (verifying slot false).operation = .commit 3#8 1#8 job ∧ job.written = true ∧
      job.fault = false ∧
      ((verifying slot false).store.slot job.target).readFrom 0 1 7109 = job.content) ∧
    (∃ job, (verifying [] true).serving = true ∧
      (verifying [] true).operation = .commit 3#8 1#8 job ∧ job.written = true ∧
      job.fault ≠ false) :=
  ⟨⟨_, by decide, rfl, rfl⟩, by decide, ⟨writtenSlot, verifying_good readFrom_writtenSlot⟩,
    ⟨_, rfl, rfl, rfl, Bool.noConfusion⟩⟩

theorem witness_RestartJoinsItsClosingReply :
    ∀ cold : Bool, let body : List Byte := [0x0E#8, if cold then 1#8 else 0#8]
      ownersOwn (owned bench) body ∧ closingHeld (owned bench).txQueue = false ∧
        mgmtOp body = some .restart ∧ restartArg (mgmtArgs body) = some cold := by
  intro cold
  cases cold
  all_goals exact ⟨ownersOwn_intro (by decide +kernel), by decide +kernel⟩

/-- Supply and reset in each case; a COMMIT in progress before and after its write's end; and a RESTART COLD
whose closing MREPLY is being sent. -/
theorem witness_ResetAndPowerStopThePart :
    bench.supply = true ∧ bench.resetLow = false ∧
    { bench with resetLow := true }.resetLow = true ∧ { bench with supply := false }.supply = false ∧
    bench.operation = .none ∧
    (∃ job, (committing bench false).operation = .commit 3#8 1#8 job ∧ job.written = false) ∧
    (∃ job, (committing bench true).operation = .commit 3#8 1#8 job ∧ job.written = true) ∧
    (sending (.closing .restartCold) true).serving = true ∧
    (sending (.closing .restartCold) true).sending = some [0xC3#8] ∧
    (sending (.closing .restartCold) true).txQueue =
      ⟨.closing .restartCold, 3#8, 9#8, .ack .ok⟩ :: [] :=
  ⟨rfl, rfl, rfl, rfl, rfl, ⟨_, rfl, rfl⟩, ⟨_, rfl, rfl⟩, by decide, rfl, rfl⟩

/-- A part in start-up, without an image and with one. -/
theorem witness_StartUpEntersRunning :
    (∀ e ∈ [(none : Option SlotView), some ⟨5#32, 7#16⟩],
      let s := { viewed e none with bridge := .starting }
      s.powered = true ∧ s.bridge = .starting ∧ s.store.newest = e.map (fun v => (.a, v))) := by
  decide +kernel

/-! ## Status and statistics -/

/-- The record of station 5 on line 0, LISTED and not. -/
theorem witness_StationResetClearsRecord :
    ∀ p ∈ [ProbeStage.listed, .none],
      let s := { unreachable p with session := some ⟨3#8, 60, some 60000#32⟩ }
      ownersOwn s [0x0F#8, 0#8, 5#8] ∧ mgmtOp [0x0F#8, 0#8, 5#8] = some .stationReset ∧
        stationArgs (mgmtArgs [0x0F#8, 0#8, 5#8]) = some (0, 5) ∧
        s.record 0 5 = some ⟨5, .offline, 3, p⟩ := by
  intro p hp
  simp only [List.mem_cons, List.not_mem_nil, or_false] at hp
  rcases hp with rfl | rfl
  all_goals exact ⟨ownersOwn_intro (by decide +kernel), by decide +kernel⟩

/-! ## Events that fall together with the joining of work (R61, R90, R97, R147) -/

/-- A STORE of station 3, tag 9, whose leg 0 has ended DONE and whose leg 1 has been released to IDLE line 1. -/
def released : State :=
  withLine { bench with
    slots := [(0, { storing [0, 1] with source := 3#8, tag := 9#8, nextRelease := 2 })]
    legs := [(0, leg .store 0 .done), (1, { leg .store 0 .queued with position := 2 })] } 1
      (fun n => { n with demand := [1] })

/-- Scan entry 2 has fallen due on IDLE line 0. -/
def fallenDue : State :=
  withLine { bench with scans := [(2, ⟨.queued, 2000#32, 0, 0, 0, 0⟩)] } 0 (fun n => { n with scans := [2] })

/-- The probe timer of OFFLINE station 5 has expired on IDLE line 0. -/
def listed : State := withLine (unreachable .listed) 0 (fun n => { n with probes := [5] })

/-- An IDLE line as every command leaves it. -/
def standsIdle (s : State) (l : LineNo) : Prop :=
  s.serving = true ∧ (s.lines.get l).current = none ∧ (s.settings l).enabled = true ∧
    (s.lines.get l).phase = .idle ∧ (s.lines.get l).joined = none ∧ (s.lines.get l).receiving = false ∧
    (s.lines.get l).wire = ⟨(s.settings l).bitRate, (s.settings l).parity⟩

/-- A leg, a scan entry and a station that have joined, each at both ends of its clause of the arbiter. -/
theorem witness_IdleLineTakesAtOnce_withdrawn :
    (∀ e ∈ [(([] : List Nat), ([] : List Nat), Take.none, 4), ([5], [2], .probe, 3)],
      let s := withLine released 1 (fun n => { n with
        probes := e.1
        scans := e.2.1
        previous := e.2.2.1
        streak := e.2.2.2 })
      let n := s.lines.get 1
      standsIdle s 1 ∧ (n.probes = [] ∨ n.previous = .probe) ∧ n.demand = 1 :: [] ∧
        (n.scans = [] ∨ n.streak < 4) ∧ (s.legs.get 1).map (fun g => (g.state, g.attempts, g.tag)) =
          some (.queued, 0, none)) ∧
    (∀ e ∈ [(([] : List Nat), ([] : List Nat), Take.none, 0), ([5], [0], .probe, 4)],
      let s := withLine fallenDue 0 (fun n => { n with
        probes := e.1
        demand := e.2.1
        previous := e.2.2.1
        streak := e.2.2.2 })
      let n := s.lines.get 0
      standsIdle s 0 ∧ (n.probes = [] ∨ n.previous = .probe) ∧ (n.demand = [] ∨ 4 ≤ n.streak) ∧
        n.scans = 2 :: [] ∧ (s.scans.get 2).map ScanRun.state = some .queued) ∧
    (∀ e ∈ [(Take.probe, ([] : List Nat)), (.demand, [0])],
      let s := withLine listed 0 (fun n => { n with
        previous := e.1
        demand := e.2 })
      let n := s.lines.get 0
      standsIdle s 0 ∧ n.probes = 5 :: [] ∧ (n.previous ≠ .probe ∨ (n.demand = [] ∧ n.scans = [])) ∧
        ∀ x ∈ s.stations.get 0, x.station = 5 → x.probe = .listed) := by
  unfold standsIdle
  exact ⟨by decide +kernel, by decide +kernel, by decide +kernel⟩

/-- A CANCEL at the uptime of the release, with IDLE line 1 sending the released leg. -/
theorem witness_CancelAnswersAndStopsWaitingLegs_released :
    let s := arrive (released.kick 1) 3#8 0x28#8 9#8 []
    let r : Request := { storing [0, 1] with source := 3#8, tag := 9#8, nextRelease := 2 }
    RequestLaw s ∧
      s.dispatched (lastOf 3#8 0x28#8 9#8 []) = some (frame 3#8 0x28#8 9#8 [], .cancel) ∧
      s.slotOf 3#8 9#8 = some (0, r) ∧ r.phase = .active ∧ r.cancelRequested = false ∧
      s.joining (fun _ w => decide (r.kind ≠ .fetch ∧ 2 ≤ r.nextRelease ∧
        r.legs[r.nextRelease - 1]?.map .leg = some w)) = [1] :=
  ⟨requestLaw_of_lists _ (by decide +kernel) (by decide +kernel) (by decide +kernel) (by decide +kernel)
    (by decide +kernel), by decide +kernel, by decide +kernel, by decide +kernel, by decide +kernel,
    by decide +kernel⟩

/-- An ACTIVATE at the uptime of the due expiry, with IDLE line 0 sending the fetch. -/
theorem witness_ActivateBeginsItsDrain_due :
    let s := owned (fallenDue.kick 0)
    let body : List Byte := [0x0C#8, 0x00#8, 0x64#8]
    taken s body ∧ s.operation = .none ∧ s.session = some ⟨3#8, 60, some 60000#32⟩ ∧
      closingHeld s.txQueue = false ∧ mgmtOp body = some .activate ∧
      activateArg (mgmtArgs body) = some 100 ∧ s.staging.mark = true ∧
      s.joining (fun _ w => w.isScan) = [0] := by
  unfold taken
  decide +kernel

/-- A swap at the uptime of the probe timer's expiry, with IDLE line 0 sending the probe of a station whose
record the staged tables do not keep. -/
theorem witness_DrainedBridgeSwapsTables_listed :
    let s := draining { listed.kick 0 with staging := copyOf { exampleTables with
      map := []
      scan := [] } }
    StoreLaw s ∧ s.operation = .activate 3#8 1#8 10000#32 ∧ s.bridge = .draining ∧
      (∀ e ∈ s.slots, e.2.phase ≠ .active) ∧ (∀ e ∈ s.scans, e.2.flying = false) ∧
      s.joining (s.losesRecord s.staging.tables) = [0] :=
  ⟨storeLaw_draining rfl rfl rfl, rfl, rfl, by decide +kernel, by decide +kernel, by decide +kernel⟩

/-- A STATION_RESET at the uptime of the probe timer's expiry, with IDLE line 0 sending the probe. -/
theorem witness_StationResetClearsRecord_listed :
    let s := owned (listed.kick 0)
    ownersOwn s [0x0F#8, 0#8, 5#8] ∧ mgmtOp [0x0F#8, 0#8, 5#8] = some .stationReset ∧
      stationArgs (mgmtArgs [0x0F#8, 0#8, 5#8]) = some (0, 5) ∧
      s.record 0 5 = some ⟨5, .offline, 3, .probing⟩ ∧
      s.joining (fun m w => decide (m = 0) && w.probes 5) = [0] :=
  ⟨ownersOwn_intro (by decide +kernel), by decide +kernel⟩

theorem witness_StatusReportsThePart :
    taken bench [0x11#8] ∧ mgmtOp [0x11#8] = some .status ∧ mgmtArgs [0x11#8] = [] := by
  unfold taken
  decide +kernel

/-- Each read-out, at used and unused places, and at the bounds of the places. -/
theorem witness_ReadOutsAnswerAndChangeNothing :
    (∀ e ∈ [([0x12#8, 0#8, 3#8], TableSelect.map 3), ([0x12#8, 1#8, 2#8], .scan 2),
        ([0x12#8, 2#8, 3#8], .line 3), ([0x12#8, 3#8, 0#8], .bridge)],
      taken bench e.1 ∧ mgmtOp e.1 = some .readActive ∧
        activeArgs bench (mgmtArgs e.1) = some e.2) ∧
    (∀ e ∈ [([0x13#8, 0#8, 0#8], TableSelect.map 0), ([0x13#8, 1#8, 63#8], .scan 63),
        ([0x13#8, 2#8, 3#8], .line 3), ([0x13#8, 3#8, 0#8], .bridge)],
      taken bench e.1 ∧ mgmtOp e.1 = some .readStage ∧ bench.operation = .none ∧
        tableSelect (mgmtArgs e.1) = some e.2) ∧
    taken bench [0x14#8, 0#8] ∧ mgmtOp [0x14#8, 0#8] = some .stationList ∧
    lineArg (mgmtArgs [0x14#8, 0#8]) = some 0 ∧ (bench.stations.get 0).length = 1 ∧
    (∀ e ∈ [([0x15#8, 2#8], 2), ([0x15#8, 63#8], 63)],
      taken bench e.1 ∧ mgmtOp e.1 = some .scanInfo ∧ placeArg 64 (mgmtArgs e.1) = some e.2) := by
  unfold taken
  decide +kernel

/-- Each group, read and cleared. -/
theorem witness_StatsReadsAndClearsAGroup :
    ∀ clear ∈ [0#8, 1#8], ∀ e ∈ [((0#8, 0#8), StatsGroup.host), ((1#8, 3#8), .line 3),
        ((2#8, 2#8), .scan 2)],
      ownersOwn (owned bench) [0x10#8, e.1.1, e.1.2, clear] ∧
        statsArgs (managed (owned bench) [0x10#8, e.1.1, e.1.2, clear]) [e.1.1, e.1.2, clear] =
          some e.2 := by
  intro clear hc e he
  simp only [List.mem_cons, List.not_mem_nil, or_false] at hc he
  rcases hc with rfl | rfl <;> rcases he with rfl | rfl | rfl
  all_goals exact ⟨ownersOwn_intro (by decide +kernel), by decide +kernel⟩

/-! ## Encodings and whole-machine laws -/

/-- Records at both ends of their ranges. -/
theorem witness_RecordsDecodeAsEncoded :
    (⟨0, 1, .u8, 0, 0, 0, .highFirst, .ro, .live, none, none, none⟩ : MapEntry).inRange = true ∧
    (⟨65408, 128, .f32, 3, 126, 65408, .lowFirst, .wo, .mirrorFallback, some ⟨63, 59⟩,
      some 600000, some ⟨1000, 1000, 32767⟩⟩ : MapEntry).inRange = true ∧
    (⟨0, 1, 0, 1, 100, 0⟩ : ScanEntry).inRange = true ∧
    (⟨3, 126, 65476, 60, 60000, 1988⟩ : ScanEntry).inRange = true ∧ (63#8).toNat < 64 ∧
    defaultLine.inRange = true ∧ defaultBridge.inRange = true := by
  decide +kernel

theorem exampleTables_storable : exampleTables.storable where
  count := by decide
  map := by decide +kernel
  places := by decide
  scan := by decide +kernel
  lines := by decide +kernel

/-- A COMMIT at its beginning, on a factory part that runs the example's tables. -/
def begun : State := committing (owned bench) false

theorem imageLaw_begun (waiting : List Instr) : ImageLaw { begun with pending := waiting } where
  views i := by cases i <;> rfl
  commit dest tag job h := by
    have h : PendingOp.commit 3#8 1#8 ⟨.a, 1#32, 7#16, imageBytes 1#32 7#16 exampleTables, false,
      false⟩ = .commit dest tag job := h
    injection h with _ _ h
    subst h
    exact ⟨rfl, rfl, rfl, rfl, rfl⟩

theorem witness_CommittedConfigurationSurvivesReset :
    ∃ (s : State) (job : CommitJob), ImageLaw s ∧ s.active.storable ∧ s.serving = true ∧
      s.operation = .commit 3#8 1#8 job ∧ job.written = false ∧
      s.pending = [.commitWriteEnd false [], .commitVerifyResult, .resetPinEvent, .resetPinRelease,
        .enterRunning] :=
  ⟨{ begun with pending := [.commitWriteEnd false [], .commitVerifyResult, .resetPinEvent,
      .resetPinRelease, .enterRunning] }, _, imageLaw_begun _,
    exampleTables_storable, by decide, rfl, rfl, rfl⟩

/-- A part with a reply queued and a command waiting. -/
def replying : State :=
  { sending (.slotReply 0) false with pending := [.transmitStart] }

theorem witness_StepKeepsQueueLaw :
    QueueLaw replying ∧ ∃ t, step replying = .next t :=
  ⟨⟨by decide, by decide, by decide, by decide, by
    intro k hk
    have : k = 0 := List.mem_singleton.1 hk
    subst this
    exact ⟨_, rfl, rfl⟩⟩, ⟨_, rfl⟩⟩

theorem witness_StepKeepsRequestLaw :
    RequestLaw (cancelling (fetching .active [0, 1])
      [(0, leg .fetch 0 .inFlight), (1, leg .fetch 0 .queued)]) ∧
    ∃ t, step { cancelling (fetching .active [0, 1])
      [(0, leg .fetch 0 .inFlight), (1, leg .fetch 0 .queued)] with
        pending := [.cancel (lastOf 3#8 0x28#8 9#8 [])] } = .next t :=
  ⟨requestLaw_of_lists _ (by decide +kernel) (by decide +kernel) (by decide +kernel)
    (by decide +kernel) (by decide +kernel), ⟨_, rfl⟩⟩

theorem lineLaw_bench : LineLaw (owned bench) :=
  ⟨by decide +kernel, by unfold recordsOrdered; decide +kernel⟩

theorem sessionLaw_bench : SessionLaw (owned bench) where
  owner n h := by
    have h : some (⟨3#8, 60, some 60000#32⟩ : Session) = some n := h
    injection h with h
    subst h
    decide
  stopped h := absurd rfl h
  draining _ := by decide
  validated h := absurd h (by decide)

theorem witness_StepKeepsLineAndSessionLaws :
    QueueLaw (owned bench) ∧ LineLaw (owned bench) ∧ SessionLaw (owned bench) ∧
      ∃ t, step (owned bench) = .next t :=
  ⟨⟨by decide, by decide, by decide, by decide, by intro k hk; exact absurd hk List.not_mem_nil⟩,
    lineLaw_bench, sessionLaw_bench, ⟨_, rfl⟩⟩

theorem storeLaw_begun : StoreLaw begun where
  slotA := rfl
  slotB := rfl
  rising := List.Pairwise.nil
  listed := by intro e he; exact absurd he (List.not_mem_nil)
  content dest tag job h := by
    have h : PendingOp.commit 3#8 1#8 ⟨.a, 1#32, 7#16, imageBytes 1#32 7#16 exampleTables, false,
      false⟩ = .commit dest tag job := h
    injection h with _ _ h
    subst h
    show (imageBytes 1#32 7#16 exampleTables).length < slotSize
    rw [length_imageBytes _ _ (by decide)]
    decide

theorem witness_StepKeepsImageAndStoreLaws :
    ImageLaw begun ∧ StoreLaw begun ∧ ∃ t, step begun = .next t :=
  ⟨imageLaw_begun [], storeLaw_begun, ⟨_, rfl⟩⟩

/-- A part that has answered, and whether its staging area differs from another's. -/
def answers (i : Instr) (s : State) (p : State → Bool) : Bool :=
  match exec i s with
  | .next t => p t
  | _ => false

theorem answers_spec {i : Instr} {s : State} {p : State → Bool} (h : answers i s p = true) :
    ∃ t, exec i s = .next t ∧ p t = true := by
  unfold answers at h
  split at h
  · exact ⟨_, ‹_›, h⟩
  · exact absurd h (by decide)

/-- The owner's STAGE_CLEAR, and the idle timer's expiry after it. -/
theorem witness_StagingEditedByOwnerOnly :
    (∃ t, exec (.stageClear (lastOf 3#8 0x30#8 1#8 [0x04#8])) (managed (owned bench) [0x04#8]) =
      .next t ∧ t.staging ≠ (managed (owned bench) [0x04#8]).staging) ∧
    (let s := { owned bench with uptime := 60000#32, staging := overlapping }
     ∃ t, exec .idleTimerExpiry s = .next t ∧ t.staging ≠ s.staging) := by
  constructor
  · obtain ⟨t, ht, h⟩ := answers_spec (i := .stageClear (lastOf 3#8 0x30#8 1#8 [0x04#8]))
      (s := managed (owned bench) [0x04#8])
      (p := fun t => decide (t.staging ≠ (managed (owned bench) [0x04#8]).staging))
      (by decide +kernel)
    exact ⟨t, ht, of_decide_eq_true h⟩
  · obtain ⟨t, ht, h⟩ := answers_spec (i := .idleTimerExpiry)
      (s := { owned bench with uptime := 60000#32, staging := overlapping })
      (p := fun t => decide (t.staging ≠ overlapping)) (by decide +kernel)
    exact ⟨t, ht, of_decide_eq_true h⟩

/-- Start-up without an image of a part that ran the example's tables, and the drain test of ACTIVATE on a
part that runs none. -/
theorem witness_ActiveTablesReplacedWhole :
    (let s := { bench with bridge := .starting }
     SessionLaw s ∧ ∃ t, exec .enterRunning s = .next t ∧ t.active ≠ s.active) ∧
    (let s := managed { owned State.reset with staging := copyOf exampleTables }
        [0x0C#8, 0x03#8, 0xE8#8]
     SessionLaw s ∧ ∃ t, exec (.activate (lastOf 3#8 0x30#8 1#8 [0x0C#8, 0x03#8, 0xE8#8])) s =
      .next t ∧ t.active ≠ s.active ∧ t.generation ≠ s.generation) := by
  refine ⟨⟨⟨fun n h => absurd h (by intro h; cases h), fun h => absurd rfl h, fun _ => by decide,
    fun h => absurd h (by decide)⟩, ?_⟩, ⟨⟨sessionLaw_bench.owner, fun h => absurd rfl h,
    fun _ => by decide, fun h => absurd h (by decide)⟩, ?_⟩⟩
  · obtain ⟨t, ht, h⟩ := answers_spec (i := .enterRunning) (s := { bench with bridge := .starting })
      (p := fun t => decide (t.active ≠ bench.active)) (by decide +kernel)
    exact ⟨t, ht, of_decide_eq_true h⟩
  · obtain ⟨t, ht, h⟩ := answers_spec
      (i := .activate (lastOf 3#8 0x30#8 1#8 [0x0C#8, 0x03#8, 0xE8#8]))
      (s := managed { owned State.reset with staging := copyOf exampleTables }
        [0x0C#8, 0x03#8, 0xE8#8])
      (p := fun t => decide (t.active ≠ State.reset.active ∧ t.generation ≠ State.reset.generation))
      (by decide +kernel)
    exact ⟨t, ht, (of_decide_eq_true h).1, (of_decide_eq_true h).2⟩

/-- A slot that holds image 1 of the example's tables, complete. -/
def imageSlot : Sparse Byte := writtenSlot.write 0 0 completeMark

theorem slotView_imageSlot : slotView imageSlot = some ⟨1#32, 7#16⟩ := by
  refine (slotView_imageBytes _ _ (t := exampleTables) (by decide) _ ?_ ?_).1
  · exact Sparse.read_write_same _ _ _ _
  · rw [imageSlot, Sparse.readFrom_write_before _ _ _ 0 1 (by decide), readFrom_writtenSlot]

/-- A part whose slot A holds a valid image, number 1, while a COMMIT writes slot B. -/
def imaged (slot : Sparse Byte) : State :=
  { owned bench with
    store := ⟨slot, [], some ⟨1#32, 7#16⟩, none⟩
    operation := .commit 3#8 1#8 ⟨.b, 2#32, 7#16, imageBytes 2#32 7#16 exampleTables, false, false⟩ }

theorem imageLaw_imaged {slot : Sparse Byte} (h : slotView slot = some ⟨1#32, 7#16⟩) :
    ImageLaw (imaged slot) where
  views i := by
    cases i
    · exact h.symm
    · rfl
  commit dest tag job h := by
    have h : PendingOp.commit 3#8 1#8 ⟨.b, 2#32, 7#16, imageBytes 2#32 7#16 exampleTables, false,
      false⟩ = .commit dest tag job := h
    injection h with _ _ h
    subst h
    exact ⟨rfl, rfl, rfl, rfl, rfl⟩

theorem witness_NewestImageUntouched :
    ImageLaw (imaged imageSlot) ∧
      (∃ t, exec (.commitWriteEnd false []) (imaged imageSlot) = .next t) ∧
      (imaged imageSlot).store.newest = some (.a, ⟨1#32, 7#16⟩) :=
  ⟨imageLaw_imaged slotView_imageSlot, ⟨_, rfl⟩, rfl⟩

/-! ## Worked sequences of the spec, one step each -/

/-- The payload of the frame that stands last in the transmit queue after a command. -/
def answerOf (i : Instr) (s : State) : Option Payload :=
  match exec i s with
  | .next t => t.txQueue.getLast?.map TxFrame.payload
  | _ => none

/-- What the part answers to a MGMT frame of a station. -/
def reportOf (i : Byte → Instr) (s : State) (source : Byte) (body : List Byte) : Option Payload :=
  answerOf (i (lastOf source 0x30#8 1#8 body)) (arrive s source 0x30#8 1#8 body)

/-- Section 2.8: the FETCH that a stale mirror ends at its admission. -/
theorem test_fetch_answers_no_data :
    answerOf (.fetch (lastOf 3#8 0x21#8 20#8 (nat2 1000 ++ [40#8])))
      (arrive isolated 3#8 0x21#8 20#8 (nat2 1000 ++ [40#8])) =
      some (.reply ⟨.noData, false, false, false, 0, some ⟨1000, none, 5, none, 0, false⟩, []⟩) := by
  decide +kernel

/-- Section 2.8: with cells fresh the first failure is the OFFLINE station's, and ten values transfer. -/
theorem test_fetch_answers_station_offline :
    answerOf (.fetch (lastOf 3#8 0x21#8 20#8 (nat2 1000 ++ [40#8])))
      (arrive { isolated with mirror := mirrored.mirror } 3#8 0x21#8 20#8 (nat2 1000 ++ [40#8])) =
      some (.reply ⟨.stationOffline, false, false, false, 10, some ⟨1010, some 1, 12, none, 0, false⟩,
        (List.range 10).map (BitVec.ofNat 16)⟩) := by
  decide +kernel

/-- The staging area of section 8.7 with its new entry at a virtual base and its new region at a cell. -/
def edited (base cell : Nat) : State :=
  let g := (owned bench).staging
  { owned bench with staging := { g with
      mark := false
      map := g.map.put 4 ⟨base, 8, .u16, 2, 7, 100, .highFirst, .ro, .mirrorFallback, some ⟨6, 0⟩,
        some 4000, none⟩
      scan := g.scan.put 6 ⟨2, 7, 100, 8, 2000, cell⟩ } }

/-- Section 8.7: the two VALIDATEs, and the one that a virtual base of 1200 would have failed. -/
theorem test_validate_answers :
    reportOf .validate (edited 2100 205) 3#8 [0x0B#8] =
      some (.mreply 0x0B#8 .invalid [1#8, 6#8, 0x0B#8]) ∧
    reportOf .validate (edited 2100 210) 3#8 [0x0B#8] =
      some (.mreply 0x0B#8 .ok [0#8, 5#8, 2#8]) ∧
    (reportOf .validate (edited 1200 210) 3#8 [0x0B#8]).isSome = true ∧
    validation (edited 1200 210).staging = some ⟨.map, 4, .notAscending⟩ := by
  decide +kernel

/-- Section 8.7: a delete from a station that is not the owner. -/
theorem test_delete_answers_not_owner :
    reportOf .stageDeleteMap (edited 2100 205) 4#8 [0x06#8, 3#8] =
      some (.mreply 0x06#8 .notOwner []) := by
  decide +kernel

/-- Section 11.4: reading a line group, and the clear by a station without the session. -/
theorem test_stats_answers :
    let s := withLine (owned bench) 1 (fun n => { n with counters := ⟨4210, 4402, 150, 12, 3, 20, 7, 0⟩ })
    reportOf .statsRead s 6#8 [0x10#8, 1#8, 1#8, 0#8] = some (.mreply 0x10#8 .ok
      (1#8 :: 1#8 :: ([4210, 4402, 150, 12, 3, 20, 7, 0] : List DWord).flatMap bytes32)) ∧
    reportOf .statsClear s 6#8 [0x10#8, 1#8, 1#8, 1#8] =
      some (.mreply 0x10#8 .notOwner []) := by
  decide +kernel

/-- Section 10.5: with images 12 in A and 11 in B the COMMIT takes B, with sequence number 13. -/
theorem test_commit_takes_older_slot :
    answers (.commit (lastOf 3#8 0x30#8 1#8 [0x0D#8]))
      (managed (viewed (some ⟨12#32, 7#16⟩) (some ⟨11#32, 6#16⟩)) [0x0D#8])
      (fun t => match t.operation with
        | .commit _ _ job => decide (job.target = .b) && decide (job.sequence = 13#32)
        | _ => false) = true := by
  decide +kernel

/-- Section 7.6: 55h in HUNT is dropped; the length 03h after C3h is a framing error. -/
theorem test_framer_through_noise :
    answers (.hostByteReceived 0x55#8) bench (fun t => decide (t = bench)) = true ∧
    answers (.hostByteReceived 0xC3#8) bench (fun t => decide (t.framer.state = .header)) = true ∧
    answers (.hostBadLength 0x03#8) (framing .header) (fun t =>
      decide (t.framer = ⟨.hunt, none⟩ ∧ t.hostCounters.framingErrors = 1)) = true := by
  decide +kernel

/-- Section 5.7: the third failed attempt, at uptime 50628, with two legs to station 9 and one to
station 5 in play. -/
theorem test_third_timeout_isolates_station :
    let line (g : Leg) (station : Nat) : Leg := { g with line := 0, station := station }
    let settings : LineSettings := { defaultLine with
      replyTimeout := 200, retryLimit := 4, offlineThreshold := 3, probeInterval := 2000, guardTime := 5 }
    let s := awaitingOn { bench with
      uptime := 50628#32
      active := { exampleTables with lines := exampleTables.lines.set 0 settings }
      slots := [(0, fetching .active [0, 1, 2])]
      legs := [(0, { line (leg .fetch 0 .inFlight) 9 with attempts := 3, tag := some 5#8 }),
        (1, line (leg .fetch 0 .queued) 9), (2, line (leg .fetch 0 .queued) 5)]
      stations := bench.stations.set 0 [⟨5, .online, 0, .none⟩, ⟨9, .suspect, 2, .none⟩] } 0 (.leg 0)
    answers (.replyTimerExpiry 0) (withLine s 0 (fun n => { n with demand := [1, 2] })) (fun t =>
      decide (t.record 0 9 = some ⟨9, .offline, 3, .waiting 52628#32⟩) &&
      decide ((t.lines.get 0).phase = .guard (some 50633#32)) &&
      decide ((t.legs.get 0).map Leg.state = some .failed)) = true := by
  decide +kernel

/-- R101, R146: at the drain timer's expiry the entry starts WAITING, which SCAN_INFO reports as state 0 with
attempts 0, and its due timer starts afresh; its line still holds the fetch. -/
theorem test_drain_timeout_restarts_entry :
    answers .drainTimerExpiry { draining scanning with uptime := 10000#32 } (fun t =>
      decide (t.bridge = .running) &&
      decide (t.scans.get 2 = some ⟨.finishing 1 (some 5#8), 11000#32, 0, 0, 0, 0⟩) &&
      decide ((t.scans.get 2).map (fun c => (c.state.code, c.state.attempts, c.flying)) =
        some (0, 0, true))) = true := by
  decide +kernel

/-- R169: a line record area gives its record with bit rate codes 0 to 4; with code 5, which only the bridge has, no
value of it is fixed (log entry 19). -/
theorem test_line_record_of_image :
    ∀ rate, loadLine (encodeLine { defaultLine with bitRate := rate }) =
      if rate = .b230400 then Config.foreignLine (encodeLine { defaultLine with bitRate := rate })
      else { defaultLine with bitRate := rate } := by
  intro rate
  cases rate <;> rfl

/-- R61: the DONE first, the released leg on an IDLE line: the CANCEL cancels it from the queue. The cancel
point is its position, and the line counts the attempt that it began for it (R79, R165). -/
theorem test_cancel_takes_released_leg :
    answers (.cancel (lastOf 3#8 0x28#8 9#8 [])) (arrive (released.kick 1) 3#8 0x28#8 9#8 []) (fun t =>
      decide (t.txQueue.map TxFrame.payload = [.ack .ok, .reply
        ⟨.cancelled, false, false, false, 2, some ⟨1012, none, 0, none, 0, false⟩, []⟩]) &&
      decide (t.legs.get 1 = none) &&
      decide ((t.lines.get 1).phase = .idle ∧ (t.lines.get 1).current = none ∧
        (t.lines.get 1).demand = [] ∧ (t.lines.get 1).counters.attempts = 1)) = true := by
  decide +kernel

/-- R147: the due expiry first, its line IDLE: the ACTIVATE removes the entry without count, and with nothing
else in flight its own event makes the swap. -/
theorem test_activate_empties_due_entry :
    answers (.activate (lastOf 3#8 0x30#8 1#8 [0x0C#8, 0x00#8, 0x64#8]))
      (managed (owned (fallenDue.kick 0)) [0x0C#8, 0x00#8, 0x64#8]) (fun t =>
      decide (t.bridge = .running ∧ t.generation = 8) &&
      decide (t.scans.get 2 = some ⟨.waiting, 1000#32, 0, 0, 0, 0⟩) &&
      decide ((t.lines.get 0).phase = .idle ∧ (t.lines.get 0).scans = [])) = true := by
  decide +kernel

/-- R90: the probe timer's expiry first, its line IDLE: the STATION_RESET takes the station from the list,
and the line counts the probe that it began (R79, R165). -/
theorem test_reset_takes_listed_station :
    answers (.stationReset (lastOf 3#8 0x30#8 1#8 [0x0F#8, 0#8, 5#8]))
      (managed (owned (listed.kick 0)) [0x0F#8, 0#8, 5#8]) (fun t =>
      decide (t.stations.get 0 = [⟨5, .unknown, 0, .none⟩]) &&
      decide ((t.lines.get 0).phase = .idle ∧ (t.lines.get 0).probes = [] ∧
        (t.lines.get 0).counters.probes = 1)) = true := by
  decide +kernel

end Sys2Proof.Tests
end

section
/-!
SUPPORT. The active tables and the generation change whole, at start-up and at a swap alone (R7, R142,
R143, R148), read off the list of everything a command can do to the ledger.
-/

namespace Sys2Proof.Machine

/-- A drain is complete exactly when no slot is ACTIVE and no scan fetch is in flight (R141). -/
theorem State.drained_iff (s : State) : s.drained = true ↔
    (∀ e ∈ s.slots, e.2.phase ≠ .active) ∧ ∀ e ∈ s.scans, e.2.flying = false := by
  simp [State.drained]

theorem tables_of_ledger {t : State} {l : Ledger} (h : t.ledger = l) :
    t.active = l.active ∧ t.generation = l.generation :=
  h ▸ ⟨rfl, rfl⟩

/-- Settles O59: of all the ways in which a command changes the ledger, the end of start-up and the swap
alone touch the tables or the generation. -/
theorem activeTablesReplacedWhole : Obligations.ActiveTablesReplacedWhole := by
  intro i s t law hexec hchange
  have kept : ∀ {l : Ledger}, t.ledger = l →
      ¬ (l.active = s.active ∧ l.generation = s.generation) := by
    rintro l h ⟨ha, hg⟩
    obtain ⟨ha', hg'⟩ := tables_of_ledger h
    exact hchange.elim (· (ha'.trans ha)) (· (hg'.trans hg))
  cases exec_ledger hexec with
  | running hi hb h =>
    simp only [State.ledger, Ledger.mk.injEq] at h
    exact .inl ⟨hi, hb, by simp [h]⟩
  | swapped u x _ hm ht hb ho hd hu h =>
    obtain ⟨dest, tag, drain, ho⟩ := ho
    obtain ⟨hactive, hgeneration, hstaging⟩ := hu
    obtain ⟨hslots, hscans⟩ := u.drained_iff.1 hd
    have hmark : s.staging.mark = true := hm.elim law.validated id
    simp only [State.ledger, Ledger.mk.injEq] at h
    exact .inr ⟨by simp [h], hmark, by simp [h], by simp [h], by simp [h], u, dest, tag, drain, ht,
      hb, ho, hactive, hgeneration, hstaging, hslots, hscans⟩
  | calm _ _ _ h | opened _ _ _ h | closed _ h | edited _ _ _ _ _ _ _ _ h
  | draining _ _ _ _ _ _ _ h | timedOut _ _ _ h | committing _ _ _ _ _ h
  | written _ _ _ _ _ _ h | verified _ _ _ _ _ _ _ h | unverified _ _ _ _ _ _ h
  | warm _ _ _ _ h | halted _ _ _ _ _ _ _ _ h | pins _ _ _ h =>
    exact absurd ⟨rfl, rfl⟩ (kept h)

end Sys2Proof.Machine
end

section
/-!
SUPPORT. Lookup in the map table and the cutting of segments into legs (R10, R12): what a search for an
entry finds, what a looked-up segment is, and that the segments of a run and the legs of a segment follow
one another without a gap.
-/

namespace Sys2Proof.Machine

/-! ## The search for an entry (R7) -/

theorem MapEntry.covers_iff (e : MapEntry) (item : Nat) :
    e.covers item = true ↔ e.base ≤ item ∧ item < e.base + e.length := by
  simp [MapEntry.covers]

/-- A search that counts positions from `p` finds an entry that covers the item, at its own position. -/
theorem findEntry_some {item p q : Nat} {map : List MapEntry} {e : MapEntry}
    (h : findEntry item p map = some (q, e)) :
    e.covers item = true ∧ ∃ k, q = p + k ∧ map[k]? = some e := by
  induction map generalizing p with
  | nil => cases h
  | cons a as ih =>
    unfold findEntry at h
    split at h
    · rename_i hc
      cases h
      exact ⟨hc, 0, rfl, rfl⟩
    · obtain ⟨hc, k, hq, hk⟩ := ih h
      exact ⟨hc, k + 1, by omega, hk⟩

theorem findEntry_none {item p : Nat} {map : List MapEntry} (h : findEntry item p map = none) :
    ∀ e ∈ map, e.covers item = false := by
  induction map generalizing p with
  | nil => exact fun e he => nomatch he
  | cons a as ih =>
    unfold findEntry at h
    split at h
    · cases h
    · rename_i hc
      exact List.forall_mem_cons.2 ⟨by simpa using hc, ih h⟩

/-! ## Lookup (R10) -/

/-- A segment of the map: at least one item, all inside the entry at its position, from that entry's
register on. -/
structure Segment.inMap (map : List MapEntry) (g : Segment) : Prop where
  count : 1 ≤ g.count
  entry : map[g.mapPosition]? = some g.entry
  base : g.entry.base ≤ g.first
  last : g.first + g.count ≤ g.entry.base + g.entry.length
  register : g.register = g.entry.remote + (g.first - g.entry.base)

/-- The items that an entry found for `item` still holds make a segment of the map. -/
theorem segmentAt_inMap {map : List MapEntry} {item p n : Nat} {e : MapEntry}
    (h : findEntry item 0 map = some (p, e)) (hpos : 1 ≤ n) (hn : n ≤ e.base + e.length - item)
    (offset : Nat) : (segmentAt p e item n offset).inMap map := by
  obtain ⟨hc, k, hp, hk⟩ := findEntry_some h
  obtain ⟨hbase, hlast⟩ := (e.covers_iff item).1 hc
  obtain rfl : p = k := by omega
  exact ⟨hpos, hk, hbase, by simp only [segmentAt]; omega, rfl⟩

/-- Segments that follow one another from `item` on, each with its offset from `origin`. -/
def Chained (origin : Nat) : Nat → List Segment → Prop
  | _, [] => True
  | item, g :: gs =>
    g.first = item ∧ g.offset = item - origin ∧ Chained origin (item + g.count) gs

theorem Chained.getElem? {origin item j : Nat} {segments : List Segment} {g : Segment}
    (h : Chained origin item segments) (hg : segments[j]? = some g) :
    g.first = item + ((segments.take j).map Segment.count).sum ∧ g.offset = g.first - origin := by
  induction segments generalizing item j with
  | nil => cases hg
  | cons a as ih =>
    obtain ⟨hfirst, hoffset, hrest⟩ := h
    cases j with
    | zero => cases hg; exact ⟨hfirst, hfirst ▸ hoffset⟩
    | succ j =>
      obtain ⟨hf, ho⟩ := ih hrest hg
      refine ⟨?_, ho⟩
      simp only [List.take_succ_cons, List.map_cons, List.sum_cons]
      omega

/-- A lookup that succeeds gives segments of the map, one after the other, that hold the whole run. -/
theorem lookupRun_ok {map : List MapEntry} {origin fuel item left : Nat} {segments : List Segment}
    (hfuel : left ≤ fuel) (h : lookupRun map origin fuel item left = .ok segments) :
    (segments.map Segment.count).sum = left ∧ (∀ g ∈ segments, g.inMap map) ∧
      Chained origin item segments := by
  induction fuel generalizing item left segments with
  | zero =>
    obtain rfl : left = 0 := by omega
    cases h
    exact ⟨rfl, fun g hg => (nomatch hg), trivial⟩
  | succ fuel ih =>
    unfold lookupRun at h
    split at h
    · cases h
      exact ⟨‹left = 0›.symm, fun g hg => (nomatch hg), trivial⟩
    · split at h
      · cases h
      · rename_i p e hfind
        obtain ⟨hbase, hlast⟩ := (e.covers_iff item).1 (findEntry_some hfind).1
        simp only at h
        split at h
        · cases h
        · rename_i rest hrest
          cases h
          obtain ⟨hsum, hin, hchain⟩ := ih (by omega) hrest
          refine ⟨?_, List.forall_mem_cons.2
            ⟨segmentAt_inMap hfind (by omega) (Nat.min_le_right _ _) _, hin⟩, rfl, rfl, hchain⟩
          rw [List.map_cons, List.sum_cons, hsum]
          simp only [segmentAt]
          omega

/-- A lookup that fails stops at the first item of the run that no entry covers. -/
theorem lookupRun_error {map : List MapEntry} {origin fuel item left hole : Nat}
    (h : lookupRun map origin fuel item left = .error hole) :
    item ≤ hole ∧ hole < item + left ∧ (∀ e ∈ map, e.covers hole = false) ∧
      ∀ i, item ≤ i → i < hole → ∃ e ∈ map, e.covers i = true := by
  induction fuel generalizing item left with
  | zero => cases h
  | succ fuel ih =>
    unfold lookupRun at h
    split at h
    · cases h
    · split at h
      · rename_i hfind
        cases h
        exact ⟨le_rfl, by omega, findEntry_none hfind, fun i h1 h2 => by omega⟩
      · rename_i p e hfind
        obtain ⟨hc, k, -, hk⟩ := findEntry_some hfind
        obtain ⟨hbase, hlast⟩ := (e.covers_iff item).1 hc
        simp only at h
        split at h
        · rename_i hrest
          cases h
          obtain ⟨hlow, hhigh, hhole, hbefore⟩ := ih hrest
          refine ⟨by omega, by omega, hhole, fun i h1 h2 => ?_⟩
          by_cases hi : i < item + min left (e.base + e.length - item)
          · exact ⟨e, List.mem_of_getElem? hk, (e.covers_iff i).2 ⟨by omega, by omega⟩⟩
          · exact hbefore i (by omega) h2
        · cases h

/-- A lookup of pairs that succeeds gives a segment of the map of one item for each pair, from pair
`index` on. -/
theorem lookupPairs_ok {map : List MapEntry} {index : Nat} {items : List Nat}
    {segments : List Segment} (h : lookupPairs map index items = .ok segments) :
    segments.map Segment.first = items ∧ ∀ (j : Nat) (g : Segment), segments[j]? = some g →
      g.count = 1 ∧ g.offset = index + j ∧ g.inMap map := by
  induction items generalizing index segments with
  | nil => cases h; exact ⟨rfl, fun j g hg => nomatch hg⟩
  | cons item items ih =>
    unfold lookupPairs at h
    split at h
    · cases h
    · rename_i p e hfind
      obtain ⟨hbase, hlast⟩ := (e.covers_iff item).1 (findEntry_some hfind).1
      split at h
      · cases h
      · rename_i rest hrest
        cases h
        obtain ⟨hfirst, hseg⟩ := ih hrest
        refine ⟨congrArg (item :: ·) hfirst, fun j g hg => ?_⟩
        cases j with
        | zero => cases hg; exact ⟨rfl, rfl, segmentAt_inMap hfind le_rfl (by omega) _⟩
        | succ j =>
          obtain ⟨hcount, hoffset, hin⟩ := hseg j g hg
          exact ⟨hcount, by omega, hin⟩

/-- A lookup of pairs that fails stops at the first pair whose item no entry covers. -/
theorem lookupPairs_error {map : List MapEntry} {index hole : Nat} {items : List Nat}
    (h : lookupPairs map index items = .error hole) :
    ∃ j : Nat, items[j]? = some hole ∧ (∀ e ∈ map, e.covers hole = false) ∧
      ∀ item ∈ items.take j, ∃ e ∈ map, e.covers item = true := by
  induction items generalizing index with
  | nil => cases h
  | cons item items ih =>
    unfold lookupPairs at h
    split at h
    · rename_i hfind
      cases h
      exact ⟨0, rfl, findEntry_none hfind, fun i hi => nomatch hi⟩
    · rename_i p e hfind
      obtain ⟨hc, k, -, hk⟩ := findEntry_some hfind
      split at h
      · rename_i hrest
        cases h
        obtain ⟨j, hj, hhole, hbefore⟩ := ih hrest
        exact ⟨j + 1, hj, hhole,
          List.forall_mem_cons.2 ⟨⟨e, List.mem_of_getElem? hk, hc⟩, hbefore⟩⟩
      · cases h

/-- Settles O16, by induction on the fuel of a run's lookup and on the items of a list of pairs. -/
theorem lookupCoversTheRun : Obligations.LookupCoversTheRun := by
  refine ⟨fun map origin item n => ⟨fun segments h => ?_, fun hole h => lookupRun_error h⟩,
    fun map items => ⟨fun segments h => ?_, fun hole h => lookupPairs_error h⟩⟩
  · obtain ⟨hsum, hin, hchain⟩ := lookupRun_ok le_rfl h
    refine ⟨hsum, fun j g hg => ?_⟩
    obtain ⟨hcount, hentry, hbase, hlast, hregister⟩ := hin g (List.mem_of_getElem? hg)
    obtain ⟨hfirst, hoffset⟩ := hchain.getElem? hg
    exact ⟨hfirst, hcount, hentry, hbase, hlast, hregister, hoffset⟩
  · obtain ⟨hfirst, hseg⟩ := lookupPairs_ok h
    refine ⟨hfirst, fun j g hg => ?_⟩
    obtain ⟨hcount, hoffset, -, hentry, hbase, hlast, hregister⟩ := hseg j g hg
    exact ⟨hcount, by omega, hentry, hbase, by omega, hregister⟩

/-! ## The legs of a segment (R12) -/

@[simp] theorem cutSegment_length (d : Direction) (g : Segment) (values : List Word) :
    (cutSegment d g values).length = legsOf g.count := by
  simp [cutSegment]

theorem cutSegment_getElem? {d : Direction} {g : Segment} {values : List Word} {m : Nat} {q : LegPlan}
    (h : (cutSegment d g values)[m]? = some q) : m < legsOf g.count ∧ q = legOf d g values m := by
  obtain ⟨hm, rfl⟩ := List.getElem?_eq_some_iff.1 h
  exact ⟨by simpa using hm, by simp [cutSegment]⟩

/-- The first `k` legs hold the first `60 * k` registers of the segment, or all of them. -/
theorem sum_legOf_count (d : Direction) (g : Segment) (values : List Word) (k : Nat) :
    (((List.range k).map (legOf d g values)).map LegPlan.count).sum = min g.count (60 * k) := by
  induction k with
  | zero => simp
  | succ k ih =>
    simp only [List.range_succ, List.map_append, List.sum_append, ih, List.map_cons, List.map_nil,
      List.sum_singleton, legOf]
    omega

/-- Settles O17: leg `m` holds the 60 registers from `60 * m` on, or what is left of them. -/
theorem segmentIsCutIntoLegs : Obligations.SegmentIsCutIntoLegs := by
  refine fun d g values => ⟨cutSegment_length d g values, ?_, fun m q h => ?_⟩
  · rw [cutSegment, sum_legOf_count, legsOf]
    omega
  · obtain ⟨hm, rfl⟩ := cutSegment_getElem? h
    simp only [cutSegment_length, legsOf, legOf, and_self, and_true] at hm ⊢
    omega

end Sys2Proof.Machine
end

section
/-!
SUPPORT. Conversion of values (R15 to R21): clamping as a minimum and a maximum, and that without a scale
what a store writes reads back, for one register, for one element and for a list of either.
-/

namespace Sys2Proof.Machine

/-! ## Clamping (R17) -/

theorem clampTo_eq {lo hi : Int} (h : lo ≤ hi) (x : Int) :
    clampTo (lo, hi) x = (max lo (min hi x), decide (x < lo) || decide (hi < x)) := by
  unfold clampTo
  split
  · grind
  · split <;> grind

theorem hostValue_scaled {e : MapEntry} {c : Scale} (h : e.scale = some c) (remote : Int) :
    hostValue e remote = clampTo (hostRange e.type) (scaleRead c remote) := by
  simp only [hostValue, h]

theorem hostValue_unscaled {e : MapEntry} (h : e.scale = none) (remote : Int) :
    hostValue e remote = (remote, false) := by
  simp only [hostValue, h]

/-- Settles O19: the range of the type decides the bounds of the clamp. -/
theorem scaledReadsTruncateAndClamp : Obligations.ScaledReadsTruncateAndClamp := by
  refine ⟨fun e c remote hc => ?_, fun e d ht => if_pos ht⟩
  have clamps : ∀ {lo hi : Int}, hostRange e.type = (lo, hi) → lo ≤ hi →
      hostValue e remote = (max lo (min hi (scaleRead c remote)),
        decide (scaleRead c remote < lo) || decide (hi < scaleRead c remote)) := by
    intro lo hi hr hle
    rw [hostValue_scaled hc, hr, clampTo_eq hle]
  refine ⟨?_, ?_, ?_, ?_⟩
  · rintro (ht | ht) <;> exact clamps (by rw [ht]; rfl) (by decide)
  · rintro (ht | ht) <;> exact clamps (by rw [ht]; rfl) (by decide)
  · exact fun ht => clamps (by rw [ht]; rfl) (by decide)
  · exact fun ht => clamps (by rw [ht]; rfl) (by decide)

/-! ## One register and one element without a scale (R15, R16, R19 to R21) -/

theorem remoteValue_unscaled {e : MapEntry} (h : e.scale = none) (host : Int) :
    remoteValue e host = host := by
  simp only [remoteValue, h]

theorem inRemoteRange_iff (t : RemoteType) (x : Int) :
    inRemoteRange t x = true ↔ (remoteRange t).1 ≤ x ∧ x ≤ (remoteRange t).2 := by
  simp [inRemoteRange]

/-- The number that a host word of an 8- or 16-bit type stands for. -/
def hostNumber (t : RemoteType) (w : Word) : Int := if t.signed then w.toInt else w.toNat

theorem ofInt_hostNumber (t : RemoteType) (w : Word) : BitVec.ofInt 16 (hostNumber t w) = w := by
  unfold hostNumber
  split <;> simp

theorem ofInt_elementNumber (t : RemoteType) (d : DWord) :
    BitVec.ofInt 32 (elementNumber t d) = d := by
  unfold elementNumber
  split <;> simp

/-- A number in the range of its type reads back from the register pattern that holds it. -/
theorem registerNumber_registerPattern {t : RemoteType} {w : Word} (hw : t.wide = false)
    (h : inRemoteRange t (hostNumber t w) = true) :
    registerNumber t (registerPattern t (hostNumber t w)) = hostNumber t w := by
  rw [inRemoteRange_iff] at h
  cases t with
  | u8 =>
    simp only [remoteRange] at h
    simp only [registerNumber, registerPattern, lowByte_wordOf, BitVec.toNat_ofInt]
    omega
  | s8 =>
    simp only [remoteRange] at h
    simp only [registerNumber, registerPattern, lowByte_wordOf, BitVec.toInt_ofInt]
    rw [Int.bmod_eq_of_le] <;> omega
  | u16 => simp only [registerNumber, registerPattern, ofInt_hostNumber]; rfl
  | s16 => simp only [registerNumber, registerPattern, ofInt_hostNumber]; rfl
  | u32 | s32 | f32 => cases hw

theorem storeRegister_unscaled {e : MapEntry} (h : e.scale = none) (w : Word) :
    storeRegister e w = if inRemoteRange e.type (hostNumber e.type w) then
      some (registerPattern e.type (hostNumber e.type w)) else none := by
  unfold storeRegister
  rw [remoteValue_unscaled h]
  rfl

theorem readRegister_storeRegister {e : MapEntry} {w r : Word} (hs : e.scale = none)
    (hw : e.type.wide = false) (h : storeRegister e w = some r) : readRegister e r = (w, false) := by
  rw [storeRegister_unscaled hs] at h
  split at h
  · rename_i hr
    cases h
    simp only [readRegister, hostValue_unscaled hs, registerNumber_registerPattern hw hr,
      ofInt_hostNumber]
  · cases h

theorem readElement_storeElement {e : MapEntry} {d r : DWord} (hs : e.scale = none)
    (h : storeElement e d = some r) : readElement e r = (d, false) := by
  unfold storeElement at h
  split at h
  · rename_i ht
    cases h
    exact if_pos ht
  · rename_i ht
    simp only [remoteValue_unscaled hs, ofInt_elementNumber] at h
    split at h
    · cases h
      simp [readElement, ht, hostValue_unscaled hs, ofInt_elementNumber]
    · cases h

theorem joinHalves_splitHalves (o : WordOrder) (d : DWord) :
    joinHalves o (splitHalves o d).1 (splitHalves o d).2 = d := by
  cases o <;> exact dwordOf_high_low d

/-! ## Lists of registers and of elements (R15 to R21) -/

theorem readRegisters_storeRegisters {e : MapEntry} (hs : e.scale = none) (hw : e.type.wide = false)
    {k : Nat} {values registers : List Word} (h : storeRegisters e k values = .ok registers) :
    readRegisters e registers = (values, false) := by
  induction values generalizing k registers with
  | nil => cases h; rfl
  | cons w ws ih =>
    unfold storeRegisters at h
    split at h
    · cases h
    · rename_i r hr
      split at h
      · cases h
      · rename_i rs hrs
        cases h
        simp [readRegisters, readRegister_storeRegister hs hw hr, ih hrs]

theorem readElements_storeElements {e : MapEntry} (hs : e.scale = none) {k : Nat}
    {values registers : List Word} (heven : values.length % 2 = 0)
    (h : storeElements e k values = .ok registers) : readElements e registers = (values, false) := by
  induction values using List.twoStepInduction generalizing k registers with
  | nil => cases h; rfl
  | singleton w => simp at heven
  | cons_cons high low rest ih _ =>
    unfold storeElements at h
    split at h
    · cases h
    · rename_i d hd
      split at h
      · cases h
      · rename_i rs hrs
        cases h
        have hrest := ih (by simp only [List.length_cons] at heven; omega) hrs
        simp [readElements, joinHalves_splitHalves, readElement_storeElement hs hd, hrest,
          highWord_dwordOf, lowWord_dwordOf]

/-- Settles O20, register by register or element by element as the type is. -/
theorem unscaledStoreReadsBack : Obligations.UnscaledStoreReadsBack := by
  intro e values registers hs heven h
  unfold convertStore at h
  unfold convertRead
  cases hw : e.type.wide with
  | true =>
    rw [hw] at h heven
    exact readElements_storeElements hs (heven rfl) h
  | false =>
    rw [hw] at h
    exact readRegisters_storeRegisters hs hw h

end Sys2Proof.Machine
end

section
/-!
SUPPORT. The request table and the leg pool (R24, R26, R28): the free slots and records, the law of the two
in terms of the slot that a record is held for, and that every elementary update of a step keeps it.
-/

namespace Sys2Proof.Machine

/-! ## Free slots and free records (R24, R28) -/

theorem mem_freeRecords {s : State} {i : Nat} :
    i ∈ s.freeRecords ↔ i < 64 ∧ s.legs.get i = none := by
  simp [State.freeRecords]

theorem freeRecords_nodup (s : State) : s.freeRecords.Nodup := List.nodup_range.filter _

theorem freeSlot_spec {s : State} {k : Nat} (h : s.freeSlot = some k) :
    k < 8 ∧ s.slots.get k = none := by
  refine ⟨List.mem_range.1 (List.mem_of_find?_eq_some h), ?_⟩
  simpa using List.find?_some h

theorem tag_ne_of_slotOf_none {s : State} {source tag : Byte} (h : s.slotOf source tag = none) {k : Nat}
    {r : Request} (hr : s.slots.get k = some r) (hs : r.source = source) : r.tag ≠ tag := by
  simpa [hs] using List.find?_eq_none.1 h _ (Sparse.mem_of_get hr)

/-- The records bound to the legs of a plan are free ones, each bound once (R28). -/
theorem bound_free {s : State} (plans : List LegPlan) :
    ((s.freeRecords.zip plans).map Prod.fst).Nodup ∧
      ∀ b ∈ s.freeRecords.zip plans, b.1 < 64 ∧ s.legs.get b.1 = none := by
  refine ⟨?_, fun b hb => mem_freeRecords.1 (List.of_mem_zip (a := b.1) (b := b.2) hb).1⟩
  rw [List.zip_eq_zip_take_min, List.map_fst_zip (by simp)]
  exact (freeRecords_nodup s).sublist (List.take_sublist _ _)

/-! ## The law of the request table, by holders -/

/-- The slot that a record is held for (R28, R41). -/
def State.holder (s : State) (i : Nat) : Option Nat := (s.legs.get i).map Leg.owner

/-- What the request table knows a request by: its station, its tag and its leg list. -/
def Request.seat (r : Request) : Byte × Byte × List Nat := (r.source, r.tag, r.legs)

theorem Request.sameSeat.seat {r q : Request} (h : r.sameSeat q) : q.seat = r.seat := by
  obtain ⟨-, hs, ht, hl⟩ := h
  simp only [Request.seat, hs, ht, hl]

/-- A record is held for a slot exactly when the slot lists it (R28). -/
theorem RequestLaw.holder_iff {s : State} (h : RequestLaw s) (i k : Nat) :
    s.holder i = some k ↔ ∃ r, s.slots.get k = some r ∧ i ∈ r.legs := by
  unfold State.holder
  constructor
  · intro hk
    obtain ⟨g, hg, rfl⟩ := Option.map_eq_some_iff.1 hk
    exact h.owned i g hg
  · rintro ⟨r, hr, hi⟩
    obtain ⟨g, hg, ho⟩ := (h.listed k r hr).2 i hi
    rw [hg, Option.map_some, ho]

theorem RequestLaw.of_holder {s : State} (slots : sparseWf 8 s.slots = true)
    (records : sparseWf 64 s.legs = true)
    (tags : ∀ j k q r, s.slots.get j = some q → s.slots.get k = some r →
      q.source = r.source → q.tag = r.tag → j = k)
    (nodup : ∀ k r, s.slots.get k = some r → r.legs.Nodup)
    (agree : ∀ i k, s.holder i = some k ↔ ∃ r, s.slots.get k = some r ∧ i ∈ r.legs) :
    RequestLaw s where
  slots := slots
  records := records
  tags := tags
  owned i g hg := (agree i g.owner).1 (by rw [State.holder, hg, Option.map_some])
  listed k r hr := ⟨nodup k r hr, fun i hi => by
    simpa [State.holder] using (agree i k).2 ⟨r, hr, hi⟩⟩

/-- The law speaks of nothing but seats and holders. -/
theorem RequestLaw.of_seats {s t : State} (h : RequestLaw s) (slots : sparseWf 8 t.slots = true)
    (records : sparseWf 64 t.legs = true)
    (seats : ∀ k, (t.slots.get k).map Request.seat = (s.slots.get k).map Request.seat)
    (holders : ∀ i, t.holder i = s.holder i) : RequestLaw t := by
  have back : ∀ {k r}, t.slots.get k = some r →
      ∃ q, s.slots.get k = some q ∧ q.seat = r.seat := by
    intro k r hr
    have hk := seats k
    rw [hr, Option.map_some] at hk
    exact Option.map_eq_some_iff.1 hk.symm
  have forth : ∀ {k q}, s.slots.get k = some q →
      ∃ r, t.slots.get k = some r ∧ r.seat = q.seat := by
    intro k q hq
    have hk := seats k
    rw [hq, Option.map_some] at hk
    exact Option.map_eq_some_iff.1 hk
  simp only [Request.seat, Prod.mk.injEq] at back forth
  refine .of_holder slots records ?_ ?_ fun i k => ?_
  · intro j k q r hq hr hs ht
    obtain ⟨q', hq', hqs, hqt, -⟩ := back hq
    obtain ⟨r', hr', hrs, hrt, -⟩ := back hr
    exact h.tags j k q' r' hq' hr' (by rw [hqs, hrs, hs]) (by rw [hqt, hrt, ht])
  · intro k r hr
    obtain ⟨q, hq, -, -, hl⟩ := back hr
    exact hl ▸ (h.listed k q hq).1
  · rw [holders, h.holder_iff]
    constructor
    · rintro ⟨q, hq, hi⟩
      obtain ⟨r, hr, -, -, hl⟩ := forth hq
      exact ⟨r, hr, hl ▸ hi⟩
    · rintro ⟨r, hr, hi⟩
      obtain ⟨q, hq, -, -, hl⟩ := back hr
      exact ⟨q, hq, hl ▸ hi⟩

/-- An update that touches neither slots nor legs keeps the law. -/
theorem RequestLaw.congr {s t : State} (h : RequestLaw s) (slots : t.slots = s.slots)
    (legs : t.legs = s.legs) : RequestLaw t :=
  h.of_seats (slots ▸ h.slots) (legs ▸ h.records) (fun k => by rw [slots])
    (fun i => by rw [State.holder, State.holder, legs])

theorem RequestLaw.of_empty {s : State} (slots : s.slots = []) (legs : s.legs = []) : RequestLaw s :=
  .of_holder (by rw [slots]; rfl) (by rw [legs]; rfl) (by simp [slots]) (by simp [slots])
    (by simp [slots, legs, State.holder])

/-! ## Updates that keep every seat -/

theorem RequestLaw.putSlot {s : State} (h : RequestLaw s) {k : Nat} {r q : Request}
    (hr : s.slots.get k = some r) (hq : q.seat = r.seat) : RequestLaw (s.putSlot k q) := by
  refine h.of_seats (sparseWf_put (Sparse.key_lt_of_get h.slots hr) h.slots) h.records (fun j => ?_)
    fun _ => rfl
  rw [State.putSlot, Sparse.get_put]
  split
  · rename_i hj
    rw [hj, hr, Option.map_some, Option.map_some, hq]
  · rfl

theorem RequestLaw.putLeg {s : State} (h : RequestLaw s) {i : Nat} {g x : Leg}
    (hg : s.legs.get i = some g) (hx : x.owner = g.owner) : RequestLaw (s.putLeg i x) := by
  refine h.of_seats h.slots (sparseWf_put (Sparse.key_lt_of_get h.records hg) h.records)
    (fun _ => rfl) fun j => ?_
  rw [State.holder, State.putLeg, Sparse.get_put]
  split
  · rename_i hj
    rw [State.holder, hj, hg, Option.map_some, Option.map_some, hx]
  · rfl

theorem RequestLaw.modLeg {s : State} (h : RequestLaw s) (i : Nat) {f : Leg → Leg}
    (hf : ∀ g, (f g).owner = g.owner) : RequestLaw (s.modLeg i f) := by
  refine h.of_seats h.slots (sparseWf_modify h.records) (fun _ => rfl) fun j => ?_
  rw [State.holder, State.modLeg, Sparse.get_modify]
  split
  · rw [Option.map_map]
    exact Option.map_congr fun g _ => hf g
  · rfl

theorem RequestLaw.completeIfDone {s : State} (h : RequestLaw s) (k : Nat) :
    RequestLaw (s.completeIfDone k) := by
  rcases completeIfDone_cases s k with ⟨r, hr, -, -, hc⟩ | ⟨hc, -⟩
  · rw [hc]
    exact (h.putSlot (q := { r with phase := .replying }) hr rfl).congr rfl rfl
  · rw [hc]
    exact h

/-! ## Records that return to the pool (R28, R42, R57) -/

/-- A leg leaves its slot's leg list and the pool. -/
theorem RequestLaw.cancelLeg {s : State} (h : RequestLaw s) {k i : Nat}
    (hi : s.legs.get i = none ∨ ∃ r, s.slots.get k = some r ∧ i ∈ r.legs) :
    RequestLaw (State.cancelLeg k s i) := by
  rcases cancelLeg_cases k s i with ⟨-, hc⟩ | ⟨g, hg, hc⟩
  · rw [hc]
    exact h
  rw [hc]
  have hk : s.holder i = some k := (h.holder_iff i k).2 (hi.resolve_left (by simp [hg]))
  have slot : ∀ j q, (s.slots.modify k (fun r =>
      { r with legs := r.legs.filter (fun m => m != i) })).get j = some q →
      ∃ r, s.slots.get j = some r ∧ q.source = r.source ∧ q.tag = r.tag ∧ q.legs.Sublist r.legs := by
    intro j q hq
    rw [Sparse.get_modify] at hq
    split at hq
    · obtain ⟨r, hr, rfl⟩ := Option.map_eq_some_iff.1 hq
      exact ⟨r, hr, rfl, rfl, List.filter_sublist⟩
    · exact ⟨q, hq, rfl, rfl, .refl _⟩
  refine .of_holder (sparseWf_modify h.slots) (sparseWf_del h.records) ?_ ?_ fun j m => ?_
  · intro a b q r hq hr hs ht
    obtain ⟨q', hq', hqs, hqt, -⟩ := slot a q hq
    obtain ⟨r', hr', hrs, hrt, -⟩ := slot b r hr
    exact h.tags a b q' r' hq' hr' (by rw [← hqs, ← hrs, hs]) (by rw [← hqt, ← hrt, ht])
  · intro a r hr
    obtain ⟨r', hr', -, -, hl⟩ := slot a r hr
    exact (h.listed a r' hr').1.sublist hl
  · have hj := h.holder_iff j m
    simp only [State.holder, Sparse.get_del, Sparse.get_modify] at hj hk ⊢
    by_cases hji : j = i
    · subst hji
      by_cases hm : m = k
      · simp [hm]
      · rw [hk] at hj
        simpa [hm, Ne.symm hm] using hj
    · rw [if_neg hji, hj]
      by_cases hm : m = k
      · subst hm
        simp [hji]
      · simp [hm]

/-- A slot goes FREE and its records return to the pool. -/
theorem RequestLaw.releaseSlot {s : State} (h : RequestLaw s) (k : Nat) :
    RequestLaw (s.releaseSlot k) := by
  rcases releaseSlot_cases s k with ⟨-, hc⟩ | ⟨r, hr, hc⟩
  · rw [hc]
    exact h
  rw [hc]
  have slot : ∀ j q, (s.slots.del k).get j = some q → s.slots.get j = some q := by
    intro j q hq
    rw [Sparse.get_del] at hq
    split at hq
    · cases hq
    · exact hq
  refine .of_holder (sparseWf_del h.slots) (sparseWf_sublist List.filter_sublist h.records)
    (fun a b q x hq hx => h.tags a b q x (slot a q hq) (slot b x hx))
    (fun a q hq => (h.listed a q (slot a q hq)).1) fun j m => ?_
  have hj := h.holder_iff j m
  have hk := h.holder_iff j k
  simp only [State.holder] at hj hk ⊢
  rw [Sparse.get_filter_key (fun i => !r.legs.contains i), Sparse.get_del]
  by_cases hl : j ∈ r.legs
  · have ho := hk.2 ⟨r, hr, hl⟩
    rw [ho] at hj
    by_cases hm : m = k
    · simp [hl, hm]
    · simpa [hl, hm, Ne.symm hm] using hj
  · by_cases hm : m = k
    · subst hm
      simpa [hl, hr] using hj
    · simpa [hl, hm] using hj

end Sys2Proof.Machine
end

section
/-!
SUPPORT. Admission and the request table (R24 to R28, R30 to R40): what a plan that passes the checks says,
what serving mirror segments leaves alone, how an admitted request fills its records, and that every step
keeps the law of the request table.
-/

namespace Sys2Proof.Machine

/-! ## A plan that passes the checks (R30) -/

/-- An admitted request passes the eleven checks. -/
theorem admission_ok {s : State} {kind : RequestKind} {f : Frame} {p : Plan}
    (h : s.admission kind f = .ok p) :
    ∃ d segments, lookup s.active.map kind d = .ok segments ∧ s.planFor kind d segments = .ok p ∧
      s.roomFor f p = none := by
  unfold State.admission at h
  simp only [] at h
  split at h
  · cases h
  · split at h
    · cases h
    · rename_i d _
      split at h
      · cases h
      · split at h
        · cases h
        · rename_i segments hl
          split at h
          · cases h
          · split at h
            · cases h
            · split at h
              · cases h
              · rename_i q hp
                split at h
                · cases h
                · rename_i hroom
                  cases h
                  exact ⟨d, segments, hl, hp, hroom⟩

/-- Checks 8, 9 and 11. -/
theorem roomFor_none {s : State} {f : Frame} {p : Plan} (h : s.roomFor f p = none) :
    p.legs.length ≤ 64 ∧ s.slotOf f.source f.tag = none ∧ p.legs.length ≤ s.freeRecords.length := by
  unfold State.roomFor at h
  split at h
  · cases h
  · split at h
    · cases h
    · rename_i h8 h9
      split at h
      · cases h
      · split at h
        · cases h
        · rename_i h11
          exact ⟨by omega, by simpa using h9, by omega⟩

/-- A frame's dispatch changes nothing that admission reads. -/
theorem frameTaken_admission (s : State) (kind : RequestKind) (f : Frame) :
    s.frameTaken.admission kind f = s.admission kind f := rfl

/-! ## Serving the mirror segments (R37) -/

theorem Request.offer_eq (r : Request) (f : Failure) :
    r.offer f = { r with failure := (r.offer f).failure } := by
  rcases offer_cases r f with ⟨-, h⟩ | ⟨-, h⟩ <;> rw [h]

theorem serveSegment_eq (s : State) (r : Request) (g : Segment) :
    s.serveSegment r g = { r with
      buffer := (s.serveSegment r g).buffer
      stale := (s.serveSegment r g).stale
      clamped := (s.serveSegment r g).clamped
      failure := (s.serveSegment r g).failure } := by
  unfold State.serveSegment
  simp only []
  split
  · rw [Request.offer_eq]
  · rfl

/-- Serving fills the buffer, sets the flags and offers NO_DATA points, and nothing else. -/
theorem served_eq (s : State) (segments : List Segment) (r : Request) :
    segments.foldl s.serveSegment r = { r with
      buffer := (segments.foldl s.serveSegment r).buffer
      stale := (segments.foldl s.serveSegment r).stale
      clamped := (segments.foldl s.serveSegment r).clamped
      failure := (segments.foldl s.serveSegment r).failure } := by
  induction segments generalizing r with
  | nil => rfl
  | cons g segments ih =>
    rw [List.foldl_cons, ih, serveSegment_eq]

/-! ## Filling the records (R28, R38, R39) -/

/-- From `s` on, records that were free have been filled for a slot, listed in order. -/
structure Filled (s t : State) (slot : Nat) (ids : List Nat) : Prop where
  slots : t.slots = s.slots
  records : sparseWf 64 s.legs = true → sparseWf 64 t.legs = true
  nodup : ids.Nodup
  free : ∀ i ∈ ids, s.legs.get i = none
  holders : ∀ i, t.holder i = if i ∈ ids then some slot else s.holder i

theorem Filled.refl (s : State) (slot : Nat) : Filled s s slot [] :=
  ⟨rfl, id, .nil, by simp, by simp⟩

/-- One record more. -/
theorem Filled.put {s t u : State} {slot i : Nat} {ids : List Nat} {g : Leg}
    (h : Filled s t slot ids) (hi : i < 64) (hf : s.legs.get i = none) (hn : i ∉ ids)
    (ho : g.owner = slot) (hs : u.slots = t.slots) (hl : u.legs = t.legs.put i g) :
    Filled s u slot (ids ++ [i]) where
  slots := hs.trans h.slots
  records hw := hl ▸ sparseWf_put hi (h.records hw)
  nodup := List.nodup_append.2 ⟨h.nodup, List.nodup_singleton i, by
    rintro a ha b hb rfl
    exact hn (List.mem_singleton.1 hb ▸ ha)⟩
  free j hj := by
    rcases List.mem_append.1 hj with hj | hj
    · exact h.free j hj
    · rw [List.mem_singleton.1 hj, hf]
  holders j := by
    have hj := h.holders j
    simp only [State.holder] at hj ⊢
    rw [hl, Sparse.get_put]
    by_cases hji : j = i
    · simp [hji, ho]
    · simp [hji, hj]

/-- Taking the legs of a FETCH one by one fills a record for each that is not beyond a failure. -/
theorem Filled.fetchLegs {s : State} {slot : Nat} : ∀ (bound : List (Nat × LegPlan)) {t : State}
    {r : Request}, Filled s t slot r.legs → (bound.map Prod.fst).Nodup →
    (∀ b ∈ bound, b.1 < 64 ∧ s.legs.get b.1 = none) → (∀ b ∈ bound, b.1 ∉ r.legs) →
    Filled s (bound.foldl (admitFetchLeg slot) (t, r)).1 slot
        (bound.foldl (admitFetchLeg slot) (t, r)).2.legs ∧
      (bound.foldl (admitFetchLeg slot) (t, r)).2.source = r.source ∧
      (bound.foldl (admitFetchLeg slot) (t, r)).2.tag = r.tag
  | [], _, _, h, _, _, _ => ⟨h, rfl, rfl⟩
  | (i, p) :: bound, t, r, h, hd, hf, hn => by
    obtain ⟨hi, hd⟩ := List.nodup_cons.1 hd
    obtain ⟨⟨hlt, hfree⟩, hf⟩ := List.forall_mem_cons.1 hf
    obtain ⟨hnew, hn⟩ := List.forall_mem_cons.1 hn
    have grown : ∀ b ∈ bound, b.1 ∉ r.legs ++ [i] := by
      intro b hb hm
      rcases List.mem_append.1 hm with hm | hm
      · exact hn b hb hm
      · exact hi (List.mem_map.2 ⟨b, hb, List.mem_singleton.1 hm⟩)
    simp only [List.foldl_cons, admitFetchLeg]
    split
    · exact fetchLegs bound h hd hf hn
    · split
      · rw [Request.offer_eq]
        exact fetchLegs bound (r := { r with legs := r.legs ++ [i], failure := _ })
          (h.put hlt hfree hnew rfl rfl rfl) hd hf grown
      · exact fetchLegs bound (r := { r with legs := r.legs ++ [i] })
          (h.put hlt hfree hnew rfl rfl rfl) hd hf grown

/-- Holding the further legs of a store fills a record for each. -/
theorem Filled.holdLegs {s : State} {slot : Nat} : ∀ (bound : List (Nat × LegPlan)) {t : State}
    {ids : List Nat}, Filled s t slot ids → (bound.map Prod.fst).Nodup →
    (∀ b ∈ bound, b.1 < 64 ∧ s.legs.get b.1 = none) → (∀ b ∈ bound, b.1 ∉ ids) →
    Filled s (bound.foldl (State.holdLegs slot) t) slot (ids ++ bound.map Prod.fst)
  | [], _, _, h, _, _, _ => by simpa using h
  | b :: bound, t, ids, h, hd, hf, hn => by
    obtain ⟨hi, hd⟩ := List.nodup_cons.1 hd
    obtain ⟨⟨hlt, hfree⟩, hf⟩ := List.forall_mem_cons.1 hf
    obtain ⟨hnew, hn⟩ := List.forall_mem_cons.1 hn
    have grown : ∀ c ∈ bound, c.1 ∉ ids ++ [b.1] := by
      intro c hc hm
      rcases List.mem_append.1 hm with hm | hm
      · exact hn c hc hm
      · exact hi (List.mem_map.2 ⟨c, hc, List.mem_singleton.1 hm⟩)
    have h1 : Filled s (State.holdLegs slot t b) slot (ids ++ [b.1]) :=
      h.put hlt hfree hnew rfl rfl rfl
    rw [List.foldl_cons, List.map_cons, List.append_cons]
    exact holdLegs bound h1 hd hf grown

/-- Taking the legs of a store fills the first record, or all of them. -/
theorem Filled.storeLegs (s : State) (slot : Nat) (r : Request) (hr : r.legs = [])
    {bound : List (Nat × LegPlan)} (hd : (bound.map Prod.fst).Nodup)
    (hf : ∀ b ∈ bound, b.1 < 64 ∧ s.legs.get b.1 = none) :
    Filled s (admitStoreLegs slot s r bound).1 slot (admitStoreLegs slot s r bound).2.legs ∧
      (admitStoreLegs slot s r bound).2.source = r.source ∧
      (admitStoreLegs slot s r bound).2.tag = r.tag := by
  unfold admitStoreLegs
  split
  · exact ⟨hr ▸ .refl s slot, rfl, rfl⟩
  · rename_i i p rest
    obtain ⟨⟨hlt, hfree⟩, hrest⟩ := List.forall_mem_cons.1 hf
    obtain ⟨hi, hd⟩ := List.nodup_cons.1 hd
    have first : ∀ {t : State} {g : Leg}, g.owner = slot → t.slots = s.slots →
        t.legs = s.legs.put i g → Filled s t slot [i] :=
      fun ho hs hl => (Filled.refl s slot).put hlt hfree (by simp) ho hs hl
    split
    · simp only []
      rw [Request.offer_eq]
      exact ⟨first rfl rfl rfl, rfl, rfl⟩
    · have one := first (t := (s.putLeg i (newLeg slot p .queued)).joinDemand p.line i)
        (g := newLeg slot p .queued) rfl rfl rfl
      refine ⟨Filled.holdLegs rest one hd hrest fun b hb hm => ?_, rfl, rfl⟩
      exact hi (List.mem_map.2 ⟨b, hb, List.mem_singleton.1 hm⟩)

/-- An admitted request has filled records for its slot, and holds the frame's station and tag (R25,
R28). -/
theorem entered_filled (s : State) (kind : RequestKind) (f : Frame) (slot : Nat) (p : Plan) :
    Filled s (s.entered kind f slot p).1 slot (s.entered kind f slot p).2.legs ∧
      (s.entered kind f slot p).2.source = f.source ∧ (s.entered kind f slot p).2.tag = f.tag := by
  obtain ⟨hd, hf⟩ := bound_free (s := s) p.legs
  have h0 := served_eq s p.served (newRequest kind f p.fields)
  unfold State.entered
  simp only []
  generalize p.served.foldl s.serveSegment (newRequest kind f p.fields) = r at h0
  have hlegs : r.legs = [] := by rw [h0]; rfl
  have hsource : r.source = f.source := by rw [h0]; rfl
  have htag : r.tag = f.tag := by rw [h0]; rfl
  rw [← hsource, ← htag]
  have store := Filled.storeLegs s slot r hlegs hd hf
  cases kind with
  | fetch =>
    exact Filled.fetchLegs _ (hlegs ▸ .refl s slot) hd hf (by simp [hlegs])
  | store => exact store
  | storeSet => exact store

/-! ## Every step keeps the law (R24, R26, R28) -/

/-- An admitted request takes a FREE slot with a (source, tag) that no slot holds, and free records. -/
theorem RequestLaw.enter {s : State} (h : RequestLaw s) {kind : RequestKind} {f : Frame} {slot : Nat}
    {p : Plan} (hp : s.admission kind f = .ok p) (hs : s.freeSlot = some slot) :
    RequestLaw ((s.entered kind f slot p).1.putSlot slot (s.entered kind f slot p).2) := by
  obtain ⟨hlt, hnone⟩ := freeSlot_spec hs
  obtain ⟨-, -, -, -, hroom⟩ := admission_ok hp
  obtain ⟨-, hnew, -⟩ := roomFor_none hroom
  obtain ⟨filled, hsource, htag⟩ := entered_filled s kind f slot p
  generalize (s.entered kind f slot p).1 = t at filled
  generalize (s.entered kind f slot p).2 = q at filled hsource htag
  have get : ∀ k, (t.putSlot slot q).slots.get k = if k = slot then some q else s.slots.get k :=
    fun k => by rw [State.putSlot, Sparse.get_put, filled.slots]
  have other : ∀ k r, s.slots.get k = some r → r.source = f.source → r.tag ≠ f.tag :=
    fun k r => tag_ne_of_slotOf_none hnew
  refine .of_holder (sparseWf_put hlt (filled.slots ▸ h.slots)) (filled.records h.records) ?_ ?_
    fun i k => ?_
  · intro j k a b ha hb hab hab'
    rw [get] at ha hb
    split at ha <;> split at hb
    · rw [‹j = slot›, ‹k = slot›]
    · cases ha
      exact absurd (hab' ▸ htag) (other k b hb (hab ▸ hsource))
    · cases hb
      exact absurd (hab'.trans htag) (other j a ha (hab.trans hsource))
    · exact h.tags j k a b ha hb hab hab'
  · intro k r hr
    rw [get] at hr
    split at hr
    · cases hr
      exact filled.nodup
    · exact (h.listed k r hr).1
  · have hi : (t.putSlot slot q).holder i = t.holder i := rfl
    have hk := h.holder_iff i k
    rw [hi, filled.holders, get]
    by_cases hm : i ∈ q.legs
    · have hfree : s.holder i = none := by rw [State.holder, filled.free i hm]; rfl
      rw [hfree] at hk
      by_cases hks : k = slot
      · simp [hm, hks]
      · simpa [hm, hks, Ne.symm hks] using hk
    · by_cases hks : k = slot
      · subst hks
        simpa [hm, hnone] using hk
      · simpa [hm, hks] using hk

/-- The law of the request table holds across everything a step is made of. -/
theorem requestLaw_closed : ClosedStep fun s t => RequestLaw s → RequestLaw t where
  refl _ h := h
  trans a b h := b (a h)
  countHost _ _ h := h.congr rfl rfl
  scan _ _ _ h := h.congr rfl rfl
  prompt _ _ _ _ _ h := h.congr rfl rfl
  slot s _ _ _ hr hq h :=
    h.putSlot (Sparse.get_of_mem ((sparseWf_iff 8 s.slots).1 h.slots).1 hr) hq.seat
  leg _ _ _ _ hg ho h := h.putLeg hg ho
  modLeg _ i _ hf h := h.modLeg i hf
  cancelLeg _ _ _ hi h := h.cancelLeg hi
  complete _ k h := h.completeIfDone k
  line _ _ _ _ h := h.congr rfl rfl
  record _ _ _ _ _ h := h.congr rfl rfl
  write _ _ _ h := h.congr rfl rfl
  invalidate _ _ _ h := h.congr rfl rfl
  enter _ _ _ _ _ hp hs h := h.enter hp hs
  rest _ _ hr h := h.congr hr.slots hr.legs
  begin _ _ _ _ h := h.congr rfl rfl
  goOn _ _ _ h := h.congr rfl rfl
  finish _ _ _ _ h := h.congr rfl rfl
  restart _ _ _ _ _ h := h.congr rfl rfl
  swap _ _ h := h.congr rfl rfl
  pop _ _ _ _ _ h := h.congr rfl rfl
  popReply s _ rest k _ _ h :=
    (h.congr (t := { s with txQueue := rest }) rfl rfl).releaseSlot k
  warm _ _ := .of_empty rfl rfl
  halt _ h := h.congr rfl rfl
  cold _ _ _ _ _ := .of_empty rfl rfl

/-- The free records and the records that slots list are the 64 of the pool, each once (R28). -/
theorem RequestLaw.freeRecords_perm {s : State} (h : RequestLaw s) :
    (s.freeRecords ++ s.slots.flatMap (fun e => e.2.legs)).Perm (List.range 64) := by
  obtain ⟨hrising, -⟩ := (sparseWf_iff 8 s.slots).1 h.slots
  have get : ∀ e ∈ s.slots, s.slots.get e.1 = some e.2 := fun e he => Sparse.get_of_mem hrising he
  have held : ∀ i, i ∈ s.slots.flatMap (fun e => e.2.legs) ↔ ∃ k, s.holder i = some k := by
    intro i
    simp only [List.mem_flatMap, h.holder_iff]
    constructor
    · rintro ⟨e, he, hi⟩
      exact ⟨e.1, e.2, get e he, hi⟩
    · rintro ⟨k, r, hr, hi⟩
      exact ⟨(k, r), Sparse.mem_of_get hr, hi⟩
  have apart : s.slots.Pairwise (Function.onFun List.Disjoint (fun e => e.2.legs)) := by
    refine (List.pairwise_map.1 hrising).imp_of_mem fun {a b} ha hb hlt i hia hib => ?_
    have hka := (h.holder_iff i a.1).2 ⟨a.2, get a ha, hia⟩
    have hkb := (h.holder_iff i b.1).2 ⟨b.2, get b hb, hib⟩
    rw [hka] at hkb
    exact absurd (Option.some.inj hkb) (Nat.ne_of_lt hlt)
  have listed : (s.slots.flatMap (fun e => e.2.legs)).Nodup :=
    List.nodup_flatMap.2 ⟨fun e he => (h.listed e.1 e.2 (get e he)).1, apart⟩
  refine (List.perm_ext_iff_of_nodup ?_ List.nodup_range).2 fun i => ?_
  · refine List.nodup_append.2 ⟨freeRecords_nodup s, listed, ?_⟩
    rintro i hi j hj rfl
    obtain ⟨k, hk⟩ := (held i).1 hj
    rw [State.holder, (mem_freeRecords.1 hi).2] at hk
    cases hk
  · rw [List.mem_append, mem_freeRecords, held, List.mem_range, State.holder]
    cases hg : s.legs.get i with
    | none => simp
    | some g => simpa using Sparse.key_lt_of_get h.records hg

/-- Settles O55: the law by its closure under all that a step does, the count by the permutation. -/
theorem stepKeepsRequestLaw : Obligations.StepKeepsRequestLaw := by
  intro s t law hstep
  have ht := step_closed requestLaw_closed hstep law
  refine ⟨ht, ?_⟩
  have hlen := ht.freeRecords_perm.length_eq
  rwa [List.length_append, List.length_flatMap, List.length_range] at hlen

end Sys2Proof.Machine
end

section
/-!
SUPPORT. The arrival of a data request (R30, R35): its command, what a refusal and an admission come to, and
the eleven checks in their order.
-/

namespace Sys2Proof.Machine

/-! ## The command of a data request -/

theorem exec_dataCommand {s : State} {kind : RequestKind} {byte : Byte} {f : Frame}
    (h : s.dispatched byte = some (f, dataKind kind)) :
    exec (dataCommand kind byte) s = .next (s.frameTaken.dataRequest kind f) := by
  cases kind <;> exact congrArg Host.Outcome.next (onKind_eq h _)

theorem dataRequest_refused {s : State} {kind : RequestKind} {f : Frame} {status : Status} {item : Nat}
    (h : s.admission kind f = .error (status, item)) :
    s.dataRequest kind f = s.pushRefusal f.source f.tag (refusalReply status item) := by
  rw [State.dataRequest, h]

/-- An admitted request takes its slot, its lines are offered its legs, and it completes with none
unfinished. -/
theorem dataRequest_admitted {s : State} {kind : RequestKind} {f : Frame} {p : Plan} {k : Nat}
    (hp : s.admission kind f = .ok p) (hk : s.freeSlot = some k) {t : State} {q : Request}
    (h : s.entered kind f k p = (t, q)) :
    s.dataRequest kind f = (q.legs.foldl State.kickFor (t.putSlot k q)).completeIfDone k := by
  obtain ⟨rfl, rfl⟩ := Prod.mk.inj h.symm
  simp only [State.dataRequest, hp, hk]
  cases kind <;> rfl

/-! ## The checks (R30) -/

/-- Past checks 1 to 7, the room decides. -/
theorem admission_of_plan {s : State} {kind : RequestKind} {f : Frame} {d : DataFields}
    {segments : List Segment} {p : Plan} (hb : s.bridge ≠ .draining)
    (hd : dataFields kind f.body = some d) (hm : s.active.map ≠ [])
    (hl : lookup s.active.map kind d = .ok segments) (ha : accessConflict kind segments = none)
    (hs : splitPair kind segments = none) (hp : s.planFor kind d segments = .ok p) :
    s.admission kind f =
      (s.roomFor f p).elim (.ok p) (fun status => .error (status, leadItem kind f.body)) := by
  simp only [State.admission, if_neg hb, hd, if_neg hm, hl, ha, hs, hp]
  cases s.roomFor f p <;> rfl

/-- Settles O10: each check by the equation of admission under the checks before it. -/
theorem admissionChecksInOrder : Obligations.AdmissionChecksInOrder := by
  intro s kind f lead
  refine ⟨fun byte status item hf h => ?_, fun hb => ?_, fun hb hd => ?_, fun d hb hd => ?_⟩
  · rw [exec_dataCommand hf, dataRequest_refused ((frameTaken_admission s kind f).trans h)]
    rfl
  · simp only [State.admission, if_pos hb, lead]
  · simp only [State.admission, if_neg hb, hd, lead]
  refine ⟨fun hm => ?_, fun item hm hl => ?_, fun segments hm hl => ?_⟩
  · simp only [State.admission, if_neg hb, hd, if_pos hm, lead]
  · simp only [State.admission, if_neg hb, hd, if_neg hm, hl]
  refine ⟨fun item ha => ?_, fun item ha hs => ?_, fun item ha hs hp => ?_, fun p ha hs hp => ?_⟩
  · simp only [State.admission, if_neg hb, hd, if_neg hm, hl, ha]
  · simp only [State.admission, if_neg hb, hd, if_neg hm, hl, ha, hs]
  · simp only [State.admission, if_neg hb, hd, if_neg hm, hl, ha, hs, hp]
  rw [admission_of_plan hb hd hm hl ha hs hp]
  refine ⟨fun h8 => ?_, fun e h8 h9 => ?_, fun h8 h9 h10 => ?_, fun k h8 h9 h10 => ?_⟩
  · simp [State.roomFor, h8, lead]
  · simp [State.roomFor, Nat.not_lt.2 h8, h9, lead]
  · simp [State.roomFor, Nat.not_lt.2 h8, h9, h10, lead]
  · refine ⟨fun h11 => ?_, fun h11 => ?_⟩
    · simp [State.roomFor, Nat.not_lt.2 h8, h9, h10, h11, lead]
    · simp [State.roomFor, Nat.not_lt.2 h8, h9, h10, Nat.not_lt.2 h11]

end Sys2Proof.Machine
end

section
/-!
SUPPORT. How a request that has taken its slot goes on (R38 to R40, R66): its lines take what they can, and
it completes at once with no leg unfinished.
-/

namespace Sys2Proof.Machine

/-! ## Lines that take the first legs (R38, R66) -/

/-- A record holds a QUEUED leg. -/
def State.legQueued (s : State) (i : Nat) : Prop := ∃ g, s.legs.get i = some g ∧ g.state = .queued

/-- A record holds an unfinished leg. -/
def State.legOpen (s : State) (i : Nat) : Prop :=
  ∃ g, s.legs.get i = some g ∧ g.state.unfinished = true

theorem State.legQueued.legOpen {s : State} {i : Nat} : s.legQueued i → s.legOpen i := by
  rintro ⟨g, hg, hq⟩
  exact ⟨g, hg, by rw [hq]; rfl⟩

theorem not_legOpen_of_failed {s : State} {i : Nat} {g : Leg} (hg : s.legs.get i = some g)
    (hs : g.state = .failed) : ¬s.legOpen i := by
  rintro ⟨x, hx, hu⟩
  cases hg.symm.trans hx
  rw [hs] at hu
  cases hu

/-- A line that is offered work leaves the pool as it is, or puts one leg in flight. -/
theorem kick_legs (s : State) (l : LineNo) : (s.kick l).legs = s.legs ∨
    ∃ j f, (s.kick l).legs = s.legs.modify j f ∧ ∀ g : Leg, (f g).state = .inFlight := by
  rcases kick_cases s l with ⟨-, -, h⟩ | ⟨-, h⟩ <;> rw [h]
  · rw [State.modLine_legs]
    unfold State.take
    split
    · exact .inl rfl
    · exact .inr ⟨_, _, Sparse.modify_modify _ _ _ _, fun _ => rfl⟩
    · exact .inl rfl
    · exact .inl rfl
  · exact .inl rfl

/-- A line that is offered work queues nothing. -/
theorem legQueued_of_kick {s : State} {l : LineNo} {i : Nat} (h : (s.kick l).legQueued i) :
    s.legQueued i := by
  obtain ⟨g, hg, hq⟩ := h
  rcases kick_legs s l with hk | ⟨j, f, hk, hf⟩ <;> rw [hk] at hg
  · exact ⟨g, hg, hq⟩
  · rw [Sparse.get_modify] at hg
    split at hg
    · obtain ⟨x, -, rfl⟩ := Option.map_eq_some_iff.1 hg
      rw [hf] at hq
      cases hq
    · exact ⟨g, hg, hq⟩

theorem kickFor_queued {s : State} {i : Nat} {g : Leg} (hg : s.legs.get i = some g)
    (hq : g.state = .queued) : s.kickFor i = s.kick g.line := by
  simp only [State.kickFor, hg, hq, if_true]

theorem kickFor_of_not_queued {s : State} {i : Nat} (h : ¬s.legQueued i) : s.kickFor i = s := by
  unfold State.kickFor
  split
  · rfl
  · rename_i g hg
    exact if_neg fun hq => h ⟨g, hg, hq⟩

theorem foldl_kickFor_of_not_queued {s : State} {ids : List Nat} (h : ∀ i ∈ ids, ¬s.legQueued i) :
    ids.foldl State.kickFor s = s := by
  induction ids with
  | nil => rfl
  | cons i ids ih =>
    obtain ⟨hi, hids⟩ := List.forall_mem_cons.1 h
    rw [List.foldl_cons, kickFor_of_not_queued hi, ih hids]

/-- The line of a leg is offered work, or nothing happens. -/
theorem kickFor_cases (s : State) (i : Nat) : s.kickFor i = s ∨ ∃ l, s.kickFor i = s.kick l := by
  by_cases h : s.legQueued i
  · obtain ⟨g, hg, hq⟩ := h
    exact .inr ⟨g.line, kickFor_queued hg hq⟩
  · exact .inl (kickFor_of_not_queued h)

/-- Lines that are offered work leave the request table, open legs open, and nothing newly QUEUED. -/
theorem foldl_kickFor_keeps (ids : List Nat) (s : State) :
    (ids.foldl State.kickFor s).slots = s.slots ∧
    (∀ i, s.legOpen i → (ids.foldl State.kickFor s).legOpen i) ∧
    ∀ i, (ids.foldl State.kickFor s).legQueued i → s.legQueued i := by
  induction ids generalizing s with
  | nil => exact ⟨rfl, fun _ h => h, fun _ h => h⟩
  | cons j ids ih =>
    obtain ⟨hslots, hopen, hqueued⟩ := ih (s.kickFor j)
    rw [List.foldl_cons]
    rcases kickFor_cases s j with h | ⟨l, h⟩ <;> rw [h] at hslots hopen hqueued ⊢
    · exact ⟨hslots, hopen, hqueued⟩
    · obtain ⟨kslots, kopen⟩ := kick_unfinished s l
      refine ⟨hslots.trans kslots, fun i hi => hopen i ?_, fun i hi => legQueued_of_kick (hqueued i hi)⟩
      obtain ⟨g, hg, hu⟩ := hi
      exact kopen i g hg hu

/-! ## Completion at admission, or not (R40) -/

section seated

variable {u : State} {k : Nat} {q : Request}

/-- A request with no leg unfinished completes at its admission. -/
theorem seated_completes (ha : q.phase = .active) (h : ∀ i ∈ q.legs, ¬u.legOpen i) :
    (q.legs.foldl State.kickFor (u.putSlot k q)).completeIfDone k = { u with
      slots := u.slots.put k { q with phase := .replying }
      txQueue := u.txQueue ++ [⟨.slotReply k, q.source, q.tag, .reply q.reply⟩] } := by
  rw [foldl_kickFor_of_not_queued (s := u.putSlot k q) fun i hi hq => h i hi hq.legOpen,
    completeIfDone_finished (r := q) (Sparse.get_put_same _ _ _) ha fun i hi g hg => ?_]
  · simp only [State.putSlot, Sparse.put_put]
  · exact Bool.eq_false_iff.2 fun hu => h i hi ⟨g, hg, hu⟩

/-- A request with an unfinished leg does not complete at its admission. -/
theorem seated_waits (h : ∃ i ∈ q.legs, u.legOpen i) :
    (q.legs.foldl State.kickFor (u.putSlot k q)).completeIfDone k =
      q.legs.foldl State.kickFor (u.putSlot k q) := by
  obtain ⟨i, hi, ho⟩ := h
  obtain ⟨hslots, hopen, -⟩ := foldl_kickFor_keeps q.legs (u.putSlot k q)
  refine completeIfDone_unfinished (r := q) ?_ ⟨i, hi, hopen i ho⟩
  rw [hslots]
  exact Sparse.get_put_same _ _ _

/-- The lines of the legs that come first are offered work, where none of the others is QUEUED. -/
theorem seated_offers {ids others : List Nat} (hlegs : q.legs = ids ++ others)
    (hopen : ∃ i ∈ ids, u.legOpen i) (hothers : ∀ i ∈ others, ¬u.legQueued i) :
    (q.legs.foldl State.kickFor (u.putSlot k q)).completeIfDone k =
      ids.foldl State.kickFor (u.putSlot k q) := by
  obtain ⟨i, hi, ho⟩ := hopen
  obtain ⟨-, -, hqueued⟩ := foldl_kickFor_keeps ids (u.putSlot k q)
  rw [seated_waits ⟨i, by simp [hlegs, hi], ho⟩, hlegs, List.foldl_append]
  exact foldl_kickFor_of_not_queued fun j hj hq => hothers j hj (hqueued j hq)

end seated

section admitted

variable {s t : State} {kind : RequestKind} {f : Frame} {p : Plan} {k : Nat} {q : Request}

/-- An admitted request with no leg unfinished completes at its admission. -/
theorem dataRequest_completes (hp : s.admission kind f = .ok p) (hk : s.freeSlot = some k)
    (hent : s.entered kind f k p = (t, q)) (ha : q.phase = .active) (hsource : q.source = f.source)
    (htag : q.tag = f.tag) (h : ∀ i ∈ q.legs, ¬t.legOpen i) :
    s.dataRequest kind f = { t with
      slots := t.slots.put k { q with phase := .replying }
      txQueue := t.txQueue ++ [⟨.slotReply k, f.source, f.tag, .reply q.reply⟩] } := by
  rw [dataRequest_admitted hp hk hent, seated_completes ha h, ← hsource, ← htag]

/-- An admitted request with an unfinished leg has the lines of its QUEUED legs offered work. -/
theorem dataRequest_offers (hp : s.admission kind f = .ok p) (hk : s.freeSlot = some k)
    (hent : s.entered kind f k p = (t, q)) {ids others : List Nat} (hlegs : q.legs = ids ++ others)
    (hopen : ∃ i ∈ ids, t.legOpen i) (hothers : ∀ i ∈ others, ¬t.legQueued i) :
    s.dataRequest kind f = ids.foldl State.kickFor (t.putSlot k q) := by
  rw [dataRequest_admitted hp hk hent, seated_offers hlegs hopen hothers]

end admitted

/-! ## The request that takes the slot (R25, R37) -/

/-- The request as its mirror segments leave it, before any leg (R25, R37). -/
def State.opened (s : State) (kind : RequestKind) (f : Frame) (p : Plan) : Request :=
  p.served.foldl s.serveSegment (newRequest kind f p.fields)

theorem opened_eq (s : State) (kind : RequestKind) (f : Frame) (p : Plan) :
    s.opened kind f p = { newRequest kind f p.fields with
      buffer := (s.opened kind f p).buffer
      stale := (s.opened kind f p).stale
      clamped := (s.opened kind f p).clamped
      failure := (s.opened kind f p).failure } :=
  served_eq s p.served (newRequest kind f p.fields)

section opened

variable (s : State) (kind : RequestKind) (f : Frame) (p : Plan)

@[simp] theorem opened_phase : (s.opened kind f p).phase = .active := by rw [opened_eq]; rfl
@[simp] theorem opened_source : (s.opened kind f p).source = f.source := by rw [opened_eq]; rfl
@[simp] theorem opened_tag : (s.opened kind f p).tag = f.tag := by rw [opened_eq]; rfl
@[simp] theorem opened_kind : (s.opened kind f p).kind = kind := by rw [opened_eq]; rfl
@[simp] theorem opened_first : (s.opened kind f p).first = p.fields.first := by rw [opened_eq]; rfl
@[simp] theorem opened_count : (s.opened kind f p).count = p.fields.count := by rw [opened_eq]; rfl
@[simp] theorem opened_legs : (s.opened kind f p).legs = [] := by rw [opened_eq]; rfl
theorem opened_of_no_legs : { s.opened kind f p with legs := [] } = s.opened kind f p := by
  rw [opened_eq]; rfl

end opened

theorem entered_fetch (s : State) (f : Frame) (k : Nat) (p : Plan) : s.entered .fetch f k p =
    (s.freeRecords.zip p.legs).foldl (admitFetchLeg k) (s, s.opened .fetch f p) := rfl

/-- A store has no mirror segments (R39). -/
theorem entered_store {s : State} {kind : RequestKind} {f : Frame} {p : Plan} (k : Nat)
    (hk : kind ≠ .fetch) (hp : s.admission kind f = .ok p) : s.entered kind f k p =
      admitStoreLegs k s (newRequest kind f p.fields) (s.freeRecords.zip p.legs) := by
  obtain ⟨d, segments, -, hplan, -⟩ := admission_ok hp
  have hserved : p.served = [] := by
    cases kind with
    | fetch => exact absurd rfl hk
    | store | storeSet =>
      simp only [State.planFor] at hplan
      split at hplan
      · cases hplan
      · cases hplan
        rfl
  cases kind with
  | fetch => exact absurd rfl hk
  | store | storeSet =>
    show admitStoreLegs k s (p.served.foldl s.serveSegment _) _ = _
    rw [hserved]
    rfl

/-- Settles O11: with no leg bound, nothing is unfinished. -/
theorem mirrorServedFetchCompletesAtOnce : Obligations.MirrorServedFetchCompletesAtOnce := by
  intro s byte f p k hf hp hlegs hk
  have hent : s.frameTaken.entered .fetch f k p = (s.frameTaken, s.frameTaken.opened .fetch f p) := by
    rw [entered_fetch, hlegs, List.zip_nil_right, List.foldl_nil]
  refine ⟨_, ?_, rfl, opened_legs .., opened_source .., opened_tag .., opened_kind ..,
    opened_first .., opened_count ..⟩
  have hexec : exec (.fetch byte) s = .next (s.frameTaken.dataRequest .fetch f) :=
    exec_dataCommand (kind := .fetch) hf
  rw [hexec, dataRequest_completes hp hk hent (opened_phase ..) (opened_source ..) (opened_tag ..)
    (by simp)]
  rfl

end Sys2Proof.Machine
end

section
/-!
SUPPORT. The legs of an admitted store (R39): the first is QUEUED or fails, and the others are held in their
records.
-/

namespace Sys2Proof.Machine

/-! ## Records filled one after another -/

/-- Reading after records have been filled from their plans. -/
theorem get_foldl_put {α β : Type} (F : β → α) (bound : List (Nat × β)) (m : Sparse α) (i : Nat) :
    (∃ b ∈ bound, b.1 = i ∧ Sparse.get (bound.foldl (fun m b => m.put b.1 (F b.2)) m) i = some (F b.2)) ∨
      (i ∉ bound.map Prod.fst ∧
        Sparse.get (bound.foldl (fun m b => m.put b.1 (F b.2)) m) i = m.get i) := by
  induction bound generalizing m with
  | nil => exact .inr ⟨by simp, rfl⟩
  | cons c bound ih =>
    rw [List.foldl_cons]
    rcases ih (m.put c.1 (F c.2)) with ⟨b, hb, hi, hg⟩ | ⟨hn, hg⟩
    · exact .inl ⟨b, List.mem_cons_of_mem _ hb, hi, hg⟩
    · rw [Sparse.get_put] at hg
      by_cases hc : i = c.1
      · exact .inl ⟨c, List.mem_cons_self, hc.symm, by rw [hg, if_pos hc]⟩
      · refine .inr ⟨?_, by rw [hg, if_neg hc]⟩
        rw [List.map_cons]
        exact List.not_mem_cons_of_ne_of_not_mem hc hn

/-! ## The legs of a store (R39) -/

/-- Holding legs fills their records and does nothing else. -/
theorem foldl_holdLegs (slot : Nat) (bound : List (Nat × LegPlan)) (s : State) :
    bound.foldl (State.holdLegs slot) s = { s with
      legs := bound.foldl (fun m b => m.put b.1 (newLeg slot b.2 .held)) s.legs } := by
  induction bound generalizing s with
  | nil => rfl
  | cons b bound ih => rw [List.foldl_cons, ih]; rfl

theorem foldl_holdLegs_other {slot : Nat} {bound : List (Nat × LegPlan)} (s : State) {i : Nat}
    (hi : i ∉ bound.map Prod.fst) :
    (bound.foldl (State.holdLegs slot) s).legs.get i = s.legs.get i := by
  rw [foldl_holdLegs]
  rcases get_foldl_put (newLeg slot · .held) bound s.legs i with ⟨b, hb, hbi, -⟩ | ⟨-, h⟩
  · exact absurd (List.mem_map.2 ⟨b, hb, hbi⟩) hi
  · exact h

theorem foldl_holdLegs_not_queued {slot : Nat} {bound : List (Nat × LegPlan)} (s : State) {i : Nat}
    (hi : i ∈ bound.map Prod.fst) : ¬(bound.foldl (State.holdLegs slot) s).legQueued i := by
  rintro ⟨g, hg, hq⟩
  rw [foldl_holdLegs] at hg
  rcases get_foldl_put (newLeg slot · .held) bound s.legs i with ⟨b, -, -, h⟩ | ⟨hn, -⟩
  · cases h.symm.trans hg
    cases hq
  · exact hn hi

/-- The offer of a leg's failure, in the words of the statements (R44). -/
theorem offer_legFailure (r : Request) (g : Leg) (status : Status) :
    r.offer (r.legFailure g status) = { r with
      failure := if r.enters g then some (r.entryOf g status) else r.failure } := by
  have hentry : r.legFailure g status = r.entryOf g status := by
    cases hk : r.kind <;> simp only [Request.legFailure, Request.entryOf, Request.itemAt, hk]
  rw [hentry, Request.offer_eq, Request.offer_failure]

/-- Settles O13: the first leg's record decides what its line and the completion test do. -/
theorem admittedStoreQueuesFirstLeg : Obligations.AdmittedStoreQueuesFirstLeg := by
  intro s kind byte f p k i q rest hkind hf hp hk hz
  obtain ⟨hd, -⟩ := bound_free (s := s) p.legs
  rw [hz, List.map_cons, List.nodup_cons] at hd
  have hent : s.frameTaken.entered kind f k p =
      admitStoreLegs k s.frameTaken (newRequest kind f p.fields) ((i, q) :: rest) :=
    hz ▸ entered_store k hkind hp
  have haway : s.frameTaken.turnsAway q.line q.station = s.turnsAway q.line q.station := rfl
  simp only [admitStoreLegs, haway] at hent
  rw [exec_dataCommand hf]
  refine ⟨fun hno => ?_, fun hyes => ?_⟩
  · rw [if_neg (by simp [hno])] at hent
    have hfirst : (rest.foldl (State.holdLegs k) ((s.frameTaken.putLeg i
        (newLeg k q .queued)).joinDemand q.line i)).legs.get i = some (newLeg k q .queued) :=
      (foldl_holdLegs_other _ hd.1).trans (Sparse.get_put_same _ _ _)
    rw [dataRequest_offers hp hk hent (ids := [i]) (others := rest.map Prod.fst) rfl
      ⟨i, List.mem_singleton_self i, _, hfirst, rfl⟩ fun j hj => foldl_holdLegs_not_queued _ hj,
      List.foldl_cons, List.foldl_nil, kickFor_queued (s := State.putSlot _ _ _) hfirst rfl, foldl_holdLegs]
    rfl
  · rw [if_pos hyes, offer_legFailure] at hent
    rw [dataRequest_completes hp hk hent rfl rfl rfl
      (List.forall_mem_singleton.2 (not_legOpen_of_failed (Sparse.get_put_same _ _ _) rfl))]
    rfl

end Sys2Proof.Machine
end

section
/-!
SUPPORT. The legs of an admitted FETCH (R12, R38): they stand in the order of their positions, so that the
first that fails has all the further ones beyond it.
-/

namespace Sys2Proof.Machine

/-! ## The order of the legs (R12) -/

theorem Chained.le_offset {origin item : Nat} {segments : List Segment}
    (h : Chained origin item segments) : ∀ g ∈ segments, item - origin ≤ g.offset := by
  induction segments generalizing item with
  | nil => simp
  | cons a as ih =>
    obtain ⟨-, hoffset, hrest⟩ := h
    refine List.forall_mem_cons.2 ⟨hoffset.ge, fun g hg => ?_⟩
    have := ih hrest g hg
    omega

/-- The segments of a run lie one behind the other in the request. -/
theorem Chained.offsets {origin item : Nat} {segments : List Segment} (ho : origin ≤ item)
    (h : Chained origin item segments) :
    segments.Pairwise (fun g x => g.offset + g.count ≤ x.offset) := by
  induction segments generalizing item with
  | nil => exact .nil
  | cons a as ih =>
    obtain ⟨-, hoffset, hrest⟩ := h
    refine List.pairwise_cons.2 ⟨fun g hg => ?_, ih (by omega) hrest⟩
    have := hrest.le_offset g hg
    omega

theorem cutSegment_position {d : Direction} {g : Segment} {values : List Word} {q : LegPlan}
    (h : q ∈ cutSegment d g values) : g.offset ≤ q.position ∧ q.position < g.offset + g.count := by
  obtain ⟨m, hm⟩ := List.mem_iff_getElem?.1 h
  obtain ⟨hlt, rfl⟩ := cutSegment_getElem? hm
  simp only [legsOf, legOf] at hlt ⊢
  omega

theorem cutSegment_rising (d : Direction) (g : Segment) (values : List Word) :
    (cutSegment d g values).Pairwise (fun a b => a.position < b.position) := by
  refine List.pairwise_map.2 (List.pairwise_lt_range.imp fun {a b} hab => ?_)
  simp only [legOf]
  omega

/-- The legs of an admitted FETCH stand in the order of their positions. -/
theorem fetch_legs_rising {s : State} {f : Frame} {p : Plan} (h : s.admission .fetch f = .ok p) :
    p.legs.Pairwise (fun a b => a.position < b.position) := by
  obtain ⟨d, segments, hlookup, hplan, -⟩ := admission_ok h
  obtain ⟨-, -, hchain⟩ := lookupRun_ok le_rfl hlookup
  cases hplan
  refine List.pairwise_flatMap.2 ⟨fun g _ => cutSegment_rising _ _ _, ?_⟩
  refine ((hchain.offsets le_rfl).filter _).imp fun {g x} hgx a ha b hb => ?_
  have hag := cutSegment_position ha
  have hbx := cutSegment_position hb
  omega

/-! ## Legs that are QUEUED one after another (R38) -/

/-- The pool with the legs of plans QUEUED in their records. -/
def queueRecords (slot : Nat) (bound : List (Nat × LegPlan)) (legs : Sparse Leg) : Sparse Leg :=
  bound.foldl (fun m b => m.put b.1 (newLeg slot b.2 .queued)) legs

/-- The lines with those records at the tails of their demand queues. -/
def queueLines (bound : List (Nat × LegPlan)) (lines : Four Line) : Four Line :=
  bound.foldl (fun v b => v.set b.2.line
    { v.get b.2.line with demand := (v.get b.2.line).demand ++ [b.1] }) lines

theorem beyondFailure_eq_false {r : Request} {position : Nat}
    (h : ∀ x, r.failure = some x → position ≤ x.position) : r.beyondFailure position = false := by
  unfold Request.beyondFailure
  split
  · rfl
  · rename_i old hold
    exact decide_eq_false (Nat.not_lt.2 (h old hold))

theorem beyondFailure_eq_true {r : Request} {position : Nat}
    (h : ∃ x, r.failure = some x ∧ x.position < position) : r.beyondFailure position = true := by
  obtain ⟨x, hx, hlt⟩ := h
  simp only [Request.beyondFailure, hx, hlt, decide_true]

theorem turnsAway_eq_false {s : State} {l : LineNo} {station : Nat}
    (h : station = 0 ∨ s.offline l station = false) : s.turnsAway l station = false := by
  unfold State.turnsAway
  rcases h with h | h <;> simp [h]

theorem turnsAway_eq_true {s : State} {l : LineNo} {station : Nat} (h0 : station ≠ 0)
    (h : s.offline l station = true) : s.turnsAway l station = true := by
  simp [State.turnsAway, h0, h]

/-- Legs before every failure and to stations that are not OFFLINE are QUEUED, and nothing else happens. -/
theorem foldl_admitFetchLeg_queued {slot : Nat} (bound : List (Nat × LegPlan)) (s : State) (r : Request)
    (h : ∀ b ∈ bound, r.beyondFailure b.2.position = false ∧
      s.turnsAway b.2.line b.2.station = false) :
    bound.foldl (admitFetchLeg slot) (s, r) =
      ({ s with legs := queueRecords slot bound s.legs, lines := queueLines bound s.lines },
        { r with legs := r.legs ++ bound.map Prod.fst }) := by
  induction bound generalizing s r with
  | nil => simp [queueRecords, queueLines]
  | cons b bound ih =>
    obtain ⟨⟨hbefore, hthere⟩, hrest⟩ := List.forall_mem_cons.1 h
    have hone : admitFetchLeg slot (s, r) b =
        ((s.putLeg b.1 (newLeg slot b.2 .queued)).joinDemand b.2.line b.1,
          { r with legs := r.legs ++ [b.1] }) := by
      simp only [admitFetchLeg, hbefore, hthere, Bool.false_eq_true, if_false]
    rw [List.foldl_cons, hone, List.map_cons, List.append_cons r.legs b.1 (bound.map Prod.fst)]
    exact ih _ _ hrest

/-- Legs beyond a failure leave no trace. -/
theorem foldl_admitFetchLeg_beyond {slot : Nat} (bound : List (Nat × LegPlan)) (s : State) (r : Request)
    (h : ∀ b ∈ bound, r.beyondFailure b.2.position = true) :
    bound.foldl (admitFetchLeg slot) (s, r) = (s, r) := by
  induction bound with
  | nil => rfl
  | cons b bound ih =>
    obtain ⟨hb, hrest⟩ := List.forall_mem_cons.1 h
    have hone : admitFetchLeg slot (s, r) b = (s, r) := by
      simp only [admitFetchLeg, hb, if_true]
    rw [List.foldl_cons, hone, ih hrest]

/-- A leg to an OFFLINE station fails and keeps its record. -/
theorem admitFetchLeg_offline {slot : Nat} {s : State} {r : Request} {b : Nat × LegPlan}
    (hbefore : r.beyondFailure b.2.position = false)
    (haway : s.turnsAway b.2.line b.2.station = true) :
    admitFetchLeg slot (s, r) b =
      (s.putLeg b.1 (newLeg slot b.2 .queued).failedOffline, { r with
        failure := if r.failure.all (fun x => decide (b.2.position < x.position)) then
          some (r.entryOf (newLeg slot b.2 .queued).failedOffline .stationOffline) else r.failure
        legs := r.legs ++ [b.1] }) := by
  simp only [admitFetchLeg, hbefore, haway, Bool.false_eq_true, if_false, if_true, offer_legFailure]
  rfl

theorem queueRecords_get {slot : Nat} {bound : List (Nat × LegPlan)} {legs : Sparse Leg} {i : Nat}
    (hi : i ∈ bound.map Prod.fst) :
    ∃ g, (queueRecords slot bound legs).get i = some g ∧ g.state = .queued := by
  rcases get_foldl_put (newLeg slot · .queued) bound legs i with ⟨b, -, -, h⟩ | ⟨hn, -⟩
  · exact ⟨_, h, rfl⟩
  · exact absurd hi hn

/-! ## The legs of an admitted FETCH (R38) -/

theorem zip_append_right {α β : Type} (as : List α) (bs cs : List β) :
    as.zip (bs ++ cs) = as.zip bs ++ (as.drop bs.length).zip cs := by
  induction bs generalizing as with
  | nil => simp
  | cons b bs ih => cases as <;> simp [ih]

/-- A failure that has been offered puts every leg of a higher position beyond it. -/
theorem beyondFailure_of_offered {r q : Request} {g : Leg} {status : Status} {position : Nat}
    (hq : q.failure = if r.enters g then some (r.entryOf g status) else r.failure)
    (h : g.position < position) : q.beyondFailure position = true := by
  obtain ⟨⟨y, hy, hle⟩, -⟩ := r.offer_le (r.entryOf g status)
  rw [← Request.offer_failure, hy] at hq
  exact beyondFailure_eq_true ⟨y, hq, Nat.lt_of_le_of_lt hle h⟩

/-- What has a leg of a FETCH QUEUED at admission (R38): its station is not OFFLINE, and it does not lie
beyond the request's first failure. -/
def State.queues (s : State) (r : Request) (q : LegPlan) : Prop :=
  (q.station = 0 ∨ s.offline q.line q.station = false) ∧
    ∀ x, r.failure = some x → q.position ≤ x.position

section fetch

variable {s : State} {f : Frame} {p : Plan} {queued beyond : List LegPlan}

/-- The first legs are QUEUED in the lowest free records; the others are yet to be taken. -/
theorem entered_queued (k : Nat) (hl : p.legs = queued ++ beyond)
    (hq : ∀ q ∈ queued, s.queues (s.opened .fetch f p) q) :
    s.entered .fetch f k p =
      ((s.freeRecords.drop queued.length).zip beyond).foldl (admitFetchLeg k)
        ({ s with
            legs := queueRecords k (s.freeRecords.zip queued) s.legs
            lines := queueLines (s.freeRecords.zip queued) s.lines },
          { s.opened .fetch f p with legs := (s.freeRecords.zip queued).map Prod.fst }) := by
  rw [entered_fetch, hl, zip_append_right, List.foldl_append,
    foldl_admitFetchLeg_queued (s.freeRecords.zip queued), opened_legs, List.nil_append]
  intro b hb
  obtain ⟨hthere, hbefore⟩ := hq b.2 (List.of_mem_zip (a := b.1) (b := b.2) hb).2
  exact ⟨beyondFailure_eq_false hbefore, turnsAway_eq_false hthere⟩

/-- An admitted FETCH has a record for each of its legs. -/
theorem bound_ne_nil (hp : s.admission .fetch f = .ok p) (hl : p.legs = queued ++ beyond)
    (hne : queued ≠ []) : (s.freeRecords.zip queued).map Prod.fst ≠ [] := by
  obtain ⟨-, -, -, -, hroom⟩ := admission_ok hp
  obtain ⟨-, -, henough⟩ := roomFor_none hroom
  have hpos := List.length_pos_iff.2 hne
  rw [hl, List.length_append] at henough
  refine List.ne_nil_of_length_pos ?_
  rw [List.length_map, List.length_zip]
  omega

/-- The record that follows those bound to the first legs is another one. -/
theorem next_not_bound {i : Nat} (hi : s.freeRecords[queued.length]? = some i) :
    i ∉ (s.freeRecords.zip queued).map Prod.fst := by
  obtain ⟨hlt, rfl⟩ := List.getElem?_eq_some_iff.1 hi
  obtain ⟨hd, -⟩ := bound_free (s := s) (queued ++ [default])
  rw [zip_append_right, List.drop_eq_getElem_cons hlt, List.zip_cons_cons, List.map_append,
    List.map_cons] at hd
  exact fun hm => (List.nodup_append.1 hd).2.2 _ hm _ List.mem_cons_self rfl

/-- The legs beyond a NO_DATA point are cancelled. -/
theorem entered_beyond (k : Nat) (hl : p.legs = queued ++ beyond)
    (hq : ∀ q ∈ queued, s.queues (s.opened .fetch f p) q)
    (hb : ∀ q ∈ beyond, ∃ x, (s.opened .fetch f p).failure = some x ∧ x.position < q.position) :
    s.entered .fetch f k p =
      ({ s with
          legs := queueRecords k (s.freeRecords.zip queued) s.legs
          lines := queueLines (s.freeRecords.zip queued) s.lines },
        { s.opened .fetch f p with legs := (s.freeRecords.zip queued).map Prod.fst }) := by
  rw [entered_queued k hl hq, foldl_admitFetchLeg_beyond]
  intro b hm
  exact beyondFailure_eq_true (hb b.2 (List.of_mem_zip (a := b.1) (b := b.2) hm).2)

/-- The legs beyond the first to an OFFLINE station are cancelled. -/
theorem entered_offline {k i : Nat} {q : LegPlan} {rest : List LegPlan}
    (hp : s.admission .fetch f = .ok p) (hl : p.legs = queued ++ q :: rest)
    (hq : ∀ q ∈ queued, s.queues (s.opened .fetch f p) q)
    (hi : s.freeRecords[queued.length]? = some i) (h0 : q.station ≠ 0)
    (hoff : s.offline q.line q.station = true)
    (hx : ∀ x, (s.opened .fetch f p).failure = some x → q.position ≤ x.position) :
    s.entered .fetch f k p =
      ({ s with
          legs := (queueRecords k (s.freeRecords.zip queued) s.legs).put i
            (newLeg k q .queued).failedOffline
          lines := queueLines (s.freeRecords.zip queued) s.lines },
        { s.opened .fetch f p with
          failure := if (s.opened .fetch f p).failure.all (fun x => decide (q.position < x.position)) then
            some ((s.opened .fetch f p).entryOf (newLeg k q .queued).failedOffline .stationOffline)
            else (s.opened .fetch f p).failure
          legs := (s.freeRecords.zip queued).map Prod.fst ++ [i] }) := by
  obtain ⟨hlt, rfl⟩ := List.getElem?_eq_some_iff.1 hi
  have hrising := fetch_legs_rising hp
  rw [hl] at hrising
  obtain ⟨hrest, -⟩ := List.pairwise_cons.1 (List.pairwise_append.1 hrising).2.1
  rw [entered_queued k hl hq, List.drop_eq_getElem_cons hlt, List.zip_cons_cons, List.foldl_cons,
    admitFetchLeg_offline (beyondFailure_eq_false hx) (turnsAway_eq_true h0 hoff),
    foldl_admitFetchLeg_beyond]
  · rfl
  · intro b hb
    exact beyondFailure_of_offered (r := s.opened .fetch f p)
      (g := (newLeg k q .queued).failedOffline) rfl
      (hrest b.2 (List.of_mem_zip (a := b.1) (b := b.2) hb).2)

end fetch

/-- Settles O12: the legs are taken in the order of their positions, and with one QUEUED the request is
unfinished. -/
theorem admittedFetchQueuesItsLegs : Obligations.AdmittedFetchQueuesItsLegs := by
  intro s byte f p k queued beyond hf hp hk hl r bound filled lined ended hq
  have hexec : exec (.fetch byte) s = .next (s.frameTaken.dataRequest .fetch f) :=
    exec_dataCommand (kind := .fetch) hf
  have one : queued ≠ [] → ∃ i ∈ bound.map Prod.fst, ∃ g, filled.get i = some g ∧ g.state = .queued := by
    intro hne
    obtain ⟨i, hi⟩ := List.exists_mem_of_ne_nil _ (bound_ne_nil hp hl hne)
    exact ⟨i, hi, queueRecords_get hi⟩
  rw [hexec]
  refine ⟨fun hbeyond => ?_, fun q rest i hqr hi h0 hoff hx => ?_⟩
  · have hent := entered_beyond (s := s.frameTaken) k hl hq hbeyond
    refine ⟨fun hnil => ?_, fun hne => ?_⟩
    · subst hnil
      simp only [List.zip_nil_right, List.map_nil, opened_of_no_legs] at hent
      rw [dataRequest_completes hp hk hent (opened_phase ..) (opened_source ..) (opened_tag ..)
        (by simp)]
      rfl
    · obtain ⟨i, hi, hg⟩ := one hne
      rw [dataRequest_offers hp hk hent (List.append_nil _).symm
        ⟨i, hi, State.legQueued.legOpen hg⟩ fun _ hj => nomatch hj]
      rfl
  · have hent := entered_offline (s := s.frameTaken) (k := k) hp (hqr ▸ hl) hq hi h0 hoff hx
    refine ⟨fun hnil => ?_, fun hne => ?_⟩
    · subst hnil
      simp only [List.zip_nil_right, List.map_nil, List.nil_append, bound] at hent ⊢
      rw [dataRequest_completes hp hk hent (opened_phase ..) (opened_source ..) (opened_tag ..)
        (List.forall_mem_singleton.2 (not_legOpen_of_failed (Sparse.get_put_same _ _ _) rfl))]
      rfl
    · obtain ⟨j, hj, g, hg, hqueued⟩ := one hne
      have hji : j ≠ i := fun e => next_not_bound hi (e ▸ hj)
      rw [dataRequest_offers hp hk hent rfl
        ⟨j, hj, State.legQueued.legOpen ⟨g, (Sparse.get_put_ne _ _ hji).trans hg, hqueued⟩⟩
        (List.forall_mem_singleton.2 fun hi =>
          not_legOpen_of_failed (Sparse.get_put_same _ _ _) rfl hi.legOpen)]
      rfl

end Sys2Proof.Machine
end

section
/-!
SUPPORT. Every step keeps the streak counts, the station order and the session in their laws (R67, R80, R125,
R127, R130, R139): the laws of lines and stations by their closure under all that a step does, the law of the
session off the list of everything a command can do to the ledger.
-/

namespace Sys2Proof.Machine

/-! ## Lines and stations (R67, R80) -/

theorem LineLaw.congr {s t : State} (h : LineLaw s)
    (hstreak : ∀ l, (t.lines.get l).streak ≤ max 4 (s.lines.get l).streak)
    (hstations : t.stations = s.stations) : LineLaw t where
  streak l := by have := hstreak l; have := h.streak l; omega
  records l := hstations ▸ h.records l

theorem streak_modLine {s : State} {l : LineNo} {f : Line → Line}
    (hf : ∀ n : Line, (f n).streak ≤ max 4 n.streak) (m : LineNo) :
    ((s.modLine l f).lines.get m).streak ≤ max 4 (s.lines.get m).streak := by
  rw [State.modLine, Four.get_set]
  split
  · subst m; exact hf _
  · exact Nat.le_max_right _ _

theorem recordsOrdered_of_stations {a b : List StationRecord}
    (h : b.map StationRecord.station = a.map StationRecord.station) (ha : recordsOrdered a) :
    recordsOrdered b := by
  refine ⟨h ▸ ha.1, fun r hr => ?_⟩
  obtain ⟨q, hq, he⟩ := List.mem_map.1 (h ▸ List.mem_map_of_mem hr)
  exact he ▸ ha.2 q hq

/-- Records made one for each station named on a line stand in order (R80, R81). -/
theorem recordsOrdered_stationsOn (t : Tables) (l : LineNo) {f : Nat → StationRecord}
    (hf : ∀ n, (f n).station = n) : recordsOrdered ((t.stationsOn l).map f) := by
  have hmap : ((t.stationsOn l).map f).map StationRecord.station = t.stationsOn l := by
    simp [Function.comp_def, hf]
  refine ⟨by rw [hmap]; exact List.pairwise_lt_range.filter _, fun r hr => ?_⟩
  obtain ⟨n, hn, rfl⟩ := List.mem_map.1 hr
  obtain ⟨hlt, hnamed⟩ := List.mem_filter.1 hn
  simp only [List.mem_range, Bool.and_eq_true, decide_eq_true_eq] at hlt hnamed
  rw [hf]
  omega

/-- Lines with no streak, and records built anew for a set of tables, as a restart leaves them (R158, R160). -/
theorem LineLaw.of_fresh {s : State} {t : Tables} (hstreak : ∀ l, (s.lines.get l).streak = 0)
    (hstations : s.stations = Four.build t.freshRecords) : LineLaw s where
  streak l := hstreak l ▸ Nat.zero_le _
  records l := by
    rw [hstations, Four.get_build]
    exact recordsOrdered_stationsOn t l fun _ => rfl

theorem carriedRecord_station (old : List StationRecord) (n : Nat) :
    ((old.find? (fun r => decide (r.station = n))).getD (freshRecord n)).station = n := by
  cases h : old.find? (fun r => decide (r.station = n)) with
  | none => rfl
  | some r => simpa using List.find?_some h

theorem LineLaw.modRecord {s : State} (h : LineLaw s) (l : LineNo) (station : Nat)
    {f : StationRecord → StationRecord} (hf : ∀ r, (f r).station = r.station) :
    LineLaw (s.modRecord l station f) where
  streak := h.streak
  records m := by
    refine recordsOrdered_of_stations ?_ (h.records m)
    rw [State.modRecord, Four.get_set]
    split
    · subst m
      simp only [List.map_map]
      exact List.map_congr_left fun r _ => by
        simp only [Function.comp_apply]; split <;> simp [hf]
    · rfl

theorem swapLine_streak (now : Uptime) (r : LineSettings) (keeps : Nat → Bool) (n : Line) :
    (swapLine now r keeps n).streak = n.streak := by
  unfold swapLine
  (repeat' split) <;> rfl

theorem LineLaw.joinDemand {s : State} (h : LineLaw s) (l : LineNo) (i : Nat) :
    LineLaw (s.joinDemand l i) :=
  h.congr (streak_modLine (f := fun n => { n with demand := n.demand ++ [i] })
    fun _ => Nat.le_max_right _ _) rfl

theorem LineLaw.putLeg {s : State} (h : LineLaw s) (i : Nat) (g : Leg) : LineLaw (s.putLeg i g) :=
  ⟨h.streak, h.records⟩

theorem LineLaw.admitFetchLegs (slot : Nat) (bound : List (Nat × LegPlan)) {s : State}
    (h : LineLaw s) (r : Request) : LineLaw (bound.foldl (admitFetchLeg slot) (s, r)).1 := by
  induction bound generalizing s r with
  | nil => exact h
  | cons b bound ih =>
    refine ih (s := (admitFetchLeg slot (s, r) b).1) ?_ _
    simp only [admitFetchLeg]
    split
    · exact h
    · split
      · exact h.putLeg _ _
      · exact (h.putLeg _ _).joinDemand _ _

theorem LineLaw.admitStoreLegs (slot : Nat) {s : State} (h : LineLaw s) (r : Request)
    (bound : List (Nat × LegPlan)) : LineLaw (Machine.admitStoreLegs slot s r bound).1 := by
  have holds : ∀ (rest : List (Nat × LegPlan)) {u : State}, LineLaw u →
      LineLaw (rest.foldl (State.holdLegs slot) u) := by
    intro rest
    induction rest with
    | nil => exact id
    | cons b rest ih => exact fun hu => ih (hu.putLeg _ _)
  cases bound with
  | nil => exact h
  | cons b rest =>
    simp only [Machine.admitStoreLegs]
    split
    · exact h.putLeg _ _
    · exact holds rest ((h.putLeg _ _).joinDemand _ _)

/-- Admission lengthens demand queues alone. -/
theorem LineLaw.enter {s : State} (h : LineLaw s) (kind : RequestKind) (f : Frame) (slot : Nat)
    (p : Plan) : LineLaw (s.entered kind f slot p).1 := by
  cases kind with
  | fetch => exact h.admitFetchLegs slot _ _
  | store => exact h.admitStoreLegs slot _ _
  | storeSet => exact h.admitStoreLegs slot _ _

/-- The laws of lines and stations hold across everything a step is made of. -/
theorem lineLaw_closed : ClosedStep fun s t => LineLaw s → LineLaw t where
  refl _ h := h
  trans a b h := b (a h)
  countHost _ _ h := ⟨h.streak, h.records⟩
  scan _ _ _ h := ⟨h.streak, h.records⟩
  prompt _ _ _ _ _ h := ⟨h.streak, h.records⟩
  slot _ _ _ _ _ _ h := ⟨h.streak, h.records⟩
  leg _ _ _ _ _ _ h := ⟨h.streak, h.records⟩
  modLeg _ _ _ _ h := ⟨h.streak, h.records⟩
  cancelLeg s k i _ h := by
    rcases cancelLeg_cases k s i with ⟨-, he⟩ | ⟨g, -, he⟩ <;> rw [he]
    · exact h
    · exact h.congr (streak_modLine (s := s)
        (f := fun n => { n with demand := n.demand.filter (fun j => j != i) })
        fun _ => Nat.le_max_right _ _) rfl
  complete s k h := by
    rcases completeIfDone_cases s k with ⟨r, -, -, -, he⟩ | ⟨he, -⟩ <;> rw [he]
    · exact ⟨h.streak, h.records⟩
    · exact h
  line _ _ _ hf h := h.congr (streak_modLine hf) rfl
  record _ l n _ hf h := h.modRecord l n hf
  write _ _ _ h := ⟨h.streak, h.records⟩
  invalidate _ _ _ h := ⟨h.streak, h.records⟩
  enter _ kind f slot p _ _ h := ⟨(h.enter kind f slot p).streak, (h.enter kind f slot p).records⟩
  rest _ _ hr h := ⟨hr.lines ▸ h.streak, hr.stations ▸ h.records⟩
  begin _ _ _ _ h := ⟨h.streak, h.records⟩
  goOn _ _ _ h := ⟨h.streak, h.records⟩
  finish _ _ _ _ h := ⟨h.streak, h.records⟩
  restart _ _ _ _ _ h := ⟨h.streak, h.records⟩
  swap s t h := {
    streak := fun l => by rw [Four.get_build, swapLine_streak]; exact h.streak l
    records := fun l => by
      rw [Four.get_build]
      exact recordsOrdered_stationsOn t l (carriedRecord_station _) }
  pop _ _ _ _ _ h := ⟨h.streak, h.records⟩
  popReply s f rest k _ _ h := by
    rcases releaseSlot_cases { s with txQueue := rest } k with ⟨-, he⟩ | ⟨r, -, he⟩ <;> rw [he]
    · exact ⟨h.streak, h.records⟩
    · exact ⟨h.streak, h.records⟩
  warm s _ := .of_fresh (t := s.active) (fun l => congrArg Line.streak (Four.get_build _ l)) rfl
  halt _ h := ⟨fun l => by rw [Four.get_build]; exact h.streak l, h.records⟩
  cold _ _ _ _ _ := .of_fresh (fun l => congrArg Line.streak (Four.get_build _ l)) rfl

/-! ## The session (R125, R127, R130, R139) -/

/-- A session's owner is a host station and its timeout 5 to 600 s (R127). -/
def sessionInRange (a : Option Session) : Prop :=
  ∀ n, a = some n → hostAddress n.owner = true ∧ 5 ≤ n.timeout ∧ n.timeout ≤ 600

theorem Retimed.inRange {a b : Option Session} (h : Retimed a b) (ha : sessionInRange a) :
    sessionInRange b := by
  intro n hn
  obtain ⟨o, ho, howner, htimeout⟩ := retimed_some h hn
  rw [howner, htimeout]
  exact ha o ho

/-- The law reads the ledger alone. -/
theorem SessionLaw.of_ledger {t : State} {l : Ledger} (h : t.ledger = l)
    (owner : sessionInRange l.session)
    (stopped : l.operation ≠ .none → ∃ n, l.session = some n ∧ n.expiry = none)
    (draining : (l.supply && !l.resetLow) = true →
      (l.bridge = .draining ↔ l.operation.isActivate = true))
    (validated : l.operation.isActivate = true → l.staging.mark = true) : SessionLaw t := by
  subst h
  exact ⟨owner, stopped, draining, validated⟩

/-- With no operation pending the law asks for a session in range and a part that is not DRAINING. -/
theorem SessionLaw.of_quiet {t : State} {l : Ledger} (h : t.ledger = l)
    (owner : sessionInRange l.session) (hop : l.operation = .none)
    (hbridge : (l.supply && !l.resetLow) = true → l.bridge ≠ .draining) : SessionLaw t :=
  have hactivate : l.operation.isActivate = false := by rw [hop]; rfl
  .of_ledger h owner (absurd hop) (fun hp => by simp [hactivate, hbridge hp])
    (fun ha => by simp [hactivate] at ha)

/-- With an operation other than an ACTIVATE pending the part is not DRAINING (R139). -/
theorem SessionLaw.not_draining {s : State} (h : SessionLaw s) (ha : s.operation.isActivate = false)
    (hp : s.powered = true) : s.bridge ≠ .draining := by
  rw [Ne, h.draining hp, ha]
  simp

/-- A closing MREPLY of a RESTART stands in the queue only while no operation is pending (R119). -/
theorem QueueLaw.quiet_of_closing {s : State} (h : QueueLaw s) {f : TxFrame} {rest : List TxFrame}
    (hq : s.txQueue = f :: rest) (hf : f.isClosing = true) : s.operation = .none := by
  have hc := h.closing
  rw [State.closingClaims, hq, List.countP_cons_of_pos hf] at hc
  by_contra ho
  rw [if_neg ho] at hc
  omega

theorem SessionLaw.ledgerStep {i : Instr} {s t : State} (hqueue : QueueLaw s) (law : SessionLaw s)
    (h : LedgerStep i s t) : SessionLaw t := by
  have quiet : s.operation = .none → s.powered = true → s.bridge ≠ .draining := fun ho =>
    law.not_draining (by rw [ho]; rfl)
  cases h with
  | calm x hx hq h =>
    exact .of_ledger h (hx.inRange law.owner) (fun ho => hq ho ▸ law.stopped ho) law.draining
      law.validated
  | opened hq o ho h =>
    exact .of_quiet h (fun n hn => Option.some.inj hn ▸ ho) hq (quiet hq)
  | closed hq h =>
    have ho : s.operation = .none := by
      by_contra ho
      obtain ⟨n, hn, hstopped⟩ := law.stopped ho
      obtain hq | ⟨o, hs, hruns⟩ := hq
      · exact ho hq
      · rw [hn] at hs
        exact hruns (Option.some.inj hs ▸ hstopped)
    exact .of_quiet h (fun _ hn => nomatch hn) ho (quiet ho)
  | edited f byte hi hd ho x hx g h =>
    exact .of_quiet h (hx.inRange law.owner) ho.1 (quiet ho.1)
  | draining hq hm o ho dest tag drain h =>
    exact .of_ledger h (fun n hn => Option.some.inj hn ▸ law.owner o ho) (fun _ => ⟨_, rfl, rfl⟩)
      (fun _ => ⟨fun _ => rfl, fun _ => rfl⟩) (fun _ => hm)
  | swapped u x hx hm ht hb ho hd hu h =>
    exact .of_quiet h (hx.inRange law.owner) rfl fun _ => nofun
  | timedOut ha x hx h => exact .of_quiet h (hx.inRange law.owner) rfl fun _ => nofun
  | committing hq o ho dest tag h =>
    exact .of_ledger h (fun n hn => Option.some.inj hn ▸ law.owner o ho) (fun _ => ⟨_, rfl, rfl⟩)
      (fun hp => ⟨fun hb => absurd hb (quiet hq hp), nofun⟩) nofun
  | written dest tag job ho fault cells h =>
    have hn : s.operation ≠ .none := by rw [ho]; nofun
    have hc : s.powered = true → s.bridge ≠ .draining := law.not_draining (by rw [ho]; rfl)
    exact .of_ledger h law.owner (fun _ => law.stopped hn)
      (fun hp => ⟨fun hb => absurd hb (hc hp), nofun⟩) nofun
  | verified dest tag job ho hg x hx h =>
    exact .of_quiet h (hx.inRange law.owner) rfl (law.not_draining (by rw [ho]; rfl))
  | unverified dest tag job ho x hx h =>
    exact .of_quiet h (hx.inRange law.owner) rfl (law.not_draining (by rw [ho]; rfl))
  | warm f rest hf hc h =>
    have ho := hqueue.quiet_of_closing hf (by simp [TxFrame.isClosing, hc])
    exact .of_quiet h (fun _ hn => nomatch hn) rfl (quiet ho)
  | halted x hx supply resetLow bridge store hp hs h =>
    refine .of_quiet h (hx.inRange law.owner) rfl fun hpow => ?_
    obtain hb | hoff := hp
    · show bridge ≠ .draining
      rw [hb]
      nofun
    · exact absurd (hoff.symm.trans hpow) nofun
  | pins supply resetLow hp h =>
    exact .of_ledger h law.owner law.stopped (fun hpow => absurd (hp.symm.trans hpow) nofun)
      law.validated
  | running hi hb h => exact .of_quiet h (fun _ hn => nomatch hn) rfl fun _ => nofun

/-- Settles O56: the laws of lines and stations by their closure under all that a step does, the law of
the session by the cases of the ledger. -/
theorem stepKeepsLineAndSessionLaws : Obligations.StepKeepsLineAndSessionLaws := by
  intro s t hqueue hline law hstep
  refine ⟨step_closed lineLaw_closed hstep hline, ?_⟩
  unfold step at hstep
  split at hstep
  · cases hstep
    unfold State.tick
    split
    · exact ⟨law.owner, law.stopped, law.draining, law.validated⟩
    · exact law
  · rename_i c rest _
    have hqueue' : QueueLaw { s with pending := rest } :=
      ⟨hqueue.prompts, hqueue.closing, hqueue.replies, hqueue.slots, hqueue.replying⟩
    have law' : SessionLaw { s with pending := rest } :=
      ⟨law.owner, law.stopped, law.draining, law.validated⟩
    exact law'.ledgerStep hqueue' (exec_ledger hstep)

end Sys2Proof.Machine
end

section
/-!
SUPPORT. What a field line sends and what it hears (R65, R68, R70, R71): the frames of attempts, the start of
a reception in each state of the line, and the frames that are no reply to the attempt in progress.
-/

namespace Sys2Proof.Machine

/-! ## The frames of attempts (R68) -/

theorem legFrame_fetch {g : Leg} (h : g.direction = .fetch) (tag : Byte) :
    legFrame g tag = wireFrame (nat1 g.station) bridgeFieldAddress .fetch tag
      (nat2 g.first ++ [nat1 g.count]) := by
  simp only [legFrame, h]

theorem legFrame_store {g : Leg} (h : g.direction = .store) (tag : Byte) :
    legFrame g tag = wireFrame (nat1 g.station) bridgeFieldAddress .store tag
      (nat2 g.first ++ nat1 g.count :: wordBytes g.values) := by
  simp only [legFrame, h, List.append_assoc, List.cons_append, List.nil_append]

/-- Settles O22: the direction of a leg decides the kind of its frame and whether values follow. -/
theorem attemptFramesCarryTheWork : Obligations.AttemptFramesCarryTheWork :=
  fun _ _ _ _ tag => ⟨(legFrame_fetch · tag), (legFrame_store · tag), rfl, rfl⟩

/-! ## Receptions (R65, R70) -/

theorem listens_iff {s : State} {l : LineNo} :
    s.listens l = true ↔ s.serving = true ∧ (s.settings l).enabled = true := by
  simp [State.listens]

theorem exec_fieldReceptionStart {s : State} {l : LineNo} (h : s.listens l = true) :
    exec (.fieldReceptionStart l) s = .next { s with
      lines := s.lines.set l (s.lines.get l).startReception } := by
  simp only [exec, execFieldReceptionStart, h, if_true, State.modLine]

theorem exec_fieldReceptionStart_deaf {s : State} {l : LineNo} (h : s.listens l = false) :
    exec (.fieldReceptionStart l) s = .next s := by
  simp [exec, execFieldReceptionStart, h]

/-- An IDLE line and one in GUARD hold the guard time back (R65). -/
theorem startReception_held {n : Line} (h : n.phase = .idle ∨ ∃ x, n.phase = .guard x) :
    n.startReception = { n with phase := .guard none, receiving := true } := by
  obtain h | ⟨x, h⟩ := h <;> simp only [Line.startReception, h]

theorem startReception_waiting {n : Line}
    (h : (∃ x, n.phase = .awaiting x) ∨ ∃ x, n.phase = .backoff x) :
    n.startReception = { n with receiving := true } := by
  obtain ⟨x, h⟩ | ⟨x, h⟩ := h <;> simp only [Line.startReception, h]

theorem startReception_sending {n : Line} {frame : List Byte} {timeout : Nat}
    (h : n.phase = .sending frame timeout) : n.startReception = n := by
  simp only [Line.startReception, h]

/-- Settles O24, by what the start of a reception is in each state of the line. -/
theorem receptionHoldsGuardTime : Obligations.ReceptionHoldsGuardTime := by
  intro s l
  refine ⟨fun hs he => ?_, fun hd => exec_fieldReceptionStart_deaf (by simp [State.listens, hd])⟩
  have hexec := exec_fieldReceptionStart (listens_iff.2 ⟨hs, he⟩)
  refine ⟨fun hp => ?_, fun hp => ?_, fun frame timeout hp => ?_⟩
  · rw [hexec, startReception_held hp]
  · rw [hexec, startReception_waiting hp]
  · rw [hexec, startReception_sending hp, Four.set_get]

/-! ## Strays (R70, R71) -/

theorem exec_fieldFrameReceived {s : State} {l : LineNo} {bytes : List Byte} {f : Frame}
    (h : s.listens l = true) (hr : (s.lines.get l).receiving = true)
    (hf : fieldFrameOf bytes = some f) :
    exec (.fieldFrameReceived l bytes) s = .next (s.fieldFrame l f) := by
  simp only [exec, execFieldFrameReceived, h, hr, Bool.and_self, if_true, hf]

theorem exec_fieldGapAbandon {s : State} {l : LineNo} (h : s.listens l = true)
    (hr : (s.lines.get l).receiving = true) :
    exec (.fieldGapAbandon l) s = .next (s.fieldAbandon l) := by
  simp only [exec, execFieldGapAbandon, h, hr, Bool.and_self, if_true]

/-- The phase of a line when a reception outside an attempt ends: GUARD's guard time runs again in full
(R65). -/
def LinePhase.afterReception (p : LinePhase) (now : Uptime) (guardTime : Nat) : LinePhase :=
  match p with
  | .guard _ => .guard (some (after now guardTime))
  | other => other

theorem endReception_eq (s : State) (l : LineNo) : s.endReception l = { s with
    lines := s.lines.set l { s.lines.get l with
      receiving := false
      phase := (s.lines.get l).phase.afterReception s.uptime (s.settings l).guardTime } } := rfl

theorem stray_eq (s : State) (l : LineNo) : (s.endReception l).countStray l = { s with
    lines := s.lines.set l { s.lines.get l with
      receiving := false
      phase := (s.lines.get l).phase.afterReception s.uptime (s.settings l).guardTime
      counters := { (s.lines.get l).counters with
        strays := satInc (s.lines.get l).counters.strays } } } := by
  simp only [endReception_eq, State.countStray, State.countLine, State.modLine, Four.get_set_same,
    Four.set_set]

/-- A good frame that does not match the attempt in one of its fields is not accepted (R71). -/
theorem accepts_eq_false {s : State} {w : Work} {f : Frame}
    (h : f.dest ≠ 127#8 ∨ f.source ≠ nat1 (s.workStation w) ∨ f.kind ≠ 0x41#8 ∨
      some f.tag ≠ s.workTag w) : s.accepts w f = false := by
  unfold State.accepts
  obtain h | h | h | h := h
  · simp [bridgeFieldAddress, h]
  · simp [h]
  · simp [FrameKind.code, h]
  · simp [h]

theorem fieldFrame_outside {s : State} {l : LineNo} (h : (s.lines.get l).phase.attempting = false)
    (f : Frame) : s.fieldFrame l f = (s.endReception l).countStray l := by
  unfold State.fieldFrame
  cases hp : (s.lines.get l).phase <;> simp [LinePhase.attempting, hp] at h ⊢

theorem fieldAbandon_outside {s : State} {l : LineNo}
    (h : (s.lines.get l).phase.attempting = false) : s.fieldAbandon l = s.endReception l := by
  unfold State.fieldAbandon
  cases hp : (s.lines.get l).phase <;> simp [LinePhase.attempting, hp] at h ⊢

theorem fieldFrame_unmatched {s : State} {l : LineNo} {f : Frame} {w : Work} {x : Uptime}
    (hp : (s.lines.get l).phase = .awaiting x) (hc : (s.lines.get l).current = some w)
    (hgood : f.checkGood = true) (ha : s.accepts w f = false) :
    s.fieldFrame l f = (s.endReception l).countStray l := by
  simp only [State.fieldFrame, hp, State.awaitedFrame, hgood, Bool.not_true, Bool.false_eq_true,
    if_false, hc, ha]

/-- Settles O25: every such frame is a stray, and what the end of its reception leaves of the line's state
is `LinePhase.afterReception`. -/
theorem straysAreCountedAndDiscarded : Obligations.StraysAreCountedAndDiscarded := by
  intro s l bytes f hs he hr hf
  have hl := listens_iff.2 ⟨hs, he⟩
  rw [exec_fieldFrameReceived hl hr hf, exec_fieldGapAbandon hl hr]
  have outside : (s.lines.get l).phase.attempting = false →
      s.fieldFrame l f = (s.endReception l).countStray l ∧ s.fieldAbandon l = s.endReception l :=
    fun h => ⟨fieldFrame_outside h f, fieldAbandon_outside h⟩
  refine ⟨fun x hp => ?_, fun x hp => ?_, fun x w hp hc hgood hmiss => ?_⟩
  · obtain ⟨hframe, habandon⟩ := outside (by rw [hp]; rfl)
    rw [hframe, habandon, stray_eq, endReception_eq, hp]
    exact ⟨rfl, rfl⟩
  · obtain ⟨hframe, habandon⟩ := outside (by rw [hp]; rfl)
    rw [hframe, habandon, stray_eq, endReception_eq, hp]
    exact ⟨rfl, rfl⟩
  · rw [fieldFrame_unmatched hp hc hgood (accepts_eq_false hmiss), stray_eq, hp]
    rfl

end Sys2Proof.Machine
end

section
/-!
SUPPORT. The end of an attempt by an accepted reply or without one (R71 to R76, R87, R88, R99): BUSY and the
backoff, the end of a scan fetch, and the end of a probe.
-/

namespace Sys2Proof.Machine

theorem hearing_current {s : State} {l : LineNo} {w : Work} (h : s.hearing l w) :
    (s.lines.get l).current = some w := by
  obtain ⟨-, -, -, -, hc⟩ := h
  exact hc

/-! ## BUSY (R72, R75) -/

/-- A result that is no failed attempt shows the station ONLINE (R82). -/
theorem told_answered {s : State} {l : LineNo} {w : Work} {res : AttemptResult}
    (h : res.failed = false) : s.told l w res = { s with
      lines := s.lines.set l { s.lines.get l with
        receiving := false
        wire := (s.settings l).wire
        counters := countResult res (s.lines.get l).counters }
      stations := s.stations.set l ((s.stations.get l).map (fun x =>
        if x.station = s.workStation w then
          { x with health := .online, failures := 0, probe := .none }
        else x)) } := by
  have hno : ¬(res = .timeout ∨ res = .lineError) := by
    rintro (rfl | rfl) <;> cases h
  simp only [State.told, hno, if_false]

/-- With attempts remaining a BUSY answer starts the backoff (R75). -/
theorem afterAttempt_busy {s : State} {l : LineNo} {w : Work} {station : Nat} {offline : Bool}
    (h : s.workAttempts w ≤ (s.settings l).retryLimit) :
    s.afterAttempt l w station offline .busy = { s with
      lines := s.lines.set l { s.lines.get l with
        phase := .backoff (after s.uptime (s.settings l).busyBackoff) } } := by
  have hleft : ¬(s.settings l).retryLimit + 1 ≤ s.workAttempts w := by omega
  simp only [State.afterAttempt, hleft, decide_false, Bool.false_eq_true, if_false, State.modLine]

theorem exec_busyBackoffExpiry {s : State} {l : LineNo} {expiry : Uptime} (hs : s.serving = true)
    (hp : (s.lines.get l).phase = .backoff expiry) (hr : reached s.uptime expiry = true) :
    exec (.busyBackoffExpiry l) s = .next (s.backoffOver l) := by
  simp only [exec, execBusyBackoffExpiry, hp, hs, hr, Bool.and_self, if_true]

theorem backoffOver_eq (s : State) (l : LineNo) : s.backoffOver l = { s with
    lines := s.lines.set l { s.lines.get l with
      phase := .guard (if (s.lines.get l).receiving then none else
        some (after s.uptime (s.settings l).guardTime)) } } := by
  unfold State.backoffOver
  split <;> rfl

/-- Settles O31: the line and the station take the answer, and what follows it is the backoff. -/
theorem busyAnswerBacksOff : Obligations.BusyAnswerBacksOff := by
  refine fun s l => ⟨fun w bytes flags count rest hh hprobe hleft ha => ?_,
    fun expiry hs hp hr => ?_⟩
  · obtain ⟨hexec, hcurrent, -⟩ := (AttemptFails.busy bytes rest flags count hh ha).exec
    have hkept : (s.told l w .busy).workAttempts w ≤ ((s.told l w .busy).settings l).retryLimit := by
      cases w <;> exact hleft
    rw [hexec, attemptEnd_work hcurrent hprobe, afterAttempt_busy hkept, told_answered rfl]
    simp only [Four.get_set_same, Four.set_set]
    rfl
  · rw [exec_busyBackoffExpiry hs hp hr, backoffOver_eq]

/-! ## The end of a scan fetch (R99) -/

/-- An OK reply of the right count and length gives a fetch its values (R72). -/
theorem judgeReply_fetch_ok {n : Nat} {flags : Byte} {values : List Byte} (hn : n ≤ 60)
    (hv : values.length = 2 * n) :
    judgeReply .fetch n (0x00#8 :: flags :: nat1 n :: values) = .success (wordsOf values) := by
  have hcount : (nat1 n).toNat = n := toNat_nat1 (by omega)
  simp only [judgeReply, BitVec.toNat_ofNat, Nat.zero_mod, hcount, hv, if_true]

/-- Settles O26: the line and the station take the answer, the line drops its work, and the region and the
entry take the values. -/
theorem scanReplyFillsItsRegion : Obligations.ScanReplyFillsItsRegion := by
  intro s l i e bytes values flags hh he ha hn hv
  have hshape : s.workShape (.scan i) = (.fetch, e.count) := by simp [State.workShape, he]
  have hstation : s.workStation (.scan i) = e.station := by simp [State.workStation, he]
  have hcurrent : (s.lines.get l).current = some (.scan i) := hearing_current hh
  rw [accepted_exec hh ha, hshape, judgeReply_fetch_ok hn hv, attemptEnd_work hcurrent rfl,
    told_answered rfl, hstation]
  simp only [State.afterAttempt, State.finishWork, dropWork_scan, State.handOver, State.scanDone,
    AttemptResult.outcome, he, Four.get_set_same, Four.set_set]
  rfl

/-! ## Probes (R76, R87, R88) -/

theorem exec_probeTimerExpiry {s : State} {l : LineNo} {station : Nat} {x : StationRecord}
    {next : Uptime} (hx : s.record l station = some x) (hs : s.serving = true)
    (hp : x.probe = .waiting next) (hr : reached s.uptime next = true) :
    exec (.probeTimerExpiry l station) s = .next (s.listProbe l station) := by
  simp only [exec, execProbeTimerExpiry, hx, Option.map_some, hp, hs, hr, Bool.and_self, if_true]

/-- Settles O33: `attemptEnd_probe` is the end of a probe with any result. -/
theorem probesReachOfflineStations : Obligations.ProbesReachOfflineStations := by
  refine fun s l station => ⟨fun x next hx hs hp hr => exec_probeTimerExpiry hx hs hp hr,
    fun tag discard bytes flags high low hh ha => ?_, fun tag discard c res hf => ?_⟩
  · have hcurrent : (s.lines.get l).current = some (.probe station tag discard) := hearing_current hh
    have hok : judgeReply .fetch 1 [0x00#8, flags, 1#8, high, low] =
        .success (wordsOf [high, low]) := judgeReply_fetch_ok (n := 1) (by omega) rfl
    rw [accepted_exec hh ha]
    show Host.Outcome.next (s.attemptEnd l (judgeReply .fetch 1 _)) = _
    rw [hok, attemptEnd_probe hcurrent]
    simp only [reduceCtorEq, or_self, if_false]
    rfl
  · obtain ⟨hexec, hcurrent, hno⟩ := hf.exec
    rw [hexec, attemptEnd_probe hcurrent]
    cases res with
    | success v => exact absurd rfl (hno v)
    | _ => rfl

end Sys2Proof.Machine
end

section
/-!
SUPPORT. How a line takes work (R66 to R68), one equation for each kind: at the expiry of a guard time, in the
event of the work's joining (R63), and how the line gives that work back to an event that falls together with
the joining (R61, R90, R97, R147, log entry 25).
-/

namespace Sys2Proof.Machine

/-! ## The arbiter (R66) -/

theorem arbiter_probe {n : Line} {station : Nat} {rest : List Nat} (hp : n.probes = station :: rest)
    (h : n.previous ≠ .probe ∨ (n.demand = [] ∧ n.scans = [])) : arbiter n = some (.probe station) := by
  by_cases hq : n.previous = .probe
  · obtain ⟨hd, hs⟩ := h.resolve_left (not_not.2 hq)
    simp [arbiter, probeFirst, demandNext, hp, hq, hd, hs]
  · simp [arbiter, probeFirst, hp, hq]

theorem probeFirst_none {n : Line} (h : n.probes = [] ∨ n.previous = .probe) : probeFirst n = none := by
  obtain h | h := h <;> simp [probeFirst, h]

theorem arbiter_demand {n : Line} {i : Nat} {rest : List Nat}
    (hp : n.probes = [] ∨ n.previous = .probe) (hd : n.demand = i :: rest)
    (h : n.scans = [] ∨ n.streak < 4) : arbiter n = some (.demand i) := by
  simp [arbiter, probeFirst_none hp, demandNext, h, hd]

theorem arbiter_scan {n : Line} {i : Nat} {rest : List Nat}
    (hp : n.probes = [] ∨ n.previous = .probe) (hd : n.demand = [] ∨ 4 ≤ n.streak)
    (hs : n.scans = i :: rest) : arbiter n = some (.scan i) := by
  have hnext : demandNext n = none := by
    obtain hd | hd := hd
    · simp [demandNext, hd]
    · simp [demandNext, hs, Nat.not_lt.2 hd]
  simp [arbiter, probeFirst_none hp, hnext, hs]

theorem arbiter_none {n : Line} (hp : n.probes = []) (hd : n.demand = []) (hs : n.scans = []) :
    arbiter n = none := by
  simp [arbiter, probeFirst, demandNext, hp, hd, hs]

/-! ## The frames of the work at hand (R68) -/

theorem workFrame_leg {s : State} {l : LineNo} {i : Nat} {g : Leg} (h : s.legs.get i = some g)
    (tag : Byte) : s.workFrame l (.leg i) tag = legFrame g tag := by
  simp [State.workFrame, h]

theorem workFrame_scan {s : State} {l : LineNo} {i : Nat} {e : ScanEntry}
    (h : s.active.scan.get i = some e) (tag : Byte) :
    s.workFrame l (.scan i) tag = scanFrame e tag := by
  simp [State.workFrame, h]

/-- A leg's frame does not read the leg's state. -/
theorem workFrame_takeDemand (s : State) (l : LineNo) (i : Nat) (tag : Byte) :
    (s.takeDemand l i).workFrame l (.leg i) tag = s.workFrame l (.leg i) tag := by
  simp only [State.workFrame, State.takeDemand, State.modLeg_legs, State.modLine_legs,
    Sparse.get_modify, if_true, Option.map_map]
  rfl

/-! ## Taking (R66 to R68) -/

section take

variable {s : State} {l : LineNo} {i station : Nat} {rest : List Nat}

theorem take_probe (hp : (s.lines.get l).probes = station :: rest)
    (ha : arbiter (s.lines.get l) = some (.probe station)) :
    let n := s.lines.get l
    s.take l = { s with
      stations := s.stations.set l ((s.stations.get l).map (fun x =>
        if x.station = station then { x with probe := .probing } else x))
      lines := s.lines.set l
        { n.sent (s.settings l) (probeFrame (s.settings l) station n.nextTag) with
          current := some (.probe station (some n.nextTag) false)
          probes := rest
          previous := .probe
          counters := { n.counters with
            attempts := satInc n.counters.attempts
            probes := satInc n.counters.probes } } } := by
  simp only [State.take, ha, State.startAttempt, State.noteAttempt, State.takeProbe, State.modLine,
    State.modRecord, Four.get_set_same, Four.set_set, hp, List.tail_cons]
  rfl

theorem take_demand (hd : (s.lines.get l).demand = i :: rest)
    (ha : arbiter (s.lines.get l) = some (.demand i)) :
    let n := s.lines.get l
    s.take l = { s with
      legs := s.legs.modify i (fun x =>
        { x with state := .inFlight, attempts := x.attempts + 1, tag := some n.nextTag })
      lines := s.lines.set l
        { n.sent (s.settings l) (s.workFrame l (.leg i) n.nextTag) with
          current := some (.leg i)
          demand := rest
          streak := min 4 (n.streak + 1)
          previous := .demand } } := by
  simp only [State.take, ha, startAttempt_leg, workFrame_takeDemand]
  simp only [State.takeDemand, State.modLine, State.modLeg, Sparse.modify_modify, Four.get_set_same,
    Four.set_set, hd, List.tail_cons]
  rfl

theorem take_scan (hs : (s.lines.get l).scans = i :: rest)
    (ha : arbiter (s.lines.get l) = some (.scan i)) :
    let n := s.lines.get l
    s.take l = { s with
      scans := s.scans.modify i (fun x => { x with state := .inFlight 1 (some n.nextTag) })
      lines := s.lines.set l
        { n.sent (s.settings l) (s.workFrame l (.scan i) n.nextTag) with
          current := some (.scan i)
          scans := rest
          streak := 0
          previous := .scan } } := by
  simp only [State.take, ha, startAttempt_scan, State.takeScan, State.modLine, State.modScan,
    Sparse.modify_modify, Four.get_set_same, Four.set_set, hs, List.tail_cons]
  rfl

theorem take_none (ha : arbiter (s.lines.get l) = none) :
    s.take l = { s with lines := s.lines.set l { s.lines.get l with phase := .idle } } := by
  simp only [State.take, ha, State.modLine]

/-- A take does not read the state of the line. -/
theorem take_of_phase (p : LinePhase) :
    State.take { s with lines := s.lines.set l { s.lines.get l with phase := p } } l = s.take l := by
  have ha : arbiter { s.lines.get l with phase := p } = arbiter (s.lines.get l) := rfl
  simp only [State.take, Four.get_set_same, ha]
  cases arbiter (s.lines.get l) with
  | none => simp only [State.modLine, Four.get_set_same, Four.set_set]
  | some c =>
    cases c <;>
    · simp only [State.startAttempt, State.noteAttempt, State.takeProbe, State.takeDemand,
        State.takeScan, State.modLine, State.modLeg, State.modScan, State.modRecord,
        Four.get_set_same, Four.set_set]
      rfl

end take

/-! ## The guard time's expiry (R65, R66, R74) -/

theorem exec_guardTimeExpiry {s : State} {l : LineNo} {expiry : Uptime} (hs : s.serving = true)
    (hp : (s.lines.get l).phase = .guard (some expiry)) (hr : reached s.uptime expiry = true) :
    exec (.guardTimeExpiry l) s = .next (s.guardOver l) := by
  simp only [exec, execGuardTimeExpiry, hp, hs, hr, Bool.and_self, if_true]

theorem guardOver_work {s : State} {l : LineNo} {w : Work} (h : (s.lines.get l).current = some w) :
    s.guardOver l = s.startAttempt l w := by
  simp only [State.guardOver, h]

theorem guardOver_idle {s : State} {l : LineNo} (h : (s.lines.get l).current = none) :
    s.guardOver l = s.take l := by
  simp only [State.guardOver, h]

theorem noteAttempt_inFlight {s : State} {l : LineNo} {i a : Nat} {c : ScanRun} {old : Option Byte}
    (h : s.scans.get i = some c) (hc : c.state = .inFlight a old) (tag : Byte) :
    s.noteAttempt l (.scan i) tag =
      s.modScan i (fun x => { x with state := .inFlight (a + 1) (some tag) }) := by
  refine congrArg (fun m => { s with scans := m }) (Sparse.modify_congr fun x hx => ?_)
  obtain rfl : c = x := Option.some.inj (h.symm.trans hx)
  simp only [hc]

theorem noteAttempt_finishing {s : State} {l : LineNo} {i a : Nat} {c : ScanRun} {old : Option Byte}
    (h : s.scans.get i = some c) (hc : c.state = .finishing a old) (tag : Byte) :
    s.noteAttempt l (.scan i) tag =
      s.modScan i (fun x => { x with state := .finishing (a + 1) (some tag) }) := by
  refine congrArg (fun m => { s with scans := m }) (Sparse.modify_congr fun x hx => ?_)
  obtain rfl : c = x := Option.some.inj (h.symm.trans hx)
  simp only [hc]

/-- Settles O21: the current work, or the order of the arbiter that applies, decides the equation. -/
theorem guardExpiryAttemptsOrTakes : Obligations.GuardExpiryAttemptsOrTakes := by
  intro s l expiry hs hphase hr
  rw [exec_guardTimeExpiry hs hphase hr]
  refine ⟨fun i g hc hg => ?_, fun i e c a tag hc he hrun hstate => ?_,
    fun i e c a tag hc he hrun hstate => ?_, fun hc => ?_⟩
  · rw [guardOver_work hc, startAttempt_leg, workFrame_leg hg]
    rfl
  · rw [guardOver_work hc, State.startAttempt, noteAttempt_inFlight hrun hstate, workFrame_scan he]
    rfl
  · rw [guardOver_work hc, State.startAttempt, noteAttempt_finishing hrun hstate, workFrame_scan he]
    rfl
  · rw [guardOver_idle hc]
    refine ⟨fun station rest hp h => ?_, fun i g rest hp hd h hg => ?_,
      fun i e rest hp hd h he => ?_, fun hp hd h => ?_⟩
    · rw [take_probe hp (arbiter_probe hp h)]
    · rw [take_demand hd (arbiter_demand hp hd h), workFrame_leg hg]
    · rw [take_scan h (arbiter_scan hp hd h), workFrame_scan he]
    · rw [take_none (arbiter_none hp hd h)]

/-! ## Work that joins an IDLE line (R63, R66), and its giving back (log entry 25) -/

theorem kick_takes {s : State} {l : LineNo} (he : (s.settings l).enabled = true)
    (hi : (s.lines.get l).phase = .idle) :
    s.kick l = (s.take l).modLine l (fun n => { n with
      joined := n.current.map (fun _ => s.uptime) }) := by
  simp only [State.kick, he, hi, decide_true, Bool.and_self, if_true]

theorem kick_stays {s : State} {l : LineNo}
    (h : (s.settings l).enabled = false ∨ (s.lines.get l).phase ≠ .idle) : s.kick l = s := by
  obtain h | h := h <;> simp [State.kick, h]

theorem reached_self (now : Uptime) : reached now now = true := by simp [reached]

/-- An IDLE line takes as at the expiry of a guard time. -/
theorem exec_guardTimeExpiry_joining {s : State} {l : LineNo} (hs : s.serving = true)
    (hc : (s.lines.get l).current = none) :
    exec (.guardTimeExpiry l) (s.modLine l (fun n => { n with phase := .guard (some s.uptime) })) =
      .next (s.take l) := by
  have hline : (s.modLine l (fun n => { n with phase := .guard (some s.uptime) })).lines.get l =
      { s.lines.get l with phase := .guard (some s.uptime) } := Four.get_set_same _ _ _
  refine (exec_guardTimeExpiry (s := s.modLine l (fun n => { n with phase := .guard (some s.uptime) })) hs
    (congrArg Line.phase hline) (reached_self _)).trans ?_
  rw [guardOver_idle (by rw [hline]; exact hc)]
  exact congrArg Host.Outcome.next (take_of_phase _)

/-- An update that leaves the value listed under the key as it is. -/
theorem Sparse.modify_eq_self {α : Type} {k : Nat} {f : α → α} {m : Sparse α}
    (h : ∀ a, m.get k = some a → f a = a) : m.modify k f = m := by
  induction m with
  | nil => rfl
  | cons e m ih =>
    obtain ⟨j, b⟩ := e
    by_cases hj : j = k
    · simp [Sparse.modify, hj, h b (by simp [Sparse.get, hj])]
    · simp only [Sparse.modify, if_neg hj]
      rw [ih fun a ha => h a (by simpa [Sparse.get, hj] using ha)]

/-- The line with the counts that stay as `k` has them when work is given back (R67, R68, R79, R165). -/
def Line.countedAs (n k : Line) : Line :=
  { n with nextTag := k.nextTag, streak := k.streak, previous := k.previous, counters := k.counters }

/-- An IDLE line that took work, `m` being the line then, gives it back and stands as it stood but for the
counts. -/
theorem untaken_eq_countedAs {n m : Line} {w : Work} (hphase : n.phase = .idle)
    (hcurrent : n.current = none) (hjoined : n.joined = none) (hreceiving : m.receiving = n.receiving)
    (hwire : m.wire = n.wire) (hdemand : (m.untaken w).demand = n.demand)
    (hscans : (m.untaken w).scans = n.scans) (hprobes : (m.untaken w).probes = n.probes) :
    m.untaken w = n.countedAs m := by
  simp only [Line.untaken] at hdemand hscans hprobes
  simp only [Line.untaken, Line.countedAs, hphase, hcurrent, hjoined, hreceiving, hwire, hdemand, hscans,
    hprobes]

/-- The work's own record does not read the lines when the line gives the work back. -/
theorem giveBack_of_lines (s : State) (lines : Four Line) (l : LineNo) (w : Work) :
    State.giveBack { s with lines := lines } l w = { s.giveBack l w with lines := lines } := by
  cases w <;> rfl

/-- A line that took `w` at its joining, `t` being the state after the take and `m` the line in it, has just
taken it. It gives the work back, and where that undoes the take, all stands as before but for the counts. -/
theorem kick_withdraws {s t : State} {l : LineNo} {m : Line} {w : Work} {frame : List Byte}
    {timeout : Nat} (he : (s.settings l).enabled = true) (hi : (s.lines.get l).phase = .idle)
    (ht : s.take l = t) (hm : t.lines = s.lines.set l m) (hc : m.current = some w)
    (hp : m.phase = .sending frame timeout) (hline : m.untaken w = (s.lines.get l).countedAs m)
    (hrecord : State.giveBack { t with lines := s.lines } l w = s) :
    (s.kick l).justTook (fun m x => decide (m = l) && decide (x = w)) l = true ∧
      (s.kick l).untake l = { s with
        lines := s.lines.set l ((s.lines.get l).countedAs ((s.kick l).lines.get l)) } := by
  have hk : s.kick l = { t with lines := s.lines.set l { m with joined := some s.uptime } } := by
    rw [kick_takes he hi, ht]
    simp only [State.modLine, hm, Four.get_set_same, Four.set_set, hc, Option.map_some]
  have hn : (s.kick l).lines.get l = { m with joined := some s.uptime } := by
    rw [hk]; exact Four.get_set_same _ _ _
  have hnow : (s.kick l).uptime = s.uptime := (traffic.kick s l).uptime
  have htook : ((s.kick l).lines.get l).justTaken (s.kick l).uptime = some w := by
    rw [justTaken_eq, hn, hnow]
    exact ⟨⟨frame, timeout, hp⟩, hc, rfl⟩
  refine ⟨by simp [State.justTook, htook], ?_⟩
  have hback : (s.kick l).untake l =
      { State.giveBack { t with lines := s.lines } l w with
        lines := s.lines.set l (m.untaken w) } := by
    simp only [State.untake, htook]
    simp only [hk, State.modLine, Four.get_set_same, Four.set_set, ← giveBack_of_lines]
    rfl
  rw [hback, hrecord, hline, hn]
  rfl

/-- Settles O14: the take is the one at a guard time's expiry, and for each kind of work its equation shows
that the giving back undoes it. -/
theorem idleLineTakesAtOnce : Obligations.IdleLineTakesAtOnce := by
  intro s l hs hcurrent n k withdrawable
  refine ⟨fun he hi => ⟨s.take l, exec_guardTimeExpiry_joining hs hcurrent, kick_takes he hi⟩, kick_stays,
    fun he hi hj hr hw => ⟨fun i rest g hp hd h hg hq ha htag => ?_,
      fun i rest c hp hd h hc hq => ?_, fun station rest hp h hlisted => ?_⟩⟩
  · refine kick_withdraws he hi (take_demand hd (arbiter_demand hp hd h)) rfl rfl rfl
      (untaken_eq_countedAs hi hcurrent hj hr.symm hw.symm hd.symm rfl rfl) ?_
    refine congrArg (fun m => { s with legs := m }) ?_
    rw [Sparse.modify_modify]
    refine Sparse.modify_eq_self fun x hx => ?_
    obtain rfl : g = x := Option.some.inj (hg.symm.trans hx)
    simp only [← hq, ← ha, ← htag]
  · refine kick_withdraws he hi (take_scan h (arbiter_scan hp hd h)) rfl rfl rfl
      (untaken_eq_countedAs hi hcurrent hj hr.symm hw.symm rfl h.symm rfl) ?_
    refine congrArg (fun m => { s with scans := m }) ?_
    rw [Sparse.modify_modify]
    refine Sparse.modify_eq_self fun x hx => ?_
    obtain rfl : c = x := Option.some.inj (hc.symm.trans hx)
    simp only [← hq]
  · refine kick_withdraws he hi (take_probe hp (arbiter_probe hp h)) rfl rfl rfl
      (untaken_eq_countedAs hi hcurrent hj hr.symm hw.symm rfl rfl hp.symm) ?_
    refine congrArg (fun m => { s with stations := m }) ?_
    have hsame : ∀ x ∈ s.stations.get l, ((fun r : StationRecord =>
        if r.station = station then { r with probe := .listed } else r) ∘ fun x =>
        if x.station = station then { x with probe := .probing } else x) x = x := by
      intro x hx
      by_cases hx' : x.station = station
      · simp only [Function.comp_apply, if_pos hx', ← hlisted x hx hx']
      · simp [hx']
    rw [Four.get_set_same, Four.set_set, List.map_map, List.map_congr_left hsame, List.map_id',
      Four.set_get]

end Sys2Proof.Machine
end

section
/-!
SUPPORT. The drain test and the swap (R141 to R145): what the swap is field by field, what it does to one line
(R77), and which stations keep their record (R81).
-/

namespace Sys2Proof.Machine

/-! ## One line at a swap (R77, R65) -/

section swapLine

variable {now : Uptime} {r : LineSettings} {keeps : Nat → Bool} {n : Line}

theorem swapLine_probes : (swapLine now r keeps n).probes = n.probes.filter keeps := by
  unfold swapLine
  (repeat' split) <;> rfl

theorem swapLine_queues : (swapLine now r keeps n).demand = n.demand ∧
    (swapLine now r keeps n).scans = n.scans := by
  unfold swapLine
  (repeat' split) <;> exact ⟨rfl, rfl⟩

theorem swapLine_counts : (swapLine now r keeps n).counters = n.counters ∧
    (swapLine now r keeps n).nextTag = n.nextTag ∧ (swapLine now r keeps n).streak = n.streak ∧
    (swapLine now r keeps n).previous = n.previous := by
  unfold swapLine
  (repeat' split) <;> exact ⟨rfl, rfl, rfl, rfl⟩

theorem swapLine_disabled (h : r.enabled = false) : swapLine now r keeps n = { n with
    phase := .idle
    current := none
    receiving := false
    wire := r.wire
    probes := n.probes.filter keeps } := by
  simp [swapLine, h]

/-- An attempt in progress goes on under the settings it began with. -/
theorem swapLine_attempting (h : r.enabled = true) (ha : n.phase.attempting = true) :
    swapLine now r keeps n = { n with
      current := n.current.map (Work.swapped keeps)
      probes := n.probes.filter keeps } := by
  simp [swapLine, h, ha]

/-- A frame partly received under another rate or parity is abandoned. -/
theorem swapLine_abandoned (h : r.enabled = true) (ha : n.phase.attempting = false)
    (hr : n.receiving = true) (hw : n.wire ≠ r.wire) : swapLine now r keeps n = { n with
      phase := n.phase.afterReception now r.guardTime
      receiving := false
      wire := r.wire
      probes := n.probes.filter keeps } := by
  simp only [swapLine, h, ha, hr, hw, ne_eq, not_false_eq_true, decide_true, Bool.and_self,
    Bool.not_true, Bool.false_eq_true, if_false, if_true]
  rfl

theorem swapLine_undisturbed (h : r.enabled = true) (ha : n.phase.attempting = false)
    (hw : ¬(n.receiving = true ∧ n.wire ≠ r.wire)) : swapLine now r keeps n = { n with
      wire := r.wire
      probes := n.probes.filter keeps } := by
  have hw : ¬(n.receiving && decide (n.wire ≠ r.wire)) = true := by simpa using hw
  simp only [swapLine, h, ha, hw, Bool.not_true, Bool.false_eq_true, if_false]

end swapLine

/-! ## The swap field by field (R142 to R145) -/

theorem startIdleTimer_eq (s : State) : s.startIdleTimer = { s with
    session := s.session.map (fun o =>
      { o with expiry := some (after s.uptime (o.timeout * 1000)) }) } := by
  unfold State.startIdleTimer
  cases h : s.session with
  | none => exact congrArg (fun x => { s with session := x }) h
  | some o => rfl

theorem swapTables_eq (s : State) (dest tag : Byte) : s.swapTables dest tag = { s with
    active := s.staging.tables
    generation := s.generation + 1#16
    lines := Four.build (fun l => swapLine s.uptime (s.staging.tables.lines.get l)
      (keepsRecord s.staging.tables l (s.stations.get l)) (s.lines.get l))
    stations := Four.build (fun l => s.staging.tables.carriedRecords l (s.stations.get l))
    scans := startedRuns s.uptime s.staging.tables.scan s.scans
    bridge := .running
    mirror := s.invalidateMirror.mirror
    txQueue := s.txQueue ++ [⟨.closing .swap, dest, tag, .mreply 0x0C#8 .ok
      (swapResults (s.generation + 1#16) s.staging.tables)⟩]
    operation := .none
    session := s.session.map (fun o =>
      { o with expiry := some (after s.uptime (o.timeout * 1000)) }) } := by
  simp only [State.swapTables, State.endOperation, startIdleTimer_eq]
  rfl

theorem swapTables_line (s : State) (dest tag : Byte) (l : LineNo) :
    (s.swapTables dest tag).lines.get l =
      swapLine s.uptime ((s.swapTables dest tag).settings l)
        (keepsRecord s.staging.tables l (s.stations.get l)) (s.lines.get l) := by
  simp only [swapTables_eq, State.settings, Four.get_build]

/-! ## Records over a swap (R81) -/

theorem record_isSome (s : State) (l : LineNo) (station : Nat) :
    (s.record l station).isSome =
      (s.stations.get l).any (fun r => decide (r.station = station)) := by
  rw [State.record, List.isSome_find?]

/-- The stations with a record after a swap are those that the new tables name. -/
theorem swapTables_record (s : State) (dest tag : Byte) (l : LineNo) (station : Nat) :
    ((s.swapTables dest tag).record l station).isSome =
      (s.staging.tables.stationsOn l).contains station := by
  simp only [record_isSome, swapTables_eq, Four.get_build, Tables.carriedRecords, List.any_map,
    Function.comp_def, carriedRecord_station]
  rw [Bool.eq_iff_iff]
  simp

theorem keepsRecord_eq (s : State) (dest tag : Byte) (l : LineNo) (station : Nat) :
    keepsRecord s.staging.tables l (s.stations.get l) station =
      ((s.record l station).isSome && ((s.swapTables dest tag).record l station).isSome) := by
  rw [record_isSome, swapTables_record, keepsRecord]

/-! ## The drain test (R141) -/

theorem drained_eq_false {s : State}
    (h : (∃ e ∈ s.slots, e.2.phase = .active) ∨ ∃ e ∈ s.scans, e.2.flying = true) :
    s.drained = false := by
  rw [Bool.eq_false_iff, Ne, State.drained_iff]
  rintro ⟨hslots, hscans⟩
  obtain ⟨e, he, hp⟩ | ⟨e, he, hf⟩ := h
  · exact hslots e he hp
  · exact absurd hf (by simp [hscans e he])

theorem drainTest_waits {s : State} (h : s.drained = false) : s.drainTest = s := by
  unfold State.drainTest
  split
  · rw [h]; simp
  · rfl

theorem drainTest_swaps {s : State} {dest tag : Byte} {drain : Uptime}
    (ho : s.operation = .activate dest tag drain) (hb : s.bridge = .draining)
    (hd : s.drained = true) : s.drainTest = s.swap dest tag := by
  simp only [State.drainTest, ho, hb, hd, and_self, if_true]

/-- What lines give back for a swap are probes: nothing but lines and station records differs. -/
theorem withdrawn_losesRecord (s : State) (t : Tables) :
    s.withdrawn (s.losesRecord t) = { s with
      lines := (s.withdrawn (s.losesRecord t)).lines
      stations := (s.withdrawn (s.losesRecord t)).stations } :=
  withdrawn_probes s _ fun _ w h => by
    cases w with
    | probe => rfl
    | leg => cases h
    | scan => cases h

/-! ## What becomes of cells, scan entries and lines at a swap -/

section swapped

variable (s : State) (dest tag : Byte)

theorem swapTables_cell (h : (s.mirror.map Prod.fst).Pairwise (· < ·)) (k : Nat) :
    (s.swapTables dest tag).cell k = { s.cell k with valid := false } := by
  rw [← State.cell_invalidateMirror h, swapTables_eq]
  rfl

theorem swapTables_stations (l : LineNo) : (s.swapTables dest tag).stations.get l =
    s.staging.tables.carriedRecords l (s.stations.get l) := by
  rw [swapTables_eq, Four.get_build]

/-- A scan entry after a swap: WAITING, due one period from now, its counters carried over (R94). -/
theorem swapTables_scan (i : Nat) : (s.swapTables dest tag).scans.get i =
    (s.staging.scan.get i).map (fun e => startedRun s.uptime e (s.scans.get i)) := by
  rw [swapTables_scans, startedRuns, Sparse.get_mapVals]
  rfl

variable (l : LineNo)

/-- A probe list keeps the stations whose record is carried over (R77). -/
theorem swapTables_probes : ((s.swapTables dest tag).lines.get l).probes =
    (s.lines.get l).probes.filter (fun station => (s.record l station).isSome &&
      ((s.swapTables dest tag).record l station).isSome) := by
  rw [swapTables_line, swapLine_probes]
  exact congrArg (List.filter · _) (funext (keepsRecord_eq s dest tag l))

/-- A probe in progress goes on, its result discarded unless its record is carried over (R77). -/
theorem swapped_probe (station : Nat) (x : Option Byte) (discard : Bool) :
    Work.swapped (keepsRecord s.staging.tables l (s.stations.get l)) (.probe station x discard) =
      .probe station x (discard || (s.record l station).isNone ||
        ((s.swapTables dest tag).record l station).isNone) := by
  rw [Work.swapped, keepsRecord_eq s dest tag, Bool.not_and, Bool.or_assoc, Option.not_isSome,
    Option.not_isSome]

end swapped

/-- Settles O40: the swap is made in the state `v` that the giving back leaves, which differs from `s` in
lines and station records alone; a line is disabled, attempting, or neither. -/
theorem drainedBridgeSwapsTables : Obligations.DrainedBridgeSwapsTables := by
  intro s dest tag drain law ho hb
  refine ⟨fun hbusy => drainTest_waits (drained_eq_false hbusy), fun hslots hscans => ?_⟩
  intro lost v
  obtain ⟨lines, stations, hv⟩ : ∃ lines stations, v = { s with lines := lines, stations := stations } :=
    ⟨_, _, withdrawn_losesRecord s _⟩
  have hdrain : s.drainTest = (s.joining lost).foldl State.kick (v.swapTables dest tag) :=
    drainTest_swaps ho hb (s.drained_iff.2 ⟨hslots, hscans⟩)
  clear_value v
  have hcell := swapTables_cell v dest tag (by rw [hv]; exact law.rising)
  have hstations := swapTables_stations v dest tag
  have hscan := swapTables_scan v dest tag
  have hprobes := swapTables_probes v dest tag
  have hprobe := swapped_probe v dest tag
  have hline := swapTables_line v dest tag
  have ht := swapTables_eq v dest tag
  generalize v.swapTables dest tag = t at hdrain hcell hstations hscan hprobes hprobe hline ht
  have hnow : v.uptime = s.uptime := by rw [hv]
  have hactive : t.active = s.staging.tables := by rw [ht, hv]
  refine ⟨t, hdrain, hactive, by rw [ht, hv], by rw [ht], by rw [ht], by rw [ht, hv],
    fun k => (hcell k).trans (by rw [hv]; rfl), fun l => ?_, fun i => ?_, hprobes,
    fun l hdis => ?_, fun l hen ha => ?_, fun l hen ha => ?_, fun l => hline l ▸ swapLine_queues,
    fun l => hline l ▸ swapLine_counts, ?_, ?_⟩
  · rw [hstations l, hactive, hv]
    rfl
  · rw [hscan i, hactive, hv]
    refine congrArg (Option.map · _) (funext fun e => ?_)
    cases h : s.scans.get i <;> simp only [startedRun]
  · rw [hline l, swapLine_disabled hdis]
    exact ⟨rfl, rfl, rfl, rfl⟩
  · rw [hline l, swapLine_attempting hen ha]
    refine ⟨rfl, rfl, rfl, congrArg (Option.map · _) (funext fun w => ?_)⟩
    cases w with
    | probe station x discard => exact hprobe l station x discard
    | leg i => rfl
    | scan i => rfl
  · by_cases hw : (v.lines.get l).receiving = true ∧ (v.lines.get l).wire ≠ (t.settings l).wire
    · obtain ⟨hr, hwire⟩ := hw
      rw [hline l, swapLine_abandoned hen ha hr hwire, hnow]
      exact ⟨rfl, rfl, fun h => absurd ⟨hr, hwire⟩ h, fun _ => ⟨rfl, rfl⟩⟩
    · rw [hline l, swapLine_undisturbed hen ha hw]
      exact ⟨rfl, rfl, fun _ => ⟨rfl, rfl⟩, fun h => absurd h hw⟩
  · rw [ht, hv]
    simp only [swapResults, Staging.tables, List.length_map]
  · rw [ht, hv]
    exact ⟨rfl, rfl, rfl, rfl, rfl, rfl, rfl⟩

end Sys2Proof.Machine
end

section
/-!
SUPPORT. The management operations that read out the part (R91, R138, R166) and STATION_RESET (R89): what a
MGMT frame that passes its checks does, what the state that serves it shares with the state before, and the
record of a station after its line has given a probe back.
-/

namespace Sys2Proof.Machine

/-! ## The operation of a MGMT frame (R124 to R126, R130) -/

section served

variable (s : State) (f : Frame)

@[simp] theorem State.served_active : (s.served f).active = s.active :=
  State.touchSession_active _ _

@[simp] theorem State.served_generation : (s.served f).generation = s.generation :=
  State.touchSession_generation _ _

@[simp] theorem State.served_lines : (s.served f).lines = s.lines :=
  State.touchSession_lines _ _

@[simp] theorem State.served_stations : (s.served f).stations = s.stations :=
  State.touchSession_stations _ _

@[simp] theorem State.served_scans : (s.served f).scans = s.scans :=
  State.touchSession_scans _ _

@[simp] theorem State.served_staging : (s.served f).staging = s.staging :=
  State.touchSession_staging _ _

theorem record_served (l : LineNo) (station : Nat) : (s.served f).record l station = s.record l station := by
  simp only [State.record, State.served_stations]

/-- No line takes or gives back work when a MGMT frame is counted. -/
theorem sameWork_served : SameWork s (s.served f) where
  lines := s.served_lines f
  uptime := State.touchSession_uptime _ _
  scans := s.served_scans f
  legs := State.touchSession_legs _ _
  stations := s.served_stations f

end served

/-- The command of a frame's own operation carries it out, where its arguments are good and checks 1 to 3 of
R126 pass. -/
theorem onMgmt_serve {α : Type} {s : State} {byte : Byte} {f : Frame} {op : MgmtOp} {n : Needs}
    {read : State → List Byte → Option α} {a : α} (hf : s.dispatched byte = some (f, .mgmt))
    (hop : mgmtOp f.body = some op) (hr : read (s.served f) (mgmtArgs f.body) = some a)
    (h1 : s.operation = .none ∨ n.whilePending = true)
    (h2 : n.closing = false ∨ closingHeld s.txQueue = false)
    (h3 : n.session = false ∨ s.ownedBy f.source = true) (act : α → Frame → State → State) :
    onMgmt (isOp op) (serve n read act) byte s = act a f (s.served f) := by
  rw [onMgmt_eq hf, isOp, hop, decide_eq_true rfl, if_pos rfl]
  exact serve_ok hr h1 h2 h3

/-- An answer to a frame of an operation bears the operation's code (R124). -/
theorem answer_of_mgmtOp {f : Frame} {op : MgmtOp} (hop : mgmtOp f.body = some op) (s : State)
    (status : Status) (results : List Byte) : s.answer f status results =
      s.pushPrompt f.source f.tag (.mreply op.code status results) := by
  rw [State.answer, mgmtCode_of_mgmtOp hop]

/-! ## The read-outs (R91, R138, R166) -/

theorem activeArgs_served (s : State) (f : Frame) (args : List Byte) :
    activeArgs (s.served f) args = activeArgs s args := by
  simp only [activeArgs, State.served_active]

theorem scanInfoResults_served (s : State) (f : Frame) (i : Nat) :
    (s.served f).scanInfoResults i = s.scanInfoResults i := by
  simp only [State.scanInfoResults, State.served_active, State.served_scans]

/-- Settles O49: each read-out passes its checks and answers from fields that serving the frame leaves as
they are. -/
theorem readOutsAnswerAndChangeNothing : Obligations.ReadOutsAnswerAndChangeNothing := by
  intro s byte f hf answered place
  refine ⟨fun sel hop hr => ?_, fun sel hop ho hr => ?_, fun l hop hr => ?_, fun i hop ho hr => ?_⟩
  · refine congrArg Host.Outcome.next ((onMgmt_serve hf hop ((activeArgs_served s f _).trans hr)
      (.inr rfl) (.inl rfl) (.inl rfl) readActive).trans ?_)
    rw [readActive, answer_of_mgmtOp hop, State.served_active, State.served_generation]
    cases sel <;> rfl
  · refine congrArg Host.Outcome.next ((onMgmt_serve hf hop hr
      (.inl ho) (.inl rfl) (.inl rfl) readStage).trans ?_)
    rw [readStage, answer_of_mgmtOp hop, State.served_staging]
    cases sel <;> rfl
  · refine congrArg Host.Outcome.next ((onMgmt_serve hf hop hr
      (.inr rfl) (.inl rfl) (.inl rfl) _).trans ?_)
    rw [answer_of_mgmtOp hop, State.stationListResults, State.served_stations]
    rfl
  · refine congrArg Host.Outcome.next ((onMgmt_serve hf hop hr
      (.inl ho) (.inl rfl) (.inl rfl) _).trans ?_)
    rw [answer_of_mgmtOp hop, scanInfoResults_served]
    rfl

/-! ## The record of a station (R80, R89) -/

/-- The record that was changed, read back. -/
theorem record_modRecord_same (s : State) (l : LineNo) (station : Nat)
    {g : StationRecord → StationRecord} (hg : ∀ r, (g r).station = r.station) :
    (s.modRecord l station g).record l station = (s.record l station).map g := by
  simp only [State.record, State.modRecord, Four.get_set_same]
  induction s.stations.get l with
  | nil => rfl
  | cons r records ih =>
    by_cases h : r.station = station
    · simp [h, hg]
    · simpa [h] using ih

theorem stationResetArgs_eq {s : State} {args : List Byte} {l : LineNo} {station : Nat}
    {x : StationRecord} (ha : stationArgs args = some (l, station)) (hx : s.record l station = some x) :
    stationResetArgs s args = some (l, station) := by
  simp [stationResetArgs, ha, hx]

/-- The reset of a record, on a line that stands as it is unless the station is LISTED (R89). -/
theorem resetRecord_eq {s : State} {l : LineNo} {station : Nat} {y : StationRecord}
    (hy : s.record l station = some y) : s.resetRecord l station = { s with
      stations := s.stations.set l ((s.stations.get l).map (fun z =>
        if z.station = station then ⟨z.station, .unknown, 0, .none⟩ else z))
      lines := if y.probe = .listed then s.lines.set l { s.lines.get l with
          probes := (s.lines.get l).probes.filter (fun n => n != station) }
        else s.lines } := by
  rw [State.resetRecord, hy, Option.map_some]
  cases y.probe <;> rfl

/-! ## A probe that a line gives back to the reset (R90, log entry 25) -/

theorem filter_allLines_eq : ∀ l, allLines.filter (fun m => decide (m = l)) = [l] := by decide

theorem withdrawn_of_joining {s : State} {p : LineNo → Work → Bool} {ls : List LineNo}
    (h : s.joining p = ls) : s.withdrawn p = ls.foldl State.untake s := by
  rw [State.withdrawn, h]

/-- Of all lines, one alone can have just taken work on that line. -/
theorem joining_onLine (s : State) (l : LineNo) (q : Work → Bool) :
    s.joining (fun m w => decide (m = l) && q w) =
      if ((s.lines.get l).justTaken s.uptime).any q then [l] else [] := by
  have htook : s.justTook (fun m w => decide (m = l) && q w) = fun m =>
      ((s.lines.get m).justTaken s.uptime).any q && decide (m = l) := by
    funext m
    cases h : (s.lines.get m).justTaken s.uptime <;> simp [State.justTook, h, Bool.and_comm]
  rw [State.joining, htook, ← List.filter_filter, filter_allLines_eq, List.filter_cons, List.filter_nil]

/-- The work that a reset finds LISTED where a line has just taken it: a probe of the station, by its line. -/
def probeOn (l : LineNo) (station : Nat) (m : LineNo) (w : Work) : Bool :=
  decide (m = l) && w.probes station

theorem eq_probe_of_probes {station : Nat} {w : Work} (h : w.probes station = true) :
    ∃ tag discard, w = .probe station tag discard := by
  cases w with
  | probe n tag discard => exact ⟨tag, discard, by rw [of_decide_eq_true h]⟩
  | leg | scan => cases h

theorem resetStation_eq (s : State) (l : LineNo) (station : Nat) : s.resetStation l station =
    s.together (probeOn l station) (fun t => t.resetRecord l station) := rfl

/-- No line has just taken a probe of the station; or its own line has, and gives it back LISTED. -/
theorem withdrawn_probe_cases (s : State) (l : LineNo) (station : Nat) :
    (s.joining (probeOn l station) = [] ∧ s.withdrawn (probeOn l station) = s) ∨
      ∃ n, s.withdrawn (probeOn l station) =
        (s.modLine l n).modRecord l station (fun r => { r with probe := .listed }) := by
  have hj : s.joining (probeOn l station) = _ := joining_onLine s l (Work.probes station)
  cases ht : ((s.lines.get l).justTaken s.uptime).any (Work.probes station) with
  | false =>
    rw [ht] at hj
    exact .inl ⟨hj, withdrawn_of_joining hj⟩
  | true =>
    obtain ⟨w, hw, hprobe⟩ := (Option.any_eq_true _ _).1 ht
    obtain ⟨tag, discard, rfl⟩ := eq_probe_of_probes hprobe
    rw [ht] at hj
    refine .inr ⟨Line.untaken (.probe station tag discard), (withdrawn_of_joining hj).trans ?_⟩
    rw [if_pos rfl, List.foldl_cons, List.foldl_nil, State.untake, hw]
    rfl

/-- The station has its record still when lines have given back its probe, and the record is LISTED where one
has. -/
theorem record_withdrawn_probe {s : State} {l : LineNo} {station : Nat} {x : StationRecord}
    (hx : s.record l station = some x) :
    ∃ y, (s.withdrawn (probeOn l station)).record l station = some y ∧
      (s.joining (probeOn l station) = [] → s.withdrawn (probeOn l station) = s) ∧
      (s.joining (probeOn l station) ≠ [] → y.probe = .listed) := by
  rcases withdrawn_probe_cases s l station with ⟨hj, hw⟩ | ⟨n, hw⟩
  · exact ⟨x, (congrArg (State.record · l station) hw).trans hx, fun _ => hw, fun h => absurd hj h⟩
  · refine ⟨{ x with probe := .listed }, ?_, withdrawn_of_joining, fun _ => rfl⟩
    have hrecord : (s.modLine l n).record l station = some x := hx
    rw [hw, record_modRecord_same (g := fun r => { r with probe := .listed }) _ _ _ fun _ => rfl, hrecord,
      Option.map_some]

/-- In the state that serves a frame, what the lines give back is what they give back in the state before. -/
theorem withdrawn_served (s : State) (f : Frame) (l : LineNo) (station : Nat) :
    (s.served f).withdrawn (probeOn l station) = { s.served f with
      lines := (s.withdrawn (probeOn l station)).lines
      stations := (s.withdrawn (probeOn l station)).stations } := by
  have hsame := (sameWork_served s f).withdrawn (probeOn l station)
  rw [← hsame.lines, ← hsame.stations]
  refine withdrawn_probes (s.served f) _ fun m w h => ?_
  obtain ⟨tag, discard, rfl⟩ := eq_probe_of_probes (Bool.and_eq_true_iff.1 h).2
  rfl

/-- Settles O47: the reset is taken in the state that the giving back leaves, and STATION_RESET's frame is
served as any other of the owner's. -/
theorem stationResetClearsRecord : Obligations.StationResetClearsRecord := by
  intro s byte f l station x hf hmay hop ha hx probing v
  obtain ⟨hquiet, hown⟩ := hmay
  obtain ⟨y, hy, hnone, hlisted⟩ := record_withdrawn_probe hx
  refine ⟨y, hy, hnone, hlisted, ?_⟩
  have hread : stationResetArgs (s.served f) (mgmtArgs f.body) = some (l, station) :=
    stationResetArgs_eq ha ((record_served s f l station).trans hx)
  refine congrArg Host.Outcome.next ((onMgmt_serve hf hop hread (.inl hquiet) (.inl rfl) (.inr hown)
    _).trans ?_)
  rw [answer_of_mgmtOp hop, resetStation_eq, State.together, (sameWork_served s f).joining,
    withdrawn_served]
  exact congrArg (fun t => State.pushPrompt ((s.joining probing).foldl State.kick t) f.source f.tag
    (.mreply 0x0F#8 .ok [])) (resetRecord_eq hy)

end Sys2Proof.Machine
end

section
/-!
SUPPORT. Every step keeps the image slots in agreement with their view and the addressed stores canonical
(R103, R149, R171): the mirror by its closure under all that a step does, the image store off the list of
everything a command can do to the ledger.
-/

namespace Sys2Proof.Machine

/-! ## The mirror (R103) -/

theorem mirror_admitFetchLegs (slot : Nat) (bound : List (Nat × LegPlan)) (s : State) (r : Request) :
    (bound.foldl (admitFetchLeg slot) (s, r)).1.mirror = s.mirror := by
  induction bound generalizing s r with
  | nil => rfl
  | cons b bound ih =>
    refine (ih (admitFetchLeg slot (s, r) b).1 _).trans ?_
    simp only [admitFetchLeg]
    (repeat' split) <;> rfl

theorem mirror_holdLegs (slot : Nat) (bound : List (Nat × LegPlan)) (s : State) :
    (bound.foldl (State.holdLegs slot) s).mirror = s.mirror := by
  induction bound generalizing s with
  | nil => rfl
  | cons b bound ih => exact ih _

theorem mirror_admitStoreLegs (slot : Nat) (s : State) (r : Request) (bound : List (Nat × LegPlan)) :
    (admitStoreLegs slot s r bound).1.mirror = s.mirror := by
  cases bound with
  | nil => rfl
  | cons b bound =>
    simp only [admitStoreLegs]
    split
    · rfl
    · exact mirror_holdLegs slot bound _

theorem mirror_entered (s : State) (kind : RequestKind) (f : Frame) (slot : Nat) (p : Plan) :
    (s.entered kind f slot p).1.mirror = s.mirror := by
  cases kind with
  | fetch => exact mirror_admitFetchLegs slot _ s _
  | store => exact mirror_admitStoreLegs slot s _ _
  | storeSet => exact mirror_admitStoreLegs slot s _ _

/-- The mirror's canonical form holds across everything a step is made of. -/
theorem mirrorCanon_closed :
    ClosedStep fun s t => storeCanon blankCell s.mirror → storeCanon blankCell t.mirror where
  refl _ h := h
  trans a b h := b (a h)
  countHost _ _ h := h
  scan _ _ _ h := h
  prompt _ _ _ _ _ h := h
  slot _ _ _ _ _ _ h := h
  leg _ _ _ _ _ _ h := h
  modLeg _ _ _ _ h := h
  cancelLeg s k i _ h := by
    rcases cancelLeg_cases k s i with ⟨-, he⟩ | ⟨g, -, he⟩ <;> rw [he] <;> exact h
  complete s k h := by
    rcases completeIfDone_cases s k with ⟨r, -, -, -, he⟩ | ⟨he, -⟩ <;> rw [he] <;> exact h
  line _ _ _ _ h := h
  record _ _ _ _ _ h := h
  write _ _ _ h := storeCanon_writeFrom _ h
  invalidate _ k n h := storeCanon_invalidateRun k n h
  enter s kind f slot p _ _ h := by
    rw [State.putSlot_mirror, mirror_entered]
    exact h
  rest _ _ hr h := hr.mirror ▸ h
  begin _ _ _ _ h := h
  goOn _ _ _ h := h
  finish _ _ _ _ h := h
  restart _ _ _ _ _ h := h
  swap _ _ h := storeCanon_invalidateMirror h
  pop _ _ _ _ _ h := h
  popReply s _ rest k _ _ h := by
    rcases releaseSlot_cases { s with txQueue := rest } k with ⟨-, he⟩ | ⟨r, -, he⟩ <;>
      rw [he] <;> exact h
  warm _ h := storeCanon_invalidateMirror h
  halt _ h := h
  cold _ _ _ _ _ := ⟨.nil, nofun⟩

/-! ## The bytes of an image (R149, R171) -/

/-- The tables fill their part of an image whatever the number of map entries. -/
theorem tableBytes_length (t : Tables) : (tableBytes t).length = 7101 := by
  have hbridge : (encodeBridge t.bridge).length = 3 := rfl
  have hlines : (t.lines.toList.flatMap encodeLine).length = 56 := rfl
  simp only [tableBytes, List.length_append, length_nat2, length_flatMap_encodeMapEntry,
    List.length_take, List.length_replicate, length_flatMap_scanPlaceBytes, List.length_range, hlines,
    hbridge]
  omega

theorem imageBytes_length (q : DWord) (g : Word) (t : Tables) : (imageBytes q g t).length = 7109 := by
  simp [imageBytes, tableBytes_length]

/-- A slot that holds the bytes of an image under the completion mark shows the image's sequence number and
generation. The laws put no bound on the active map table, so neither does this. -/
theorem slotView_of_imageBytes {q : DWord} {g : Word} {t : Tables} {m : Sparse Byte}
    (hmark : m.read 0 0 = completeMark) (hread : m.readFrom 0 1 7109 = imageBytes q g t) :
    slotView m = some ⟨q, g⟩ := by
  have byte : ∀ i, i < 7109 → m.read 0 (1 + i) = (imageBytes q g t).getD i 0 := fun i hi => by
    rw [← hread, Sparse.getD_readFrom 0 m 1 7109 i hi]
  have hvalid : slotValid m = true := by
    obtain ⟨body, hbody⟩ : ∃ body, imageBytes q g t = body ++ bytes16 (checkOf (completeMark :: body)) :=
      ⟨_, rfl⟩
    have hlength : body.length = 7107 := by
      have := imageBytes_length q g t
      rw [hbody, List.length_append, length_bytes16] at this
      omega
    have hsplit := Sparse.readFrom_add 0 m 7107 1 2
    rw [hread, hbody] at hsplit
    obtain ⟨hbytes, hcheck⟩ := List.append_inj hsplit (by rw [hlength, Sparse.length_readFrom])
    simp only [slotValid, hmark, ← hbytes, hcheck, decide_true, Bool.and_self]
  simp only [slotView, hvalid, if_true, byte 0 (by omega), byte 1 (by omega), byte 2 (by omega),
    byte 3 (by omega), byte 4 (by omega), byte 5 (by omega)]
  simp only [imageBytes, bytes32, bytes16, List.cons_append, List.nil_append, List.getD_cons_zero,
    List.getD_cons_succ, wordOf_high_low, dwordOf_high_low]

/-! ## Changes of one slot (R149, R151 to R154) -/

/-- Every slot is canonical and the view agrees with it. -/
def ImageStore.Sound (m : ImageStore) : Prop :=
  ∀ i, storeWf slotSize 0 (m.slot i) = true ∧ m.view i = slotView (m.slot i)

theorem ImageStore.Sound.rebuilt {m : ImageStore} (h : m.Sound) : m.rebuilt.Sound := fun i =>
  ⟨m.slot_rebuilt i ▸ (h i).1, by rw [m.view_rebuilt, m.slot_rebuilt]⟩

theorem slot_writeMark_same (m : ImageStore) (i : SlotId) (mark : Byte) :
    (m.writeMark i mark).slot i = (m.slot i).write 0 0 mark := m.slot_setSlot_same i _

/-- The store stays sound when one slot and its view change, to a canonical slot and what it shows. -/
theorem ImageStore.Sound.update {m : ImageStore} (h : m.Sound) (i : SlotId) {bytes : Sparse Byte}
    {view : Option SlotView} (hbytes : storeWf slotSize 0 bytes = true) (hview : view = slotView bytes) :
    ((m.setSlot i bytes).setView i view).Sound := by
  intro j
  by_cases hj : j = i
  · subst hj
    rw [ImageStore.slot_setView, ImageStore.slot_setSlot_same, ImageStore.view_setView_same]
    exact ⟨hbytes, hview⟩
  · rw [ImageStore.slot_setView, m.slot_setSlot_ne _ hj, ImageStore.view_setView_ne _ _ hj,
      ImageStore.view_setSlot]
    exact h j

theorem setView_view (m : ImageStore) (i : SlotId) : m.setView i (m.view i) = m := by cases i <;> rfl

/-- A slot that the view shows invalid may take any canonical bytes without the completion mark. -/
theorem ImageStore.Sound.setSlot {m : ImageStore} (h : m.Sound) {i : SlotId} {bytes : Sparse Byte}
    (hview : m.view i = none) (hbytes : storeWf slotSize 0 bytes = true)
    (hmark : bytes.read 0 0 = 0x00#8) : (m.setSlot i bytes).Sound := by
  have hshown : slotView bytes = none := slotView_of_mark (by rw [hmark]; decide)
  have := h.update i hbytes (hview.trans hshown.symm)
  rwa [← m.view_setSlot i i bytes, setView_view] at this

/-- With the target of a COMMIT invalid the newest valid image is the same (R150, R151). -/
theorem nextSequence_begun (m : ImageStore) (mark : Byte) :
    ((m.setView m.target none).writeMark m.target mark).nextSequence = m.nextSequence := by
  obtain ⟨slotA, slotB, viewA, viewB⟩ := m
  cases viewA with
  | none => cases viewB <;> rfl
  | some a =>
    cases viewB with
    | none => rfl
    | some b =>
      by_cases hb : newerB a.sequence b.sequence = true <;>
        simp [ImageStore.nextSequence, ImageStore.target, ImageStore.newest, hb, ImageStore.writeMark,
          ImageStore.setSlot, ImageStore.setView]

theorem nextSequence_setSlot (m : ImageStore) (i : SlotId) (bytes : Sparse Byte) :
    (m.setSlot i bytes).nextSequence = m.nextSequence := by cases i <;> rfl

theorem mark_writeFrom (content : List Byte) (m : Sparse Byte) :
    (m.writeFrom 0 1 content).read 0 0 = m.read 0 0 := by
  rw [Sparse.read_writeFrom, if_neg (by omega)]

/-! ## The COMMIT in progress (R151 to R153) -/

/-- The content of a COMMIT is an image, and leaves a byte of the slot for the completion mark. -/
theorem CommitLaw.content_length {s : State} {job : CommitJob} (h : CommitLaw s job) :
    job.content.length < slotSize := by
  rw [h.content, imageBytes_length]
  decide

/-- The law reads the image store, the generation and the active tables. -/
theorem CommitLaw.congr {s t : State} {job : CommitJob} (h : CommitLaw s job) (hstore : t.store = s.store)
    (hgeneration : t.generation = s.generation) (hactive : t.active = s.active) : CommitLaw t job where
  view := hstore ▸ h.view
  mark := hstore ▸ h.mark
  sequence := hstore ▸ h.sequence
  generation := hgeneration ▸ h.generation
  content := hactive ▸ h.content

/-- The law of the image store, with the canonical form of its slots. -/
structure ImagesSound (s : State) : Prop where
  store : s.store.Sound
  commit : ∀ dest tag job, s.operation = .commit dest tag job → CommitLaw s job

theorem imagesSound_of_laws {s : State} (hi : ImageLaw s) (hs : StoreLaw s) : ImagesSound s where
  store
    | .a => ⟨hs.slotA, hi.views .a⟩
    | .b => ⟨hs.slotB, hi.views .b⟩
  commit := hi.commit

theorem ImagesSound.imageLaw {s : State} (h : ImagesSound s) : ImageLaw s :=
  ⟨fun i => (h.store i).2, h.commit⟩

theorem ImagesSound.storeLaw {s : State} (h : ImagesSound s) (hm : storeCanon blankCell s.mirror) :
    StoreLaw s where
  slotA := (h.store .a).1
  slotB := (h.store .b).1
  rising := hm.1
  listed := hm.2
  content dest tag job ho := (h.commit dest tag job ho).content_length

/-- Nothing that the law reads has changed. -/
theorem ImagesSound.congr {s t : State} (h : ImagesSound s) (hstore : t.store = s.store)
    (hoperation : t.operation = s.operation) (hgeneration : t.generation = s.generation)
    (hactive : t.active = s.active) : ImagesSound t where
  store := hstore ▸ h.store
  commit dest tag job ho :=
    (h.commit dest tag job (hoperation ▸ ho)).congr hstore hgeneration hactive

/-- A ledger that differs in nothing that the law reads. -/
theorem ImagesSound.of_ledger {s t : State} {l : Ledger} (law : ImagesSound s) (h : t.ledger = l)
    (hstore : l.store = s.store) (hoperation : l.operation = s.operation)
    (hgeneration : l.generation = s.generation) (hactive : l.active = s.active) : ImagesSound t := by
  subst h
  exact law.congr hstore hoperation hgeneration hactive

/-- With no COMMIT in progress the law asks for a sound store. -/
theorem ImagesSound.of_idle {t : State} {l : Ledger} (h : t.ledger = l) (hstore : l.store.Sound)
    (hoperation : ∀ dest tag job, l.operation ≠ .commit dest tag job) : ImagesSound t := by
  subst h
  exact ⟨hstore, fun dest tag job ho => absurd ho (hoperation dest tag job)⟩

/-- With a COMMIT in progress the law asks for a sound store and the law of that COMMIT. -/
theorem ImagesSound.of_commit {t : State} {l : Ledger} {dest tag : Byte} {job : CommitJob}
    (h : t.ledger = l) (hoperation : l.operation = .commit dest tag job) (hstore : l.store.Sound)
    (hcommit : t.store = l.store → t.generation = l.generation → t.active = l.active →
      CommitLaw t job) : ImagesSound t := by
  subst h
  refine ⟨hstore, fun dest' tag' job' ho => ?_⟩
  obtain ⟨-, -, rfl⟩ := PendingOp.commit.inj (hoperation.symm.trans ho)
  exact hcommit rfl rfl rfl

/-! ## The ways of a COMMIT -/

/-- A COMMIT begins with its target invalid, and takes the image of the active tables that is due next
(R151). -/
theorem CommitLaw.begun {s t : State}
    (hstore : t.store = (s.store.setView s.store.target none).writeMark s.store.target 0x00#8)
    (hgeneration : t.generation = s.generation) (hactive : t.active = s.active) :
    CommitLaw t ⟨s.store.target, s.store.nextSequence, s.generation,
      imageBytes s.store.nextSequence s.generation s.active, false, false⟩ where
  view := by
    rw [hstore]
    exact (ImageStore.view_setSlot _ _ _ _).trans (ImageStore.view_setView_same _ _ _)
  mark := by rw [hstore, slot_writeMark_same, Sparse.read_write_same]
  sequence := by rw [hstore, nextSequence_begun]
  generation := hgeneration.symm
  content := by rw [hactive]

/-- The write of a COMMIT touches bytes of its target other than the completion mark (R152, R171). -/
theorem CommitLaw.written {s t : State} {job : CommitJob} (h : CommitLaw s job) (fault : Bool)
    (cells : List Host.Cell)
    (hstore : t.store =
      s.store.setSlot job.target (writeImage job.content cells (s.store.slot job.target)))
    (hgeneration : t.generation = s.generation) (hactive : t.active = s.active) :
    CommitLaw t { job with written := true, fault := fault } where
  view := by
    rw [hstore]
    exact (ImageStore.view_setSlot _ _ _ _).trans h.view
  mark := by
    rw [hstore]
    exact (congrArg (Sparse.read 0 · 0) (ImageStore.slot_setSlot_same _ _ _)).trans
      ((read_writeImage_mark _ _ _).trans h.mark)
  sequence := by rw [hstore, nextSequence_setSlot]; exact h.sequence
  generation := h.generation.trans hgeneration.symm
  content := by rw [hactive]; exact h.content

/-- The beginning of a COMMIT invalidates its target in the view and in the store (R151). -/
theorem ImageStore.Sound.begun {m : ImageStore} (h : m.Sound) (i : SlotId) :
    ((m.setView i none).writeMark i 0x00#8).Sound := by
  have hbytes : storeWf slotSize 0 ((m.slot i).write 0 0 0x00#8) = true :=
    storeWf_write (by decide) (h i).1
  have hmark : ((m.slot i).write 0 0 0x00#8).read 0 0 ≠ completeMark := by
    rw [Sparse.read_write_same]; decide
  have := h.update i hbytes (slotView_of_mark hmark).symm
  cases i <;> exact this

/-- The write of a COMMIT leaves the completion mark alone, and its target invalid (R152, R171). -/
theorem ImagesSound.written {s : State} (law : ImagesSound s) {dest tag : Byte} {job : CommitJob}
    (ho : s.operation = .commit dest tag job) (cells : List Host.Cell) :
    (s.store.setSlot job.target (writeImage job.content cells (s.store.slot job.target))).Sound := by
  have hc := law.commit dest tag job ho
  exact law.store.setSlot hc.view (storeWf_writeImage cells hc.content_length (law.store _).1)
    ((read_writeImage_mark _ _ _).trans hc.mark)

/-- A verified target shows the image that the COMMIT wrote once its mark is set (R153). -/
theorem ImagesSound.verified {s : State} (law : ImagesSound s) {dest tag : Byte} {job : CommitJob}
    (ho : s.operation = .commit dest tag job) (hgood : commitGood s.store job = true) :
    ((s.store.writeMark job.target completeMark).setView job.target
      (some ⟨job.sequence, job.generation⟩)).Sound := by
  obtain ⟨-, hread⟩ := Bool.and_eq_true_iff.1 hgood
  have hread := (of_decide_eq_true hread).trans (law.commit dest tag job ho).content
  refine law.store.update job.target (storeWf_write (by decide) (law.store _).1)
    (slotView_of_imageBytes (t := s.active) (Sparse.read_write_same _ _ _ _) ?_).symm
  rw [Sparse.readFrom_write_before _ _ _ _ _ (by decide)]
  exact hread

/-- A COMMIT cut off has written some first part of its content, below no completion mark (R154). -/
theorem ImagesSound.cutCommit {s : State} (law : ImagesSound s) : s.cutCommit.store.Sound := by
  unfold State.cutCommit
  split
  · rename_i dest tag job ho
    split
    · exact law.store
    · have hc := law.commit dest tag job ho
      have hlength := hc.content_length
      refine law.store.setSlot hc.view (storeWf_writeFrom _ ?_ (law.store _).1)
        ((mark_writeFrom _ _).trans hc.mark)
      rw [List.length_take]
      omega
  · exact law.store

/-! ## Every step keeps the laws -/

theorem ImagesSound.ledgerStep {i : Instr} {s t : State} (law : ImagesSound s)
    (h : LedgerStep i s t) : ImagesSound t := by
  cases h with
  | calm _ _ _ h | opened _ _ _ h | closed _ h | edited _ _ _ _ _ _ _ _ h | pins _ _ _ h =>
    exact law.of_ledger h rfl rfl rfl rfl
  | draining _ _ _ _ _ _ _ h | swapped _ _ _ _ _ _ _ _ _ h | timedOut _ _ _ h
  | unverified _ _ _ _ _ _ h | warm _ _ _ _ h | running _ _ h =>
    exact .of_idle h law.store nofun
  | committing hq o ho dest tag h =>
    exact .of_commit h rfl (law.store.begun _) .begun
  | written dest tag job ho fault cells h =>
    exact .of_commit h rfl (law.written ho cells) ((law.commit dest tag job ho).written fault cells)
  | verified dest tag job ho hgood x hx h => exact .of_idle h (law.verified ho hgood) nofun
  | halted x hx supply resetLow bridge store hp hs h =>
    refine .of_idle h ?_ nofun
    obtain rfl | rfl := hs
    · exact law.cutCommit
    · exact law.cutCommit.rebuilt

/-- A step takes a command, or lets a millisecond pass, of which the law reads nothing. -/
theorem ImagesSound.step {s t : State} (law : ImagesSound s) (h : Machine.step s = .next t) :
    ImagesSound t := by
  unfold Machine.step at h
  split at h
  · cases h
    unfold State.tick
    split
    · exact law.congr rfl rfl rfl rfl
    · exact law
  · rename_i c rest _
    have law' : ImagesSound { s with pending := rest } := law.congr rfl rfl rfl rfl
    exact law'.ledgerStep (exec_ledger h)

/-- Settles O57: the mirror by its closure under all that a step does, the image store by the cases of
the ledger. -/
theorem stepKeepsImageAndStoreLaws : Obligations.StepKeepsImageAndStoreLaws := by
  intro s t himage hstore hstep
  have ht := (imagesSound_of_laws himage hstore).step hstep
  exact ⟨ht.imageLaw, ht.storeLaw (step_closed mirrorCanon_closed hstep ⟨hstore.rising, hstore.listed⟩)⟩

end Sys2Proof.Machine
end

section
/-!
SUPPORT. The scan scheduler at the expiry of a due timer (R95), at the beginning of a drain (R101, R139) and at
a drain's end by its timer (R101, R146).
-/

namespace Sys2Proof.Machine

/-! ## A due timer's expiry (R95) -/

theorem exec_scanDueExpiry {s : State} {i : Nat} {e : ScanEntry} {c : ScanRun} (hp : s.powered = true)
    (hb : s.bridge = .running) (he : s.active.scan.get i = some e) (hc : s.scans.get i = some c)
    (hr : reached s.uptime c.nextDue = true) :
    exec (.scanDueExpiry i) s = .next (s.scanDue i e c) := by
  simp only [exec, execScanDueExpiry, he, hc, hp, hb, hr, decide_true, Bool.and_self, if_true]

/-- An entry that is QUEUED, or whose fetch its line makes, counts an overrun. -/
theorem scanDue_busy {c : ScanRun} (h : c.state ≠ .waiting) (s : State) (i : Nat) (e : ScanEntry) :
    s.scanDue i e c = s.modScan i (fun x =>
      { x with nextDue := after x.nextDue e.period, overruns := satInc x.overruns }) := by
  unfold State.scanDue
  split
  · exact absurd ‹_› h
  · simp only [State.modScan, Sparse.modify_modify]

/-- An entry of an OFFLINE station counts a skip. -/
theorem scanDue_offline {s : State} {e : ScanEntry} {c : ScanRun} (h : c.state = .waiting)
    (ho : s.offline e.line e.station = true) (i : Nat) :
    s.scanDue i e c = s.modScan i (fun x =>
      { x with nextDue := after x.nextDue e.period, skips := satInc x.skips }) := by
  simp only [State.scanDue, h, ho, if_true, State.modScan, Sparse.modify_modify]

/-- Any other entry joins the tail of its line's scan queue. -/
theorem scanDue_joins {s : State} {e : ScanEntry} {c : ScanRun} (h : c.state = .waiting)
    (ho : s.offline e.line e.station = false) (i : Nat) :
    s.scanDue i e c = State.kick { s with
      scans := s.scans.modify i (fun x =>
        { x with nextDue := after x.nextDue e.period, state := .queued })
      lines := s.lines.set e.line { s.lines.get e.line with
        scans := (s.lines.get e.line).scans ++ [i] } } e.line := by
  simp only [State.scanDue, h, ho, Bool.false_eq_true, if_false, State.joinScan, State.modLine,
    State.modScan, Sparse.modify_modify]

/-- Settles O32: the expiry is taken, and the entry's state and its station's health decide the equation. -/
theorem scanDueQueuesOrCounts : Obligations.ScanDueQueuesOrCounts := by
  intro s i e c hp hb he hc hr
  rw [exec_scanDueExpiry hp hb he hc hr]
  exact ⟨fun h => congrArg Host.Outcome.next (scanDue_busy h s i e),
    fun h ho => congrArg Host.Outcome.next (scanDue_offline h ho i),
    fun h ho => congrArg Host.Outcome.next (scanDue_joins h ho i)⟩

/-! ## A drain's end by its timer (R146) -/

theorem Line.busy_eq (n : Line) : n.busy = n.current.any (fun w => !w.isProbe) := by
  unfold Line.busy
  cases n.current with
  | none => rfl
  | some w => cases w <;> rfl

theorem Four.countP_toList {α : Type} (v : Four α) (p : α → Bool) :
    v.toList.countP p = allLines.countP (fun l => p (v.get l)) := rfl

/-- The counts of a DRAIN_TIMEOUT answer (R146). -/
theorem drainResults_eq (s : State) : s.drainResults =
    [nat1 (s.slots.countP (fun e => decide (e.2.phase = .active))),
     nat1 (allLines.countP (fun l => (s.lines.get l).current.any (fun w => !w.isProbe)))] := by
  simp only [State.drainResults, State.slotsIn, Four.countP_toList, Line.busy_eq]

theorem exec_drainTimerExpiry {s : State} {dest tag : Byte} {drain : Uptime} (hp : s.powered = true)
    (hb : s.bridge = .draining) (ho : s.operation = .activate dest tag drain)
    (hr : reached s.uptime drain = true) :
    exec .drainTimerExpiry s = .next (s.drainTimedOut dest tag) := by
  simp only [exec, execDrainTimerExpiry, ho, hp, hb, hr, decide_true, Bool.and_self, if_true]

/-- Settles O41: the drain's end restarts the due timers, answers and ends the operation. -/
theorem drainTimeoutKeepsTables : Obligations.DrainTimeoutKeepsTables := by
  intro s dest tag drain hp hb ho hr
  rw [exec_drainTimerExpiry hp hb ho hr, State.drainTimedOut, State.endOperation, startIdleTimer_eq,
    drainResults_eq]
  rfl

/-! ## The scan queues emptied (R101) -/

/-- Every scan entry of a list of places is WAITING. -/
def waitingAt (scans : Sparse ScanRun) (places : List Nat) : Sparse ScanRun :=
  places.foldl (fun m i => m.modify i (fun c => { c with state := .waiting })) scans

theorem get_waitingAt (scans : Sparse ScanRun) (places : List Nat) (i : Nat) :
    (waitingAt scans places).get i = (scans.get i).map (fun c =>
      if i ∈ places then { c with state := .waiting } else c) := by
  induction places generalizing scans with
  | nil => simp [waitingAt]
  | cons j places ih =>
    refine (ih (scans.modify j fun c => { c with state := .waiting })).trans ?_
    rw [Sparse.get_modify]
    by_cases hj : i = j <;> by_cases hi : i ∈ places <;> simp [hj, hi, Function.comp_def]

theorem foldl_modScan_waiting (s : State) (places : List Nat) :
    places.foldl (fun t i => t.modScan i (fun c => { c with state := .waiting })) s =
      { s with scans := waitingAt s.scans places } := by
  induction places generalizing s with
  | nil => rfl
  | cons i places ih => exact ih _

/-- A queue emptied touches its line, and the entries that were in it. -/
theorem emptyScanQueue_eq (s : State) (l : LineNo) : s.emptyScanQueue l = { s with
    lines := s.lines.set l { s.lines.get l with scans := [] }
    scans := waitingAt s.scans (s.lines.get l).scans } :=
  foldl_modScan_waiting _ _

/-- Entering DRAINING touches the scan queues, and the entries that were in them (R101). -/
theorem stopScans_eq (s : State) : s.stopScans = { s with
    lines := Four.build (fun l => { s.lines.get l with scans := [] })
    scans := waitingAt s.scans (allLines.flatMap (fun l => (s.lines.get l).scans)) } := by
  simp only [State.stopScans, allLines, List.foldl_cons, List.foldl_nil, emptyScanQueue_eq,
    List.flatMap_cons, List.flatMap_nil, waitingAt, List.foldl_append]
  rfl

/-- An entry is WAITING when it stood in the queue of some line. -/
theorem stopScans_scan (s : State) (i : Nat) : s.stopScans.scans.get i =
    (s.scans.get i).map (fun c =>
      if ∃ l, i ∈ (s.lines.get l).scans then { c with state := .waiting } else c) := by
  have hall : ∀ l, l ∈ allLines := by decide
  simp only [stopScans_eq, get_waitingAt, List.mem_flatMap, hall, true_and]

theorem stopScans_line (s : State) (l : LineNo) :
    s.stopScans.lines.get l = { s.lines.get l with scans := [] } := by
  rw [stopScans_eq, Four.get_build]

/-! ## The beginning of a drain (R101, R139) -/

theorem stopIdleTimer_some {s : State} {o : Session} (h : s.session = some o) :
    s.stopIdleTimer = { s with session := some { o with expiry := none } } := by
  simp only [State.stopIdleTimer, h]

/-- The scan queues are emptied in the state in which the lines that have just taken a scan entry have given it
back, and those lines then take what else waits (R97, R147, log entry 25). -/
theorem together_stopScans {s t : State} (h : SameWork s t) :
    t.together (fun _ w => w.isScan) State.stopScans =
      (s.joining fun _ w => w.isScan).foldl State.kick { t with
        lines := (s.withdrawn fun _ w => w.isScan).stopScans.lines
        scans := (s.withdrawn fun _ w => w.isScan).stopScans.scans } := by
  have hu := h.withdrawn fun _ w => w.isScan
  rw [State.together, h.joining, withdrawn_scans t _ fun _ _ => id, hu.lines, hu.scans]
  simp only [stopScans_eq]

/-- Settles O39: the frame is served as any other of the owner's, and the drain begins in a state that agrees
with the one before it in all that the giving back reads. -/
theorem activateBeginsItsDrain : Obligations.ActivateBeginsItsDrain := by
  intro s byte f timeout o hf hquiet hsession howner hclosing hop harg
  have howned : s.ownedBy f.source = true := by simp [State.ownedBy, hsession, howner]
  have hexec : exec (.activate byte) s = .next (activate timeout f (s.served f)) :=
    congrArg Host.Outcome.next
      (onMgmt_serve hf hop harg (.inl hquiet) (.inr hclosing) (.inr howned) activate)
  rw [hexec, activate, State.served_staging]
  refine ⟨fun hmark => ?_, fun hmark => ?_⟩
  · rw [hmark, if_neg Bool.false_ne_true, answer_of_mgmtOp hop]
    rfl
  · intro scanning u
    refine ⟨u.stopScans.lines, u.stopScans.scans, ?_, stopScans_line u, stopScans_scan u⟩
    rw [if_pos hmark, State.enterDraining, served_owner hsession howner hquiet, stopIdleTimer_some rfl]
    exact congrArg (fun t => Host.Outcome.next (State.drainTest t))
      (together_stopScans ⟨rfl, rfl, rfl, rfl, rfl⟩)

end Sys2Proof.Machine
end

section
/-!
SUPPORT. The transmit queue (R117 to R119): what joining and leaving do to the numbers of each class, and that
everything a step is made of keeps the classes within their room.
-/

namespace Sys2Proof.Machine

/-! ## The classes of a queue (R117) -/

theorem promptCount_append (q : List TxFrame) (f : TxFrame) :
    promptCount (q ++ [f]) = promptCount q + if f.isPrompt then 1 else 0 := by
  rw [promptCount, List.countP_append, List.countP_singleton, promptCount]

theorem countP_isClosing_append (q : List TxFrame) (f : TxFrame) :
    (q ++ [f]).countP TxFrame.isClosing =
      q.countP TxFrame.isClosing + if f.isClosing then 1 else 0 := by
  rw [List.countP_append, List.countP_singleton]

theorem repliesIn_append (q : List TxFrame) (f : TxFrame) :
    repliesIn (q ++ [f]) = repliesIn q ++ f.replySlot.toList := by
  rw [repliesIn, List.filterMap_append, repliesIn]
  cases h : f.replySlot <;> simp [h]

theorem repliesIn_sublist {p q : List TxFrame} (h : p.Sublist q) :
    (repliesIn p).Sublist (repliesIn q) := h.filterMap _

/-- A closing place that no frame holds (R119). -/
theorem countP_isClosing_eq_zero {q : List TxFrame} (h : closingHeld q = false) :
    q.countP TxFrame.isClosing = 0 := by
  rw [List.countP_eq_zero]
  exact fun f hf => List.any_eq_false.1 h f hf

theorem isPrompt_of_isClosing {f : TxFrame} (h : f.isClosing = true) : f.isPrompt = false := by
  unfold TxFrame.isClosing at h
  split at h
  · rename_i kind hc
    simp [TxFrame.isPrompt, hc]
  · cases h

theorem replySlot_of_isClosing {f : TxFrame} (h : f.isClosing = true) : f.replySlot = none := by
  unfold TxFrame.isClosing at h
  split at h
  · rename_i kind hc
    simp [TxFrame.replySlot, hc]
  · cases h

/-- Every frame is of exactly one class. -/
theorem length_eq_classes (q : List TxFrame) :
    q.length = promptCount q + q.countP TxFrame.isClosing + (repliesIn q).length := by
  induction q with
  | nil => rfl
  | cons f q ih =>
    rw [promptCount, repliesIn] at *
    cases hc : f.cls <;>
      simp [TxFrame.isPrompt, TxFrame.isClosing, TxFrame.replySlot, hc, ih] <;> omega

/-! ## The law under the updates of a queue -/

/-- A slot that is not REPLYING has no reply in the queue. -/
theorem QueueLaw.not_replying {s : State} (h : QueueLaw s) {k : Nat}
    (hk : ∀ r, s.slots.get k = some r → r.phase ≠ .replying) : k ∉ repliesIn s.txQueue := by
  intro hm
  obtain ⟨r, hr, hp⟩ := h.replying k hm
  exact hk r hr hp

/-- Frames leave, and perhaps no operation is pending any more. -/
theorem QueueLaw.shrink {s t : State} (h : QueueLaw s) (queue : t.txQueue.Sublist s.txQueue)
    (operation : t.operation = s.operation ∨ t.operation = .none) (slots : t.slots = s.slots) :
    QueueLaw t where
  prompts := (queue.countP_le).trans h.prompts
  closing := by
    have hle : t.txQueue.countP TxFrame.isClosing ≤ s.txQueue.countP TxFrame.isClosing :=
      queue.countP_le
    have hc := h.closing
    unfold State.closingClaims at hc ⊢
    rcases operation with ho | ho <;> rw [ho]
    · omega
    · rw [if_pos rfl]
      omega
  replies := h.replies.sublist (repliesIn_sublist queue)
  slots := slots ▸ h.slots
  replying k hk := slots ▸ h.replying k ((repliesIn_sublist queue).subset hk)

/-- The law speaks of the queue, the slots and the pending operation alone. -/
theorem QueueLaw.congr {s t : State} (h : QueueLaw s) (queue : t.txQueue = s.txQueue)
    (operation : t.operation = s.operation) (slots : t.slots = s.slots) : QueueLaw t :=
  h.shrink (queue ▸ .refl _) (.inl operation) slots

theorem QueueLaw.of_empty {s : State} (queue : s.txQueue = []) (operation : s.operation = .none)
    (slots : s.slots = []) : QueueLaw s where
  prompts := by rw [queue]; decide
  closing := by rw [State.closingClaims, queue, operation]; decide
  replies := by rw [queue]; exact .nil
  slots := by rw [slots]; rfl
  replying := by rw [queue]; nofun

/-- The slots change, and those with a reply in the queue stay REPLYING. -/
theorem QueueLaw.reslot {s t : State} (h : QueueLaw s) (queue : t.txQueue = s.txQueue)
    (operation : t.operation = s.operation) (slots : sparseWf 8 t.slots = true)
    (keeps : ∀ k ∈ repliesIn s.txQueue, ∀ r, s.slots.get k = some r →
      ∃ q, t.slots.get k = some q ∧ q.phase = r.phase) : QueueLaw t where
  prompts := queue ▸ h.prompts
  closing := by rw [State.closingClaims, queue, operation]; exact h.closing
  replies := queue ▸ h.replies
  slots := slots
  replying k hk := by
    rw [queue] at hk
    obtain ⟨r, hr, hp⟩ := h.replying k hk
    obtain ⟨q, hq, hqp⟩ := keeps k hk r hr
    exact ⟨q, hq, hqp.trans hp⟩

/-- A frame that is no slot's reply joins, within the room of its class. -/
theorem QueueLaw.join {s t : State} {f : TxFrame} (h : QueueLaw s)
    (queue : t.txQueue = s.txQueue ++ [f]) (slots : t.slots = s.slots) (hf : f.replySlot = none)
    (prompts : promptCount t.txQueue ≤ 7) (closing : t.closingClaims ≤ 1) : QueueLaw t := by
  have hr : repliesIn t.txQueue = repliesIn s.txQueue := by
    rw [queue, repliesIn_append, hf, Option.toList_none, List.append_nil]
  exact ⟨prompts, closing, hr ▸ h.replies, slots ▸ h.slots, by rw [hr, slots]; exact h.replying⟩

/-- A prompt frame joins while fewer than seven are queued (R118). -/
theorem QueueLaw.joinPrompt {s : State} (h : QueueLaw s) (dest tag : Byte) (p : Payload)
    (hroom : promptCount s.txQueue < 7) : QueueLaw (s.enqueue ⟨.prompt, dest, tag, p⟩) := by
  refine h.join (f := ⟨.prompt, dest, tag, p⟩) rfl rfl rfl ?_ ?_
  · rw [State.enqueue_txQueue, promptCount_append]
    exact hroom
  · rw [State.closingClaims, State.enqueue_txQueue, countP_isClosing_append]
    exact h.closing

/-- A closing MREPLY joins where its place is free and no other is promised (R119). -/
theorem QueueLaw.joinClosing {s t : State} {f : TxFrame} (h : QueueLaw s) (hf : f.isClosing = true)
    (queue : t.txQueue = s.txQueue ++ [f]) (slots : t.slots = s.slots) (operation : t.operation = .none)
    (hfree : s.txQueue.countP TxFrame.isClosing = 0) : QueueLaw t := by
  refine h.join queue slots (replySlot_of_isClosing hf) ?_ ?_
  · rw [queue, promptCount_append, isPrompt_of_isClosing hf]
    exact h.prompts
  · rw [State.closingClaims, queue, countP_isClosing_append, hf, operation, hfree]
    decide

/-- While an operation is pending no frame holds the closing place (R119). -/
theorem QueueLaw.closing_free {s : State} (h : QueueLaw s) (ho : s.operation ≠ .none) :
    s.txQueue.countP TxFrame.isClosing = 0 := by
  have hc := h.closing
  rw [State.closingClaims, if_neg ho] at hc
  omega

/-! ## The law under the updates of the request table (R54, R56, R57) -/

theorem QueueLaw.putSlot {s : State} (h : QueueLaw s) {k : Nat} {r q : Request}
    (hr : s.slots.get k = some r) (hq : q.phase = r.phase) : QueueLaw (s.putSlot k q) := by
  refine h.reslot rfl rfl (sparseWf_put (Sparse.key_lt_of_get h.slots hr) h.slots) fun j _ x hx => ?_
  rw [State.putSlot, Sparse.get_put]
  split
  · rename_i hj
    rw [hj, hr] at hx
    exact ⟨q, rfl, Option.some.inj hx ▸ hq⟩
  · exact ⟨x, hx, rfl⟩

/-- A slot with no reply in the queue is filled. -/
theorem QueueLaw.fillSlot {s : State} (h : QueueLaw s) {k : Nat} (hk : k < 8)
    (hn : k ∉ repliesIn s.txQueue) (q : Request) : QueueLaw (s.putSlot k q) := by
  refine h.reslot rfl rfl (sparseWf_put hk h.slots) fun j hj x hx => ⟨x, ?_, rfl⟩
  exact (Sparse.get_put_ne q s.slots (by rintro rfl; exact hn hj)).trans hx

theorem QueueLaw.cancelLeg {s : State} (h : QueueLaw s) (k i : Nat) :
    QueueLaw (State.cancelLeg k s i) := by
  rcases cancelLeg_cases k s i with ⟨-, he⟩ | ⟨g, -, he⟩ <;> rw [he]
  · exact h
  · refine h.reslot rfl rfl (sparseWf_modify h.slots) fun j _ x hx => ?_
    simp only [Sparse.get_modify, hx, Option.map_some]
    split
    · exact ⟨_, rfl, rfl⟩
    · exact ⟨x, rfl, rfl⟩

/-- A slot's reply joins as the slot turns REPLYING: it had none in the queue while it was ACTIVE. -/
theorem QueueLaw.completeIfDone {s : State} (h : QueueLaw s) (k : Nat) :
    QueueLaw (s.completeIfDone k) := by
  rcases completeIfDone_cases s k with ⟨r, hr, ha, -, he⟩ | ⟨he, -⟩
  · have hn : k ∉ repliesIn s.txQueue := h.not_replying fun q hq => by
      rw [hr] at hq
      cases hq
      rw [ha]
      nofun
    have filled := h.fillSlot (Sparse.key_lt_of_get h.slots hr) hn { r with phase := .replying }
    rw [he]
    refine ⟨?_, ?_, ?_, filled.slots, ?_⟩
    · rw [promptCount_append]
      exact h.prompts
    · rw [State.closingClaims, countP_isClosing_append]
      exact h.closing
    · rw [repliesIn_append]
      exact List.nodup_append.2 ⟨h.replies, List.nodup_singleton k, by
        rintro a ha b hb rfl
        exact hn (List.mem_singleton.1 hb ▸ ha)⟩
    · intro j hj
      rw [repliesIn_append] at hj
      rcases List.mem_append.1 hj with hj | hj
      · exact filled.replying j hj
      · rw [List.mem_singleton.1 hj]
        exact ⟨_, Sparse.get_put_same k _ _, rfl⟩
  · rw [he]
    exact h

/-- A slot goes FREE once its reply has left the queue (R57). -/
theorem QueueLaw.releaseSlot {s : State} (h : QueueLaw s) {k : Nat} (hk : k ∉ repliesIn s.txQueue) :
    QueueLaw (s.releaseSlot k) := by
  rcases releaseSlot_cases s k with ⟨-, he⟩ | ⟨r, -, he⟩ <;> rw [he]
  · exact h
  · refine h.reslot rfl rfl (sparseWf_del h.slots) fun j hj x hx => ⟨x, ?_, rfl⟩
    exact (Sparse.get_del_ne s.slots (by rintro rfl; exact hk hj)).trans hx

/-- The reply at the head leaves, and its slot goes FREE. -/
theorem QueueLaw.popReply {s : State} (h : QueueLaw s) {f : TxFrame} {rest : List TxFrame} {k : Nat}
    (hq : s.txQueue = f :: rest) (hf : f.replySlot = some k) :
    QueueLaw ({ s with txQueue := rest }.releaseSlot k) := by
  have hnodup := h.replies
  rw [hq, repliesIn, List.filterMap_cons_some hf] at hnodup
  exact (h.shrink (t := { s with txQueue := rest }) (hq ▸ List.sublist_cons_self f rest) (.inl rfl)
    rfl).releaseSlot (List.nodup_cons.1 hnodup).1

/-! ## Admission -/

/-- What neither a filled leg record nor a joined demand queue changes, admission leaves alone. -/
theorem entered_keeps {α : Type} (g : State → α) (hleg : ∀ t i x, g (State.putLeg t i x) = g t)
    (hline : ∀ t l i, g (State.joinDemand t l i) = g t) (s : State) (kind : RequestKind) (f : Frame)
    (slot : Nat) (p : Plan) : g (s.entered kind f slot p).1 = g s := by
  have fetchLegs : ∀ (bound : List (Nat × LegPlan)) (t : State) (r : Request),
      g (bound.foldl (admitFetchLeg slot) (t, r)).1 = g t := by
    intro bound
    induction bound with
    | nil => exact fun _ _ => rfl
    | cons b bound ih =>
      intro t r
      refine (ih (admitFetchLeg slot (t, r) b).1 _).trans ?_
      simp only [admitFetchLeg]
      split
      · rfl
      · split
        · exact hleg _ _ _
        · exact (hline _ _ _).trans (hleg _ _ _)
  have holdLegs : ∀ (bound : List (Nat × LegPlan)) (t : State),
      g (bound.foldl (State.holdLegs slot) t) = g t := by
    intro bound
    induction bound with
    | nil => exact fun _ => rfl
    | cons b bound ih => exact fun t => (ih _).trans (hleg _ _ _)
  have storeLegs : ∀ (r : Request) (bound : List (Nat × LegPlan)),
      g (admitStoreLegs slot s r bound).1 = g s := by
    intro r bound
    cases bound with
    | nil => rfl
    | cons b bound =>
      simp only [admitStoreLegs]
      split
      · exact hleg _ _ _
      · exact (holdLegs bound _).trans ((hline _ _ _).trans (hleg _ _ _))
  cases kind with
  | fetch => exact fetchLegs _ s _
  | store => exact storeLegs _ _
  | storeSet => exact storeLegs _ _

/-- An admitted request takes a FREE slot, which has no reply in the queue. -/
theorem QueueLaw.enter {s : State} (h : QueueLaw s) (kind : RequestKind) (f : Frame) {slot : Nat}
    (p : Plan) (hs : s.freeSlot = some slot) :
    QueueLaw ((s.entered kind f slot p).1.putSlot slot (s.entered kind f slot p).2) := by
  obtain ⟨hlt, hnone⟩ := freeSlot_spec hs
  have hqueue := entered_keeps State.txQueue (fun _ _ _ => rfl) (fun _ _ _ => rfl) s kind f slot p
  have hop := entered_keeps State.operation (fun _ _ _ => rfl) (fun _ _ _ => rfl) s kind f slot p
  have hslots := (entered_filled s kind f slot p).1.slots
  refine (h.congr hqueue hop hslots).fillSlot hlt ?_ _
  rw [hqueue]
  exact h.not_replying fun r hr => by rw [hnone] at hr; cases hr

/-! ## Every step keeps the law -/

/-- The law of the transmit queue holds across everything a step is made of. -/
theorem queueLaw_closed : ClosedStep fun s t => QueueLaw s → QueueLaw t where
  refl _ h := h
  trans a b h := b (a h)
  countHost _ _ h := h.congr rfl rfl rfl
  scan _ _ _ h := h.congr rfl rfl rfl
  prompt _ dest tag p hroom h := h.joinPrompt dest tag p hroom
  slot s _ _ _ hr hq h :=
    h.putSlot (Sparse.get_of_mem ((sparseWf_iff 8 s.slots).1 h.slots).1 hr) hq.1
  leg _ _ _ _ _ _ h := h.congr rfl rfl rfl
  modLeg _ _ _ _ h := h.congr rfl rfl rfl
  cancelLeg _ k i _ h := h.cancelLeg k i
  complete _ k h := h.completeIfDone k
  line _ _ _ _ h := h.congr rfl rfl rfl
  record _ _ _ _ _ h := h.congr rfl rfl rfl
  write _ _ _ h := h.congr rfl rfl rfl
  invalidate _ _ _ h := h.congr rfl rfl rfl
  enter _ kind f _ p _ hs h := h.enter kind f p hs
  rest _ _ hr h := h.congr hr.txQueue hr.operation hr.slots
  begin s o _ hfree h := by
    refine ⟨h.prompts, ?_, h.replies, h.slots, h.replying⟩
    rw [State.closingClaims, countP_isClosing_eq_zero hfree]
    split <;> decide
  goOn s o ho h := by
    refine ⟨h.prompts, ?_, h.replies, h.slots, h.replying⟩
    rw [State.closingClaims, h.closing_free ho]
    split <;> decide
  finish _ _ ho hf h := h.joinClosing hf rfl rfl rfl (h.closing_free ho)
  restart _ _ ho hfree hf h := h.joinClosing hf rfl rfl ho (countP_isClosing_eq_zero hfree)
  swap _ _ h := h.congr rfl rfl rfl
  pop _ f rest hq _ h := h.shrink (hq ▸ List.sublist_cons_self f rest) (.inl rfl) rfl
  popReply _ _ _ _ hq hf h := h.popReply hq hf
  warm _ _ := .of_empty rfl rfl rfl
  halt _ h := h.shrink (List.nil_sublist _) (.inr rfl) rfl
  cold _ _ _ _ _ := .of_empty rfl rfl rfl

/-- The room of the three classes together: seven prompt frames, one closing MREPLY and a reply for each
of eight slots (R117). -/
theorem QueueLaw.length_le {s : State} (h : QueueLaw s) : s.txQueue.length ≤ 16 := by
  have hprompts := h.prompts
  have hclosing : s.txQueue.countP TxFrame.isClosing ≤ 1 :=
    (Nat.le_add_right _ _).trans h.closing
  have hreplies : (repliesIn s.txQueue).length ≤ 8 := by
    have hsub : repliesIn s.txQueue ⊆ List.range 8 := fun k hk => by
      obtain ⟨r, hr, -⟩ := h.replying k hk
      exact List.mem_range.2 (Sparse.key_lt_of_get h.slots hr)
    simpa using (h.replies.subperm hsub).length_le
  have hlen := length_eq_classes s.txQueue
  omega

/-- Settles O54: the law by its closure under all that a step does, the length by the room of the
classes. -/
theorem stepKeepsQueueLaw : Obligations.StepKeepsQueueLaw := by
  intro s t law hstep
  have ht := step_closed queueLaw_closed hstep law
  exact ⟨ht, ht.length_le⟩

/-- Settles O9: the two cases of a prompt frame and of a refusal. -/
theorem promptFrameJoinsOrIsDropped : Obligations.PromptFrameJoinsOrIsDropped := by
  intro s dest tag p r
  rcases pushPrompt_cases s dest tag p with ⟨hp, hprompt⟩ | ⟨hp, hprompt⟩ <;>
    rcases pushRefusal_cases s dest tag r with ⟨hr, hrefusal⟩ | ⟨hr, hrefusal⟩
  · exact ⟨fun _ => ⟨hprompt, hrefusal⟩, fun h => absurd hp (Nat.not_lt.2 h)⟩
  · exact absurd hp (Nat.not_lt.2 hr)
  · exact absurd hr (Nat.not_lt.2 hp)
  · exact ⟨fun h => absurd h (Nat.not_lt.2 hp), fun _ => ⟨hprompt, hrefusal⟩⟩

end Sys2Proof.Machine
end

section
/-!
SUPPORT. The receive framer (R112 to R114): what each byte is and does in each state of the framer, the
judgement of a complete frame, and that the bytes of a frame are read back as its fields.
-/

namespace Sys2Proof.Machine

/-! ## What a byte is, and what the framer does with it (R112) -/

theorem goodLength_iff (b : Byte) : goodLength b = true ↔ 4 ≤ b.toNat ∧ b.toNat ≤ 250 := by
  simp [goodLength]

theorem byteEvent_header (b : Byte) :
    byteEvent .header b = if goodLength b then .plain else .badLength := rfl

theorem State.byteEvent_of_serving {s : State} (h : s.serving = true) (b : Byte) :
    s.byteEvent b = some (Machine.byteEvent s.framer.state b) := if_pos h

theorem State.byteEvent_of_not_serving {s : State} (h : s.serving = false) (b : Byte) :
    s.byteEvent b = none := if_neg (by simp [h])

section bytes

variable {s : State}

theorem keepByte_hunt (h : s.framer.state = .hunt) (b : Byte) :
    s.keepByte b = if b = syncByte then s.gapFrom .header else s := by
  simp only [State.keepByte, h]

theorem keepByte_header (h : s.framer.state = .header) (b : Byte) :
    s.keepByte b = s.gapFrom (.body b []) := by
  simp only [State.keepByte, h]

theorem keepByte_body {length : Byte} {kept : List Byte} (h : s.framer.state = .body length kept)
    (b : Byte) : s.keepByte b = s.gapFrom
      (if kept.length + 1 < length.toNat then .body length (kept ++ [b])
        else .check length (kept ++ [b]) none) := by
  simp only [State.keepByte, h, ← Nat.not_lt]
  split <;> simp_all

theorem keepByte_check {length : Byte} {kept : List Byte} (h : s.framer.state = .check length kept none)
    (b : Byte) : s.keepByte b = s.gapFrom (.check length kept (some b)) := by
  simp only [State.keepByte, h]

theorem exec_hostByteReceived (hs : s.serving = true) {b : Byte}
    (hp : byteEvent s.framer.state b = .plain) :
    exec (.hostByteReceived b) s = .next (s.keepByte b) := by
  simp only [exec, execHostByteReceived, State.byteEvent_of_serving hs, hp]

theorem exec_hostBadLength (hs : s.serving = true) {b : Byte} (hh : s.framer.state = .header)
    (hb : goodLength b = false) : exec (.hostBadLength b) s = .next s.abandonFrame := by
  simp only [exec, execHostBadLength, State.byteEvent_of_serving hs, hh, byteEvent_header, hb,
    Bool.false_eq_true, if_false]

theorem exec_hostGapTimerExpiry (hs : s.serving = true) (hf : s.framer.state ≠ .hunt) {expiry : Uptime}
    (hg : s.framer.gap = some expiry) (hr : reached s.uptime expiry = true) :
    exec .hostGapTimerExpiry s = .next s.abandonFrame := by
  simp [exec, execHostGapTimerExpiry, hs, hf, hg, expired, hr]

end bytes

/-- Settles O3: in each state of the framer, what the byte is and what is kept of it. -/
theorem framerTakesBytes : Obligations.FramerTakesBytes := by
  intro s byte
  refine ⟨fun hs => ?_, fun hs => ⟨fun hf => ?_, fun hf hlow hhigh => ?_, fun hf hbad => ?_,
    fun length kept hf => ?_, fun length kept hf => ?_, fun expiry hf hg hr => ?_⟩⟩
  · simp only [exec, execHostByteReceived, State.byteEvent_of_not_serving hs]
  · rw [exec_hostByteReceived hs (by rw [hf]; rfl), keepByte_hunt hf]
    rfl
  · have hgood : goodLength byte = true := (goodLength_iff byte).2 ⟨hlow, hhigh⟩
    rw [exec_hostByteReceived hs (by rw [hf, byteEvent_header, if_pos hgood]), keepByte_header hf]
    rfl
  · have hgood : goodLength byte = false := by
      rw [Bool.eq_false_iff, Ne, goodLength_iff]
      omega
    rw [exec_hostBadLength hs hf hgood]
    rfl
  · rw [exec_hostByteReceived hs (by rw [hf]; rfl), keepByte_body hf]
    rfl
  · rw [exec_hostByteReceived hs (by rw [hf]; rfl), keepByte_check hf]
    rfl
  · rw [exec_hostGapTimerExpiry hs hf hg hr]
    rfl

/-! ## The judgement of a complete frame (R114) -/

theorem hostAddress_iff (b : Byte) : hostAddress b = true ↔ 1 ≤ b.toNat ∧ b.toNat ≤ 126 := by
  simp [hostAddress]

theorem hostKind_eq_none {kind : Byte} (h : kind ∉ [0x21#8, 0x22#8, 0x23#8, 0x28#8, 0x30#8]) :
    hostKind kind = none := by
  simp only [List.mem_cons, List.not_mem_nil, or_false, not_or] at h
  obtain ⟨hfetch, hstore, hstoreSet, hcancel, hmgmt⟩ := h
  simp [hostKind, FrameKind.code, hfetch, hstore, hstoreSet, hcancel, hmgmt]

theorem hostKind_code : ∀ kind ∈ [FrameKind.fetch, .store, .storeSet, .cancel, .mgmt],
    hostKind kind.code = some kind := by decide

section judgement

variable {address : Byte} {f : Frame}

theorem judgeFrame_badCheck (h : f.checkGood = false) : judgeFrame address f = .checkError := by
  simp [judgeFrame, h]

theorem judgeFrame_otherDest (hc : f.checkGood = true) (h : f.dest ≠ address) :
    judgeFrame address f = .notForUs := by
  simp [judgeFrame, hc, h]

theorem judgeFrame_badSource (hc : f.checkGood = true) (hd : f.dest = address)
    (h : f.source.toNat < 1 ∨ 126 < f.source.toNat ∨ f.source = address) :
    judgeFrame address f = .notForUs := by
  have hbad : (!hostAddress f.source || decide (f.source = address)) = true := by
    rw [Bool.or_eq_true, Bool.not_eq_true', Bool.eq_false_iff, Ne, hostAddress_iff, decide_eq_true_eq]
    rcases h with h | h | h
    · exact .inl fun ⟨hlow, _⟩ => absurd hlow (Nat.not_le.2 h)
    · exact .inl fun ⟨_, hhigh⟩ => absurd hhigh (Nat.not_le.2 h)
    · exact .inr h
  simp [judgeFrame, hc, hd, hbad]

/-- A frame that passes the first three tests is judged by its kind. -/
theorem judgeFrame_forUs (hc : f.checkGood = true) (hd : f.dest = address) (hlow : 1 ≤ f.source.toNat)
    (hhigh : f.source.toNat ≤ 126) (hs : f.source ≠ address) :
    judgeFrame address f = (hostKind f.kind).elim .unknownKind .accepted := by
  have hgood : hostAddress f.source = true := (hostAddress_iff f.source).2 ⟨hlow, hhigh⟩
  simp only [judgeFrame, hc, hd, hgood, hs, ne_eq, not_true_eq_false, Bool.not_true, decide_false,
    Bool.or_self, Bool.false_eq_true, if_false]
  cases hostKind f.kind <;> rfl

end judgement

section arrival

variable {s : State} {byte : Byte} {f : Frame}

theorem arrival_of_completes (h : s.byteEvent byte = some (.completes f)) :
    s.arrival byte = some (f, judgeFrame s.link.address f) := by
  simp only [State.arrival, h]

/-- A frame that fails a test is discarded and counted. -/
theorem exec_hostFrameRejected (h : s.byteEvent byte = some (.completes f)) {v : Verdict}
    (hv : judgeFrame s.link.address f = v) (hr : ∀ kind, v ≠ .accepted kind) :
    exec (.hostFrameRejected byte) s = .next (s.hunt.countHost (countVerdict v)) := by
  cases v with
  | accepted kind => exact absurd rfl (hr kind)
  | checkError | notForUs | unknownKind =>
    simp only [exec, execHostFrameRejected, arrival_of_completes h, hv]

theorem dispatched_of_accepted (h : s.byteEvent byte = some (.completes f)) {kind : FrameKind}
    (hv : judgeFrame s.link.address f = .accepted kind) : s.dispatched byte = some (f, kind) := by
  simp only [State.dispatched, arrival_of_completes h, hv]

end arrival

/-- Settles O4: the verdict under each test's failure, the tests before it passed. -/
theorem hostFrameJudgedInOrder : Obligations.HostFrameJudgedInOrder := by
  intro s byte f h
  refine ⟨fun hc => ?_, fun hc hd => ?_, fun hc hd hs => ?_, fun hc hd hlow hhigh hs hk => ?_,
    fun hc hd hlow hhigh hs kind hm hk => ?_⟩
  · exact exec_hostFrameRejected h (judgeFrame_badCheck hc) nofun
  · exact exec_hostFrameRejected h (judgeFrame_otherDest hc hd) nofun
  · exact exec_hostFrameRejected h (judgeFrame_badSource hc hd hs) nofun
  · refine exec_hostFrameRejected h (v := .unknownKind) ?_ nofun
    rw [judgeFrame_forUs hc hd hlow hhigh hs, hostKind_eq_none hk]
    rfl
  · refine dispatched_of_accepted h ?_
    rw [judgeFrame_forUs hc hd hlow hhigh hs, hk, hostKind_code kind hm]
    rfl

/-! ## A whole frame (R112, R167) -/

/-- The part with its framer in a state, a byte just kept, and bytes still to arrive. -/
def State.reading (s : State) (f : FramerState) (bytes : List Byte) : State :=
  { s with framer := ⟨f, some (after s.uptime 10)⟩, pending := bytes.map .hostByteReceived }

theorem run_of_step {s t : State} (h : step s = .next t) (n : Nat) :
    core.run (n + 1) s = core.run n t := by
  simp only [Host.Core.run, show core.step s = .next t from h]

/-- A byte that waits, and that the framer keeps as it goes to another state, takes one step. -/
theorem step_reading {s : State} (hs : s.serving = true) {f g : FramerState} {b : Byte}
    (hp : byteEvent f b = .plain)
    (hk : ∀ t : State, t.framer.state = f → t.keepByte b = t.gapFrom g) {t : State}
    {bytes : List Byte}
    (ht : t = { s with framer := t.framer, pending := (b :: bytes).map .hostByteReceived })
    (hf : t.framer.state = f) : step t = .next (s.reading g bytes) := by
  subst hf
  have hpending : t.pending = .hostByteReceived b :: bytes.map .hostByteReceived := by rw [ht]; rfl
  rw [step, hpending]
  refine (exec_hostByteReceived (s := { t with pending := bytes.map .hostByteReceived }) ?_ hp).trans
    (congrArg Host.Outcome.next ?_)
  · rw [ht]
    exact hs
  · rw [hk { t with pending := bytes.map .hostByteReceived } rfl, ht]
    rfl

section reading

variable {s : State} (hs : s.serving = true)

include hs

theorem step_sync (hf : s.framer.state = .hunt) {bytes : List Byte}
    (hq : s.pending = (syncByte :: bytes).map .hostByteReceived) :
    step s = .next (s.reading .header bytes) :=
  step_reading hs rfl (fun _ h => (keepByte_hunt h syncByte).trans (if_pos rfl)) (hq ▸ rfl) hf

theorem step_length {length : Byte} (hl : goodLength length = true) (bytes : List Byte) :
    step (s.reading .header (length :: bytes)) = .next (s.reading (.body length []) bytes) :=
  step_reading hs ((byteEvent_header length).trans (if_pos hl)) (fun _ h => keepByte_header h length) rfl rfl

theorem step_body (length b : Byte) (kept bytes : List Byte) :
    step (s.reading (.body length kept) (b :: bytes)) = .next (s.reading
      (if kept.length + 1 < length.toNat then .body length (kept ++ [b])
        else .check length (kept ++ [b]) none) bytes) :=
  step_reading hs rfl (fun _ h => keepByte_body h b) rfl rfl

theorem step_firstCheck (length first : Byte) (kept bytes : List Byte) :
    step (s.reading (.check length kept none) (first :: bytes)) =
      .next (s.reading (.check length kept (some first)) bytes) :=
  step_reading hs rfl (fun _ h => keepByte_check h first) rfl rfl

/-- BODY keeps what the length byte still counts, and then the framer stands in CHECK. -/
theorem run_body {length : Byte} (rest : List Byte) (n : Nat) :
    ∀ (bytes kept : List Byte), bytes ≠ [] → length.toNat = kept.length + bytes.length →
      core.run (n + bytes.length) (s.reading (.body length kept) (bytes ++ rest)) =
        core.run n (s.reading (.check length (kept ++ bytes) none) rest)
  | [], _, hne, _ => absurd rfl hne
  | [b], kept, _, hl => by
    rw [List.length_singleton] at hl
    refine (run_of_step (step_body hs length b kept rest) n).trans ?_
    rw [if_neg (by omega)]
  | b :: c :: bytes, kept, _, hl => by
    rw [List.length_cons] at hl
    refine (run_of_step (step_body hs length b kept (c :: bytes ++ rest)) _).trans ?_
    rw [if_pos (by simp at hl; omega), List.append_cons kept b (c :: bytes)]
    exact run_body rest n (c :: bytes) (kept ++ [b]) (List.cons_ne_nil _ _)
      (by rw [hl, List.length_append, List.length_singleton]; omega)

/-- The bytes of a frame up to its first check byte take the framer from HUNT to CHECK. -/
theorem run_frame (hf : s.framer.state = .hunt) {length first : Byte} {counted : List Byte}
    (hgood : goodLength length = true) (hl : length.toNat = counted.length)
    (hq : s.pending = (syncByte :: length :: (counted ++ [first])).map .hostByteReceived) :
    core.run (counted.length + 3) s =
      .next (s.reading (.check length counted (some first)) []) := by
  have hne : counted ≠ [] := by
    rintro rfl
    rw [goodLength_iff, hl, List.length_nil] at hgood
    omega
  calc core.run (counted.length + 3) s
    _ = core.run (counted.length + 2) (s.reading .header (length :: (counted ++ [first]))) :=
      run_of_step (step_sync hs hf hq) _
    _ = core.run (counted.length + 1) (s.reading (.body length []) (counted ++ [first])) :=
      run_of_step (step_length hs hgood _) _
    _ = core.run (1 + counted.length) (s.reading (.body length []) (counted ++ [first])) := by
      rw [Nat.add_comm]
    _ = core.run 1 (s.reading (.check length counted none) [first]) :=
      run_body hs [first] 1 counted [] hne (by simpa using hl)
    _ = .next (s.reading (.check length counted (some first)) []) :=
      run_of_step (step_firstCheck hs length first counted []) 0

end reading

/-- The second check byte completes the frame with the fields that were sent and a good check. -/
theorem byteEvent_last (dest source tag : Byte) (kind : FrameKind) (body : List Byte) :
    let counted := dest :: source :: kind.code :: tag :: body
    let check := checkOf (nat1 (body.length + 4) :: counted)
    byteEvent (.check (nat1 (body.length + 4)) counted (some (highByte check))) (lowByte check) =
      .completes ⟨dest, source, kind.code, tag, body, true⟩ := by
  intro counted check
  simp only [byteEvent, frameOf, counted]
  exact congrArg (fun good => ByteEvent.completes ⟨dest, source, kind.code, tag, body, good⟩)
    (decide_eq_true rfl)

/-- A frame's bytes as the framer meets them (R167). -/
theorem wireFrame_eq (dest source tag : Byte) (kind : FrameKind) (body : List Byte) :
    let counted := dest :: source :: kind.code :: tag :: body
    let check := checkOf (nat1 (body.length + 4) :: counted)
    wireFrame dest source kind tag body =
      (syncByte :: nat1 (body.length + 4) :: (counted ++ [highByte check])) ++ [lowByte check] := by
  simp [wireFrame, countedBytes, bytes16]

/-- Settles O5: the framer goes through its four states with the frame's bytes, and what it has kept is the
frame. -/
theorem framerReadsEveryFrame : Obligations.FramerReadsEveryFrame := by
  intro s dest source tag kind body last hs hf hlen hlast hq
  rw [wireFrame_eq, List.getLast?_concat] at hlast
  rw [wireFrame_eq, List.dropLast_concat] at hq
  have hl : (nat1 (body.length + 4)).toNat = body.length + 4 := toNat_nat1 (by omega)
  have hgood : goodLength (nat1 (body.length + 4)) = true := by
    rw [goodLength_iff, hl]
    omega
  refine ⟨_, run_frame hs hf (counted := dest :: source :: kind.code :: tag :: body) hgood hl hq, ?_⟩
  rw [← Option.some.inj hlast]
  exact (State.byteEvent_of_serving (s := s.reading _ []) hs _).trans
    (congrArg some (byteEvent_last dest source tag kind body))

end Sys2Proof.Machine
end

section
/-!
SUPPORT. The switch of the link's settings as a swap's closing MREPLY has been sent (R116, R122), and the part as
it stops where it stands and begins a cold start (R121, R154 to R156).
-/

namespace Sys2Proof.Machine

/-! ## The link's settings (R122) -/

theorem exec_transmitEnd {s : State} {f : TxFrame} {rest : List TxFrame} {bytes : List Byte}
    (hs : s.serving = true) (hsending : s.sending = some bytes) (hq : s.txQueue = f :: rest) :
    exec .transmitEnd s = .next ({ s with sending := none, txQueue := rest }.frameSent f.cls) := by
  simp only [exec, execTransmitEnd, hs, hsending, hq]

/-- The active bridge settings take effect, and a frame partly received is abandoned and counted. -/
theorem switchLink_eq (s : State) : s.switchLink = { s with
    link := s.active.bridge
    framer := if s.framer.state = .hunt then s.framer else ⟨.hunt, none⟩
    hostCounters := if s.framer.state = .hunt then s.hostCounters else
      { s.hostCounters with framingErrors := satInc s.hostCounters.framingErrors } } := by
  unfold State.switchLink
  split <;> rfl

/-- Settles O7: the frame's end is the switch. -/
theorem settingsSwitchAfterSwapReply : Obligations.SettingsSwitchAfterSwapReply := by
  intro s f rest bytes hs hsending hq hc
  rw [exec_transmitEnd hs hsending hq, hc]
  exact congrArg Host.Outcome.next (switchLink_eq { s with sending := none, txQueue := rest })

/-! ## A COMMIT that is cut off (R154) -/

/-- What the store may hold once the part has stopped: of a write that has not ended some first part, and
otherwise what it held. -/
def State.cutOff (s : State) (store : ImageStore) : Prop :=
  (∀ dest tag job, s.operation = .commit dest tag job → job.written = false →
    ∃ n, store = s.store.setSlot job.target
      ((s.store.slot job.target).writeFrom 0 1 (job.content.take n))) ∧
  ((∀ dest tag job, s.operation = .commit dest tag job → job.written = true) → store = s.store)

theorem cutCommit_writing {s : State} {dest tag : Byte} {job : CommitJob}
    (ho : s.operation = .commit dest tag job) (hw : job.written = false) :
    s.cutCommit.store = s.store.setSlot job.target ((s.store.slot job.target).writeFrom 0 1
      (job.content.take (Config.bytesWritten s.freeCount))) := by
  simp [State.cutCommit, ho, hw]

theorem cutCommit_not_writing {s : State}
    (h : ∀ dest tag job, s.operation = .commit dest tag job → job.written = true) :
    s.cutCommit = s := by
  unfold State.cutCommit
  split
  · rename_i dest tag job ho
    exact if_pos (h dest tag job ho)
  · rfl

theorem cutOff_cutCommit (s : State) : s.cutOff s.cutCommit.store :=
  ⟨fun _ _ _ ho hw => ⟨_, cutCommit_writing ho hw⟩, fun h => by rw [cutCommit_not_writing h]⟩

theorem cutCommit_store_of_idle {s : State} (ho : s.operation = .none) :
    s.cutCommit.store = s.store := by
  rw [cutCommit_not_writing fun dest tag job h => by rw [ho] at h; cases h]

/-! ## The part stops, and begins a cold start (R121, R155, R156) -/

theorem stopIdleTimer_eq (s : State) : s.stopIdleTimer = { s with
    session := s.session.map (fun o => { o with expiry := none }) } := by
  unfold State.stopIdleTimer
  cases h : s.session with
  | none => exact congrArg (fun x => { s with session := x }) h
  | some o => rfl

theorem halt_eq (s : State) : s.halt = { s with
    sending := none
    txQueue := []
    operation := .none
    framer := ⟨.hunt, none⟩
    lines := Four.build (fun l => (s.lines.get l).halted)
    session := s.session.map (fun o => { o with expiry := none })
    store := s.cutCommit.store
    freeCount := s.cutCommit.freeCount } := by
  simp only [State.halt, stopIdleTimer_eq]
  rw [cutCommit_eq]
  rfl

/-- The part stands still as it stopped in `s`: nothing is sent or received, and no operation is pending. -/
def State.stoppedAs (s t : State) : Prop :=
  t.sending = none ∧ t.txQueue = [] ∧ t.operation = .none ∧ t.framer = ⟨.hunt, none⟩ ∧
  (∀ l, t.lines.get l = { s.lines.get l with phase := .idle, current := none, receiving := false }) ∧
  t.session = s.session.map (fun o => { o with expiry := none }) ∧
  t.active = s.active ∧ t.generation = s.generation ∧ t.committed = s.committed ∧
  t.staging = s.staging

theorem stoppedAs_halt (s : State) : s.stoppedAs s.halt := by
  rw [halt_eq]
  exact ⟨rfl, rfl, rfl, rfl, fun l => Four.get_build _ l, rfl, rfl, rfl, rfl, rfl⟩

theorem halt_store (s : State) : s.halt.store = s.cutCommit.store := by rw [halt_eq]

/-- A cold start begins as the part stops (R156). -/
theorem beginColdStart_spec (s : State) : s.beginColdStart.uptime = 0#32 ∧
    s.beginColdStart.bridge = .starting ∧ s.stoppedAs s.beginColdStart :=
  ⟨rfl, rfl, stoppedAs_halt s⟩

/-- The view is built from what the store holds once a COMMIT has been cut off. -/
theorem beginColdStart_store (s : State) : s.beginColdStart.store = s.cutCommit.store.rebuilt :=
  congrArg ImageStore.rebuilt (halt_store s)

theorem beginColdStart_store_of_idle {s : State} (ho : s.operation = .none) :
    s.beginColdStart.store = s.store.rebuilt := by
  rw [beginColdStart_store, cutCommit_store_of_idle ho]

theorem exec_resetPinEvent {s : State} (hs : s.supply = true) (hr : s.resetLow = false) :
    exec .resetPinEvent s = .next { s.halt with resetLow := true } := by
  simp [exec, execResetPinEvent, hs, hr]

theorem exec_powerLoss {s : State} (hs : s.supply = true) (hr : s.resetLow = false) :
    exec .powerLoss s = .next { s.halt with supply := false } := by
  simp [exec, execPowerLoss, hs, hr]

theorem exec_resetPinRelease {s : State} (hs : s.supply = true) (hr : s.resetLow = true) :
    exec .resetPinRelease s = .next (State.beginColdStart { s with resetLow := false }) := by
  simp [exec, execResetPinRelease, hs, hr]

theorem exec_powerOn {s : State} (hs : s.supply = false) (hr : s.resetLow = false) :
    exec .powerOn s = .next (State.beginColdStart { s with supply := true }) := by
  simp [exec, execPowerOn, hs, hr]

/-- Settles O45: the pin's fall and a loss of power stop the part, the other events begin a cold start. -/
theorem resetAndPowerStopThePart : Obligations.ResetAndPowerStopThePart := by
  intro s stopped sound
  refine ⟨fun hs hr => ?_, fun hs hr => ?_, fun hs hr => ?_, fun f rest bytes hs hsending hq hc => ?_⟩
  · obtain ⟨hsupply, -, -⟩ := halt_pins s
    have hstore : sound s.halt.store := halt_store s ▸ cutOff_cutCommit s
    have huptime : s.halt.uptime = s.uptime := by rw [halt_eq]
    exact ⟨_, _, exec_resetPinEvent hs hr, stoppedAs_halt s, hstore, rfl, hsupply.trans hs, huptime,
      exec_powerLoss hs hr, stoppedAs_halt s, hstore, rfl⟩
  · obtain ⟨huptime, hbridge, hstopped⟩ := beginColdStart_spec { s with resetLow := false }
    obtain ⟨-, hpin, -⟩ := halt_pins { s with resetLow := false }
    exact ⟨_, exec_resetPinRelease hs hr, hpin, huptime, hbridge, hstopped,
      beginColdStart_store_of_idle (s := { s with resetLow := false })⟩
  · obtain ⟨huptime, hbridge, hstopped⟩ := beginColdStart_spec { s with supply := true }
    obtain ⟨hsupply, -, -⟩ := halt_pins { s with supply := true }
    exact ⟨_, exec_powerOn hs hr, hsupply, huptime, hbridge, hstopped,
      beginColdStart_store_of_idle (s := { s with supply := true })⟩
  · have hexec := exec_transmitEnd hs hsending hq
    rw [hc] at hexec
    obtain ⟨huptime, hbridge, hstopped⟩ :=
      beginColdStart_spec { s with sending := none, txQueue := rest }
    exact ⟨_, _, hexec, huptime, hbridge, hstopped,
      cutOff_cutCommit { s with sending := none, txQueue := rest }, beginColdStart_store _⟩

end Sys2Proof.Machine
end

section
/-!
SUPPORT. The laws at the state after reset, the base case of their closure under every step (log entries 2
and 3).
-/

namespace Sys2Proof.Machine

theorem lineLaw_reset : LineLaw State.reset where
  streak l := by
    rw [State.reset, Four.get_fill]
    decide
  records l := by
    rw [State.reset, Four.get_fill]
    exact ⟨.nil, nofun⟩

/-- Slots that nothing has written are invalid (R149). -/
theorem imageLaw_reset : ImageLaw State.reset where
  views i := by
    cases i with
    | a | b => exact (slotView_of_mark (by decide)).symm
  commit _ _ _ := nofun

theorem storeLaw_reset : StoreLaw State.reset where
  slotA := storeWf_nil _ _
  slotB := storeWf_nil _ _
  rising := .nil
  listed := nofun
  content _ _ _ := nofun

theorem emptyTables_storable : emptyTables.storable where
  count := Nat.zero_le _
  map := List.forall_mem_nil _
  places := sparseWf_nil _
  scan := List.forall_mem_nil _
  lines l := by
    rw [emptyTables, Four.get_fill]
    decide

/-- Settles O53: nothing is queued, held, open or written at reset. -/
theorem lawsHoldAtReset : Obligations.LawsHoldAtReset :=
  ⟨.of_empty rfl rfl rfl, .of_empty rfl rfl, lineLaw_reset,
    .of_quiet rfl nofun rfl fun _ => nofun, imageLaw_reset, storeLaw_reset, emptyTables_storable⟩

end Sys2Proof.Machine
end

section
/-!
SUPPORT. Who changes the staging area (R127, R132), off the list of everything a command can do to the ledger.
-/

namespace Sys2Proof.Machine

/-- The ledger's changes of the staging area are the owner's edits and the reverts. -/
theorem LedgerStep.staging {i : Instr} {s t : State} (h : LedgerStep i s t)
    (hne : t.staging ≠ s.staging) :
    (t.session = none ∧ t.staging = copyOf t.active) ∨
      (∃ byte f, isEdit byte i ∧ s.dispatched byte = some (f, .mgmt) ∧ s.ownerMay f) := by
  have kept {l : Ledger} (h : t.ledger = l) (hl : l.staging = s.staging) : False :=
    hne ((congrArg Ledger.staging h).trans hl)
  have reverted {l : Ledger} (h : t.ledger = l) (hsession : l.session = none)
      (hstaging : l.staging = copyOf l.active) : t.session = none ∧ t.staging = copyOf t.active := by
    subst h
    exact ⟨hsession, hstaging⟩
  cases h with
  | edited f byte hi hd ho x hx g h => exact .inr ⟨byte, f, hi, hd, ho⟩
  | closed hq h => exact .inl (reverted h rfl rfl)
  | warm f rest hf hc h => exact .inl (reverted h rfl rfl)
  | running hi hb h => exact .inl (reverted h rfl rfl)
  | calm x hx hq h => exact (kept h rfl).elim
  | opened hq o ho h => exact (kept h rfl).elim
  | draining hq hm o ho dest tag drain h => exact (kept h rfl).elim
  | swapped u x hx hm ht hb ho hd hu h => exact (kept h rfl).elim
  | timedOut ha x hx h => exact (kept h rfl).elim
  | committing hq o ho dest tag h => exact (kept h rfl).elim
  | written dest tag job ho fault cells h => exact (kept h rfl).elim
  | verified dest tag job ho hg x hx h => exact (kept h rfl).elim
  | unverified dest tag job ho x hx h => exact (kept h rfl).elim
  | halted x hx supply resetLow bridge store hp hs h => exact (kept h rfl).elim
  | pins supply resetLow hp h => exact (kept h rfl).elim

/-- Settles O58, by the cases of the ledger. -/
theorem stagingEditedByOwnerOnly : Obligations.StagingEditedByOwnerOnly :=
  fun _ _ _ h hne => (exec_ledger h).staging hne

end Sys2Proof.Machine
end

section
/-!
SUPPORT. The checks of every management operation (R124, R126): the status that each failing check gives, and
that the command of every row of R126's table answers with it.
-/

namespace Sys2Proof.Machine

/-! ## Checks 1 to 4 (R126) -/

/-- Checks 1 and 2 are answered alike, whatever else of the frame is wrong. -/
theorem mgmtCheck_busy {s : State} {n : Needs} (source : Byte) (argsGood : Bool)
    (h : s.operation ≠ .none ∧ n.whilePending = false ∨
      n.closing = true ∧ closingHeld s.txQueue = true) :
    s.mgmtCheck n source argsGood = some .mgmtBusy := by
  obtain ⟨hpending, hquiet⟩ | ⟨hclosing, hheld⟩ := h
  · simp [State.mgmtCheck, hpending, hquiet]
  · simp [State.mgmtCheck, hclosing, hheld]

/-- With checks 1 and 2 passed, checks 3 and 4 decide. -/
theorem mgmtCheck_of_not_busy {s : State} {n : Needs} (source : Byte) (argsGood : Bool)
    (hpending : ¬(s.operation ≠ .none ∧ n.whilePending = false))
    (hheld : ¬(n.closing = true ∧ closingHeld s.txQueue = true)) :
    s.mgmtCheck n source argsGood =
      if n.session && !s.ownedBy source then some .notOwner
      else if !argsGood then some .badArgument else none := by
  rw [State.mgmtCheck, if_neg (by simpa using hpending), if_neg (by simpa using hheld)]

theorem mgmtCheck_foreign {s : State} {n : Needs} {source : Byte} (argsGood : Bool)
    (hpending : ¬(s.operation ≠ .none ∧ n.whilePending = false))
    (hheld : ¬(n.closing = true ∧ closingHeld s.txQueue = true))
    (h : n.session = true ∧ s.ownedBy source = false) :
    s.mgmtCheck n source argsGood = some .notOwner := by
  rw [mgmtCheck_of_not_busy source argsGood hpending hheld, if_pos (by simp [h])]

theorem mgmtCheck_badArgument {s : State} {n : Needs} {source : Byte}
    (hpending : ¬(s.operation ≠ .none ∧ n.whilePending = false))
    (hheld : ¬(n.closing = true ∧ closingHeld s.txQueue = true))
    (hforeign : ¬(n.session = true ∧ s.ownedBy source = false)) :
    s.mgmtCheck n source false = some .badArgument := by
  rw [mgmtCheck_of_not_busy source false hpending hheld, if_neg (by simpa using hforeign)]
  rfl

@[simp] theorem State.served_operation (s : State) (f : Frame) :
    (s.served f).operation = s.operation :=
  State.touchSession_operation _ _

@[simp] theorem State.served_txQueue (s : State) (f : Frame) : (s.served f).txQueue = s.txQueue :=
  State.touchSession_txQueue _ _

/-- The checks look at nothing that counting a MGMT frame and restarting the idle timer changes. -/
theorem mgmtCheck_served (s : State) (f : Frame) (n : Needs) (source : Byte) (argsGood : Bool) :
    (s.served f).mgmtCheck n source argsGood = s.mgmtCheck n source argsGood := by
  simp only [State.mgmtCheck, ownedBy_served, State.served_operation, State.served_txQueue]

/-! ## What reads the arguments sees in the state that serves a frame -/

theorem statsArgs_served (s : State) (f : Frame) (args : List Byte) :
    statsArgs (s.served f) args = statsArgs s args := by
  simp only [statsArgs, State.served_active]

theorem stationResetArgs_served (s : State) (f : Frame) (args : List Byte) :
    stationResetArgs (s.served f) args = stationResetArgs s args := by
  simp only [stationResetArgs, record_served]

/-! ## The rows of R126's table -/

/-- What a row needs. -/
def MgmtRow.needs (row : MgmtRow) : Needs := ⟨row.session, row.whilePending, row.closing⟩

/-- The row's command answers the frames that are its event with the status of the first check that fails. -/
def MgmtRow.checked (row : MgmtRow) : Prop :=
  ∀ (s : State) (byte : Byte) (f : Frame) (status : Status), s.dispatched byte = some (f, .mgmt) →
    row.takes f = true →
    s.mgmtCheck row.needs f.source (row.argsGood s (mgmtArgs f.body)) = some status →
    exec (row.command byte) s = .next ((s.served f).answer f status [])

/-- A row whose command serves its frames under the row's needs answers the first check that fails. -/
theorem checked_of_serve {α : Type} {row : MgmtRow} {read : State → List Byte → Option α}
    {act : α → Frame → State → State}
    (hargs : ∀ s f, row.argsGood s (mgmtArgs f.body) = (read (s.served f) (mgmtArgs f.body)).isSome)
    (hexec : ∀ s byte f, s.dispatched byte = some (f, .mgmt) → row.takes f = true →
      exec (row.command byte) s = .next (serve row.needs read act f s.frameTaken)) :
    row.checked := by
  intro s byte f status hf ht hc
  rw [hexec s byte f hf ht]
  refine congrArg Host.Outcome.next (serve_refused ?_)
  rw [← mgmtCheck_served s f, hargs] at hc
  exact hc

/-- A row whose one command takes every frame of its operation. -/
theorem mgmtRow_checked {α : Type} {command : Byte → Instr} {op : MgmtOp} {n : Needs}
    {read : State → List Byte → Option α} {act : α → Frame → State → State}
    (hread : ∀ s f args, read (s.served f) args = read s args)
    (hexec : ∀ byte s, exec (command byte) s = .next (onMgmt (isOp op) (serve n read act) byte s)) :
    (mgmtRow command op n read).checked := by
  refine checked_of_serve (read := read) (act := act)
    (fun s f => congrArg Option.isSome (hread s f _).symm) fun s byte f hf ht => ?_
  rw [mgmtRow, hexec, onMgmt_eq hf, if_pos (show isOp op f = true from ht)]
  rfl

/-- RESTART's two rows, each of which takes what is not well-formed for the other. -/
theorem restartRow_checked {cold : Bool} {command : Byte → Instr}
    (hexec : ∀ byte s, exec (command byte) s =
      .next (onMgmt (isRestart cold) (serve needsClosing (fun _ => restartArg) acceptRestart) byte s)) :
    MgmtRow.checked { mgmtRow command .restart needsClosing (fun _ => restartArg) with
      takes := isRestart cold } := by
  refine checked_of_serve (read := fun _ => restartArg) (act := acceptRestart) (fun _ _ => rfl)
    fun s byte f hf ht => ?_
  rw [mgmtRow, hexec, onMgmt_eq hf, if_pos (show isRestart cold f = true from ht)]
  rfl

/-- A STATS frame that chooses a clear option is an event of the row of that option. -/
theorem isStats_of_clearOption {clear : Bool} {f : Frame}
    (h : (isOp .stats f && decide (statsClearOption (mgmtArgs f.body) = some clear)) = true) :
    isStats clear f = true ∧ statsClearOption (mgmtArgs f.body) = some clear := by
  simp only [Bool.and_eq_true, decide_eq_true_eq] at h
  obtain ⟨hop, hclear⟩ := h
  exact ⟨by cases clear <;> simp [isStats, hop, hclear], hclear⟩

/-- STATS's two rows, told apart by the clear option. -/
theorem statsRow_checked {clear : Bool} {command : Byte → Instr} {n : Needs}
    {act : StatsGroup → Frame → State → State} {stats : Frame → State → State}
    (hexec : ∀ byte s, exec (command byte) s = .next (onMgmt (isStats clear) stats byte s))
    (hstats : ∀ f s, (statsClearOption (mgmtArgs f.body)).isSome = true →
      stats f s = serve n statsArgs act f s) :
    MgmtRow.checked { mgmtRow command .stats n statsArgs with
      takes := fun f => isOp .stats f && decide (statsClearOption (mgmtArgs f.body) = some clear) } := by
  refine checked_of_serve (read := statsArgs) (act := act)
    (fun s f => congrArg Option.isSome (statsArgs_served s f _).symm) fun s byte f hf ht => ?_
  obtain ⟨hsel, hclear⟩ := isStats_of_clearOption ht
  rw [mgmtRow, hexec, onMgmt_eq hf, if_pos hsel, hstats f _ (by rw [hclear]; rfl)]
  rfl

/-- Every row of R126's table is checked before it is carried out. -/
theorem mgmtRows_checked : ∀ row ∈ mgmtRows, row.checked := by
  simp only [mgmtRows, List.forall_mem_cons]
  have alone {α : Type} {read : List Byte → Option α} (_ : State) (_ : Frame) (args : List Byte) :
      read args = read args := rfl
  exact ⟨
    mgmtRow_checked alone fun _ _ => rfl,
    mgmtRow_checked alone fun _ _ => rfl,
    mgmtRow_checked alone fun _ _ => rfl,
    mgmtRow_checked alone fun _ _ => rfl,
    mgmtRow_checked alone fun _ _ => rfl,
    mgmtRow_checked alone fun _ _ => rfl,
    mgmtRow_checked alone fun _ _ => rfl,
    mgmtRow_checked alone fun _ _ => rfl,
    mgmtRow_checked alone fun _ _ => rfl,
    mgmtRow_checked alone fun _ _ => rfl,
    mgmtRow_checked alone fun _ _ => rfl,
    mgmtRow_checked alone fun _ _ => rfl,
    mgmtRow_checked alone fun _ _ => rfl,
    restartRow_checked fun _ _ => rfl,
    restartRow_checked fun _ _ => rfl,
    mgmtRow_checked stationResetArgs_served fun _ _ => rfl,
    statsRow_checked (fun _ _ => rfl) fun _ _ h => if_pos h,
    statsRow_checked (fun _ _ => rfl) fun _ _ h => if_pos h,
    mgmtRow_checked alone fun _ _ => rfl,
    mgmtRow_checked activeArgs_served fun _ _ => rfl,
    mgmtRow_checked alone fun _ _ => rfl,
    mgmtRow_checked alone fun _ _ => rfl,
    mgmtRow_checked alone fun _ _ => rfl,
    List.forall_mem_nil _⟩

/-! ## STATS of the wrong shape (R126) -/

/-- A STATS of the wrong shape is an event of either of its rows, and is answered before check 1. -/
theorem onMgmt_stats_of_malformed {s : State} {byte : Byte} {f : Frame} (clear : Bool)
    {stats : Frame → State → State} (hf : s.dispatched byte = some (f, .mgmt))
    (hop : mgmtOp f.body = some .stats) (hshape : statsClearOption (mgmtArgs f.body) = none)
    (hstats : (statsClearOption (mgmtArgs f.body)).isSome ≠ true →
      stats f s.frameTaken = statsMalformed f s.frameTaken) :
    onMgmt (isStats clear) stats byte s = (s.served f).answer f .badArgument [] := by
  have hsel : isStats clear f = true := by simp [isStats, isOp, hop, hshape]
  rw [onMgmt_eq hf, if_pos hsel, hstats (by rw [hshape]; nofun)]
  rfl

/-- Settles O34: each status by the check that gives it, each row by its being checked. -/
theorem managementChecksInOrder : Obligations.ManagementChecksInOrder := by
  intro s byte f hf refused
  refine ⟨fun hop => ?_, fun hop hshape => ⟨?_, ?_⟩, ?_⟩
  · exact congrArg Host.Outcome.next ((onMgmt_eq hf _ _).trans (if_pos (decide_eq_true hop)))
  · exact congrArg Host.Outcome.next (onMgmt_stats_of_malformed false hf hop hshape fun h => if_neg h)
  · exact congrArg Host.Outcome.next (onMgmt_stats_of_malformed true hf hop hshape fun h => if_neg h)
  · intro row hrow ht pending held foreign
    have answered := fun status => mgmtRows_checked row hrow s byte f status hf ht
    refine ⟨fun hbusy => answered _ (mgmtCheck_busy _ _ hbusy),
      fun hpending hheld hforeign => answered _ (mgmtCheck_foreign _ hpending hheld hforeign),
      fun hpending hheld hforeign hargs => answered _ ?_⟩
    rw [hargs]
    exact mgmtCheck_badArgument hpending hheld hforeign

end Sys2Proof.Machine
end

section
/-!
SUPPORT. The configuration session (R128 to R130), the edits of the staging area (R132 to R135) and VALIDATE's
answers (R136, R137): what each does in the state that serves its frame.
-/

namespace Sys2Proof.Machine

/-! ## The session (R127 to R130) -/

/-- A frame that is not the owner's, or that comes while an operation is pending, leaves the idle timer alone
(R130). -/
theorem served_eq_frameTaken {s : State} {f : Frame}
    (h : s.operation ≠ .none ∨ s.ownedBy f.source = false) : s.served f = s.frameTaken := by
  refine if_neg fun ⟨hquiet, hown⟩ => ?_
  obtain hpending | hforeign := h
  · exact hpending hquiet
  · exact Bool.false_ne_true (hforeign.symm.trans hown)

theorem ownedBy_eq_false_of_none {s : State} {source : Byte} (h : s.session = none) :
    s.ownedBy source = false := by
  rw [State.ownedBy, h]

theorem ownedBy_eq_false_of_ne {s : State} {source : Byte} {o : Session} (h : s.session = some o)
    (hne : o.owner ≠ source) : s.ownedBy source = false := by
  rw [State.ownedBy, h]
  exact decide_eq_false hne

/-- SESSION_OPEN from the owner, or with no session open, opens or renews it (R128). -/
theorem sessionOpen_of_free {s : State} {f : Frame} (timeout : Nat)
    (h : s.session = none ∨ s.ownedBy f.source = true) :
    sessionOpen timeout f s =
      (s.openSession f.source timeout).answer f .ok (sessionResults f.source timeout) := by
  unfold sessionOpen
  obtain hnone | hown := h
  · rw [hnone]
  · obtain ⟨o, ho, howner⟩ := session_of_owned hown
    rw [ho]
    exact if_pos howner

/-- SESSION_OPEN from another station than the owner names the owner (R128). -/
theorem sessionOpen_of_held {s : State} {f : Frame} {o : Session} (timeout : Nat)
    (h : s.session = some o) (hne : o.owner ≠ f.source) :
    sessionOpen timeout f s = s.answer f .sessionHeld [o.owner] := by
  rw [sessionOpen, h]
  exact if_neg hne

/-- The session is free for a station in the state that serves its frame where it was before (R128). -/
theorem served_free {s : State} {f : Frame} (h : s.session = none ∨ s.ownedBy f.source = true) :
    (s.served f).session = none ∨ (s.served f).ownedBy f.source = true := by
  obtain hnone | hown := h
  · left
    rw [served_eq_frameTaken (.inr (ownedBy_eq_false_of_none hnone))]
    exact hnone
  · exact .inr ((ownedBy_served s f f.source).trans hown)

theorem openSession_served (s : State) (f : Frame) (timeout : Nat) :
    (s.served f).openSession f.source timeout = { s.frameTaken with
      session := some ⟨f.source, timeout, some (after s.uptime (timeout * 1000))⟩ } := by
  obtain ⟨o, ho, -⟩ := touchSession_eq s.frameTaken f.source
  rw [State.served, ho]
  rfl

theorem closeSession_served (s : State) (f : Frame) :
    (s.served f).closeSession = { s.frameTaken with session := none, staging := copyOf s.active } := by
  obtain ⟨o, ho, -⟩ := touchSession_eq s.frameTaken f.source
  rw [State.served, ho]
  rfl

theorem noArgs_nil {args : List Byte} (h : args = []) : noArgs args = some () := if_pos h

/-- Settles O35: opening and closing are carried out in the state that serves the frame, in which nothing but the
frame count and the idle timer has changed. -/
theorem sessionOpensRenewsAndReverts : Obligations.SessionOpensRenewsAndReverts := by
  refine ⟨fun s byte f hf hquiet => ⟨fun n hop harg => ⟨fun hfree => ?_, fun o ho hne => ?_⟩,
    fun hop harg hown => ?_⟩, fun s o expiry hs ho he hr => ?_, fun s f => ⟨fun o ho howner hquiet => ?_,
    served_eq_frameTaken⟩⟩
  · refine congrArg Host.Outcome.next ((onMgmt_serve hf hop harg (.inl hquiet) (.inl rfl) (.inl rfl)
      sessionOpen).trans ?_)
    rw [sessionOpen_of_free n (served_free hfree), answer_of_mgmtOp hop, openSession_served]
    rfl
  · refine congrArg Host.Outcome.next ((onMgmt_serve hf hop harg (.inl hquiet) (.inl rfl) (.inl rfl)
      sessionOpen).trans ?_)
    rw [served_eq_frameTaken (.inr (ownedBy_eq_false_of_ne ho hne)),
      sessionOpen_of_held (s := s.frameTaken) n ho hne, answer_of_mgmtOp hop]
    rfl
  · refine congrArg Host.Outcome.next ((onMgmt_serve hf hop (noArgs_nil harg) (.inl hquiet) (.inl rfl)
      (.inr hown) _).trans ?_)
    rw [closeSession_served, answer_of_mgmtOp hop]
    rfl
  · have hexpired : expired s.uptime (s.session.bind Session.expiry) = true := by
      rw [ho, Option.bind_some, he]
      exact hr
    exact if_pos (by rw [hs, hexpired]; rfl)
  · exact served_owner ho howner hquiet

/-! ## The edits (R132 to R135) -/

/-- An owner's operation without a closing MREPLY, sent while no operation is pending, is carried out. -/
theorem onMgmt_owner {α : Type} {s : State} {byte : Byte} {f : Frame} {op : MgmtOp}
    {read : List Byte → Option α} {a : α} (hf : s.dispatched byte = some (f, .mgmt))
    (hmay : s.ownerMay f) (hop : mgmtOp f.body = some op) (hr : read (mgmtArgs f.body) = some a)
    (act : α → Frame → State → State) :
    onMgmt (isOp op) (serve needsOwner (fun _ => read) act) byte s = act a f (s.served f) := by
  obtain ⟨hquiet, hown⟩ := hmay
  exact onMgmt_serve hf hop hr (.inl hquiet) (.inl rfl) (.inr hown) act

/-- Settles O36: each edit is made in the state that serves its frame, whose staging area and active tables are
those of the state before. -/
theorem stagingEditsTakeEffect : Obligations.StagingEditsTakeEffect := by
  intro s byte f hf hmay g edited
  have made {α : Type} {op : MgmtOp} {read : List Byte → Option α} {a : α}
      (hop : mgmtOp f.body = some op) (hr : read (mgmtArgs f.body) = some a)
      {act : α → Frame → State → State} {next : Staging}
      (hact : act a f (s.served f) = edited next) :
      Host.Outcome.next (onMgmt (isOp op) (serve needsOwner (fun _ => read) act) byte s) =
        (Host.Outcome.next (edited next) : Host.Outcome State Fault Refusal) :=
    congrArg Host.Outcome.next ((onMgmt_owner hf hmay hop hr act).trans hact)
  have hstaging : (s.served f).staging = g := s.served_staging f
  refine ⟨fun hop hr => made hop (noArgs_nil hr) ?_, fun hop hr => made hop (noArgs_nil hr) ?_,
    fun p e hop hr => made hop hr ?_, fun p hop hr => made hop hr ?_,
    fun p e hop hr => made hop hr ?_, fun p hop hr => made hop hr ?_,
    fun l r hop hr => made hop hr ?_, fun r hop hr => made hop hr ?_⟩
  · exact congrArg (fun t => edited (copyOf t)) (s.served_active f)
  all_goals rw [hstaging]; rfl

/-! ## VALIDATE (R136, R137) -/

theorem validateStaging_of_sound {s : State} (f : Frame) (h : validation s.staging = none) :
    validateStaging f s = State.answer { s with staging := { s.staging with mark := true } } f .ok
      (nat2 s.staging.map.length ++ [nat1 s.staging.scan.length]) := by
  rw [validateStaging, h]

theorem validateStaging_of_invalid {s : State} {v : Invalid} (f : Frame)
    (h : validation s.staging = some v) :
    validateStaging f s = State.answer { s with staging := { s.staging with mark := false } } f .invalid
      [v.table.code, nat1 v.index, v.reason.code] := by
  rw [validateStaging, h]

/-- Settles O37: VALIDATE's two answers, by what its checks find in the staging area. -/
theorem validateAnswersFirstFailure : Obligations.ValidateAnswersFirstFailure := by
  intro s byte f hf hmay hop harg answered
  have hexec : exec (.validate byte) s = .next (validateStaging f (s.served f)) :=
    congrArg Host.Outcome.next (onMgmt_owner hf hmay hop (noArgs_nil harg) _)
  have hstaging : (s.served f).staging = s.staging := s.served_staging f
  refine ⟨fun h => ?_, fun v h => ?_⟩
  · rw [hexec, validateStaging_of_sound f (hstaging.symm ▸ h), answer_of_mgmtOp hop, hstaging]
    rfl
  · rw [hexec, validateStaging_of_invalid f (hstaging.symm ▸ h), answer_of_mgmtOp hop, hstaging]
    rfl

end Sys2Proof.Machine
end

section
/-!
SUPPORT. The six checks of VALIDATE (R136, R137): each passes exactly when the staging area keeps its rule.
-/

namespace Sys2Proof.Machine

/-! ## Reasons and places -/

@[simp] theorem firstReason_nil : firstReason [] = none := rfl

@[simp] theorem firstReason_cons_eq_none_iff {applies : Bool} {reason : Reason}
    {tests : List (Bool × Reason)} :
    firstReason ((applies, reason) :: tests) = none ↔ applies = false ∧ firstReason tests = none := by
  simp [firstReason]

/-- A test gives a reason at no place of a table exactly when it gives none for any entry. -/
theorem firstInvalid_eq_none_iff {α : Type} {table : Where} {test : α → Option Reason}
    {m : List (Nat × α)} :
    firstInvalid table test m = none ↔ ∀ e ∈ m.map Prod.snd, test e = none := by
  simp only [firstInvalid, List.findSome?_eq_none_iff, Option.map_eq_none_iff, List.forall_mem_map]

/-- In a map with rising keys the value under a key is the one listed with it. -/
theorem Sparse.get_eq_some_iff_mem {α : Type} {m : Sparse α} (hm : (m.map Prod.fst).Pairwise (· < ·))
    {k : Nat} {a : α} : m.get k = some a ↔ (k, a) ∈ m :=
  ⟨Sparse.mem_of_get, Sparse.get_of_mem hm⟩

/-! ## Check 1: the order of the map (R136) -/

/-- An entry lies below another, the two apart (R136). -/
def MapEntry.precedes (a b : MapEntry) : Prop := a.base < b.base ∧ a.base + a.length ≤ b.base

theorem MapEntry.precedes_trans {a b c : MapEntry} (hab : a.precedes b) (hbc : b.precedes c) :
    a.precedes c :=
  ⟨hab.1.trans hbc.1, hab.2.trans hbc.1.le⟩

theorem orderReason_eq_none_iff {a b : MapEntry} : orderReason a b = none ↔ a.precedes b := by
  simp only [orderReason, firstReason_cons_eq_none_iff, firstReason_nil, and_true,
    Bool.and_eq_false_iff, decide_eq_false_iff_not, MapEntry.precedes]
  omega

theorem checkOrder_eq_none_iff_isChain (m : List (Nat × MapEntry)) :
    checkOrder m = none ↔ (m.map Prod.snd).IsChain MapEntry.precedes := by
  induction m using checkOrder.induct with
  | case1 => simp [checkOrder]
  | case2 a => simp [checkOrder]
  | case3 a b rest reason h =>
    have hnot : ¬a.2.precedes b.2 := by simp [← orderReason_eq_none_iff, h]
    simp [checkOrder, h, hnot]
  | case4 a b rest h ih =>
    have hab : a.2.precedes b.2 := orderReason_eq_none_iff.1 h
    simpa [checkOrder, h, hab] using ih

/-- Entries each below the next are each below all that follow. -/
theorem checkOrder_eq_none_iff (m : List (Nat × MapEntry)) :
    checkOrder m = none ↔ (m.map Prod.snd).Pairwise MapEntry.precedes := by
  have : Trans MapEntry.precedes MapEntry.precedes MapEntry.precedes := ⟨MapEntry.precedes_trans⟩
  rw [checkOrder_eq_none_iff_isChain, List.isChain_iff_pairwise]

/-! ## Checks 2, 3 and 5: one entry (R136, R137) -/

/-- Check 2 passes for an entry. -/
theorem entryReason_eq_none_iff {e : MapEntry} :
    entryReason e = none ↔
      (e.type.wide = true → e.length % 2 = 0) ∧ (e.type = .f32 → e.scale = none) ∧
        (e.station = 0 → e.access = .wo) ∧
        (e.policy ≠ .live → e.binding ≠ none ∧ e.maxAge ≠ none) ∧
        (e.policy = .live → e.binding = none ∧ e.maxAge = none) := by
  simp only [entryReason, firstReason_cons_eq_none_iff, firstReason_nil, and_true]
  refine and_congr ?_ (and_congr ?_ (and_congr ?_ (and_congr ?_ ?_)))
  all_goals simp [Option.isSome_iff_ne_none]

/-- Check 3 passes for an entry. -/
theorem bindingReason_eq_none_iff {scan : Sparse ScanEntry} {e : MapEntry} :
    bindingReason scan e = none ↔
      ∀ b, e.binding = some b → ∃ c, scan.get b.scan = some c ∧ c.line = e.line ∧
        c.station = e.station ∧ c.remote + b.offset = e.remote ∧ b.offset + e.length ≤ c.count := by
  unfold bindingReason
  cases e.binding with
  | none => simp
  | some b =>
    cases hc : scan.get b.scan with
    | none => simp [hc]
    | some c => simp [hc, and_assoc]

theorem lineReason_eq_none_iff {lines : Four LineSettings} {l : LineNo} :
    lineReason lines l = none ↔ (lines.get l).enabled = true := by
  simp [lineReason]

/-! ## Check 4: the regions (R137) -/

theorem regionsMeet_eq_false_iff {a b : ScanEntry} : regionsMeet a b = false ↔
    a.mirrorBase + a.count ≤ b.mirrorBase ∨ b.mirrorBase + b.count ≤ a.mirrorBase := by
  simp only [regionsMeet, Bool.and_eq_false_iff, decide_eq_false_iff_not]
  omega

theorem regionsMeet_comm (a b : ScanEntry) : regionsMeet a b = regionsMeet b a :=
  Bool.and_comm _ _

/-- The regions are held against those of lower index alone, and are so held against all others. -/
theorem checkRegions_eq_none_iff {scan : Sparse ScanEntry}
    (hscan : (scan.map Prod.fst).Pairwise (· < ·)) :
    checkRegions scan = none ↔
      ∀ i j c d, scan.get i = some c → scan.get j = some d → i ≠ j → regionsMeet c d = false := by
  have hchecked : checkRegions scan = none ↔
      ∀ p ∈ scan, ∀ q ∈ scan, q.1 < p.1 → regionsMeet q.2 p.2 = false := by
    simp [checkRegions]
  rw [hchecked]
  refine ⟨fun h i j c d hc hd hne => ?_, fun h p hp q hq hlt => ?_⟩
  · have hi := Sparse.mem_of_get hc
    have hj := Sparse.mem_of_get hd
    obtain hlt | hlt := Nat.lt_or_gt_of_ne hne
    · exact h _ hj _ hi hlt
    · exact regionsMeet_comm c d ▸ h _ hi _ hj hlt
  · exact h _ _ _ _ (Sparse.get_of_mem hscan hq) (Sparse.get_of_mem hscan hp) hlt.ne

/-! ## Check 6: the stations of a line (R137) -/

theorem checkStations_eq_none_iff {t : Tables} :
    checkStations t = none ↔ ∀ l, (t.stationsOn l).length ≤ 32 := by
  have hall : ∀ l : LineNo, l ∈ allLines := by decide
  simp [checkStations, hall]

/-! ## All six -/

theorem validation_eq_none_iff {g : Staging} :
    validation g = none ↔ checkOrder g.map = none ∧ firstInvalid .map entryReason g.map = none ∧
      firstInvalid .map (bindingReason g.scan) g.map = none ∧ checkRegions g.scan = none ∧
      firstInvalid .map (fun e => lineReason g.lines e.line) g.map = none ∧
      firstInvalid .scan (fun e => lineReason g.lines e.line) g.scan = none ∧
      checkStations g.tables = none := by
  simp only [validation, Option.or_eq_none_iff, and_assoc]

/-- Settles O38: the checks one by one, and what the statement says of an entry gathered from checks 2, 3
and 5. -/
theorem validationAcceptsConsistentStaging : Obligations.ValidationAcceptsConsistentStaging := by
  intro g _ hscan
  have hrising := ((sparseWf_iff 64 g.scan).1 hscan).1
  have hplaces : (∀ e ∈ g.scan.map Prod.snd, (g.lines.get e.line).enabled = true) ↔
      ∀ i c, g.scan.get i = some c → (g.lines.get c.line).enabled = true := by
    simp only [List.forall_mem_map, Prod.forall, Sparse.get_eq_some_iff_mem hrising]
  rw [validation_eq_none_iff, checkOrder_eq_none_iff, checkRegions_eq_none_iff hrising,
    checkStations_eq_none_iff]
  simp only [firstInvalid_eq_none_iff, entryReason_eq_none_iff, bindingReason_eq_none_iff,
    lineReason_eq_none_iff, regionsMeet_eq_false_iff, hplaces]
  refine ⟨fun ⟨horder, hentry, hbinding, hregions, hline, hrest⟩ =>
    ⟨horder, fun e he => ?_, hregions, hrest⟩, fun ⟨horder, hmap, hregions, hrest⟩ =>
    ⟨horder, fun e he => ?_, fun e he => ?_, hregions, fun e he => ?_, hrest⟩⟩
  · obtain ⟨heven, hscale, hbroadcast, hbound, hlive⟩ := hentry e he
    exact ⟨heven, hscale, hbroadcast, hbound, hlive, hbinding e he, hline e he⟩
  all_goals obtain ⟨heven, hscale, hbroadcast, hbound, hlive, hbinding, hline⟩ := hmap e he
  · exact ⟨heven, hscale, hbroadcast, hbound, hlive⟩
  · exact hbinding
  · exact hline

end Sys2Proof.Machine
end

section
/-!
SUPPORT. The newest valid image (R150): its slot shows a view, a COMMIT aims at the other slot, and so no
command touches it (R151, R154), read off the list of everything a command can do to the ledger.
-/

namespace Sys2Proof.Machine

/-! ## The newest valid image (R150) -/

/-- Slot B's image is newer where its sequence number is 1 to 7FFFFFFFh ahead. -/
theorem newerB_iff {a b : DWord} :
    newerB a b = true ↔ 1 ≤ (b - a).toNat ∧ (b - a).toNat ≤ 0x7FFFFFFF := by
  simp [newerB]

theorem view_of_newest {m : ImageStore} {i : SlotId} {v : SlotView} (h : m.newest = some (i, v)) :
    m.view i = some v := by
  unfold ImageStore.newest at h
  split at h
  · rename_i a b ha hb
    split at h <;> cases h
    · exact hb
    · exact ha
  · rename_i a ha hb
    cases h
    exact ha
  · rename_i b ha hb
    cases h
    exact hb
  · cases h

theorem target_ne_of_newest {m : ImageStore} {i : SlotId} {v : SlotView}
    (h : m.newest = some (i, v)) : i ≠ m.target := by
  rw [ImageStore.target, h]
  cases i <;> nofun

/-! ## A COMMIT's target (R151) -/

/-- A COMMIT in progress aims at an invalid slot, so at no slot that shows a view. -/
theorem ImageLaw.target_ne {s : State} (law : ImageLaw s) {dest tag : Byte} {job : CommitJob}
    (ho : s.operation = .commit dest tag job) {i : SlotId} {v : SlotView}
    (hv : s.store.view i = some v) : i ≠ job.target := by
  rintro rfl
  cases hv.symm.trans (law.commit dest tag job ho).view

theorem slot_writeMark_ne (m : ImageStore) {i j : SlotId} (mark : Byte) (h : j ≠ i) :
    (m.writeMark i mark).slot j = m.slot j :=
  m.slot_setSlot_ne _ h

/-- A COMMIT that is cut off leaves every slot alone that shows a view (R154). -/
theorem slot_cutCommit {s : State} (law : ImageLaw s) {i : SlotId} {v : SlotView}
    (hv : s.store.view i = some v) : s.cutCommit.store.slot i = s.store.slot i := by
  by_cases hw : ∀ dest tag job, s.operation = .commit dest tag job → job.written = true
  · rw [cutCommit_not_writing hw]
  · push Not at hw
    obtain ⟨dest, tag, job, ho, hw⟩ := hw
    rw [cutCommit_writing ho (Bool.eq_false_iff.2 hw),
      ImageStore.slot_setSlot_ne _ _ (law.target_ne ho hv)]

theorem store_of_ledger {t : State} {l : Ledger} (h : t.ledger = l) : t.store = l.store :=
  h ▸ rfl

/-- Settles O60: of all the ways in which a command changes the ledger, those of a COMMIT alone write a slot,
and that slot is the COMMIT's target. -/
theorem newestImageUntouched : Obligations.NewestImageUntouched := by
  intro i s t slot v law hexec hnew
  have hview : s.store.view slot = some v := view_of_newest hnew
  cases exec_ledger hexec with
  | committing hq o ho dest tag h =>
    rw [store_of_ledger h]
    exact (slot_writeMark_ne _ _ (target_ne_of_newest hnew)).trans (ImageStore.slot_setView _ _ _ _)
  | written dest tag job ho fault cells h =>
    rw [store_of_ledger h]
    exact ImageStore.slot_setSlot_ne _ _ (law.target_ne ho hview)
  | verified dest tag job ho hg x hx h =>
    rw [store_of_ledger h]
    exact (ImageStore.slot_setView _ _ _ _).trans (slot_writeMark_ne _ _ (law.target_ne ho hview))
  | halted x hx supply resetLow bridge store hp hs h =>
    rw [store_of_ledger h]
    obtain rfl | rfl := hs
    · exact slot_cutCommit law hview
    · exact (ImageStore.slot_rebuilt _ _).trans (slot_cutCommit law hview)
  | calm _ _ _ h | opened _ _ _ h | closed _ h | edited _ _ _ _ _ _ _ _ h
  | draining _ _ _ _ _ _ _ h | swapped _ _ _ _ _ _ _ _ _ h | timedOut _ _ _ h
  | unverified _ _ _ _ _ _ h | warm _ _ _ _ h | pins _ _ _ h | running _ _ h =>
    rw [store_of_ledger h]
    rfl

end Sys2Proof.Machine
end

section
/-!
SUPPORT. A COMMIT from its beginning to its end (R150 to R153, R171): the slot it aims at, what each byte of
that slot reads as after the write, and the two ends of the verify.
-/

namespace Sys2Proof.Machine

/-! ## The beginning (R150, R151) -/

section aim

variable {m : ImageStore}

/-- The target and the sequence number of a COMMIT that would begin on this store. -/
def ImageStore.aim (m : ImageStore) : SlotId × DWord := (m.target, m.nextSequence)

theorem aim_of_newest_none (h : m.newest = none) : m.aim = (.a, 1#32) := by
  simp only [ImageStore.aim, ImageStore.target, ImageStore.nextSequence, h]

theorem aim_of_newest_a {v : SlotView} (h : m.newest = some (.a, v)) :
    m.aim = (.b, v.sequence + 1#32) := by
  simp only [ImageStore.aim, ImageStore.target, ImageStore.nextSequence, h]

theorem aim_of_newest_b {v : SlotView} (h : m.newest = some (.b, v)) :
    m.aim = (.a, v.sequence + 1#32) := by
  simp only [ImageStore.aim, ImageStore.target, ImageStore.nextSequence, h]

theorem newest_of_invalid (ha : m.viewA = none) (hb : m.viewB = none) : m.newest = none := by
  simp only [ImageStore.newest, ha, hb]

theorem newest_of_a {a : SlotView} (ha : m.viewA = some a) (hb : m.viewB = none) :
    m.newest = some (.a, a) := by
  simp only [ImageStore.newest, ha, hb]

theorem newest_of_b {b : SlotView} (ha : m.viewA = none) (hb : m.viewB = some b) :
    m.newest = some (.b, b) := by
  simp only [ImageStore.newest, ha, hb]

theorem newest_of_newer_b {a b : SlotView} (ha : m.viewA = some a) (hb : m.viewB = some b)
    (h : newerB a.sequence b.sequence = true) : m.newest = some (.b, b) := by
  simp only [ImageStore.newest, ha, hb, h, if_true]

theorem newest_of_newer_a {a b : SlotView} (ha : m.viewA = some a) (hb : m.viewB = some b)
    (h : newerB a.sequence b.sequence = false) : m.newest = some (.a, a) := by
  simp only [ImageStore.newest, ha, hb, h, Bool.false_eq_true, if_false]

end aim

/-- A COMMIT begins in the state that serves its frame. -/
theorem beginCommit_served {s : State} {f : Frame} {o : Session} (hsession : s.session = some o)
    (howner : o.owner = f.source) (hquiet : s.operation = .none) (dest tag : Byte) :
    (s.served f).beginCommit dest tag = { s.frameTaken with
      operation := .commit dest tag ⟨s.store.target, s.store.nextSequence, s.generation,
        imageBytes s.store.nextSequence s.generation s.active, false, false⟩
      session := some { o with expiry := none }
      store := (s.store.setView s.store.target none).writeMark s.store.target 0x00#8 } := by
  rw [served_owner hsession howner hquiet, State.beginCommit, stopIdleTimer_some rfl]
  rfl

/-- Settles O42: what the views of the two slots say of the newest image decides the COMMIT's aim. -/
theorem commitBeginsOnTheOlderSlot : Obligations.CommitBeginsOnTheOlderSlot := by
  intro s byte f o hf hquiet hsession howner hclosing hop harg target sequence hviews
  have howned : s.ownedBy f.source = true := by simp [State.ownedBy, hsession, howner]
  have hexec : exec (.commit byte) s = .next ((s.served f).beginCommit f.source f.tag) :=
    congrArg Host.Outcome.next (onMgmt_serve hf hop (noArgs_nil harg) (.inl hquiet) (.inr hclosing)
      (.inr howned) _)
  have haim : s.store.aim = (target, sequence) := by
    obtain ⟨ha, hb, rfl, rfl⟩ | ⟨a, ha, hb, rfl, rfl⟩ | ⟨b, ha, hb, rfl, rfl⟩ |
      ⟨a, b, ha, hb, hlow, hhigh, rfl, rfl⟩ | ⟨a, b, ha, hb, hout, rfl, rfl⟩ := hviews
    · exact aim_of_newest_none (newest_of_invalid ha hb)
    · exact aim_of_newest_a (newest_of_a ha hb)
    · exact aim_of_newest_b (newest_of_b ha hb)
    · exact aim_of_newest_b (newest_of_newer_b ha hb (newerB_iff.2 ⟨hlow, hhigh⟩))
    · refine aim_of_newest_a (newest_of_newer_a ha hb (Bool.eq_false_iff.2 fun h => ?_))
      have := newerB_iff.1 h
      omega
  obtain ⟨rfl, rfl⟩ := Prod.mk.inj haim
  rw [hexec, beginCommit_served hsession howner hquiet, ImageStore.writeMark,
    ImageStore.slot_setView]

/-! ## The write (R152, R171) -/

/-- A byte reads as the last write to it left it. -/
theorem Sparse.read_foldl_write {α : Type} [DecidableEq α] (d : α) (cells : List (Nat × α))
    (m : Sparse α) (n : Nat) :
    (cells.foldl (fun m c => m.write d c.1 c.2) m).read d n =
      ((cells.reverse.find? (fun c => decide (c.1 = n))).map Prod.snd).getD (m.read d n) := by
  induction cells using List.reverseRecOn with
  | nil => rfl
  | append_singleton cells c ih =>
    rw [List.foldl_concat, Sparse.read_write, ih, List.reverse_concat]
    by_cases h : c.1 = n
    · simp [h]
    · simp [h, Ne.symm h]

/-- The cells that the write reaches are those of bytes 1 to 7109. -/
theorem find?_writtenCell (cells : List Host.Cell) (n : Nat) :
    (cells.filter writtenCell).find? (fun c => decide (c.1 = n)) =
      if 1 ≤ n ∧ n ≤ 7109 then cells.find? (fun c => decide (c.1 = n)) else none := by
  rw [List.find?_filter]
  split
  · rename_i hn
    refine congrArg (cells.find? ·) (funext fun c => ?_)
    by_cases hc : c.1 = n
    · simp [writtenCell, hc, hn]
    · simp [hc]
  · rename_i hn
    refine List.find?_eq_none.2 fun c _ h => hn ?_
    obtain ⟨hwritten, rfl⟩ : writtenCell c = true ∧ c.1 = n := by simpa using h
    simpa [writtenCell] using hwritten

/-- The last report of a cell decides the byte, where the write reaches it. -/
theorem read_writeImage (content : List Byte) (cells : List Host.Cell) (m : Sparse Byte) (n : Nat) :
    (writeImage content cells m).read 0 n =
      match cells.reverse.find? (fun c => decide (c.1 = n)) with
      | some c => if 1 ≤ n ∧ n ≤ 7109 then c.2 else (m.writeFrom 0 1 content).read 0 n
      | none => (m.writeFrom 0 1 content).read 0 n := by
  rw [writeImage, Sparse.read_foldl_write, ← List.filter_reverse, find?_writtenCell]
  cases cells.reverse.find? (fun c => decide (c.1 = n)) with
  | none => split <;> rfl
  | some c => split <;> rfl

theorem exec_commitWriteEnd {s : State} {dest tag : Byte} {job : CommitJob} (hs : s.serving = true)
    (ho : s.operation = .commit dest tag job) (hw : job.written = false) (fault : Bool)
    (cells : List Host.Cell) : exec (.commitWriteEnd fault cells) s = .next { s with
      operation := .commit dest tag { job with written := true, fault := fault }
      store := s.store.setSlot job.target
        (writeImage job.content cells (s.store.slot job.target)) } := by
  simp only [exec, execCommitWriteEnd, hs, ho, hw, Bool.false_eq_true, if_false]

/-! ## The verify (R153) -/

theorem commitGood_iff {m : ImageStore} {job : CommitJob} : commitGood m job = true ↔
    job.fault = false ∧ (m.slot job.target).readFrom 0 1 7109 = job.content := by
  simp [commitGood]

section verify

variable {s : State} {dest tag : Byte} {job : CommitJob} (hs : s.serving = true)
  (ho : s.operation = .commit dest tag job) (hw : job.written = true)

include hs ho hw

theorem exec_commitVerifyResult_good (hgood : commitGood s.store job = true) :
    exec .commitVerifyResult s = .next (s.commitDone dest tag job) := by
  simp only [exec, execCommitVerifyResult, hs, ho, hw, hgood, if_true]

theorem exec_commitVerifyResult_bad (hbad : commitGood s.store job = false) :
    exec .commitVerifyResult s = .next (s.commitFailed dest tag job) := by
  simp only [exec, execCommitVerifyResult, hs, ho, hw, hbad, Bool.false_eq_true, if_true, if_false]

end verify

/-- A COMMIT that succeeds (R153). -/
theorem commitDone_eq (s : State) (dest tag : Byte) (job : CommitJob) :
    s.commitDone dest tag job = { s with
      operation := .none
      session := s.session.map (fun o =>
        { o with expiry := some (after s.uptime (o.timeout * 1000)) })
      store := (s.store.writeMark job.target completeMark).setView job.target
        (some ⟨job.sequence, job.generation⟩)
      committed := some job.generation
      txQueue := s.txQueue ++ [⟨.closing .commit, dest, tag, .mreply 0x0D#8 .ok
        (job.target.code :: (bytes32 job.sequence ++ bytes16 job.generation))⟩] } := by
  rw [State.commitDone, State.endOperation, startIdleTimer_eq]
  rfl

/-- A COMMIT that fails (R153). -/
theorem commitFailed_eq (s : State) (dest tag : Byte) (job : CommitJob) :
    s.commitFailed dest tag job = { s with
      operation := .none
      session := s.session.map (fun o =>
        { o with expiry := some (after s.uptime (o.timeout * 1000)) })
      txQueue := s.txQueue ++ [⟨.closing .commit, dest, tag,
        .mreply 0x0D#8 .nvFault [job.target.code]⟩] } := by
  rw [State.commitFailed, State.endOperation, startIdleTimer_eq]
  rfl

/-- Settles O43: the write is one equation of the slot, and the verify's finding decides the end. -/
theorem commitWritesThenVerifies : Obligations.CommitWritesThenVerifies := by
  intro s dest tag job hs ho ended good sound
  refine ⟨fun fault cells hw => ⟨_, exec_commitWriteEnd hs ho hw fault cells, ?_, ?_⟩,
    fun hw hgood => ?_, fun hw hbad => ?_⟩
  · rintro rfl
    rfl
  · exact read_writeImage job.content cells _
  · rw [exec_commitVerifyResult_good hs ho hw (commitGood_iff.2 hgood), commitDone_eq]
    rfl
  · rw [exec_commitVerifyResult_bad hs ho hw (Bool.eq_false_iff.2 (mt commitGood_iff.1 hbad)),
      commitFailed_eq]

end Sys2Proof.Machine
end

section
/-!
SUPPORT. RESTART's closing MREPLY (R159), the warm restart (R160), and what start-up leaves in every block
(R157, R158).
-/

namespace Sys2Proof.Machine

/-! ## RESTART (R159) -/

/-- A RESTART of a kind is an event of that kind's row. -/
theorem isRestart_of_arg {f : Frame} {cold : Bool} (hop : mgmtOp f.body = some .restart)
    (harg : restartArg (mgmtArgs f.body) = some cold) : isRestart cold f = true := by
  simp [isRestart, isOp, hop, harg]

theorem exec_restart (cold : Bool) (byte : Byte) (s : State) :
    exec (if cold then .restartCold byte else .restartWarm byte) s = .next (onMgmt (isRestart cold)
      (serve needsClosing (fun _ => restartArg) acceptRestart) byte s) := by
  cases cold <;> rfl

/-- Settles O44: RESTART passes its checks and places its closing MREPLY. -/
theorem restartJoinsItsClosingReply : Obligations.RestartJoinsItsClosingReply := by
  intro s byte f cold hf hmay hclosing hop harg
  obtain ⟨hquiet, hown⟩ := hmay
  have haccept : serve needsClosing (fun _ => restartArg) acceptRestart f s.frameTaken =
      acceptRestart cold f (s.served f) :=
    serve_ok harg (.inl hquiet) (.inr hclosing) (.inr hown)
  have hqueue : (s.served f).txQueue = s.txQueue := State.touchSession_txQueue _ _
  rw [exec_restart, onMgmt_eq hf, if_pos (isRestart_of_arg hop harg), haccept, acceptRestart,
    mgmtCode_of_mgmtOp hop, State.pushClosing, State.enqueue, hqueue]
  rfl

/-! ## The warm restart (R160) -/

theorem get_startedRuns (now : Uptime) (scan : Sparse ScanEntry) (old : Sparse ScanRun) (i : Nat) :
    (startedRuns now scan old).get i = (scan.get i).map (fun e => startedRun now e (old.get i)) :=
  Sparse.get_mapVals _ _ _

/-- Settles O8: the restart field by field, each taken from the state in which the frame has left the queue. -/
theorem warmRestartKeepsConfiguration : Obligations.WarmRestartKeepsConfiguration := by
  intro s f rest bytes law hs hsending hq hc
  refine ⟨State.warmRestart { s with sending := none, txQueue := rest }, ?_, rfl, rfl, rfl, rfl, rfl,
    fun l => ?_, fun l => Four.get_build _ l, fun i => ?_, State.cell_invalidateMirror law.rising,
    rfl, rfl, rfl, rfl, rfl, rfl, rfl, rfl, rfl, rfl, rfl⟩
  · rw [exec_transmitEnd hs hsending hq, hc]
    rfl
  · exact Four.get_build _ l
  · refine (get_startedRuns _ _ _ i).trans (congrArg (Option.map · _) (funext fun e => ?_))
    cases s.scans.get i <;> rfl

/-! ## Start-up (R157, R158) -/

theorem exec_enterRunning {s : State} (hp : s.powered = true) (hb : s.bridge = .starting) :
    exec .enterRunning s = .next
      (s.coldValues s.store.selection.1 s.store.selection.2.1 s.store.selection.2.2) := by
  simp only [exec, execEnterRunning, hp, hb, decide_true, Bool.and_self, if_true]

theorem selection_of_none {m : ImageStore} (h : m.newest = none) :
    m.selection = (emptyTables, 0#16, none) := by
  simp only [ImageStore.selection, h]

theorem selection_of_some {m : ImageStore} {i : SlotId} {v : SlotView} (h : m.newest = some (i, v)) :
    m.selection = (loadTables ((m.slot i).readFrom 0 7 7101), v.generation, some v.generation) := by
  simp only [ImageStore.selection, h]

/-- Settles O46: the cold values under the configuration that the newest image, or the lack of one, selects. -/
theorem startUpEntersRunning : Obligations.StartUpEntersRunning := by
  intro s hp hb
  refine ⟨_, exec_enterRunning hp hb, fun h => ?_, fun i v h => ?_, rfl, rfl, rfl, rfl, rfl, rfl, rfl,
    rfl, rfl, fun l => Four.get_build _ l, fun l => Four.get_build _ l, fun i => get_startedRuns _ _ _ i,
    fun k => rfl, rfl, rfl, rfl, rfl⟩
  · rw [selection_of_none h]
    exact ⟨rfl, rfl, rfl⟩
  · rw [selection_of_some h]
    exact ⟨rfl, rfl, rfl⟩

end Sys2Proof.Machine
end

section
/-!
SUPPORT. The records of R169 decode to themselves from their encodings, where their values lie in the ranges of
the puts.
-/

namespace Sys2Proof.Machine

/-! ## Enumerated fields -/

@[simp] theorem RemoteType.ofCode_code (x : RemoteType) : RemoteType.ofCode x.code = some x := by
  cases x <;> rfl

@[simp] theorem WordOrder.ofCode_code (x : WordOrder) : WordOrder.ofCode x.code = some x := by
  cases x <;> rfl

@[simp] theorem Access.ofCode_code (x : Access) : Access.ofCode x.code = some x := by
  cases x <;> rfl

@[simp] theorem Policy.ofCode_code (x : Policy) : Policy.ofCode x.code = some x := by
  cases x <;> rfl

@[simp] theorem BitRate.ofCode_code (x : BitRate) : BitRate.ofCode x.code = some x := by
  cases x <;> rfl

@[simp] theorem Parity.ofCode_code (x : Parity) : Parity.ofCode x.code = some x := by
  cases x <;> rfl

@[simp] theorem boolOfByte_nat1 (b : Bool) : boolOfByte (nat1 (if b then 1 else 0)) = some b := by
  cases b <;> rfl

@[simp] theorem lineOf_nat1 (l : LineNo) : lineOf (nat1 l.val) = some l := by
  fin_cases l <;> rfl

/-! ## The optional parts of a map entry -/

/-- A binding in range is what its two bytes say. -/
theorem bindingBytes_spec (b : Option Binding) (h : bindingInRange b = true) :
    ∃ scan offset, bindingBytes b = [scan, offset] ∧
      (if b.isSome then some ⟨scan.toNat, offset.toNat⟩ else none) = b := by
  cases b with
  | none => exact ⟨0, 0, rfl, rfl⟩
  | some b =>
    obtain ⟨hscan, hoffset⟩ : b.scan ≤ 63 ∧ b.offset ≤ 59 := by simpa [bindingInRange] using h
    refine ⟨_, _, rfl, ?_⟩
    rw [toNat_nat1 (by omega), toNat_nat1 (by omega)]
    rfl

/-- A maximum age in range is what its four bytes say. -/
theorem maxAgeBytes_spec (a : Option Nat) (h : maxAgeInRange a = true) :
    ∃ b3 b2 b1 b0, maxAgeBytes a = [b3, b2, b1, b0] ∧
      (if a.isSome then some (natOf4 b3 b2 b1 b0) else none) = a := by
  cases a with
  | none => exact ⟨0, 0, 0, 0, rfl, rfl⟩
  | some a =>
    obtain ⟨-, ha⟩ : 1 ≤ a ∧ a ≤ 600000 := by simpa [maxAgeInRange] using h
    exact ⟨_, _, _, _, rfl, congrArg some (natOf4_nat4 (by omega))⟩

/-- A scale in range is what its six bytes say. -/
theorem scaleBytes_spec (x : Option Scale) (h : scaleInRange x = true) :
    ∃ m1 m0 d1 d0 o1 o0, scaleBytes x = [m1, m0, d1, d0, o1, o0] ∧
      (if x.isSome then some ⟨natOf2 m1 m0, natOf2 d1 d0, (wordOf o1 o0).toInt⟩ else none) = x := by
  cases x with
  | none => exact ⟨0, 0, 0, 0, 0, 0, rfl, rfl⟩
  | some x =>
    obtain ⟨-, hm, -, hd, hlow, hhigh⟩ : 1 ≤ x.multiplier ∧ x.multiplier ≤ 1000 ∧ 1 ≤ x.divisor ∧
        x.divisor ≤ 1000 ∧ -32768 ≤ x.offset ∧ x.offset ≤ 32767 := by
      simpa [scaleInRange, and_assoc] using h
    have hoffset : (BitVec.ofInt 16 x.offset).toInt = x.offset := by
      rw [BitVec.toInt_ofInt]
      exact Int.bmod_eq_of_le (by omega) (by omega)
    refine ⟨_, _, _, _, _, _, rfl, ?_⟩
    rw [natOf2_nat2 (by omega), natOf2_nat2 (by omega), wordOf_high_low, hoffset]
    rfl

/-- The presence byte has a bit for each optional part, and no other. -/
theorem presence_spec (e : MapEntry) : e.presence.toNat < 8 ∧
    e.presence.getLsbD 0 = e.binding.isSome ∧ e.presence.getLsbD 1 = e.maxAge.isSome ∧
    e.presence.getLsbD 2 = e.scale.isSome := by
  unfold MapEntry.presence
  cases e.binding.isSome <;> cases e.maxAge.isSome <;> cases e.scale.isSome <;> decide

/-! ## Records -/

theorem decodeMapEntry_encode {e : MapEntry} (h : e.inRange = true) :
    decodeMapEntry (encodeMapEntry e) = some e := by
  simp only [MapEntry.inRange, Bool.and_eq_true, decide_eq_true_eq, and_assoc] at h
  obtain ⟨hlength, hmax, hbase, hstation, hremote, hbinding, hage, hscale⟩ := h
  obtain ⟨hpresence, hbit0, hbit1, hbit2⟩ := presence_spec e
  obtain ⟨_, _, hb, hbinding⟩ := bindingBytes_spec _ hbinding
  obtain ⟨_, _, _, _, ha, hage⟩ := maxAgeBytes_spec _ hage
  obtain ⟨_, _, _, _, _, _, hs, hscale⟩ := scaleBytes_spec _ hscale
  simp only [encodeMapEntry, nat2, bytes16, hb, ha, hs, List.cons_append, List.nil_append, decodeMapEntry,
    RemoteType.ofCode_code, lineOf_nat1, WordOrder.ofCode_code, Access.ofCode_code, Policy.ofCode_code,
    hpresence, if_true, hbit0, hbit1, hbit2, hbinding, hage, hscale]
  rw [natOf2_nat2 (by omega), natOf2_nat2 (by omega), natOf2_nat2 (by omega), toNat_nat1 (by omega)]

theorem decodeScanEntry_encode {e : ScanEntry} (h : e.inRange = true) :
    decodeScanEntry (encodeScanEntry e) = some e := by
  simp only [ScanEntry.inRange, Bool.and_eq_true, decide_eq_true_eq] at h
  simp only [encodeScanEntry, nat2, bytes16, List.cons_append, List.nil_append, decodeScanEntry,
    lineOf_nat1]
  rw [natOf2_nat2 (by omega), natOf2_nat2 (by omega), natOf2_nat2 (by omega), toNat_nat1 (by omega),
    toNat_nat1 (by omega)]

theorem decodeLine_encode {r : LineSettings} (h : r.inRange = true) :
    decodeLine (encodeLine r) = some r := by
  simp only [LineSettings.inRange, Bool.and_eq_true, decide_eq_true_eq] at h
  simp only [encodeLine, nat2, bytes16, List.cons_append, List.nil_append, decodeLine,
    boolOfByte_nat1, BitRate.ofCode_code, Parity.ofCode_code]
  rw [natOf2_nat2 (by omega), natOf2_nat2 (by omega), natOf2_nat2 (by omega), natOf2_nat2 (by omega),
    toNat_nat1 (by omega), toNat_nat1 (by omega), toNat_nat1 (by omega)]

theorem decodeBridge_encode (r : BridgeSettings) : decodeBridge (encodeBridge r) = some r := by
  simp only [encodeBridge, decodeBridge, BitRate.ofCode_code, Parity.ofCode_code]

end Sys2Proof.Machine
end

section
/-!
SUPPORT. The tables that start-up loads from an image are those that the COMMIT stored (R157, R171).
-/

namespace Sys2Proof.Machine

/-! ## Map entries -/

theorem loadMapEntry_encode {e : MapEntry} (h : e.inRange = true) :
    loadMapEntry (encodeMapEntry e) = e := by
  rw [loadMapEntry, decodeMapEntry_encode h]
  rfl

theorem loadMap_encode {entries : List MapEntry} (h : ∀ e ∈ entries, e.inRange = true)
    (rest : List Byte) :
    loadMap entries.length (entries.flatMap encodeMapEntry ++ rest) = entries := by
  induction entries with
  | nil => rfl
  | cons e entries ih =>
    obtain ⟨he, hentries⟩ := List.forall_mem_cons.1 h
    have hlength := length_encodeMapEntry e
    rw [List.flatMap_cons, List.append_assoc, List.length_cons, loadMap, List.take_left' hlength,
      List.drop_left' hlength, loadMapEntry_encode he, ih hentries]

/-! ## Scan places -/

theorem length_scanPlaceBytes (m : Sparse ScanEntry) (place : Nat) :
    (scanPlaceBytes m place).length = 10 := by
  unfold scanPlaceBytes
  split <;> rfl

/-- What a map lists under one key. -/
def Sparse.listedAt {α : Type} (m : Sparse α) (k : Nat) : Sparse α := ((m.get k).map (k, ·)).toList

theorem Sparse.listedAt_cons_same {α : Type} (e : Nat × α) (m : Sparse α) :
    Sparse.listedAt (e :: m) e.1 = [e] := by
  simp [Sparse.listedAt, Sparse.get]

theorem Sparse.listedAt_cons_of_ne {α : Type} {e : Nat × α} {k : Nat} (h : e.1 ≠ k) (m : Sparse α) :
    Sparse.listedAt (e :: m) k = m.listedAt k := by
  simp only [Sparse.listedAt, Sparse.get, if_neg h]

theorem Sparse.listedAt_of_lt {α : Type} {m : Sparse α} {k : Nat} (h : ∀ e ∈ m, k < e.1) :
    m.listedAt k = [] := by
  induction m with
  | nil => rfl
  | cons e m ih =>
    obtain ⟨hfirst, hrest⟩ := List.forall_mem_cons.1 h
    rw [Sparse.listedAt_cons_of_ne hfirst.ne', ih hrest]

/-- A map with rising keys is what it lists under the keys of a range that holds them all. -/
theorem Sparse.flatMap_listedAt {α : Type} {k n : Nat} {m : Sparse α}
    (hm : (m.map Prod.fst).Pairwise (· < ·)) (hk : ∀ e ∈ m, k ≤ e.1 ∧ e.1 < k + n) :
    (List.range' k n).flatMap m.listedAt = m := by
  induction n generalizing k m with
  | zero =>
    refine (List.eq_nil_iff_forall_not_mem.2 fun e he => ?_).symm
    have := hk e he
    omega
  | succ n ih =>
    rw [List.range'_succ, List.flatMap_cons]
    cases m with
    | nil => exact ih hm nofun
    | cons e m =>
      obtain ⟨he, hrest⟩ := List.forall_mem_cons.1 hk
      obtain ⟨hfirst, hrising⟩ := List.pairwise_cons.1 hm
      have above : ∀ x ∈ m, e.1 < x.1 ∧ x.1 < k + 1 + n := fun x hx =>
        ⟨hfirst _ (List.mem_map_of_mem hx), by have := hrest x hx; omega⟩
      by_cases hek : e.1 = k
      · subst hek
        have hlater : ∀ j ∈ List.range' (e.1 + 1) n, Sparse.listedAt (e :: m) j = Sparse.listedAt m j :=
          fun j hj => Sparse.listedAt_cons_of_ne (by have := List.mem_range'_1.1 hj; omega) m
        rw [Sparse.listedAt_cons_same, List.flatMap_congr hlater, ih hrising above]
        rfl
      · have hlater : ∀ x ∈ e :: m, k + 1 ≤ x.1 ∧ x.1 < k + 1 + n :=
          List.forall_mem_cons.2 ⟨by omega, fun x hx => by have := above x hx; omega⟩
        rw [Sparse.listedAt_of_lt fun x hx => (hlater x hx).1, ih hm hlater]
        rfl

/-- A place is loaded as it was stored: used with its entry, or unused. -/
theorem loadScan_cons {m : Sparse ScanEntry} (h : ∀ p e, m.get p = some e → e.inRange = true)
    (n place : Nat) (rest : List Byte) :
    loadScan (n + 1) place (scanPlaceBytes m place ++ rest) =
      m.listedAt place ++ loadScan n (place + 1) rest := by
  have hlength := length_scanPlaceBytes m place
  rw [loadScan, List.take_left' hlength, List.drop_left' hlength, scanPlaceBytes, Sparse.listedAt]
  cases hp : m.get place with
  | none => rfl
  | some e =>
    simp only [decodeScanEntry_encode (h place e hp), Option.getD_some, if_true]
    rfl

theorem loadScan_places {m : Sparse ScanEntry} (h : ∀ p e, m.get p = some e → e.inRange = true)
    (n place : Nat) (rest : List Byte) :
    loadScan n place ((List.range' place n).flatMap (scanPlaceBytes m) ++ rest) =
      (List.range' place n).flatMap m.listedAt := by
  induction n generalizing place with
  | zero => rfl
  | succ n ih =>
    rw [List.range'_succ, List.flatMap_cons, List.append_assoc, loadScan_cons h, ih, List.flatMap_cons]

/-- The 64 scan places are loaded as they were stored. -/
theorem loadScan_encode {m : Sparse ScanEntry} (hm : sparseWf 64 m = true)
    (h : ∀ p ∈ m, p.2.inRange = true) (rest : List Byte) :
    loadScan 64 0 ((List.range 64).flatMap (scanPlaceBytes m) ++ rest) = m := by
  obtain ⟨hrising, hbelow⟩ := (sparseWf_iff 64 m).1 hm
  rw [List.range_eq_range', loadScan_places fun p e he => h _ (Sparse.mem_of_get he)]
  exact Sparse.flatMap_listedAt hrising fun e he => ⟨Nat.zero_le _, by simpa using hbelow e he⟩

/-! ## Lines and the bridge -/

theorem loadLine_encode {r : LineSettings} (h : r.inRange = true) : loadLine (encodeLine r) = r := by
  refine loadLine_of_decode (decodeLine_encode h) ?_
  rintro hrate
  simp [LineSettings.inRange, hrate] at h

/-- The record of a line stands in its area of 14 bytes. -/
theorem encodeLine_area (v : Four LineSettings) (l : LineNo) (rest : List Byte) :
    ((v.toList.flatMap encodeLine ++ rest).drop (14 * l.val)).take 14 = encodeLine (v.get l) := by
  fin_cases l <;> rfl

/-- The record of the bridge stands after those of the lines. -/
theorem encodeBridge_area (v : Four LineSettings) (r : BridgeSettings) :
    ((v.toList.flatMap encodeLine ++ encodeBridge r).drop 56).take 3 = encodeBridge r := rfl

/-! ## The tables -/

theorem tableBytes_eq (t : Tables) : tableBytes t = nat2 t.map.length ++
    ((t.map.take 256).flatMap encodeMapEntry ++ (List.replicate (25 * (256 - t.map.length)) 0 ++
      ((List.range 64).flatMap (scanPlaceBytes t.scan) ++
        (t.lines.toList.flatMap encodeLine ++ encodeBridge t.bridge)))) := by
  simp only [tableBytes, List.append_assoc]

/-- Tables that a put can build are loaded from an image as they were stored (R157, R171). -/
theorem loadTables_tableBytes {t : Tables} (h : t.storable) : loadTables (tableBytes t) = t := by
  have hcount := h.count
  rw [tableBytes_eq, List.take_of_length_le hcount]
  generalize hrecords : t.lines.toList.flatMap encodeLine ++ encodeBridge t.bridge = records
  generalize hplaces : (List.range 64).flatMap (scanPlaceBytes t.scan) ++ records = places
  generalize hmaps : t.map.flatMap encodeMapEntry ++
    (List.replicate (25 * (256 - t.map.length)) 0 ++ places) = maps
  have hnumber : natOf2 ((nat2 t.map.length ++ maps).getD 0 0) ((nat2 t.map.length ++ maps).getD 1 0) =
      t.map.length := natOf2_nat2 (by omega)
  have hdropMaps : (nat2 t.map.length ++ maps).drop 2 = maps := rfl
  have hdropPlaces : maps.drop 6400 = places := by
    rw [← hmaps, ← List.append_assoc]
    refine List.drop_left' ?_
    rw [List.length_append, length_flatMap_encodeMapEntry, List.length_replicate]
    omega
  have hdropRecords : places.drop 640 = records := by
    rw [← hplaces]
    exact List.drop_left' (length_flatMap_scanPlaceBytes _ _)
  have hmap : loadMap t.map.length maps = t.map := hmaps ▸ loadMap_encode h.map _
  have hscan : loadScan 64 0 places = t.scan := hplaces ▸ loadScan_encode h.places h.scan _
  have hlines : Four.build (fun l => loadLine ((records.drop (14 * l.val)).take 14)) = t.lines := by
    refine Four.ext_get fun l => ?_
    rw [Four.get_build, ← hrecords, encodeLine_area, loadLine_encode (h.lines l)]
  have hbridge : decodeBridge ((records.drop 56).take 3) = some t.bridge := by
    rw [← hrecords, encodeBridge_area, decodeBridge_encode]
  simp only [loadTables, hnumber, Nat.min_eq_left hcount, hdropMaps, hdropPlaces, hdropRecords, hmap, hscan,
    hlines, hbridge, Option.getD_some]

end Sys2Proof.Machine
end

section
/-!
SUPPORT. A COMMIT that ends soundly survives a cold start (R149 to R158, R171): its slot holds the newest valid
image when the view is built again, and start-up loads from it the tables that it stored.
-/

namespace Sys2Proof.Machine

/-! ## The newest image after a COMMIT (R149, R150) -/

/-- An image one past the other slot's, or alone in the store, is the newest. -/
theorem newest_of_next {m n : ImageStore} {i : SlotId} {g : Word} (hold : m.view i = none)
    (hother : ∀ j, j ≠ i → n.view j = m.view j) (hnew : n.view i = some ⟨m.nextSequence, g⟩) :
    n.newest = some (i, ⟨m.nextSequence, g⟩) := by
  cases i with
  | a =>
    have hother : n.viewB = m.viewB := hother .b nofun
    cases hb : m.viewB with
    | none => exact newest_of_a hnew (hother.trans hb)
    | some b =>
      have hsequence : m.nextSequence = b.sequence + 1#32 := by
        rw [ImageStore.nextSequence, newest_of_b hold hb]
      refine newest_of_newer_a hnew (hother.trans hb) (Bool.eq_false_iff.2 fun h => ?_)
      have := newerB_iff.1 h
      bv_omega
  | b =>
    have hother : n.viewA = m.viewA := hother .a nofun
    cases ha : m.viewA with
    | none => exact newest_of_b (hother.trans ha) hnew
    | some a =>
      have hsequence : m.nextSequence = a.sequence + 1#32 := by
        rw [ImageStore.nextSequence, newest_of_a ha hold]
      refine newest_of_newer_b (hother.trans ha) hnew (newerB_iff.2 ?_)
      bv_omega

/-- A COMMIT's whole content under the completion mark is what start-up selects from the view built again. -/
theorem selection_rebuilt_of_content {s : State} (law : ImageLaw s) (htables : s.active.storable)
    {job : CommitJob} (hjob : CommitLaw s job) {m : ImageStore}
    (hother : ∀ j, j ≠ job.target → m.slot j = s.store.slot j)
    (hmark : (m.slot job.target).read 0 0 = completeMark)
    (hread : (m.slot job.target).readFrom 0 1 7109 = job.content) :
    m.rebuilt.selection = (s.active, s.generation, some s.generation) := by
  obtain ⟨hview, htableBytes⟩ :=
    slotView_imageBytes _ _ htables.count _ hmark (hread.trans hjob.content)
  rw [hjob.sequence, hjob.generation] at hview
  have hnewest : m.rebuilt.newest = some (job.target, ⟨s.store.nextSequence, s.generation⟩) := by
    refine newest_of_next hjob.view (fun j hj => ?_) ((m.view_rebuilt _).trans hview)
    rw [m.view_rebuilt, hother j hj, law.views j]
  rw [selection_of_some hnewest, ImageStore.slot_rebuilt, htableBytes, loadTables_tableBytes htables]

/-! ## The run -/

/-- A step takes the command at the front of the queue. -/
theorem run_of_exec {s t : State} {c : Instr} {rest : List Instr} (hq : s.pending = c :: rest)
    (h : exec c { s with pending := rest } = .next t) (n : Nat) : core.run (n + 1) s = core.run n t :=
  run_of_step (by rw [step, hq]; exact h) n

/-- A part without a pending operation stops with its image store, and its commands, as they were. -/
theorem halt_of_idle {s : State} (ho : s.operation = .none) : s.halt.supply = s.supply ∧
    s.halt.resetLow = s.resetLow ∧ s.halt.operation = .none ∧ s.halt.store = s.store ∧
    s.halt.pending = s.pending := by
  rw [halt_eq, cutCommit_store_of_idle ho]
  exact ⟨rfl, rfl, rfl, rfl, rfl⟩

theorem run_enterRunning {s : State} (hp : s.powered = true) (hb : s.bridge = .starting)
    (hq : s.pending = [.enterRunning]) :
    ∃ t, core.run 1 s = .next t ∧ t.bridge = .running ∧
      (t.active, t.generation, t.committed) = s.store.selection :=
  ⟨_, run_of_exec hq (exec_enterRunning (s := { s with pending := [] }) hp hb) 0, rfl, rfl⟩

/-- A part that is released from reset starts up under what its store selects once the view is built again
(R156 to R158). -/
theorem run_release_startUp {s : State} (hs : s.supply = true) (hr : s.resetLow = true)
    (ho : s.operation = .none) (hq : s.pending = [.resetPinRelease, .enterRunning]) :
    ∃ t, core.run 2 s = .next t ∧ t.bridge = .running ∧
      (t.active, t.generation, t.committed) = s.store.rebuilt.selection := by
  rw [run_of_exec hq (exec_resetPinRelease hs hr)]
  have hidle : ({ s with resetLow := false, pending := [.enterRunning] } : State).operation = .none := ho
  obtain ⟨hsupply, hpin, -, -, hpending⟩ := halt_of_idle hidle
  have hpowered : (State.beginColdStart
      { s with resetLow := false, pending := [.enterRunning] }).powered = true := by
    exact Bool.and_eq_true_iff.2 ⟨hsupply.trans hs, congrArg not hpin⟩
  obtain ⟨t, hrun, hbridge, hselected⟩ := run_enterRunning hpowered rfl hpending
  exact ⟨t, hrun, hbridge, hselected.trans
    (congrArg ImageStore.selection (beginColdStart_store_of_idle hidle))⟩

/-- So does a part without a pending operation that is held in reset and released (R155). -/
theorem run_reset_startUp {s : State} (hs : s.supply = true) (hr : s.resetLow = false)
    (ho : s.operation = .none)
    (hq : s.pending = [.resetPinEvent, .resetPinRelease, .enterRunning]) :
    ∃ t, core.run 3 s = .next t ∧ t.bridge = .running ∧
      (t.active, t.generation, t.committed) = s.store.rebuilt.selection := by
  rw [run_of_exec hq (exec_resetPinEvent hs hr)]
  obtain ⟨hsupply, -, hidle, hstore, hpending⟩ :=
    halt_of_idle (s := { s with pending := [.resetPinRelease, .enterRunning] }) ho
  obtain ⟨t, hrun, hbridge, hselected⟩ := run_release_startUp
    (s := { State.halt { s with pending := [.resetPinRelease, .enterRunning] } with resetLow := true })
    (hsupply.trans hs) rfl hidle hpending
  exact ⟨t, hrun, hbridge, hselected.trans
    (congrArg (fun m : ImageStore => m.rebuilt.selection) hstore)⟩

/-! ## The COMMIT's run (R152, R153) -/

/-- The state with a COMMIT's content in its target and the write ended, without a fault. -/
def State.soundlyWritten (s : State) (dest tag : Byte) (job : CommitJob) : State :=
  { s with
    operation := .commit dest tag { job with written := true, fault := false }
    store := s.store.setSlot job.target ((s.store.slot job.target).writeFrom 0 1 job.content) }

section commit

variable {s : State} {dest tag : Byte} {job : CommitJob} {rest : List Instr} (hs : s.serving = true)
  (ho : s.operation = .commit dest tag job)

include hs ho

theorem run_commitWriteEnd (hw : job.written = false)
    (hq : s.pending = .commitWriteEnd false [] :: rest) (n : Nat) :
    core.run (n + 1) s = core.run n { s.soundlyWritten dest tag job with pending := rest } :=
  run_of_exec hq (exec_commitWriteEnd (s := { s with pending := rest }) hs ho hw false []) n

theorem run_commitVerifyResult (hw : job.written = true) (hgood : commitGood s.store job = true)
    (hq : s.pending = .commitVerifyResult :: rest) (n : Nat) :
    core.run (n + 1) s = core.run n (State.commitDone { s with pending := rest } dest tag job) :=
  run_of_exec hq (exec_commitVerifyResult_good (s := { s with pending := rest }) hs ho hw hgood) n

/-- A write that ends soundly and its verify leave the COMMIT's content under the completion mark, and no
operation pending. -/
theorem run_commit (hw : job.written = false) (hlength : job.content.length = 7109)
    (hq : s.pending = .commitWriteEnd false [] :: .commitVerifyResult :: rest) (n : Nat) :
    ∃ t, core.run (n + 2) s = core.run n t ∧ t.supply = s.supply ∧ t.resetLow = s.resetLow ∧
      t.operation = .none ∧ t.pending = rest ∧
      (∀ j, j ≠ job.target → t.store.slot j = s.store.slot j) ∧
      (t.store.slot job.target).read 0 0 = completeMark ∧
      (t.store.slot job.target).readFrom 0 1 7109 = job.content := by
  have hstored : ((s.soundlyWritten dest tag job).store.slot job.target).readFrom 0 1 7109 = job.content := by
    rw [State.soundlyWritten, ImageStore.slot_setSlot_same, ← hlength, Sparse.readFrom_writeFrom]
  have hgood : commitGood (s.soundlyWritten dest tag job).store
      { job with written := true, fault := false } = true :=
    commitGood_iff.2 ⟨rfl, hstored⟩
  rw [run_commitWriteEnd hs ho hw hq, run_commitVerifyResult
    (s := { s.soundlyWritten dest tag job with pending := .commitVerifyResult :: rest })
    hs rfl rfl hgood rfl, commitDone_eq]
  refine ⟨_, rfl, rfl, rfl, rfl, rfl, fun j hj => ?_, ?_, ?_⟩
  · rw [ImageStore.slot_setView, slot_writeMark_ne _ _ hj]
    exact ImageStore.slot_setSlot_ne _ _ hj
  · rw [ImageStore.slot_setView, slot_writeMark_same, Sparse.read_write_same]
  · rw [ImageStore.slot_setView, slot_writeMark_same, Sparse.readFrom_write_before _ _ _ _ _ (by decide)]
    exact hstored

end commit

/-- Settles O52: the COMMIT leaves its content in a slot, which the reset finds newest and start-up loads. -/
theorem committedConfigurationSurvivesReset : Obligations.CommittedConfigurationSurvivesReset := by
  intro s dest tag job law htables hs ho hw hq
  have hjob := law.commit dest tag job ho
  obtain ⟨hsupply, hpin⟩ : s.supply = true ∧ s.resetLow = false := by
    simp only [State.serving, State.powered, Bool.and_eq_true, Bool.not_eq_true'] at hs
    exact hs.1
  have hlength : job.content.length = 7109 := by rw [hjob.content, imageBytes_length]
  obtain ⟨u, hrun, husupply, hupin, hidle, huq, hother, hmark, hread⟩ :=
    run_commit hs ho hw hlength hq 3
  obtain ⟨t, hreset, hbridge, hselected⟩ :=
    run_reset_startUp (husupply.trans hsupply) (hupin.trans hpin) hidle huq
  rw [selection_rebuilt_of_content law htables hjob hother hmark hread] at hselected
  obtain ⟨hactive, hgeneration, hcommitted⟩ : t.active = s.active ∧ t.generation = s.generation ∧
      t.committed = some s.generation := by simpa using hselected
  exact ⟨t, hrun.trans hreset, hbridge, hactive, hgeneration, hcommitted⟩

end Sys2Proof.Machine
end

section
/-!
The arguments of the puts, encoded after R169 and R170, are the place and the record; with the round trips of the
records, O51.
-/

namespace Sys2Proof.Machine

/-! ## The arguments of the puts (R134, R135, R170) -/

theorem putMapArgs_encode {e : MapEntry} (h : e.inRange = true) (p : Byte) :
    putMapArgs (p :: encodeMapEntry e) = some (p.toNat, e) := by
  simp only [putMapArgs, decodeMapEntry_encode h, h, if_true]

theorem putScanArgs_encode {e : ScanEntry} (h : e.inRange = true) {p : Byte} (hp : p.toNat < 64) :
    putScanArgs (p :: encodeScanEntry e) = some (p.toNat, e) := by
  simp only [putScanArgs, decodeScanEntry_encode h, h, hp, and_self, if_true]

theorem putLineArgs_encode {r : LineSettings} (h : r.inRange = true) (l : LineNo) :
    putLineArgs (nat1 l.val :: encodeLine r) = some (l, r) := by
  simp only [putLineArgs, lineOf_nat1, decodeLine_encode h, h, if_true]

theorem putBridgeArgs_encode {r : BridgeSettings} (h : r.inRange = true) :
    putBridgeArgs (encodeBridge r) = some r := by
  simp only [putBridgeArgs, decodeBridge_encode, h, if_true]

/-! ## The obligation -/

/-- Settles O51, record by record: the length of the layout, the round trip of the record, and that of its put's
arguments. -/
theorem recordsDecodeAsEncoded : Obligations.RecordsDecodeAsEncoded := by
  refine ⟨fun e p h => ?map, fun e p h hp => ?scan, fun r l h => ?line, fun r h => ?bridge⟩
  case map => exact ⟨length_encodeMapEntry e, decodeMapEntry_encode h, putMapArgs_encode h p⟩
  case scan => exact ⟨rfl, decodeScanEntry_encode h, putScanArgs_encode h hp⟩
  case line => exact ⟨rfl, decodeLine_encode h, putLineArgs_encode h l⟩
  case bridge => exact ⟨rfl, decodeBridge_encode r, putBridgeArgs_encode h⟩

end Sys2Proof.Machine
end

section
/-!
SUPPORT. A step takes the command at the front of the queue, which has a next state whatever the state is, and which
leaves the commands behind it waiting (log entries 1, 4 and 22).
-/

namespace Sys2Proof.Machine

/-! ## A step (section 0.5) -/

theorem step_of_front {s : State} {c : Instr} {rest : List Instr} (h : s.pending = c :: rest) :
    step s = exec c { s with pending := rest } := by
  rw [step, h]

theorem step_of_empty {s : State} (h : s.pending = []) : step s = .next s.tick := by
  rw [step, h]

theorem tick_of_powered {s : State} (h : s.powered = true) :
    s.tick = { s with uptime := s.uptime + 1#32 } :=
  if_pos h

theorem tick_of_unpowered {s : State} (h : s.powered = false) : s.tick = s :=
  if_neg (Bool.not_eq_true _ ▸ h)

/-- Settles O1: the front command runs, and an empty queue is a tick, which only a powered part makes. -/
theorem stepRunsFrontCommandElseTicks : Obligations.StepRunsFrontCommandElseTicks := by
  refine ⟨fun c rest s hq => step_of_front hq, fun s hq hp => ?powered, fun s hq hp => ?unpowered⟩
  case powered => rw [step_of_empty hq, tick_of_powered hp]
  case unpowered => rw [step_of_empty hq, tick_of_unpowered hp]

/-! ## Every command goes on -/

/-- A frame's command is a function of the state, every other command one or more tests that its event can happen
here, each way out of which is a next state: the state itself where it cannot (log entry 22). -/
theorem exec_exists_next (i : Instr) (s : State) : ∃ t, exec i s = .next t := by
  cases i with
  | fetch | store | storeSet | cancel | mgmtBadOperation | sessionOpen | sessionClose
  | stageCopyActive | stageClear | stagePutMap | stageDeleteMap | stagePutScan | stageDeleteScan
  | stagePutLine | stagePutBridge | validate | activate | commit | restartWarm | restartCold
  | stationReset | statsRead | statsClear | status | readActive | readStage | stationList
  | scanInfo => exact ⟨_, rfl⟩
  | hostByteReceived | hostBadLength | hostGapTimerExpiry | hostFrameRejected | transmitStart
  | transmitEnd | fieldReceptionStart | fieldGapAbandon | fieldTransmissionEnd | idleTimerExpiry
  | enterRunning =>
    simp only [exec, execHostByteReceived, execHostBadLength, execHostGapTimerExpiry,
      execHostFrameRejected, execTransmitStart, execTransmitEnd, execFieldReceptionStart,
      execFieldGapAbandon, execFieldTransmissionEnd, execIdleTimerExpiry, execEnterRunning]
    split <;> exact ⟨_, rfl⟩
  | fieldFrameReceived | guardTimeExpiry | replyTimerExpiry | busyBackoffExpiry | scanDueExpiry
  | probeTimerExpiry | drainTimerExpiry | commitWriteEnd | commitVerifyResult | resetPinEvent
  | resetPinRelease | powerOn | powerLoss =>
    simp only [exec, execFieldFrameReceived, execGuardTimeExpiry, execReplyTimerExpiry,
      execBusyBackoffExpiry, execScanDueExpiry, execProbeTimerExpiry, execDrainTimerExpiry,
      execCommitWriteEnd, execCommitVerifyResult, execResetPinEvent, execResetPinRelease,
      execPowerOn, execPowerLoss]
    (repeat' split) <;> exact ⟨_, rfl⟩

theorem pending_of_ledger {t : State} {l : Ledger} (h : t.ledger = l) : t.pending = l.pending :=
  h ▸ rfl

/-- No change of the ledger touches the waiting commands. -/
theorem LedgerStep.pending {i : Instr} {s t : State} (h : LedgerStep i s t) :
    t.pending = s.pending := by
  cases h with
  | calm _ _ _ h | opened _ _ _ h | closed _ h | edited _ _ _ _ _ _ _ _ h
  | draining _ _ _ _ _ _ _ h | swapped _ _ _ _ _ _ _ _ _ h | timedOut _ _ _ h
  | committing _ _ _ _ _ h | written _ _ _ _ _ _ h | verified _ _ _ _ _ _ _ h
  | unverified _ _ _ _ _ _ h | warm _ _ _ _ h | halted _ _ _ _ _ _ _ _ h | pins _ _ _ h
  | running _ _ h =>
    exact pending_of_ledger h

/-- Settles O2: the next state is there by the cases of the command, and keeps the queue by those of the ledger. -/
theorem everyCommandGoesOn : Obligations.EveryCommandGoesOn := by
  intro i s
  obtain ⟨t, ht⟩ := exec_exists_next i s
  exact ⟨t, ht, (exec_ledger ht).pending⟩

end Sys2Proof.Machine
end

section
/-!
SUPPORT. The transmitter at the head of its queue (R57, R120), and the first-failure record of a request whose
failures occur in any order (R44).
-/

namespace Sys2Proof.Machine

/-! ## The head of the transmit queue (R57, R120) -/

theorem exec_transmitStart {s : State} {f : TxFrame} {rest : List TxFrame} (hs : s.serving = true)
    (hsending : s.sending = none) (hq : s.txQueue = f :: rest) :
    exec .transmitStart s = .next { s with sending := some (f.bytes s.link.address) } := by
  simp only [exec, execTransmitStart, hs, hsending, hq]

/-- These frames end nothing but their own transmission (R120). -/
theorem frameSent_quiet {c : FrameClass}
    (h : c = .prompt ∨ c = .closing .drainTimeout ∨ c = .closing .commit) (s : State) :
    s.frameSent c = s := by
  obtain rfl | rfl | rfl := h <;> rfl

theorem releaseSlot_listed {s : State} {k : Nat} {r : Request} (h : s.slots.get k = some r) :
    s.releaseSlot k = { s with
      slots := s.slots.del k
      legs := s.legs.filter (fun e => !r.legs.contains e.1) } := by
  simp only [State.releaseSlot, h]

/-- Settles O6: the head is sent as `TxFrame.bytes` lays it out, and the class of the frame sent says what its end
brings about. -/
theorem transmitterSendsQueueHead : Obligations.TransmitterSendsQueueHead := by
  intro s f rest hs hq
  refine ⟨fun hsending => exec_transmitStart hs hsending hq, fun bytes hsending hc => ?_,
    fun bytes k r hsending hc hr => ?_⟩
  · rw [exec_transmitEnd hs hsending hq, frameSent_quiet hc]
  · rw [exec_transmitEnd hs hsending hq, hc]
    exact congrArg Host.Outcome.next
      (releaseSlot_listed (s := { s with sending := none, txQueue := rest }) hr)

/-! ## The first-failure record (R44) -/

/-- A record that is present is displaced by the first of the lowest failures that lie below it, and by no
other. -/
theorem foldl_offer_of_some (failures : List Failure) {r : Request} {old : Failure}
    (h : r.failure = some old) :
    ((failures.foldl Request.offer r).failure = some old ∧ ∀ g ∈ failures, old.position ≤ g.position) ∨
    ∃ before f after, failures = before ++ f :: after ∧
      (failures.foldl Request.offer r).failure = some f ∧ f.position < old.position ∧
      (∀ g ∈ before, f.position < g.position) ∧ ∀ g ∈ after, f.position ≤ g.position := by
  induction failures generalizing r old with
  | nil => exact .inl ⟨h, by simp⟩
  | cons g failures ih =>
    rw [List.foldl_cons]
    by_cases hlow : g.position < old.position
    · have hg : (r.offer g).failure = some g := by simp [Request.offer, h, hlow]
      rcases ih hg with ⟨hf, hafter⟩ | ⟨before, f, after, rfl, hf, hfg, hbefore, hafter⟩
      · exact .inr ⟨[], g, failures, rfl, hf, hlow, by simp, hafter⟩
      · exact .inr ⟨g :: before, f, after, rfl, hf, by omega, List.forall_mem_cons.2 ⟨hfg, hbefore⟩, hafter⟩
    · have hold : (r.offer g).failure = some old := by simp [Request.offer, h, hlow]
      rcases ih hold with ⟨hf, hafter⟩ | ⟨before, f, after, rfl, hf, hfo, hbefore, hafter⟩
      · exact .inl ⟨hf, List.forall_mem_cons.2 ⟨by omega, hafter⟩⟩
      · exact .inr ⟨g :: before, f, after, rfl, hf, hfo,
          List.forall_mem_cons.2 ⟨by omega, hbefore⟩, hafter⟩

/-- Settles O18: the first failure enters the absent record, and from then on a lower one alone displaces what it
holds. -/
theorem firstFailureIsTheLowest : Obligations.FirstFailureIsTheLowest := by
  intro r failures hr hne
  obtain ⟨g, failures, rfl⟩ := List.exists_cons_of_ne_nil hne
  have hg : (r.offer g).failure = some g := by simp [Request.offer, hr]
  rcases foldl_offer_of_some failures hg with ⟨hf, hafter⟩ | ⟨before, f, after, rfl, hf, hfg, hbefore, hafter⟩
  · exact ⟨[], failures, g, rfl, hf, by simp, hafter⟩
  · exact ⟨g :: before, after, f, rfl, hf, List.forall_mem_cons.2 ⟨hfg, hbefore⟩, hafter⟩

end Sys2Proof.Machine
end

section
/-!
SUPPORT. STATUS, and STATS with its clear option (R162 to R164), as operations that serve their frame (R126).
-/

namespace Sys2Proof.Machine

/-! ## STATUS (R162, R170) -/

theorem statusResults_served (s : State) (f : Frame) : (s.served f).statusResults = s.statusResults := by
  obtain ⟨o, ho, hnone, hsome, -⟩ := touchSession_eq s.frameTaken f.source
  have hsession : sessionBytes o = sessionBytes s.session := by
    cases h : s.session with
    | none => rw [hnone h]
    | some n =>
      obtain ⟨x, hx⟩ := hsome n h
      rw [hx]
      rfl
  rw [State.served, ho]
  simp only [State.statusResults, hsession]
  rfl

/-- STATUS answers 32 bytes, whichever of its optional fields are present (R170). -/
theorem statusResults_length (s : State) : s.statusResults.length = 32 := by
  have hcommitted : (committedBytes s.committed).length = 3 := by cases s.committed <;> rfl
  have hsession : (sessionBytes s.session).length = 2 := by cases s.session <;> rfl
  simp [State.statusResults, hcommitted, hsession, State.stationCounts, allLines, bytes32, bytes16]

theorem bridgeCode_eq (b : BridgeState) : b.code = if b = .draining then 1 else 0 := by
  cases b <;> rfl

theorem committedBytes_eq (c : Option Word) :
    committedBytes c = match c with | none => [0, 0, 0] | some g => 1 :: bytes16 g := by
  cases c <;> rfl

theorem sessionBytes_eq (o : Option Session) :
    sessionBytes o = match o with | none => [0, 0] | some n => [1, n.owner] := by
  cases o <;> rfl

theorem operationCode_eq (o : PendingOp) :
    o.code = match o with | .none => 0 | .activate _ _ _ => 1 | .commit _ _ _ => 2 := by
  cases o <;> rfl

theorem freeLegs_eq (s : State) :
    s.freeLegs = (List.range 64).countP (fun i => (s.legs.get i).isNone) :=
  List.countP_eq_length_filter.symm

/-- Settles O48: STATUS passes its checks in every state, and reports fields that serving its frame leaves as they
are. -/
theorem statusReportsThePart : Obligations.StatusReportsThePart := by
  intro s byte f hf hop hargs count results
  have hresults : results = s.statusResults := by
    simp only [State.statusResults, bridgeCode_eq, committedBytes_eq, sessionBytes_eq,
      operationCode_eq, freeLegs_eq]
    rfl
  refine ⟨hresults ▸ statusResults_length s, ?_⟩
  refine congrArg Host.Outcome.next ((onMgmt_serve hf hop (noArgs_nil hargs)
    (.inr rfl) (.inl rfl) (.inl rfl) _).trans ?_)
  rw [answer_of_mgmtOp hop, statusResults_served, hresults]
  rfl

/-! ## STATS (R163, R164) -/

@[simp] theorem State.served_hostCounters (s : State) (f : Frame) :
    (s.served f).hostCounters = s.frameTaken.hostCounters :=
  State.touchSession_hostCounters _ _

theorem groupBytes_served (s : State) (f : Frame) (g : StatsGroup) :
    (s.served f).groupBytes g = s.frameTaken.groupBytes g := by
  cases g with
  | host => exact congrArg HostCounters.bytes (s.served_hostCounters f)
  | line l => exact congrArg (fun lines : Four Line => (lines.get l).counters.bytes) (s.served_lines f)
  | scan i =>
    exact congrArg (fun scans : Sparse ScanRun => ((scans.get i).map ScanRun.counterBytes).getD [])
      (s.served_scans f)

/-- The counters of a group, in the order of 11.2. -/
def State.groupCounters (s : State) : StatsGroup → List DWord
  | .host => [s.hostCounters.framesGood, s.hostCounters.checkErrors, s.hostCounters.framingErrors,
      s.hostCounters.notForUs, s.hostCounters.unknownKind, s.hostCounters.refusalsSent,
      s.hostCounters.repliesDropped]
  | .line l => [(s.lines.get l).counters.legsServed, (s.lines.get l).counters.attempts,
      (s.lines.get l).counters.timeouts, (s.lines.get l).counters.formatErrors,
      (s.lines.get l).counters.remoteFaults, (s.lines.get l).counters.busyAnswers,
      (s.lines.get l).counters.strays, (s.lines.get l).counters.probes]
  | .scan i => match s.scans.get i with
    | some c => [c.fetchesDone, c.failures, c.overruns, c.skips]
    | none => []

theorem groupBytes_eq (s : State) (g : StatsGroup) :
    s.groupBytes g = (s.groupCounters g).flatMap bytes32 := by
  cases g with
  | host | line => rfl
  | scan i =>
    simp only [State.groupBytes, State.groupCounters]
    cases s.scans.get i <;> rfl

/-- A STATS of a row's clear option is carried out, where its arguments are good and checks 1 and 3 of R126
pass. -/
theorem onMgmt_stats {clear : Bool} {n : Needs} {act : StatsGroup → Frame → State → State}
    {stats : Frame → State → State} {s : State} {byte : Byte} {f : Frame} {g : StatsGroup}
    (hstats : ∀ f s, (statsClearOption (mgmtArgs f.body)).isSome = true →
      stats f s = serve n statsArgs act f s)
    (hf : s.dispatched byte = some (f, .mgmt)) (hop : mgmtOp f.body = some .stats)
    (hclear : statsClearOption (mgmtArgs f.body) = some clear)
    (hread : statsArgs (s.served f) (mgmtArgs f.body) = some g)
    (h1 : s.operation = .none ∨ n.whilePending = true) (h2 : n.closing = false)
    (h3 : n.session = false ∨ s.ownedBy f.source = true) :
    onMgmt (isStats clear) stats byte s = act g f (s.served f) := by
  obtain ⟨hsel, -⟩ := isStats_of_clearOption (clear := clear) (f := f)
    (by simp only [isOp, hop, hclear, decide_true, Bool.and_self])
  rw [onMgmt_eq hf, if_pos hsel, hstats f _ (by rw [hclear]; rfl)]
  exact serve_ok hread h1 (.inl h2) h3

/-- Settles O50: STATS is served with either option, reads the group in the state that has counted its frame, and
clears it there. -/
theorem statsReadsAndClearsAGroup : Obligations.StatsReadsAndClearsAGroup := by
  intro s byte f group index clear g hf hb ha h counters answer
  have hop : mgmtOp f.body = some .stats := by rw [hb]; rfl
  have hargs : mgmtArgs f.body = [group, index, clear] := by rw [hb]; rfl
  have hread : statsArgs (s.served f) (mgmtArgs f.body) = some g := by
    rw [statsArgs_served, hargs, ha]
  have hresults : (s.served f).statsResults f g = group :: index :: counters.flatMap bytes32 := by
    have hcounters : counters = s.frameTaken.groupCounters g := by cases g <;> rfl
    rw [State.statsResults, groupBytes_served, groupBytes_eq, hargs, hcounters]
    rfl
  refine ⟨fun hc => ?_, fun hc hmay => ?_⟩
  · have hclear : statsClearOption (mgmtArgs f.body) = some false := by rw [hargs, hc]; rfl
    refine congrArg Host.Outcome.next ((onMgmt_stats (fun _ _ h => if_pos h) hf hop hclear hread
      (.inr rfl) rfl (.inl rfl)).trans ?_)
    rw [answer_of_mgmtOp hop, hresults]
    rfl
  · obtain ⟨hquiet, hown⟩ := hmay
    have hclear : statsClearOption (mgmtArgs f.body) = some true := by rw [hargs, hc]; rfl
    refine congrArg Host.Outcome.next ((onMgmt_stats (fun _ _ h => if_pos h) hf hop hclear hread
      (.inl hquiet) rfl (.inr hown)).trans ?_)
    rw [answer_of_mgmtOp hop, hresults]
    cases g with
    | host => rfl
    | line l => rw [← State.served_lines s f]; rfl
    | scan i => rw [← State.served_scans s f]; rfl

end Sys2Proof.Machine
end

section
/-!
SUPPORT. The end of a leg that is DONE (R47, R51, R53, R69, R82, R105, R106): what the line, the record and the
mirror take, and what the owner of a fetch leg does. What the owner of a store leg does is `legDone_goesOn`.
-/

namespace Sys2Proof.Machine

/-! ## The end of the work (R76, R105, R106) -/

/-- The mirror once the bound cells of a DONE leg have taken values (R105, R106). -/
def State.boundWrite (s : State) (g : Leg) (values : List Word) : Sparse MirrorCell :=
  match s.legCell g with
  | some m => s.mirror.writeFrom blankCell m (values.map (fun w => ⟨w, true, s.uptime⟩))
  | none => s.mirror

theorem legMirror_done {s : State} {g : Leg} (h : g.state = .done) :
    s.legMirror g = { s with mirror := s.boundWrite g g.values } := by
  unfold State.legMirror State.boundWrite
  rw [h]
  cases s.legCell g <;> rfl

@[simp] theorem ended_done_state (g : Leg) (v : List Word) : (g.ended (.done v)).state = .done := by
  unfold Leg.ended
  cases g.direction <;> rfl

theorem ended_done_store {g : Leg} (h : g.direction = .store) (v : List Word) :
    g.ended (.done v) = { g with state := .done } := by
  simp only [Leg.ended, h]

theorem ended_done_fetch {g : Leg} (h : g.direction = .fetch) (v : List Word) :
    g.ended (.done v) = { g with state := .done, values := v } := by
  simp only [Leg.ended, h]

/-- A leg ends DONE on its line: the line is in GUARD with no work, the record and the mirror take the end, and so
does the owner. -/
theorem finishWork_leg_done {s : State} {i : Nat} {g : Leg} (hg : s.legs.get i = some g) (l : LineNo)
    (v : List Word) : s.finishWork l (.leg i) (.done v) = State.legDone { s with
      legs := s.legs.put i (g.ended (.done v))
      mirror := s.boundWrite (g.ended (.done v)) (g.ended (.done v)).values
      lines := s.lines.set l { s.lines.get l with
        phase := .guard (some (after s.uptime (s.settings l).guardTime))
        current := none
        counters := { (s.lines.get l).counters with
          legsServed := satInc (s.lines.get l).counters.legsServed } } } (g.ended (.done v)) := by
  simp only [State.finishWork, dropWork_leg, State.handOver, State.legEnd, hg,
    legMirror_done (ended_done_state g v)]
  rfl

/-! ## A leg's accepted OK reply (R72, R82) -/

/-- An OK reply of the right count ends a store leg's attempt with success (R72). -/
theorem judgeReply_store_ok {n : Nat} (flags : Byte) (hn : n ≤ 60) :
    judgeReply .store n [0x00#8, flags, nat1 n] = .success [] := by
  have hcount : (nat1 n).toNat = n := toNat_nat1 (by omega)
  simp only [judgeReply, BitVec.toNat_ofNat, Nat.zero_mod, hcount, if_true]

theorem workShape_leg {s : State} {i : Nat} {g : Leg} (hg : s.legs.get i = some g) :
    s.workShape (.leg i) = (g.direction, g.count) := by
  simp [State.workShape, hg]

theorem workStation_leg {s : State} {i : Nat} {g : Leg} (hg : s.legs.get i = some g) :
    s.workStation (.leg i) = g.station := by
  simp [State.workStation, hg]

/-- The state in which the owner of a leg takes its DONE, an accepted reply having ended it (R43, R82, R105,
R106). -/
def State.legReplied (s : State) (l : LineNo) (i : Nat) (g : Leg) (v : List Word) : State := { s with
  legs := s.legs.put i (g.ended (.done v))
  mirror := s.boundWrite (g.ended (.done v)) (g.ended (.done v)).values
  stations := s.stations.set l ((s.stations.get l).map (fun x =>
    if x.station = g.station then { x with health := .online, failures := 0, probe := .none } else x))
  lines := s.lines.set l { (s.lines.get l).rested (s.settings l) s.uptime with
    current := none
    counters := { (s.lines.get l).counters with
      legsServed := satInc (s.lines.get l).counters.legsServed } } }

theorem exec_legReplied {s : State} {l : LineNo} {i : Nat} {g : Leg} {bytes rest : List Byte}
    {v : List Word} (hh : s.hearing l (.leg i)) (hg : s.legs.get i = some g)
    (ha : s.answeredBy (.leg i) bytes 0x00#8 rest)
    (hv : judgeReply g.direction g.count (0x00#8 :: rest) = .success v) :
    exec (.fieldFrameReceived l bytes) s =
      .next ((s.legReplied l i g v).legDone (g.ended (.done v))).drainTest := by
  have hcurrent : (s.lines.get l).current = some (.leg i) := hearing_current hh
  have hfinish := finishWork_leg_done (s := s.told l (.leg i) (.success v)) (i := i) hg l v
  rw [accepted_exec hh ha, workShape_leg hg, hv, attemptEnd_work hcurrent rfl]
  simp only [State.afterAttempt, AttemptResult.outcome]
  rw [hfinish, told_answered rfl, workStation_leg hg]
  simp only [Four.get_set_same, Four.set_set]
  rfl

/-! ## A store leg (R51, R53, R69) -/

/-- Settles O28: the reply ends the leg, and its owner goes on as `legDone_goesOn` says. -/
theorem storeLegDoneReleasesNext : Obligations.StoreLegDoneReleasesNext := by
  intro s l i k g r bytes flags hh hg hd hn hk hr hkind hphase ha
  subst hk
  have hv : judgeReply g.direction g.count [0x00#8, flags, nat1 g.count] = .success [] := by
    rw [hd, judgeReply_store_ok flags hn]
  rw [exec_legReplied hh hg ha hv, State.legReplied, ended_done_store hd]
  exact legDone_goesOn hr hkind hphase

theorem exec_fieldTransmissionEnd {s : State} {l : LineNo} {frame : List Byte} {timeout : Nat} {w : Work}
    (hs : s.serving = true) (hp : (s.lines.get l).phase = .sending frame timeout)
    (hc : (s.lines.get l).current = some w) :
    exec (.fieldTransmissionEnd l) s = .next (s.transmitted l timeout w) := by
  simp only [exec, execFieldTransmissionEnd, hs, hp, hc]

theorem transmitted_awaits {s : State} {w : Work} (h : s.broadcast w = false) (l : LineNo)
    (timeout : Nat) : s.transmitted l timeout w = { s with
      lines := s.lines.set l { s.lines.get l with
        receiving := false
        phase := .awaiting (after s.uptime timeout) } } := by
  simp only [State.transmitted, h, Bool.false_eq_true, if_false, State.modLine]

theorem transmitted_broadcast {s : State} {w : Work} (h : s.broadcast w = true) (l : LineNo)
    (timeout : Nat) :
    s.transmitted l timeout w = ((s.closeAttempt l).finishWork l w (.done [])).drainTest := by
  simp only [State.transmitted, h, if_true]

/-- A store leg to station 0 is a broadcast (R69). -/
theorem broadcast_leg {s : State} {i : Nat} {g : Leg} (hg : s.legs.get i = some g)
    (hd : g.direction = .store) (h0 : g.station = 0) : s.broadcast (.leg i) = true := by
  simp [State.broadcast, hg, hd, h0]

/-- Settles O23: other work awaits its reply; a broadcast leg ends DONE with its transmission, and its owner goes on
as `legDone_goesOn` says. -/
theorem transmissionEndAwaitsReplyOrEndsBroadcast :
    Obligations.TransmissionEndAwaitsReplyOrEndsBroadcast := by
  intro s l frame timeout w hs hp hc
  refine ⟨fun hb => ?_, fun i g k r hw hg hd h0 hk hr hkind hphase => ?_⟩
  · rw [exec_fieldTransmissionEnd hs hp hc, transmitted_awaits hb]
  · subst hw hk
    have hfinish := finishWork_leg_done (s := s.closeAttempt l) (i := i) hg l []
    rw [exec_fieldTransmissionEnd hs hp hc, transmitted_broadcast (broadcast_leg hg hd h0), hfinish,
      ended_done_store hd]
    simp only [State.closeAttempt, State.modLine, Four.get_set_same, Four.set_set]
    exact legDone_goesOn hr hkind hphase

/-! ## A fetch leg (R47, R49, R105) -/

theorem unfinished_eq_false_iff {s : State} {r : Request} : s.unfinished r = false ↔
    ∀ i ∈ r.legs, ∀ g, s.legs.get i = some g → g.state.unfinished = false := by
  simp only [State.unfinished, List.any_eq_false]
  refine forall₂_congr fun i _ => ?_
  cases s.legs.get i <;> simp

/-- The completion test of an ACTIVE slot that has just taken something: its phase alone, and the transmit queue,
show the outcome (R49, R54, R56). -/
theorem putSlot_completeIfDone (s : State) (k : Nat) {q : Request} (ha : q.phase = .active) :
    ∃ p : SlotPhase, (s.putSlot k q).completeIfDone k = { s with
        slots := s.slots.put k { q with phase := p }
        txQueue := s.txQueue ++ (if p = .replying then
          [⟨.slotReply k, q.source, q.tag, .reply q.reply⟩] else []) } ∧
      (p = .replying ↔
        ∀ i ∈ q.legs, ∀ g, s.legs.get i = some g → g.state.unfinished = false) := by
  have hq : (s.putSlot k q).slots.get k = some q := Sparse.get_put_same _ _ _
  rw [← unfinished_eq_false_iff]
  rcases completeIfDone_cases (s.putSlot k q) k with ⟨r, hr, -, hu, hc⟩ | ⟨hc, hno⟩
  · rw [hq] at hr
    cases hr
    refine ⟨.replying, ?_, fun _ => hu, fun _ => rfl⟩
    rw [hc, if_pos rfl, State.putSlot_slots, Sparse.put_put]
    rfl
  · have hu : s.unfinished q = true := (hno q hq).resolve_left (fun h => h ha)
    refine ⟨.active, ?_, by simp [hu]⟩
    rw [hc, if_neg (by simp), List.append_nil, ← ha]
    rfl

theorem takeValues_cancelled {s : State} {r : Request} (h : r.cancelRequested = true) (g : Leg) :
    s.takeValues r g = r := by
  simp only [State.takeValues, h, if_true]

theorem takeValues_filled {s : State} {r : Request} {g : Leg} {e : MapEntry}
    (h : r.cancelRequested = false) (he : s.active.map[g.mapPosition]? = some e) :
    s.takeValues r g = { r with
      buffer := fillBuffer g.position (convertRead e g.values).1 r.buffer
      clamped := r.clamped || (convertRead e g.values).2 } := by
  simp only [State.takeValues, h, he, Bool.false_eq_true, if_false]

/-- The buffer and its CLAMPED mark are all that the values of a DONE leg can change. -/
theorem takeValues_eq (s : State) (r : Request) (g : Leg) : s.takeValues r g = { r with
    buffer := (s.takeValues r g).buffer
    clamped := (s.takeValues r g).clamped } := by
  unfold State.takeValues
  (repeat' split) <;> rfl

/-- The request of a FETCH that has taken the values of a DONE leg, in a phase. -/
def State.filled (s : State) (r : Request) (g : Leg) (p : SlotPhase) : Request := { r with
  buffer := (s.takeValues r g).buffer
  clamped := (s.takeValues r g).clamped
  phase := p }

theorem filled_cancelled {s : State} {r : Request} (h : r.cancelRequested = true) (g : Leg)
    (p : SlotPhase) : (s.filled r g p).buffer = r.buffer ∧ (s.filled r g p).clamped = r.clamped := by
  simp only [State.filled, takeValues_cancelled h, and_self]

theorem filled_values {s : State} {r : Request} {g : Leg} {e : MapEntry}
    (h : r.cancelRequested = false) (he : s.active.map[g.mapPosition]? = some e) (p : SlotPhase) :
    (s.filled r g p).buffer = fillBuffer g.position (convertRead e g.values).1 r.buffer ∧
      (s.filled r g p).clamped = (r.clamped || (convertRead e g.values).2) := by
  simp only [State.filled, takeValues_filled h he, and_self]

/-- The owner of a fetch leg takes its DONE (R47, R49). -/
theorem legDone_fetch {s : State} {g : Leg} {r : Request} (hr : s.slots.get g.owner = some r)
    (hk : r.kind = .fetch) (ha : r.phase = .active) :
    ∃ p : SlotPhase, s.legDone g = { s with
        slots := s.slots.put g.owner (s.filled r g p)
        txQueue := s.txQueue ++ (if p = .replying then
          [⟨.slotReply g.owner, r.source, r.tag, .reply (s.filled r g p).reply⟩] else []) } ∧
      (p = .replying ↔
        ∀ i ∈ r.legs, ∀ h, s.legs.get i = some h → h.state.unfinished = false) := by
  have htaken : s.takeValues r g = s.filled r g .active := by
    rw [takeValues_eq s r g, ← ha]; rfl
  have hdone : s.legDone g = (s.putSlot g.owner (s.filled r g .active)).completeIfDone g.owner := by
    simp only [State.legDone, hr, hk, htaken]
  rw [hdone]
  exact putSlot_completeIfDone s g.owner (q := s.filled r g .active) rfl

/-- A leg that has ended DONE is finished, and every other leg stands as it did. -/
theorem finished_put_done {m : Sparse Leg} {i : Nat} {g : Leg} (hg : g.state = .done) (ids : List Nat) :
    (∀ j ∈ ids, ∀ h, (m.put i g).get j = some h → h.state.unfinished = false) ↔
      ∀ j ∈ ids, j ≠ i → ∀ h, m.get j = some h → h.state.unfinished = false := by
  refine forall₂_congr fun j _ => ?_
  rw [Sparse.get_put]
  by_cases hj : j = i
  · simp [hj, hg, LegState.unfinished]
  · simp [hj]

/-- Settles O27: the reply ends the leg, its owner takes the values, and the completion test shows in the slot's
phase and the transmit queue. -/
theorem fetchLegDoneFillsBuffer : Obligations.FetchLegDoneFillsBuffer := by
  intro s l i k g r e bytes values flags hh hg hd hn hk hr hkind hphase he ha hv
  subst hk
  have hok : judgeReply g.direction g.count (0x00#8 :: flags :: nat1 g.count :: values) =
      .success (wordsOf values) := by
    rw [hd, judgeReply_fetch_ok hn hv]
  rw [exec_legReplied hh hg ha hok, State.legReplied, ended_done_fetch hd]
  generalize hg1 : ({ g with state := .done, values := wordsOf values } : Leg) = g1
  have howner : g1.owner = g.owner := by rw [← hg1]
  generalize hu : ({ s with legs := _, mirror := _, stations := _, lines := _ } : State) = u
  obtain ⟨p, hdone, hp⟩ := legDone_fetch (s := u) (g := g1) (r := r) (by rw [← hu, howner]; exact hr)
    hkind hphase
  refine ⟨u.legDone g1, u.filled r g1 p, rfl, ?_⟩
  rw [hdone, howner]
  subst hu hg1
  exact ⟨Sparse.get_put_same _ _ _, rfl, fun h => filled_cancelled h _ p,
    fun h => filled_values h (by exact he) p, rfl, rfl, rfl, hp.trans (finished_put_done rfl r.legs), rfl,
    fun j hj => Sparse.get_put_ne _ _ hj, rfl, rfl, rfl⟩

end Sys2Proof.Machine
end

section
/-!
SUPPORT. An attempt that is no success (R72 to R76, R82, R83, R100, R107): the work kept for another attempt, and the
work that ends FAILED with its station other than OFFLINE. What the owner of a failed leg does is
`legFailure_taken`.
-/

namespace Sys2Proof.Machine

/-! ## What follows the attempt (R74, R75) -/

section told

variable {s : State} {l : LineNo} {w : Work} {res : AttemptResult}

theorem told_workAttempts (s : State) (l : LineNo) (w : Work) (res : AttemptResult) :
    (s.told l w res).workAttempts w = s.workAttempts w := by
  cases w <;> rfl

/-- A failed attempt with attempts remaining leaves the line its work, in GUARD. -/
theorem attemptEnd_keeps (hc : (s.lines.get l).current = some w) (hp : w.isProbe = false)
    (hres : res = .timeout ∨ res = .lineError) (hon : s.drivesOffline l (s.workStation w) = false)
    (hleft : s.workAttempts w ≤ (s.settings l).retryLimit) :
    s.attemptEnd l res = (s.told l w res).enterGuard l := by
  have hmore : ¬ ((s.told l w res).settings l).retryLimit + 1 ≤ (s.told l w res).workAttempts w := by
    rw [told_workAttempts]
    exact Nat.not_le.2 (Nat.lt_succ_of_le hleft)
  rw [attemptEnd_work hc hp, hon, Bool.and_false]
  obtain rfl | rfl := hres <;>
    simp only [State.afterAttempt, hmore, decide_false, Bool.false_eq_true, if_false]

/-- A remote fault, or the last permitted attempt, ends the work. -/
theorem attemptEnd_ends (hc : (s.lines.get l).current = some w) (hp : w.isProbe = false)
    (he : s.endsFailed l w res) :
    s.attemptEnd l res = ((s.told l w res).finishWork l w res.outcome).drainTest := by
  have hlast (h : (s.settings l).retryLimit + 1 ≤ s.workAttempts w) :
      ((s.told l w res).settings l).retryLimit + 1 ≤ (s.told l w res).workAttempts w := by
    rw [told_workAttempts]
    exact h
  rw [attemptEnd_work hc hp]
  cases res with
  | success v => exact he.elim
  | remoteFault code => rfl
  | busy => simp only [State.afterAttempt, hlast he, decide_true, if_true]
  | lineError | timeout =>
    obtain ⟨hexhausted, hon⟩ := he
    simp only [State.afterAttempt, hon, Bool.and_false, Bool.false_eq_true, if_false,
      hlast hexhausted, decide_true, if_true]

end told

/-- The line at the end of an attempt, its result counted and its guard time run from now. -/
def Line.attempted (n : Line) (r : LineSettings) (now : Uptime) (res : AttemptResult) : Line :=
  { n.rested r now with counters := countResult res n.counters }

theorem told_enterGuard (s : State) (l : LineNo) (w : Work) (res : AttemptResult) :
    (s.told l w res).enterGuard l = { s.told l w res with
      lines := s.lines.set l ((s.lines.get l).attempted (s.settings l) s.uptime res) } := by
  simp only [State.enterGuard, State.modLine, State.told, Four.get_set_same, Four.set_set]
  rfl

/-- A scan fetch that ends FAILED counts a failure and waits, its cells as they were (R100). -/
theorem finishWork_scan_failed {s : State} {l : LineNo} {i : Nat} {res : AttemptResult}
    (hno : ∀ v, res ≠ .success v) :
    (s.told l (.scan i) res).finishWork l (.scan i) res.outcome = { s.told l (.scan i) res with
      lines := s.lines.set l
        { (s.lines.get l).attempted (s.settings l) s.uptime res with current := none }
      scans := s.scans.modify i (fun x =>
        { x with state := .waiting, failures := satInc x.failures }) } := by
  obtain ⟨remote, hout, -⟩ := ended_failed default res hno
  simp only [State.finishWork, dropWork_scan, hout, State.handOver, State.scanFailed, State.modScan,
    State.told, Four.get_set_same, Four.set_set]
  rfl

/-- The state in which the owner of a leg takes its failure, an attempt of any result but success having ended it
(R43, R74, R76, R107). -/
def State.legFailed (s : State) (l : LineNo) (i : Nat) (g : Leg) (res : AttemptResult)
    (mirror : Sparse MirrorCell) : State := { s.told l (.leg i) res with
  lines := s.lines.set l { (s.lines.get l).attempted (s.settings l) s.uptime res with
    current := none
    counters := { countResult res (s.lines.get l).counters with
      legsServed := satInc (s.lines.get l).counters.legsServed } }
  legs := s.legs.put i (g.endedFailed res)
  mirror := mirror }

theorem countResult_legsServed (res : AttemptResult) (c : LineCounters) :
    (countResult res c).legsServed = c.legsServed := by
  cases res <;> rfl

/-- A leg ends FAILED on its line: the line, the record and the mirror take the end, and so does the owner. -/
theorem finishWork_leg_failed {s : State} {i : Nat} {g : Leg} {res : AttemptResult} (l : LineNo)
    (hg : s.legs.get i = some g) (hno : ∀ v, res ≠ .success v) :
    ∃ mirror, (∀ a, Sparse.read blankCell mirror a =
        if (s.legCell g).any (fun b => (g.endedFailed res).uncertain &&
          decide (b ≤ a) && decide (a < b + g.count)) then { s.cell a with valid := false }
        else s.cell a) ∧
      (s.told l (.leg i) res).finishWork l (.leg i) res.outcome =
        (s.legFailed l i g res mirror).legFailure (g.endedFailed res) res.fate.1 := by
  obtain ⟨mirror, hcell, hend⟩ :=
    legEnd_failed (u := (s.told l (.leg i) res).dropWork l (.leg i)) (i := i) (res := res)
      (by rw [dropWork_leg]; exact hg) hno
  refine ⟨mirror, ?_, hend.trans ?_⟩
  · rw [dropWork_leg] at hcell
    exact hcell
  · rw [dropWork_leg]
    simp only [State.told, Four.get_set_same, Four.set_set, countResult_legsServed]
    rfl

theorem legFailed_requestLaw {s : State} (h : RequestLaw s) {l : LineNo} {i : Nat} {g : Leg}
    {res : AttemptResult} {mirror : Sparse MirrorCell} (hg : s.legs.get i = some g) :
    RequestLaw (s.legFailed l i g res mirror) :=
  (h.putLeg (x := g.endedFailed res) hg rfl).congr rfl rfl

/-! ## What a station record takes (R82, R83, R87, R88) -/

theorem failedAttempt_suspect {x : StationRecord} {r : LineSettings} (now : Uptime)
    (h : x.failures + 1 < r.offlineThreshold) :
    x.failedAttempt now r = { x with health := .suspect, failures := x.failures + 1 } := by
  simp only [StationRecord.failedAttempt, h, if_true]

theorem failedAttempt_offline {x : StationRecord} {r : LineSettings} (now : Uptime)
    (h : r.offlineThreshold ≤ x.failures + 1) :
    x.failedAttempt now r = { x with
      health := .offline
      failures := x.failures + 1
      probe := .waiting (after now r.probeInterval) } := by
  simp only [StationRecord.failedAttempt, Nat.not_lt.2 h, if_false]

/-- Settles O29: the attempt is counted and told, and its work kept or ended, as `attemptEnd_keeps` and
`attemptEnd_ends` say. -/
theorem failedAttemptKeepsTheWork : Obligations.FailedAttemptKeepsTheWork := by
  refine ⟨fun s l w c res hf hp => ?_, fun x now r => ⟨rfl, failedAttempt_suspect now,
    failedAttempt_offline now, fun h => if_pos h, fun h => if_neg h⟩⟩
  intro n line stations
  obtain ⟨hexec, hcurrent, hno⟩ := hf.exec
  have hline : line = n.attempted (s.settings l) s.uptime res := by
    cases res <;> rfl
  refine ⟨fun hres hon hleft => ?keeps, fun he => ⟨fun i hw => ?scan,
    fun i g k r law hw hg hk hr ha => ?leg⟩⟩
  case keeps => rw [hexec, attemptEnd_keeps hcurrent hp hres hon hleft, told_enterGuard, hline]; rfl
  case scan =>
    subst hw
    rw [hexec, attemptEnd_ends hcurrent hp he, finishWork_scan_failed hno, hline]
    rfl
  case leg =>
    subst hw hk
    obtain ⟨mirror, hcell, hfinish⟩ := finishWork_leg_failed l hg hno
    have owns := (legFailed_requestLaw (l := l) (res := res) (mirror := mirror) law hg).owns hr
    have taken := legFailure_taken (g := g.endedFailed res) res.fate.1 owns ha
    refine ⟨(s.legFailed l i g res mirror).legFailure (g.endedFailed res) res.fate.1, mirror, ?_, ?_, ?_⟩
    · rw [hexec, attemptEnd_ends hcurrent hp he, hfinish]
    · rw [hline]; exact taken
    · obtain ⟨q, -, hframe, -⟩ := taken
      intro a
      rw [hframe]
      exact hcell a

end Sys2Proof.Machine
end

section
/-!
SUPPORT. The attempt that drives a station OFFLINE (R46, R74, R83 to R85, R100, R107): the end of the work in
flight, the failures that its owner and the owners of the QUEUED legs to the station take in one event, and the
station's scan entries and cells. `Swept`, `Culls` and `RepliesInOrder` say what those failures do.
-/

namespace Sys2Proof.Machine

/-! ## The work in flight ends FAILED (R43, R100) -/

/-- What the end of the work in flight offers: the failure of its leg. -/
def State.flightOffers (s : State) (w : Work) (res : AttemptResult) : List Offer :=
  match w with
  | .leg i => (s.legs.get i).toList.map (fun g => (g.endedFailed res, res.fate.1))
  | _ => []

/-- The owners of failed legs take the failures in order. -/
def State.takeFailures (s : State) (events : List Offer) : State :=
  events.foldl (fun t e => t.legFailure e.1 e.2) s

/-- The line's side of the end of its work with an attempt's result (R74, R76, R79). -/
def Line.relieved (n : Line) (r : LineSettings) (now : Uptime) (w : Work) (res : AttemptResult) : Line :=
  { n.attempted r now res with
    current := none
    counters := match w with
      | .leg _ => { countResult res n.counters with legsServed := satInc n.counters.legsServed }
      | _ => countResult res n.counters }

/-- A cell bound to the leg in flight that its end leaves UNCERTAIN (R107). -/
def State.uncertainCell (s : State) (w : Work) (res : AttemptResult) (a : Nat) : Prop :=
  ∃ i g b, w = .leg i ∧ s.legs.get i = some g ∧ (g.endedFailed res).uncertain = true ∧
    s.legCell g = some b ∧ b ≤ a ∧ a < b + g.count

/-- `u` is `s` with the work in flight ended FAILED by an attempt's result, its owner's side not yet taken. -/
structure Downed (s : State) (l : LineNo) (w : Work) (res : AttemptResult) (u : State) : Prop where
  frame : u = { s.told l w res with
    lines := s.lines.set l ((s.lines.get l).relieved (s.settings l) s.uptime w res)
    legs := u.legs
    scans := u.scans
    mirror := u.mirror }
  legs : ∀ i, u.legs.get i =
    if w = .leg i then (s.legs.get i).map (fun g => g.endedFailed res) else s.legs.get i
  scans : ∀ i, u.scans.get i = (s.scans.get i).map (fun y =>
    if w = .scan i then { y with state := .waiting, failures := satInc y.failures } else y)
  cells : ∀ a, (s.uncertainCell w res a → u.cell a = { s.cell a with valid := false }) ∧
    (¬s.uncertainCell w res a → u.cell a = s.cell a)

section downed

variable {s : State} {l : LineNo} {w : Work} {res : AttemptResult}

theorem downed_scan (s : State) (l : LineNo) (i : Nat) (res : AttemptResult) :
    Downed s l (.scan i) res { s.told l (.scan i) res with
      lines := s.lines.set l
        { (s.lines.get l).attempted (s.settings l) s.uptime res with current := none }
      scans := s.scans.modify i (fun x =>
        { x with state := .waiting, failures := satInc x.failures }) } where
  frame := rfl
  legs _ := rfl
  scans j := by
    by_cases h : j = i
    · simp [Sparse.get_modify, h]
    · simp [Sparse.get_modify, h, Ne.symm h]
  cells a := ⟨fun ⟨_, _, _, h, _⟩ => (nomatch h), fun _ => rfl⟩

/-- A line whose current work is a record that holds no leg drops it all the same. -/
theorem downed_free {i : Nat} (l : LineNo) (h : s.legs.get i = none) (res : AttemptResult) :
    Downed s l (.leg i) res ((s.told l (.leg i) res).dropWork l (.leg i)) where
  frame := by
    simp only [dropWork_leg, State.told, Four.get_set_same, Four.set_set, countResult_legsServed]
    rfl
  legs j := by
    rw [dropWork_leg]
    by_cases hj : Work.leg i = .leg j
    · cases hj
      rw [if_pos rfl, h]
      exact h
    · exact (if_neg hj).symm
  scans j := by simp [dropWork_leg, State.told]
  cells a := by
    refine ⟨fun ⟨j, g, b, hj, hg, _⟩ => ?_, fun _ => rfl⟩
    cases hj
    rw [h] at hg
    cases hg

theorem downed_leg {i : Nat} {g : Leg} (l : LineNo) (hg : s.legs.get i = some g)
    {mirror : Sparse MirrorCell} (hcell : ∀ a, Sparse.read blankCell mirror a =
        if (s.legCell g).any (fun b => (g.endedFailed res).uncertain &&
          decide (b ≤ a) && decide (a < b + g.count)) then { s.cell a with valid := false }
        else s.cell a) : Downed s l (.leg i) res (s.legFailed l i g res mirror) where
  frame := rfl
  legs j := by
    refine (Sparse.get_put i j _ _).trans ?_
    by_cases hj : j = i
    · simp [hj, hg]
    · simp [hj, Ne.symm hj]
  scans j := by simp [State.legFailed, State.told]
  cells a := by
    have hiff : s.uncertainCell (.leg i) res a ↔ (s.legCell g).any (fun b =>
        (g.endedFailed res).uncertain && decide (b ≤ a) && decide (a < b + g.count)) = true := by
      simp only [State.uncertainCell, Option.any_eq_true, Bool.and_eq_true, decide_eq_true_eq]
      constructor
      · rintro ⟨j, x, b, hj, hx, hu, hb, hlow, hhigh⟩
        cases hj
        rw [hg] at hx
        cases hx
        exact ⟨b, hb, ⟨hu, hlow⟩, hhigh⟩
      · rintro ⟨b, hb, ⟨hu, hlow⟩, hhigh⟩
        exact ⟨i, g, b, rfl, hg, hu, hb, hlow, hhigh⟩
    rw [hiff]
    exact ⟨fun h => (hcell a).trans (if_pos h), fun h => (hcell a).trans (if_neg h)⟩

/-- The end of the work, with its owner's side. -/
theorem finishWork_downed (l : LineNo) (hp : w.isProbe = false) (hno : ∀ v, res ≠ .success v) :
    ∃ u, Downed s l w res u ∧ (s.told l w res).finishWork l w res.outcome =
      u.takeFailures (s.flightOffers w res) := by
  cases w with
  | probe => cases hp
  | scan i => exact ⟨_, downed_scan s l i res, finishWork_scan_failed hno⟩
  | leg i =>
    cases hg : s.legs.get i with
    | none =>
      refine ⟨_, downed_free l hg res, ?_⟩
      have hnone : ((s.told l (.leg i) res).dropWork l (.leg i)).legs.get i = none := by
        rw [dropWork_leg]; exact hg
      simp only [State.finishWork, State.handOver, State.legEnd, hnone, State.flightOffers, hg,
        Option.toList_none, List.map_nil, State.takeFailures, List.foldl_nil]
    | some g =>
      obtain ⟨mirror, hcell, hfinish⟩ := finishWork_leg_failed l hg hno
      refine ⟨_, downed_leg l hg hcell, ?_⟩
      simp only [hfinish, State.flightOffers, hg, Option.toList_some, List.map_cons, List.map_nil,
        State.takeFailures, List.foldl_cons, List.foldl_nil]

/-- A failed attempt at the threshold ends its work and sweeps its station (R83, R84). -/
theorem attemptEnd_offline (hc : (s.lines.get l).current = some w) (hp : w.isProbe = false)
    (hres : res = .timeout ∨ res = .lineError) (hoff : s.drivesOffline l (s.workStation w) = true) :
    s.attemptEnd l res = (((s.told l w res).finishWork l w res.outcome).offlineSweep l
      (s.workStation w)).drainTest := by
  rw [attemptEnd_work hc hp, hoff]
  obtain rfl | rfl := hres <;> rfl

end downed

/-! ## What the failures leave alone, in any state -/

theorem Culls.takeFailures (events : List Offer) : ∀ s : State, Culls s (s.takeFailures events) := by
  induction events with
  | nil => exact Culls.refl
  | cons e events ih => exact fun s => (Culls.legFailure s e.1 e.2).trans (ih _)

theorem Culls.failStationLegs (s : State) (l : LineNo) (station : Nat) :
    Culls s (s.failStationLegs l station) :=
  Culls.foldl _ s

/-- No leg to the station waits in the line's queue after the sweep. -/
theorem failStationLegs_not_queued {s : State} {l : LineNo} {station i : Nat} {g : Leg}
    (hi : i ∈ ((s.failStationLegs l station).lines.get l).demand)
    (hg : (s.failStationLegs l station).legs.get i = some g) (hs : g.station = station) :
    g.state ≠ .queued := by
  intro hq
  have culls := Culls.failStationLegs s l station
  obtain ⟨-, hsub⟩ := culls.line l
  have hto : s.legTo station i = true := by
    simp [State.legTo, culls.queued i g hg hq, hs]
  exact foldl_failQueued_not_queued _ s (List.mem_filter.2 ⟨hsub.subset hi, hto⟩) hg hq

/-! ## The rest of the OFFLINE transition (R85) -/

/-- A mirror cell of a scan region of the station (R85). -/
def State.regionCell (s : State) (l : LineNo) (station a : Nat) : Prop :=
  ∃ i e, (i, e) ∈ s.active.scan ∧ e.line = l ∧ e.station = station ∧
    e.mirrorBase ≤ a ∧ a < e.mirrorBase + e.count

/-- Behind the failures of the QUEUED legs the sweep withdraws the station's scan entries and marks its cells
invalid. -/
theorem offlineSweep_spec (s : State) (l : LineNo) (station : Nat) :
    let u := s.failStationLegs l station
    ∃ scans mirror, s.offlineSweep l station = { u with
        lines := u.lines.set l { u.lines.get l with
          scans := (u.lines.get l).scans.filter (fun i => !u.scanOf l station i) }
        scans := scans
        mirror := mirror } ∧
      (∀ i, scans.get i = (u.scans.get i).map (fun y =>
        if i ∈ (u.lines.get l).scans ∧ u.scanOf l station i = true then { y with state := .waiting }
        else y)) ∧
      ∀ a, (u.regionCell l station a → mirror.read blankCell a = { u.cell a with valid := false }) ∧
        (¬u.regionCell l station a → mirror.read blankCell a = u.cell a) := by
  intro u
  obtain ⟨scans, hwithdrawn, hscans⟩ := withdrawScans_spec u l station
  obtain ⟨⟨mirror, hinvalid⟩, hcells⟩ := invalidateStation_spec (u.withdrawScans l station) l station
  refine ⟨scans, mirror, ?_, hscans, fun a => ?_⟩
  · show (u.withdrawScans l station).invalidateStation l station = _
    rw [hinvalid, hwithdrawn]
  · have ha := hcells a
    rw [hinvalid, hwithdrawn] at ha
    exact ha

/-! ## Station records (R83) -/

theorem record_modRecord_other (s : State) {l m : LineNo} {station y : Nat} (h : m ≠ l ∨ y ≠ station)
    {g : StationRecord → StationRecord} (hg : ∀ r, (g r).station = r.station) :
    (s.modRecord l station g).record m y = s.record m y := by
  by_cases hm : m = l
  · subst hm
    have hy : y ≠ station := h.resolve_left (fun hne => hne rfl)
    simp only [State.record, State.modRecord, Four.get_set_same]
    induction s.stations.get m with
    | nil => rfl
    | cons r records ih =>
      by_cases hr : r.station = station
      · simpa [hr, hg, hy.symm] using ih
      · by_cases hry : r.station = y
        · simp [hry, hy]
        · simpa [hr, hry] using ih
  · simp only [State.record, State.modRecord, Four.get_set_ne _ _ hm]

theorem told_record {s : State} {l : LineNo} {w : Work} {res : AttemptResult}
    (hres : res = .timeout ∨ res = .lineError) (m : LineNo) (y : Nat) :
    (s.told l w res).record m y = (s.modRecord l (s.workStation w)
      (StationRecord.failedAttempt s.uptime (s.settings l))).record m y := by
  simp only [State.record, State.told, State.modRecord, hres, if_true]

end Sys2Proof.Machine
end

section
/-!
SUPPORT. The failures of an OFFLINE transition under the law of the request table (R44, R46, R48, R52, R56): which
legs fail in it and in what order, what their owners offer, and where their replies join.
-/

namespace Sys2Proof.Machine

/-- A leg that is QUEUED to a station as its work in flight ends (R46). -/
def State.struck (s : State) (w : Work) (station i : Nat) : Bool :=
  decide (w ≠ .leg i) && (s.legs.get i).any (fun h =>
    decide (h.state = .queued) && decide (h.station = station))

/-- The legs that wait in the line's queue for the station of its work in flight, in queue order. -/
def State.struckOn (s : State) (l : LineNo) (w : Work) : List Nat :=
  (s.lines.get l).demand.filter (s.struck w (s.workStation w))

/-- One of those legs that is QUEUED in `v` still. -/
def State.struckStill (s v : State) (w : Work) (i : Nat) : Bool :=
  s.struck w (s.workStation w) i && (v.legs.get i).any (fun g => decide (g.state = .queued))

theorem struck_iff {s : State} {w : Work} {station i : Nat} : s.struck w station i = true ↔
    w ≠ .leg i ∧ ∃ h, s.legs.get i = some h ∧ h.state = .queued ∧ h.station = station := by
  simp only [State.struck, Bool.and_eq_true, decide_eq_true_eq, Option.any_eq_true]

theorem mem_struckOn {s : State} {l : LineNo} {w : Work} {i : Nat} : i ∈ s.struckOn l w ↔
    i ∈ (s.lines.get l).demand ∧ s.struck w (s.workStation w) i = true :=
  List.mem_filter

theorem flightOffers_cases (s : State) (w : Work) (res : AttemptResult) :
    s.flightOffers w res = [] ∨ ∃ i g, w = .leg i ∧ s.legs.get i = some g ∧
      s.flightOffers w res = [(g.endedFailed res, res.fate.1)] := by
  cases w with
  | scan | probe => exact .inl rfl
  | leg i =>
    cases hg : s.legs.get i with
    | none => exact .inl (by simp [State.flightOffers, hg])
    | some g => exact .inr ⟨i, g, rfl, hg, by simp [State.flightOffers, hg]⟩

theorem takeFailures_within {i : Nat} {x : Leg} (events : List Offer) (s : State) :
    (s.takeFailures events).legs.get i = some x → s.legs.get i = some x := by
  induction events generalizing s with
  | nil => exact id
  | cons e events ih => exact fun h => legFailure_within s e.1 e.2 i x (ih _ h)

theorem failedOffline_ne {h : Leg} (hq : h.state = .queued) : h ≠ h.failedOffline := by
  intro e
  rw [e] at hq
  cases hq

theorem mem_flightOffers {s : State} {w : Work} {res : AttemptResult} {e : Offer}
    (h : e ∈ s.flightOffers w res) :
    ∃ i g, w = .leg i ∧ s.legs.get i = some g ∧ e = (g.endedFailed res, res.fate.1) := by
  rcases flightOffers_cases s w res with h0 | ⟨i, g, hw, hg, h1⟩
  · rw [h0] at h
    cases h
  · rw [h1] at h
    exact ⟨i, g, hw, hg, List.mem_singleton.1 h⟩

theorem mem_offersOf {s : State} {ids : List Nat} {e : Offer} (h : e ∈ offersOf s ids) :
    ∃ i ∈ ids, ∃ g, s.legs.get i = some g ∧ e = (g.failedOffline, .stationOffline) := by
  obtain ⟨g, hg, he⟩ := List.mem_map.1 h
  obtain ⟨i, hi, hig⟩ := List.mem_filterMap.1 hg
  exact ⟨i, hi, g, hig, he.symm⟩

/-! ## The state before the owners' side -/

section before

variable {s u : State} {l : LineNo} {w : Work} {res : AttemptResult} (d : Downed s l w res u)

include d

theorem Downed.slots : u.slots = s.slots := by rw [d.frame]; rfl

theorem Downed.txQueue : u.txQueue = s.txQueue := by rw [d.frame]; rfl

theorem Downed.demand : (u.lines.get l).demand = (s.lines.get l).demand := by
  rw [d.frame]
  simp only [Four.get_set_same]
  rfl

theorem Downed.leg_other {i : Nat} (h : w ≠ .leg i) : u.legs.get i = s.legs.get i := by
  rw [d.legs, if_neg h]

theorem Downed.owner (i : Nat) : (u.legs.get i).map Leg.owner = (s.legs.get i).map Leg.owner := by
  rw [d.legs]
  split
  · rw [Option.map_map]; rfl
  · rfl

theorem Downed.owned (law : RequestLaw s) (i : Nat) (g : Leg) (hg : u.legs.get i = some g) :
    ∃ r, u.slots.get g.owner = some r ∧ i ∈ r.legs := by
  have howner := d.owner i
  rw [hg, Option.map_some, eq_comm, Option.map_eq_some_iff] at howner
  obtain ⟨x, hx, ho⟩ := howner
  rw [d.slots, ← ho]
  exact law.owned i x hx

theorem Downed.listed (law : RequestLaw s) (k : Nat) (r : Request) (hr : u.slots.get k = some r)
    (i : Nat) (hi : i ∈ r.legs) : ∃ g, u.legs.get i = some g ∧ g.owner = k := by
  rw [d.slots] at hr
  obtain ⟨-, hlisted⟩ := law.listed k r hr
  obtain ⟨x, hx, ho⟩ := hlisted i hi
  have howner := d.owner i
  rw [hx, Option.map_some, Option.map_eq_some_iff, ho] at howner
  exact howner

/-- The failure of the leg in flight, if the work is one, is the first of the event. -/
theorem Downed.swept (law : RequestLaw s) :
    Swept u (u.takeFailures (s.flightOffers w res)) (s.flightOffers w res) ∧
      RepliesInOrder u (u.takeFailures (s.flightOffers w res))
        ((s.flightOffers w res).map (fun e => e.1.owner)) := by
  have hrefl := Swept.refl (d.owned law) (d.listed law)
  rcases flightOffers_cases s w res with h | ⟨i, g, hw, hg, h⟩
  · rw [h]
    exact ⟨hrefl, RepliesInOrder.refl u⟩
  · rw [h]
    have hu : u.legs.get i = some (g.endedFailed res) := by rw [d.legs, if_pos hw, hg]; rfl
    have hput : ∀ j, u.legs.get j = if j = i then some (g.endedFailed res) else u.legs.get j := by
      intro j
      split
      · next hj => rw [hj, hu]
      · rfl
    obtain ⟨hswept, -⟩ := hrefl.step (t1 := u) (st := res.fate.1) rfl hput
      (fun _ => ⟨rfl, List.Sublist.refl _⟩) hu rfl rfl (.inl ⟨rfl, rfl⟩)
    exact ⟨hswept, (RepliesInOrder.refl u).step hrefl res.fate.1 rfl rfl hput hu rfl (.inl rfl)⟩

/-- What the queue has lost to the failure of the leg in flight is out of the pool. -/
theorem Downed.kept (law : RequestLaw s) : ∃ keep : Nat → Bool,
    ((u.takeFailures (s.flightOffers w res)).lines.get l).demand =
      (s.lines.get l).demand.filter keep ∧
    ∀ i, keep i = false → (u.takeFailures (s.flightOffers w res)).legs.get i = none := by
  rcases flightOffers_cases s w res with h | ⟨i, g, hw, hg, h⟩
  · rw [h]
    exact ⟨fun _ => true, by rw [List.filter_true]; exact d.demand, fun _ h => nomatch h⟩
  · rw [h]
    have hu : u.legs.get i = some (g.endedFailed res) := by rw [d.legs, if_pos hw, hg]; rfl
    obtain ⟨r, hr, hi⟩ := d.owned law i _ hu
    have owns : Owns u (g.endedFailed res).owner r := by
      refine ⟨hr, fun j x hx ho => ?_, d.listed law _ r hr⟩
      obtain ⟨q, hq, hj⟩ := d.owned law j x hx
      rw [ho, hr] at hq
      cases hq
      exact hj
    obtain ⟨-, -, -, -, -, hlegs, hlines, -, -⟩ := legFailure_spec res.fate.1 owns
    refine ⟨_, (congrArg Line.demand (hlines l)).trans (by rw [d.demand]), fun j hj => ?_⟩
    simp only [Bool.not_eq_false', Bool.and_eq_true] at hj
    exact (hlegs j).trans (if_pos hj.1)

/-- Of the legs that the sweep takes from the queue and of those that were QUEUED to the station before, the same
are QUEUED still, in the same order. -/
theorem Downed.sweep_eq (law : RequestLaw s) :
    (u.takeFailures (s.flightOffers w res)).failStationLegs l (s.workStation w) =
      (s.struckOn l w).foldl State.failQueued (u.takeFailures (s.flightOffers w res)) := by
  obtain ⟨hswept, -⟩ := d.swept law
  obtain ⟨keep, hdemand, hkeep⟩ := d.kept law
  have culls : Culls u _ := Culls.takeFailures (s.flightOffers w res) u
  have hflight : ∀ i g, w = .leg i → u.legs.get i = some g → g.state ≠ .queued := by
    intro i g hw hg hq
    rw [d.legs, if_pos hw, Option.map_eq_some_iff] at hg
    obtain ⟨x, -, rfl⟩ := hg
    cases hq
  generalize u.takeFailures (s.flightOffers w res) = v at hswept hdemand hkeep culls
  have hlive : ∀ i g, v.legs.get i = some g → g.state = .queued → g.station = s.workStation w →
      s.struckStill v w i = true := by
    intro i g hg hq hs
    have hu := culls.queued i g hg hq
    have hw : w ≠ .leg i := fun hw => hflight i g hw hu hq
    simp only [State.struckStill, Bool.and_eq_true, struck_iff]
    exact ⟨⟨hw, g, by rw [← d.leg_other hw, hu], hq, hs⟩, by simp [hg, hq]⟩
  have hstruck : ∀ i g, s.struck w (s.workStation w) i = true → v.legs.get i = some g →
      g.state = .queued → g.station = s.workStation w := by
    intro i g hi hg hq
    obtain ⟨hw, h, hh, -, hs⟩ := struck_iff.1 hi
    have hu := culls.queued i g hg hq
    rw [d.leg_other hw, hh] at hu
    cases hu
    exact hs
  unfold State.failStationLegs State.struckOn
  rw [foldl_failQueued_filter (s.struckStill v w) _ v hswept.owned hswept.listed,
    foldl_failQueued_filter (s.struckStill v w) ((s.lines.get l).demand.filter _) v hswept.owned hswept.listed,
    hdemand, List.filter_filter, List.filter_filter, List.filter_filter]
  · congr 1
    refine List.filter_congr fun i _ => ?_
    cases hi : s.struckStill v w i with
    | false => simp
    | true =>
      simp only [State.struckStill, Bool.and_eq_true, Option.any_eq_true, decide_eq_true_eq] at hi
      obtain ⟨hi, g, hg, hq⟩ := hi
      have hk : keep i = true := by
        by_contra hk
        rw [hkeep i (by simpa using hk)] at hg
        cases hg
      simp [State.legTo, hg, hstruck i g hi hg hq, hk, hi]
  · intro i hi hdead g hg hq
    have hs := hstruck i g (List.mem_filter.1 hi).2 hg hq
    rw [hlive i g hg hq hs] at hdead
    cases hdead
  · intro i hi hdead g hg hq
    have hs : g.station = s.workStation w := by
      simpa [State.legTo, hg] using (List.mem_filter.1 hi).2
    rw [hlive i g hg hq hs] at hdead
    cases hdead

theorem Downed.struckOn_queued {i : Nat} (hi : i ∈ s.struckOn l w) :
    ∃ h, u.legs.get i = some h ∧ s.legs.get i = some h ∧ h.state = .queued := by
  obtain ⟨hw, h, hh, hq, -⟩ := struck_iff.1 (mem_struckOn.1 hi).2
  exact ⟨h, by rw [d.leg_other hw, hh], hh, hq⟩

theorem Downed.offersOf_eq {ids : List Nat} (h : ∀ i ∈ ids, w ≠ .leg i) :
    offersOf u ids = offersOf s ids := by
  unfold offersOf
  rw [List.filterMap_congr fun i hi => d.leg_other (h i hi)]

end before

/-- The failures that an OFFLINE transition offers, in their order (R44, R84). -/
def State.offlineOffers (s : State) (l : LineNo) (w : Work) (res : AttemptResult) : List Offer :=
  s.flightOffers w res ++ offersOf s (s.struckOn l w)

section swept

variable {s u : State} {l : LineNo} {w : Work} {res : AttemptResult} (d : Downed s l w res u)
  (law : RequestLaw s)

include d law

/-- The whole run of failures. -/
theorem Downed.swept_all :
    Swept u ((u.takeFailures (s.flightOffers w res)).failStationLegs l (s.workStation w))
      (s.offlineOffers l w res) := by
  obtain ⟨hswept, -⟩ := d.swept law
  rw [d.sweep_eq law, State.offlineOffers,
    ← d.offersOf_eq fun i hi => (struck_iff.1 (mem_struckOn.1 hi).2).1]
  refine hswept.sweep _ fun i hi => ?_
  obtain ⟨h, hu, -, hq⟩ := d.struckOn_queued hi
  exact ⟨h, hu, hq⟩

/-- The replies of the requests that complete in it follow the legs that fail (R56). -/
theorem Downed.replies_all :
    let t := (u.takeFailures (s.flightOffers w res)).failStationLegs l (s.workStation w)
    RepliesInOrder u t ((s.flightOffers w res).map (fun e => e.1.owner) ++
      ((s.struckOn l w).eraseDups.filter (fun i => (t.legs.get i).isSome)).filterMap
        (fun i => (s.legs.get i).map Leg.owner)) := by
  obtain ⟨hswept, hreplies⟩ := d.swept law
  intro t
  have ht : t = (s.struckOn l w).eraseDups.foldl State.failQueued
      (u.takeFailures (s.flightOffers w res)) :=
    (d.sweep_eq law).trans (foldl_failQueued_eraseDups _ _ hswept.owned hswept.listed)
  have howner : (fun i => (s.legs.get i).map Leg.owner) = fun i => (u.legs.get i).map Leg.owner :=
    funext fun i => (d.owner i).symm
  rw [howner, ht]
  refine hreplies.sweep _ hswept (nodup_eraseDups _) fun i hi => ?_
  obtain ⟨h, hu, -, hq⟩ := d.struckOn_queued (List.mem_eraseDups.1 hi)
  refine ⟨h, hu, hq, fun hf => failedOffline_ne hq ?_⟩
  have hwas := takeFailures_within _ _ hf
  rw [hu] at hwas
  exact Option.some.inj hwas

/-- The state once every leg that fails in the transition has failed. -/
def State.offlineDone (s u : State) (l : LineNo) (w : Work) (res : AttemptResult) : State :=
  (u.takeFailures (s.flightOffers w res)).failStationLegs l (s.workStation w)

/-- A QUEUED leg to the station fails STATION_OFFLINE when no failure of its request before it in the event is a
lower one (R46, R48). -/
theorem Downed.fails_of_lowest {before after : List Nat} {i : Nat} {h : Leg}
    (hn : (s.lines.get l).demand = before ++ i :: after) (hi : s.struck w (s.workStation w) i = true)
    (hh : s.legs.get i = some h)
    (hlow : ∀ j g, w = .leg j ∨ j ∈ before → s.legs.get j = some g → g.owner = h.owner →
      h.position ≤ g.position) :
    (s.offlineDone u l w res).legs.get i = some h.failedOffline := by
  obtain ⟨hswept, -⟩ := d.swept law
  have hsplit : s.struckOn l w = before.filter (s.struck w (s.workStation w)) ++
      i :: after.filter (s.struck w (s.workStation w)) := by
    rw [State.struckOn, hn, List.filter_append, List.filter_cons, if_pos hi]
  have hqueued {j : Nat} (hj : j ∈ before.filter (s.struck w (s.workStation w))) :=
    d.struckOn_queued (l := l) (i := j) (by rw [hsplit]; exact List.mem_append_left _ hj)
  obtain ⟨x, hu, hx, hq⟩ := d.struckOn_queued (l := l) (i := i) (by rw [hsplit]; simp)
  rw [hh] at hx
  cases hx
  have hbefore := hswept.sweep _ fun j hj => by
    obtain ⟨g, hg, -, hgq⟩ := hqueued hj
    exact ⟨g, hg, hgq⟩
  obtain ⟨-, -, hfails⟩ := hbefore.failQueued hu hq
  rw [State.offlineDone, d.sweep_eq law, hsplit, List.foldl_append, List.foldl_cons]
  refine (Culls.foldl _ _).failed i _ (hfails fun e he ho => ?_) rfl
  rcases List.mem_append.1 he with he | he
  · obtain ⟨j, g, hw, hg, rfl⟩ := mem_flightOffers he
    exact hlow j g (.inl hw) hg ho
  · obtain ⟨j, hj, g, hg, rfl⟩ := mem_offersOf he
    obtain ⟨y, hy, hsy, -⟩ := hqueued hj
    obtain rfl : y = g := Option.some.inj (hy.symm.trans hg)
    exact hlow j y (.inr (List.mem_filter.1 hj).1) hsy ho

/-- A QUEUED leg to the station has failed, or a lower failure of its request has cancelled it (R46, R48). -/
theorem Downed.struck_fate {i : Nat} {h : Leg} (hi : i ∈ s.struckOn l w) (hh : s.legs.get i = some h) :
    (s.offlineDone u l w res).legs.get i = some h.failedOffline ∨
      ((s.offlineDone u l w res).legs.get i = none ∧ ∃ q y,
        (s.offlineDone u l w res).slots.get h.owner = some q ∧ q.failure = some y ∧
          y.position < h.position) := by
  obtain ⟨x, hu, hx, hq⟩ := d.struckOn_queued hi
  rw [hh] at hx
  cases hx
  have hswept : Swept u (s.offlineDone u l w res) _ := d.swept_all law
  rcases hswept.leg i h hu with hstays | ⟨hfailed, -⟩ | ⟨hgone, -, -, hlower⟩
  · rw [State.offlineDone, d.sweep_eq law] at hstays
    exact absurd hq (foldl_failQueued_not_queued _ _ hi hstays)
  · exact .inl hfailed
  · obtain ⟨e, he, ho, hpos⟩ := hlower hq
    obtain ⟨r, hr, -⟩ := d.owned law i h hu
    obtain ⟨q, hqs, -, hqf, -⟩ := hswept.slot _ r hr
    have hentry : r.entryOf e.1 e.2 ∈ entriesOf h.owner r (s.offlineOffers l w res) :=
      List.mem_map.2 ⟨e, List.mem_filter.2 ⟨he, by simp [ho]⟩, rfl⟩
    obtain ⟨-, hle⟩ := foldl_offer_le (entriesOf h.owner r (s.offlineOffers l w res)) r
    obtain ⟨y, hy, hyp⟩ := hle _ hentry
    exact .inr ⟨hgone, q, y, hqs, hqf.trans hy, Nat.lt_of_le_of_lt hyp hpos⟩

/-- Any other leg stays as it is, or a failure of its request has cancelled it (R48, R52). -/
theorem Downed.other_fate {i : Nat} {h : Leg} (hh : s.legs.get i = some h) (hw : w ≠ .leg i)
    (hi : i ∉ s.struckOn l w) : (s.offlineDone u l w res).legs.get i = some h ∨
      ((s.offlineDone u l w res).legs.get i = none ∧ (h.state = .queued ∨ h.state = .held) ∧
        ∀ r, s.slots.get h.owner = some r → entriesOf h.owner r (s.offlineOffers l w res) ≠ []) := by
  have hu : u.legs.get i = some h := by rw [d.leg_other hw, hh]
  have hswept : Swept u (s.offlineDone u l w res) _ := d.swept_all law
  rcases hswept.leg i h hu with hstays | ⟨hfailed, hq, -⟩ | ⟨hgone, hwaits, ⟨e, he, ho⟩, -⟩
  · exact .inl hstays
  · rw [State.offlineDone, d.sweep_eq law] at hfailed
    have hwas := takeFailures_within _ _ (foldl_failQueued_within _ _ hi hfailed)
    rw [hu] at hwas
    exact absurd (Option.some.inj hwas) (failedOffline_ne hq)
  · refine .inr ⟨hgone, hwaits, fun r _ => ?_⟩
    exact List.ne_nil_of_mem (List.mem_map.2 ⟨e, List.mem_filter.2 ⟨he, by simp [ho]⟩, rfl⟩)

end swept

/-! ## What the transition leaves alone, in any state -/

section frame

theorem offlineDone_culls (s u : State) (l : LineNo) (w : Work) (res : AttemptResult) :
    Culls u (s.offlineDone u l w res) :=
  (Culls.takeFailures _ u).trans (Culls.failStationLegs _ l _)

variable {s u : State} {l : LineNo} {w : Work} {res : AttemptResult} (d : Downed s l w res u)

include d

theorem Downed.frame_all : s.offlineDone u l w res = { s.told l w res with
    slots := (s.offlineDone u l w res).slots
    legs := (s.offlineDone u l w res).legs
    lines := (s.offlineDone u l w res).lines
    txQueue := (s.offlineDone u l w res).txQueue
    scans := u.scans
    mirror := u.mirror } := by
  have hframe := (offlineDone_culls s u l w res).frame
  generalize s.offlineDone u l w res = t at hframe ⊢
  rw [hframe, d.frame]

theorem Downed.lines :
    u.lines = s.lines.set l ((s.lines.get l).relieved (s.settings l) s.uptime w res) := by
  rw [d.frame]

theorem Downed.line : (s.offlineDone u l w res).lines.get l =
    { (s.lines.get l).relieved (s.settings l) s.uptime w res with
      demand := ((s.offlineDone u l w res).lines.get l).demand } := by
  obtain ⟨hline, -⟩ := (offlineDone_culls s u l w res).line l
  rw [d.lines] at hline
  simpa only [Four.get_set_same] using hline

theorem Downed.line_other {m : LineNo} (hm : m ≠ l) : (s.offlineDone u l w res).lines.get m =
    { s.lines.get m with demand := ((s.offlineDone u l w res).lines.get m).demand } := by
  obtain ⟨hline, -⟩ := (offlineDone_culls s u l w res).line m
  rw [d.lines] at hline
  simpa only [Four.get_set_ne _ _ hm] using hline

theorem Downed.demand_sublist (m : LineNo) :
    ((s.offlineDone u l w res).lines.get m).demand.Sublist (s.lines.get m).demand := by
  obtain ⟨-, hsub⟩ := (offlineDone_culls s u l w res).line m
  have hdemand : (u.lines.get m).demand = (s.lines.get m).demand := by
    by_cases hm : m = l
    · rw [hm, d.demand]
    · rw [d.lines, Four.get_set_ne _ _ hm]
  rwa [hdemand] at hsub

theorem Downed.flight_failed {i : Nat} {g : Leg} (hw : w = .leg i) (hg : s.legs.get i = some g) :
    (s.offlineDone u l w res).legs.get i = some (g.endedFailed res) :=
  (offlineDone_culls s u l w res).failed i _ (by rw [d.legs, if_pos hw, hg]; rfl) rfl

end frame

end Sys2Proof.Machine
end

section
/-!
SUPPORT. The OFFLINE transition as one event (R43, R46, R74, R83 to R85, R100, R107): the parts that
`TimeoutDrivesStationOffline` names, each read from what the transition makes of its state.
-/

namespace Sys2Proof.Machine

section parts

variable {s u : State} {l : LineNo} {w : Work} {res : AttemptResult}

/-- The entries that the transition offers a request, in order (R44). -/
theorem entriesOf_offline (k : Nat) (r : Request) :
    (match w with
      | .leg i => ((s.legs.get i).toList.filter (fun g => decide (g.owner = k))).map
          (fun g => r.entryOf (g.endedFailed res) res.fate.1)
      | _ => []) ++
    (((s.struckOn l w).filterMap s.legs.get).filter (fun h => decide (h.owner = k))).map
      (fun h => r.entryOf h.failedOffline .stationOffline) =
    entriesOf k r (s.offlineOffers l w res) := by
  rw [State.offlineOffers, entriesOf_append]
  congr 1
  · cases w with
    | scan | probe => rfl
    | leg i => simp only [entriesOf, State.flightOffers, List.filter_map, List.map_map]; rfl
  · simp only [entriesOf, offersOf, List.filter_map, List.map_map]; rfl

/-- The owners of the legs that fail, the work in flight first (R56). -/
theorem failing_offline (ids : List Nat) :
    ((match w with
      | .leg i => [i]
      | _ => []) ++ ids).filterMap (fun i => (s.legs.get i).map Leg.owner) =
    (s.flightOffers w res).map (fun e => e.1.owner) ++
      ids.filterMap (fun i => (s.legs.get i).map Leg.owner) := by
  rw [List.filterMap_append]
  congr 1
  cases w with
  | scan | probe => rfl
  | leg i => cases hg : s.legs.get i <;> simp [State.flightOffers, hg, Leg.endedFailed]

variable (d : Downed s l w res u)

include d

theorem Downed.completedReply (t : State) : u.completedReply t = s.completedReply t :=
  funext fun k => by simp only [State.completedReply, d.slots]

/-- The sweep behind the failures, read in the state before the attempt's end (R85). -/
theorem Downed.sweep (station : Nat) (hst : s.workStation w = station) :
    let t := s.offlineDone u l w res
    ∃ scans mirror, (u.takeFailures (s.flightOffers w res)).offlineSweep l station = { t with
        lines := t.lines.set l { t.lines.get l with
          scans := (s.lines.get l).scans.filter (fun i => !s.scanOf l station i) }
        scans := scans
        mirror := mirror } ∧
      (∀ i, scans.get i = (u.scans.get i).map (fun y =>
        if i ∈ (s.lines.get l).scans ∧ s.scanOf l station i = true then { y with state := .waiting }
        else y)) ∧
      ∀ a, (s.regionCell l station a → mirror.read blankCell a = { u.cell a with valid := false }) ∧
        (¬s.regionCell l station a → mirror.read blankCell a = u.cell a) := by
  subst hst
  intro t
  have hframe : t = _ := d.frame_all
  have hplaces : (t.lines.get l).scans = (s.lines.get l).scans := by rw [d.line]; rfl
  have hscans : t.scans = u.scans := by rw [hframe]
  have hscanOf : t.scanOf l (s.workStation w) = s.scanOf l (s.workStation w) := by rw [hframe]; rfl
  have hregion (a : Nat) : t.regionCell l (s.workStation w) a ↔ s.regionCell l (s.workStation w) a := by
    rw [hframe]; rfl
  have hcell (a : Nat) : t.cell a = u.cell a := by rw [hframe]; rfl
  obtain ⟨scans, mirror, hsweep, hplace, hcells⟩ :=
    offlineSweep_spec (u.takeFailures (s.flightOffers w res)) l (s.workStation w)
  change _ = { t with
    lines := t.lines.set l { t.lines.get l with
      scans := (t.lines.get l).scans.filter (fun i => !t.scanOf l (s.workStation w) i) }
    scans := scans
    mirror := mirror } at hsweep
  change ∀ i, scans.get i = (t.scans.get i).map (fun y =>
    if i ∈ (t.lines.get l).scans ∧ t.scanOf l (s.workStation w) i = true then
      { y with state := .waiting } else y) at hplace
  change ∀ a, (t.regionCell l (s.workStation w) a →
      mirror.read blankCell a = { t.cell a with valid := false }) ∧
    (¬t.regionCell l (s.workStation w) a → mirror.read blankCell a = t.cell a) at hcells
  simp only [hplaces, hscans, hscanOf] at hsweep hplace
  simp only [hregion, hcell] at hcells
  exact ⟨scans, mirror, hsweep, hplace, hcells⟩

end parts

/-- Settles O30: the work ends (`finishWork_downed`), the legs to the station fail (`Downed.swept_all`,
`Downed.replies_all`), and its scan entries and cells follow (`Downed.sweep`). -/
theorem timeoutDrivesStationOffline : Obligations.TimeoutDrivesStationOffline := by
  intro s l w c res x hf hres hp hx hthr station n struck offered failing
  obtain ⟨hexec, hcurrent, hno⟩ := hf.exec
  have hoff : s.drivesOffline l (s.workStation w) = true := by
    simp only [State.drivesOffline, hx, hthr, decide_true]
  obtain ⟨u, d, hfinish⟩ := finishWork_downed (s := s) l hp hno
  obtain ⟨scans, mirror, hsweep, hscans, hcells⟩ := d.sweep station rfl
  refine ⟨_, by rw [hexec, attemptEnd_offline hcurrent hp hres hoff, hfinish, hsweep], ?frame, ?record,
    ?records, ?lines, ?demand, ?line, ?queued, ?flight, fun law => ⟨?lowest, ?struck, ?others, ?slots,
    ?replies⟩, ?scans, ?cells⟩
  case frame => rw [d.frame_all]; rfl
  case record =>
    calc
      _ = (s.told l w res).record l station := by rw [d.frame_all]; rfl
      _ = _ := told_record hres l station
      _ = _ := (record_modRecord_same s l station (Closed.failedAttempt_station _ _)).trans
        (by rw [hx, Option.map_some, failedAttempt_offline _ hthr])
  case records =>
    intro m y hne
    calc
      _ = (s.told l w res).record m y := by rw [d.frame_all]; rfl
      _ = _ := told_record hres m y
      _ = _ := record_modRecord_other s hne (Closed.failedAttempt_station _ _)
  case lines =>
    intro m hm
    simp only [Four.get_set_ne _ _ hm]
    exact d.line_other hm
  case demand =>
    intro m
    by_cases hm : m = l
    · subst hm
      simp only [Four.get_set_same]
      exact d.demand_sublist m
    · simp only [Four.get_set_ne _ _ hm]
      exact d.demand_sublist m
  case line =>
    simp only [Four.get_set_same]
    rw [d.line]
    obtain rfl | rfl := hres <;> cases w <;> rfl
  case queued =>
    simp only [Four.get_set_same]
    exact fun i hi g hg hs => failStationLegs_not_queued hi hg hs
  case flight => exact fun i g hw hg => d.flight_failed hw hg
  case lowest => exact fun before i after h hn hi hh hlow => d.fails_of_lowest law hn hi hh hlow
  case struck => exact fun i hi hs h hh => d.struck_fate law (mem_struckOn.2 ⟨hi, hs⟩) hh
  case others =>
    intro i h hh hw hi
    have hnot : i ∉ s.struckOn l w := fun hm => by
      obtain ⟨hd, hs⟩ := mem_struckOn.1 hm
      exact hi.elim (fun hf => by rw [show struck i = true from hs] at hf; cases hf) (fun hf => hf hd)
    have hfate := d.other_fate law hh hw hnot
    simp only [← entriesOf_offline] at hfate
    exact hfate
  case slots =>
    intro k r hr
    obtain ⟨q, hq, hqr, hqf, hqn, -, hqa⟩ := (d.swept_all law).slot k r (by rw [d.slots, hr])
    rw [← entriesOf_offline] at hqf hqn hqa
    exact ⟨q, hq, hqr, hqf, hqn, hqa⟩
  case replies =>
    have hreplies := d.replies_all law
    simp only [RepliesInOrder, d.txQueue, d.completedReply, ← failing_offline] at hreplies
    exact hreplies
  case scans =>
    intro i
    refine (hscans i).trans ?_
    rw [d.scans, Option.map_map]
    refine congrArg (Option.map · _) (funext fun y => ?_)
    by_cases hw : w = .scan i
    · simp [hw]
    · simp only [Function.comp_apply, if_neg hw]
      rfl
  case cells =>
    intro a gone
    obtain ⟨hin, hout⟩ := hcells a
    obtain ⟨huncertain, hcertain⟩ := d.cells a
    by_cases hunc : s.uncertainCell w res a
    · refine ⟨fun _ => ?_, fun h => absurd (.inr hunc) h⟩
      by_cases hreg : s.regionCell l station a
      · exact (hin hreg).trans (by rw [huncertain hunc])
      · exact (hout hreg).trans (huncertain hunc)
    · have hu := hcertain hunc
      rw [hu] at hin hout
      exact ⟨fun h => hin (h.resolve_right hunc), fun h => hout (fun hreg => h (.inl hreg))⟩

end Sys2Proof.Machine
end

section
/-!
SUPPORT. CANCEL (R58, R59, R61): what it makes of an ACTIVE request, on the state in which the line that has just
taken the released leg has given it back.
-/

namespace Sys2Proof.Machine

/-! ## The effect on an ACTIVE slot (R59) -/

/-- The request's own side of a CANCEL: the mark and the first-failure record alone. -/
theorem cancelMark_eq (s : State) (r : Request) : s.cancelMark r = { r with
    cancelRequested := true
    failure := (s.cancelMark r).failure } := by
  unfold State.cancelMark
  cases s.cancelPoint r with
  | none => rfl
  | some position =>
    rcases offer_cases { r with cancelRequested := true }
      (Request.cancelFailure { r with cancelRequested := true } position) with ⟨-, h⟩ | ⟨-, h⟩ <;>
      simp only [h]

/-- The completion test of an ACTIVE slot: its phase alone, and the transmit queue, show the outcome (R49, R54,
R56). -/
theorem completeIfDone_spec {s t : State} {k : Nat} {m : Request} (ht : s.completeIfDone k = t)
    (hm : s.slots.get k = some m) (ha : m.phase = .active) :
    ∃ q, t.slots.get k = some q ∧ q = { m with phase := q.phase } ∧
      t = { s with
        slots := t.slots
        txQueue := s.txQueue ++ (if q.phase = .replying then
          [⟨.slotReply k, m.source, m.tag, .reply q.reply⟩] else []) } ∧
      (∀ j, j ≠ k → t.slots.get j = s.slots.get j) ∧
      (q.phase = .replying ↔
        ∀ i ∈ m.legs, ∀ g, s.legs.get i = some g → g.state.unfinished = false) := by
  subst ht
  rw [← unfinished_eq_false_iff]
  rcases completeIfDone_cases s k with ⟨r, hr, -, hu, hc⟩ | ⟨hc, hno⟩
  · rw [hm] at hr
    cases hr
    rw [hc]
    exact ⟨{ m with phase := .replying }, Sparse.get_put_same _ _ _, rfl, rfl,
      fun j hj => Sparse.get_put_ne _ _ hj, fun _ => hu, fun _ => rfl⟩
  · have hu : s.unfinished m = true := (hno m hm).resolve_left (fun h => h ha)
    rw [hc]
    exact ⟨m, hm, rfl, by simp [ha], fun _ _ => rfl, by simp [ha, hu]⟩

theorem unfinished_of_not_waiting {g : Leg} (h : g.waiting = false) :
    g.state.unfinished = false ↔ g.state ≠ .inFlight := by
  unfold Leg.waiting at h
  cases hs : g.state <;> simp_all [LegState.unfinished]

/-- A leg of the slot that has not reached its line. -/
def State.stops (s : State) (k i : Nat) : Bool :=
  (s.legs.get i).any (fun h => decide (h.owner = k) && h.waiting)

/-- The slot with its mark, its waiting legs cancelled. -/
def State.stopLegs (s : State) (k : Nat) (r : Request) : State :=
  (s.putSlot k (s.cancelMark r)).cancelLegs k Leg.waiting

/-- The request once its waiting legs are cancelled. -/
def State.stoppedRequest (s : State) (k : Nat) (r : Request) : Request :=
  { s.cancelMark r with legs := r.legs.filter (fun i => !s.stops k i) }

theorem stopLegs_spec {s : State} {k : Nat} {r : Request} (owns : Owns s k r) :
    let t := s.stopLegs k r
    t = { s with slots := t.slots, legs := t.legs, lines := t.lines } ∧
    (∀ i, t.legs.get i = if s.stops k i then none else s.legs.get i) ∧
    t.slots.get k = some (s.stoppedRequest k r) ∧
    (∀ j, j ≠ k → t.slots.get j = s.slots.get j) ∧
    (∀ l, t.lines.get l = { s.lines.get l with
      demand := (s.lines.get l).demand.filter (fun i =>
        !(s.stops k i && (s.legs.get i).any (fun h => decide (h.line = l)))) }) := by
  have hlegs : (s.cancelMark r).legs = r.legs := by rw [cancelMark_eq]
  have howns : Owns (s.putSlot k (s.cancelMark r)) k (s.cancelMark r) :=
    ⟨Sparse.get_put_same _ _ _, hlegs ▸ owns.owned, hlegs ▸ owns.listed⟩
  obtain ⟨hframe, hpool, hslot, hothers, hlines⟩ := cancelLegs_spec howns Leg.waiting
  rw [hlegs] at hslot
  exact ⟨hframe, hpool, hslot, fun j hj => (hothers j hj).trans (Sparse.get_put_ne _ _ hj), hlines⟩

/-- What an ACK makes of a state depends on no slot, leg or line. -/
theorem pushAck_congr {s t : State}
    (h : t = { s with slots := t.slots, legs := t.legs, lines := t.lines }) (f : Frame) (status : Status) :
    t.pushAck f status = { s.pushAck f status with
      slots := t.slots, legs := t.legs, lines := t.lines } := by
  rw [h]
  unfold State.pushAck State.pushPrompt
  dsimp only
  split <;> rfl

/-- What joins the transmit queue for a prompt frame depends on that queue alone (R118). -/
theorem pushPrompt_txQueue_congr {s t : State} (h : t.txQueue = s.txQueue) (dest tag : Byte) (p : Payload) :
    (t.pushPrompt dest tag p).txQueue = (s.pushPrompt dest tag p).txQueue := by
  unfold State.pushPrompt
  rw [h]
  split
  · exact congrArg (· ++ _) h
  · exact h

/-- No leg of the request is left unfinished but those in flight. -/
theorem stopLegs_finished {s : State} {k : Nat} {r : Request} (owns : Owns s k r) :
    (∀ i ∈ (s.stoppedRequest k r).legs, ∀ g, (s.stopLegs k r).legs.get i = some g →
        g.state.unfinished = false) ↔
      ∀ i ∈ (s.stoppedRequest k r).legs, ∀ g, s.legs.get i = some g → g.state ≠ .inFlight := by
  obtain ⟨-, hpool, -⟩ := stopLegs_spec owns
  refine forall₂_congr fun i hi => ?_
  obtain ⟨hlisted, hstays⟩ := List.mem_filter.1 hi
  have hstays : s.stops k i = false := by simpa using hstays
  rw [hpool i, hstays, if_neg Bool.false_ne_true]
  refine forall₂_congr fun g hg => unfinished_of_not_waiting ?_
  obtain ⟨h, hh, ho⟩ := owns.listed i hlisted
  obtain rfl : h = g := Option.some.inj (hh.symm.trans hg)
  simpa [State.stops, hg, ho] using hstays

/-- A CANCEL's effect on an ACTIVE slot (R59). -/
theorem cancelActive_spec {s : State} {k : Nat} {r : Request} (owns : Owns s k r) (f : Frame)
    (ha : r.phase = .active) :
    let t := s.cancelActive k r f
    ∃ q, t.slots.get k = some q ∧
      t = { s.pushAck f .ok with
        slots := t.slots
        legs := (s.stopLegs k r).legs
        lines := (s.stopLegs k r).lines
        txQueue := (s.pushAck f .ok).txQueue ++ (if q.phase = .replying then
          [⟨.slotReply k, r.source, r.tag, .reply q.reply⟩] else []) } ∧
      q = { s.stoppedRequest k r with phase := q.phase } ∧
      (∀ j, j ≠ k → t.slots.get j = s.slots.get j) ∧
      (q.phase = .replying ↔ ∀ i ∈ q.legs, ∀ g, s.legs.get i = some g → g.state ≠ .inFlight) := by
  intro t
  obtain ⟨hframe, -, hslot, hothers, -⟩ := stopLegs_spec owns
  have hack := pushAck_congr hframe f .ok
  have hmark : s.stoppedRequest k r = { r with
      cancelRequested := true
      failure := (s.cancelMark r).failure
      legs := (s.stoppedRequest k r).legs } := by
    rw [State.stoppedRequest, cancelMark_eq]
  have hsource : (s.stoppedRequest k r).source = r.source := by rw [hmark]
  have htag : (s.stoppedRequest k r).tag = r.tag := by rw [hmark]
  have hm : ((s.stopLegs k r).pushAck f .ok).slots.get k = some (s.stoppedRequest k r) := by
    rw [hack]
    exact hslot
  obtain ⟨q, hq, hqm, hdone, hrest, hphase⟩ := completeIfDone_spec
    (s := (s.stopLegs k r).pushAck f .ok) (t := s.cancelActive k r f) rfl hm (by rw [hmark]; exact ha)
  have hlegs : q.legs = (s.stoppedRequest k r).legs := by rw [hqm]
  refine ⟨q, hq, ?_, hqm, fun j hj => (hrest j hj).trans ?_, ?_⟩
  · refine hdone.trans ?_
    rw [hack, hsource, htag]
  · rw [hack]
    exact hothers j hj
  · rw [hphase, hlegs, ← stopLegs_finished owns, hack]

/-! ## The released leg that falls together with it (R61) -/

theorem released_eq (r : Request) : (fun (_ : LineNo) (w : Work) => decide (r.kind ≠ .fetch ∧
      2 ≤ r.nextRelease ∧ r.legs[r.nextRelease - 1]?.map Work.leg = some w)) =
    fun _ w => decide (r.released = some w) := by
  funext _ w
  unfold Request.released
  cases r.kind <;> by_cases h : 2 ≤ r.nextRelease <;> simp [h]

theorem released_leg {r : Request} {w : Work} (h : r.released = some w) : ∃ i, w = .leg i := by
  unfold Request.released at h
  split at h
  · cases h
  · split at h
    · obtain ⟨i, -, rfl⟩ := Option.map_eq_some_iff.1 h
      exact ⟨i, rfl⟩
    · cases h

/-- A dispatched frame changes nothing that the giving back of work reads or touches. -/
theorem frameTaken_withdrawn (s : State) (p : LineNo → Work → Bool)
    (hp : ∀ l w, p l w = true → ∃ i, w = .leg i) : s.frameTaken.withdrawn p = { s.frameTaken with
      lines := (s.withdrawn p).lines
      legs := (s.withdrawn p).legs } := by
  have same : SameWork s s.frameTaken := ⟨rfl, rfl, rfl, rfl, rfl⟩
  have given := same.withdrawn p
  obtain ⟨hframe, -⟩ := withdrawn_legs s.frameTaken p hp
  rw [given.lines, given.legs] at hframe
  exact hframe

theorem Owns.of_owners {s t : State} {k : Nat} {r : Request} (owns : Owns s k r)
    (hslots : t.slots = s.slots)
    (howner : ∀ i, (t.legs.get i).map Leg.owner = (s.legs.get i).map Leg.owner) : Owns t k r where
  slot := by rw [hslots, owns.slot]
  owned i g hg ho := by
    have hwas := howner i
    rw [hg, Option.map_some, eq_comm, Option.map_eq_some_iff] at hwas
    obtain ⟨h, hh, he⟩ := hwas
    exact owns.owned i h hh (he.trans ho)
  listed i hi := by
    obtain ⟨h, hh, ho⟩ := owns.listed i hi
    have his := howner i
    rw [hh, Option.map_some, Option.map_eq_some_iff, ho] at his
    exact his

theorem slotOf_slot {s : State} (law : RequestLaw s) {source tag : Byte} {k : Nat} {r : Request}
    (h : s.slotOf source tag = some (k, r)) :
    s.slots.get k = some r ∧ r.source = source ∧ r.tag = tag := by
  obtain ⟨hrising, -⟩ := (sparseWf_iff 8 s.slots).1 law.slots
  have hmatch := List.find?_some h
  simp only [Bool.and_eq_true, decide_eq_true_eq] at hmatch
  exact ⟨Sparse.get_of_mem hrising (List.mem_of_find?_eq_some h), hmatch⟩

/-! ## The answer in each slot state (R58) -/

theorem exec_cancel {s : State} {byte : Byte} {f : Frame} (hf : s.dispatched byte = some (f, .cancel)) :
    exec (.cancel byte) s = .next (s.frameTaken.cancelRequest f) :=
  congrArg Host.Outcome.next (onKind_eq hf fun f t => t.cancelRequest f)

section cases

variable {s : State} {f : Frame} {k : Nat} {r : Request}

theorem cancelRequest_free (h : s.slotOf f.source f.tag = none) :
    s.cancelRequest f = s.pushAck f .notFound := by
  simp only [State.cancelRequest, h]

theorem cancelRequest_replying (h : s.slotOf f.source f.tag = some (k, r)) (hr : r.phase = .replying) :
    s.cancelRequest f = s.pushAck f .tooLate := by
  simp only [State.cancelRequest, h, hr]

theorem cancelRequest_again (h : s.slotOf f.source f.tag = some (k, r)) (ha : r.phase = .active)
    (hc : r.cancelRequested = true) : s.cancelRequest f = s.pushAck f .ok := by
  simp only [State.cancelRequest, h, ha, hc, if_true]

theorem cancelRequest_active (h : s.slotOf f.source f.tag = some (k, r)) (ha : r.phase = .active)
    (hc : r.cancelRequested = false) :
    s.cancelRequest f = (s.together (fun _ w => decide (r.released = some w))
      (fun t => t.cancelActive k r f)).drainTest := by
  simp only [State.cancelRequest, h, ha, hc, Bool.false_eq_true, if_false]

end cases

theorem stops_eq {s : State} {k i : Nat} {g : Leg} (hg : s.legs.get i = some g) :
    s.stops k i = (decide (g.owner = k) && g.waiting) := by
  simp only [State.stops, hg, Option.any_some]

/-- The legs of the request that stay. -/
theorem stoppedRequest_legs {s : State} {k : Nat} {r : Request} (owns : Owns s k r) :
    (s.stoppedRequest k r).legs =
      r.legs.filter (fun i => ((s.legs.get i).map (fun g => !g.waiting)).getD true) := by
  refine List.filter_congr fun i hi => ?_
  obtain ⟨g, hg, ho⟩ := owns.listed i hi
  simp [stops_eq hg, hg, ho]

/-- The legs that leave a line's queue. -/
theorem stops_on_line (s : State) (k i : Nat) (l : LineNo) :
    (s.stops k i && (s.legs.get i).any (fun h => decide (h.line = l))) =
      ((s.legs.get i).map (fun g =>
        decide (g.owner = k) && g.waiting && decide (g.line = l))).getD false := by
  cases hg : s.legs.get i with
  | none => simp
  | some g => rw [stops_eq hg, Option.any_some, Option.map_some, Option.getD_some]

/-- Settles O15: the answers are those of `State.cancelRequest`; the effect on an ACTIVE slot is
`cancelActive_spec`, on the state in which the released leg is given back. -/
theorem cancelAnswersAndStopsWaitingLegs : Obligations.CancelAnswersAndStopsWaitingLegs := by
  intro s byte f hf
  rw [exec_cancel hf]
  refine ⟨fun h => congrArg _ (cancelRequest_free h), fun k r h hr => congrArg _ (cancelRequest_replying h hr),
    fun k r h ha hc => congrArg _ (cancelRequest_again h ha hc), fun k r law h ha hc => ?_⟩
  intro released u
  have hreleased : released = fun _ w => decide (r.released = some w) := released_eq r
  have hp (l : LineNo) (w : Work) (hw : released l w = true) : ∃ i, w = .leg i := by
    rw [hreleased] at hw
    exact released_leg (of_decide_eq_true hw)
  obtain ⟨hslot, hsource, htag⟩ := slotOf_slot law h
  obtain ⟨-, howner⟩ := withdrawn_legs s released hp
  have hv := frameTaken_withdrawn s released hp
  have same : SameWork s s.frameTaken := ⟨rfl, rfl, rfl, rfl, rfl⟩
  have hjoining := same.joining released
  have hexec : s.frameTaken.cancelRequest f = State.drainTest ((s.joining released).foldl State.kick
      ((s.frameTaken.withdrawn released).cancelActive k r f)) := by
    rw [cancelRequest_active (s := s.frameTaken) h ha hc, ← hreleased, State.together, hjoining]
  generalize s.frameTaken.withdrawn released = v at hv hexec
  have hslots : v.slots = s.slots := by rw [hv]; rfl
  have hlegs : v.legs = u.legs := by rw [hv]
  have hlines : v.lines = u.lines := by rw [hv]
  have hmark : v.cancelMark r = u.cancelMark r := by rw [hv]; rfl
  have owns : Owns v k r := (law.owns hslot).of_owners hslots (by rw [hlegs]; exact howner)
  obtain ⟨-, hpool, -, -, hdemand⟩ := stopLegs_spec owns
  obtain ⟨q, hq, ht, hqr, hothers, hphase⟩ := cancelActive_spec owns f ha
  have hack : (v.pushAck f .ok).txQueue = (s.pushPrompt f.source f.tag (.ack .ok)).txQueue :=
    pushPrompt_txQueue_congr (by rw [hv]; rfl) _ _ _
  refine ⟨v.cancelActive k r f, q, congrArg _ hexec, hq, ?cancelRequested, ?failure, ?legs,
    fun j hj => (hothers j hj).trans (by rw [hslots]), ?pool, ?demand, ?phase, ?txQueue, ?mirror, ?stations,
    ?scans, ?active⟩
  case cancelRequested => rw [hqr, State.stoppedRequest, cancelMark_eq]
  case failure => rw [hqr, State.stoppedRequest, hmark]
  case legs =>
    rw [← hlegs, ← stoppedRequest_legs owns, hqr]
  case pool =>
    intro i g hg
    rw [← hlegs] at hg
    rw [ht]
    refine (hpool i).trans ?_
    rw [stops_eq hg, hg]
    simp only [Bool.and_eq_true, decide_eq_true_eq]
  case demand =>
    intro l
    rw [ht]
    refine (hdemand l).trans ?_
    simp only [stops_on_line]
    rw [hlegs, hlines]
  case phase => rw [hphase, hlegs]
  case txQueue =>
    rw [ht, ← hack, hsource, htag]
  case mirror => rw [ht]; exact (v.pushPrompt_mirror _ _ _).trans (by rw [hv]; rfl)
  case stations => rw [ht]; exact (v.pushPrompt_stations _ _ _).trans (by rw [hv]; rfl)
  case scans => rw [ht]; exact (v.pushPrompt_scans _ _ _).trans (by rw [hv]; rfl)
  case active => rw [ht]; exact (v.pushPrompt_active _ _ _).trans (by rw [hv]; rfl)

end Sys2Proof.Machine
end
